-- ==== Sys2Proof/Word.lean ====
section
/-! DEFINITION. Word types, the four-fold record and the sparse table every part of the machine is built from. -/

namespace Sys2Proof

/-- A 64-bit general register value (R13). -/
abbrev Word := BitVec 64

/-- One byte of memory (R7). -/
abbrev Byte := BitVec 8

/-- Four like things, named by their number: strands, engines, loop controllers, accumulators, dies. -/
structure Quad (α : Type) where
  e0 : α
  e1 : α
  e2 : α
  e3 : α
  deriving DecidableEq, Repr

/-- The same value four times. -/
def Quad.all {α : Type} (a : α) : Quad α := ⟨a, a, a, a⟩

/-- The element of number `i`. -/
def Quad.get {α : Type} (q : Quad α) (i : Fin 4) : α :=
  match i with
  | 0 => q.e0
  | 1 => q.e1
  | 2 => q.e2
  | 3 => q.e3

/-- The record with element `i` replaced. -/
def Quad.set {α : Type} (q : Quad α) (i : Fin 4) (a : α) : Quad α :=
  match i with
  | 0 => { q with e0 := a }
  | 1 => { q with e1 := a }
  | 2 => { q with e2 := a }
  | 3 => { q with e3 := a }

/-- The four elements in ascending number. -/
def Quad.toList {α : Type} (q : Quad α) : List α := [q.e0, q.e1, q.e2, q.e3]

/-- A sparse table: entries in strictly rising key order. -/
abbrev Tab (α : Type) := List (Nat × α)

/-- The entry of key `k`, if the table lists one. -/
def Tab.find {α : Type} : Tab α → Nat → Option α
  | [], _ => none
  | (k', v) :: t, k => if k' = k then some v else Tab.find t k

/-- The entry of key `k`, or the default `d`. -/
def Tab.get {α : Type} (t : Tab α) (d : α) (k : Nat) : α := (Tab.find t k).getD d

/-- The table with the entry of key `k` replaced or put in its place in the order. -/
def Tab.put {α : Type} : Tab α → Nat → α → Tab α
  | [], k, v => [(k, v)]
  | (k', v') :: t, k, v =>
    if k < k' then (k, v) :: (k', v') :: t
    else if k = k' then (k, v) :: t
    else (k', v') :: Tab.put t k v

/-- The table without an entry of key `k`. -/
def Tab.del {α : Type} : Tab α → Nat → Tab α
  | [], _ => []
  | (k', v') :: t, k => if k' = k then t else (k', v') :: Tab.del t k

/-- Writing `v` at `k` in the canonical form in which no entry equals the default `d`. -/
def Tab.set {α : Type} [DecidableEq α] (d : α) (t : Tab α) (k : Nat) (v : α) : Tab α :=
  if v = d then Tab.del t k else Tab.put t k v

/-- Every key of the table is above `k` and the keys rise strictly. -/
def Tab.risesFrom {α : Type} : Nat → Tab α → Bool
  | _, [] => true
  | k, (k', _) :: t => decide (k < k') && Tab.risesFrom k' t

/-- The keys rise strictly. -/
def Tab.rises {α : Type} : Tab α → Bool
  | [] => true
  | (k, _) :: t => Tab.risesFrom k t

/-- The canonical form: keys rise strictly and no entry equals the default. -/
def Tab.wf {α : Type} [DecidableEq α] (d : α) (t : Tab α) : Bool :=
  Tab.rises t && t.all (fun e => decide (e.2 ≠ d))

/-- A sparse memory: byte addresses to bytes. -/
abbrev Mem := Tab Byte

end Sys2Proof
end

