-- ==== Sys2Proof/Syntax.lean ====
section
/-! DEFINITION. The instructions of Unoazar (R97) and the other steps of the part (spec/opcode_table.json), one constructor each. -/

namespace Sys2Proof

/-- Number of a general register g0 to g63 (R91). -/
abbrev Reg := BitVec 6

/-- Number of a predicate p0 to p23 (R91). -/
abbrev Pred := Fin 24

/-- The two address spaces (R144 SPC). -/
inductive Space where
  | g
  | sp
  deriving DecidableEq, Repr

/-- Scopes (R144 SCP). -/
inductive Scope where
  | cr
  | die
  | pkg
  | sys
  deriving DecidableEq, Repr

/-- Orderings (R144 ORD; `sc` only for amosc and fence, R158, R161). -/
inductive Ord where
  | rlx
  | acq
  | rel
  | ar
  | sc
  deriving DecidableEq, Repr

/-- Access sizes 1, 2, 4 and 8 bytes (R144 SZ). -/
inductive Size where
  | b
  | h
  | w
  | d
  deriving DecidableEq, Repr

/-- Signedness of mulh (R118). -/
inductive MulhKind where
  | ss
  | uu
  | su
  deriving DecidableEq, Repr

/-- Conditions of cmp and cmpi (R124). -/
inductive Cond where
  | eq
  | ne
  | lt
  | ge
  | ltu
  | geu
  deriving DecidableEq, Repr

/-- Conditions of fcmp (R124). -/
inductive FCond where
  | eq
  | lt
  | le
  | un
  | ne
  deriving DecidableEq, Repr

/-- Sign sources of fsgn (R121). -/
inductive SgnKind where
  | same
  | inv
  | xor
  deriving DecidableEq, Repr

/-- Types fcvt converts between (R122). -/
inductive CvtType where
  | f32
  | f64
  | bf16
  | f16
  | i32
  | u32
  | i64
  | u64
  deriving DecidableEq, Repr

/-- Levels of cancel and waitc (R126). -/
inductive Level where
  | launch
  | graph
  | phase
  | job
  deriving DecidableEq, Repr

/-- Kinds of tlbi (R141). -/
inductive TlbiKind where
  | va
  | asid
  | nonglobal
  | all
  deriving DecidableEq, Repr

/-- Scopes of tlbi and icinv (R126). -/
inductive Scope3 where
  | cr
  | die
  | pkg
  deriving DecidableEq, Repr

/-- Modes of a core SRAM bank (R41), in the coding of mapb (R170). -/
inductive BankMode where
  | scratch
  | cache
  | fifo
  | dark
  deriving DecidableEq, Repr

/-- Atomic operations (R159). -/
inductive Aop where
  | add
  | and
  | or
  | xor
  | min
  | max
  | minu
  | maxu
  | swap
  | cas
  | fadd
  | fmax
  | fmin
  deriving DecidableEq, Repr

/-- Kinds of cflush (R169). -/
inductive FlushKind where
  | clean
  | inv
  | discard
  deriving DecidableEq, Repr

/-- Address operand of ld, st, ldt, ldl, stu and pref (R144, R145). -/
structure MemOp where
  a : Reg
  b : Reg
  off : BitVec 12
  sh : BitVec 2
  spc : Space
  scp : Scope
  ord : Ord
  deriving DecidableEq, Repr

/-- Token masks of an engine instruction; bit 4 X, 3 M, 2 V, 1 C, 0 F (R94). -/
structure Tok where
  pop : BitVec 5
  push : BitVec 5
  deriving DecidableEq, Repr

/-- Operands and X field of a vector instruction (R90, R95). -/
structure VOp where
  tok : Tok
  a : Reg
  b : Reg
  c : Reg
  fmt : BitVec 4
  neg1 : Bool
  abs1 : Bool
  neg2 : Bool
  abs2 : Bool
  clamp : BitVec 2
  scale : BitVec 4
  sub : BitVec 5
  deriving DecidableEq, Repr

/-- Operands of a copy, card or fabric instruction (R90, R96); `tr` is the predicate of a .try issue. -/
structure EOp where
  tok : Tok
  tr : Option Pred
  a : Reg
  b : Reg
  c : Reg
  deriving DecidableEq, Repr

/-- The four engines, in the numbering of R395 (0 M, 1 V, 2 C, 3 F). -/
abbrev Eng := Fin 4

/-- The functions of the readiness map (R433). -/
inductive Func where
  | core
  | slice
  | hbm
  | link
  | port
  | prom
  | narr
  | cxl
  | scseq
  | smgr
  | coord
  | cell
  | fw
  deriving DecidableEq, Repr

/-- What a fabric request asks of its destination (R279 to R282, R422, R429, R430). -/
inductive FabBody where
  | rd (pa len : Nat)
  | wr (pa : Nat) (data : List Byte)
  | amo (op : Aop) (dbl : Bool) (pa : Nat) (c b : Word)
  | sig (core cue : Nat) (amt : BitVec 32)
  | demand (cmd : Nat) (dies : List Nat)
  | chunkWr (cmd pa : Nat) (data : List Byte)
  | chunkRd (cmd pa len : Nat)
  | grant (cmd n : Nat)
  | caskRd (cask len : Nat)
  | caskWr (cask off : Nat) (data : List Byte)
  | land (core addr pa n : Nat)
  | caskDrop (cask : Nat)
  | lend (die : Nat) (large : Bool) (fmt : Nat) (data : List Byte)
  | takeBack (die : Nat) (count : Nat)
  deriving DecidableEq, Repr

/-- A fabric request (R277, R418): source device and core, destination device, sequence number, key ID. -/
structure FabReq where
  src : Nat
  core : Nat
  dst : Nat
  seq : Nat
  key : Nat
  rel : Bool
  body : FabBody
  deriving DecidableEq, Repr

/-- A response: data, or the remote cause code (R278). -/
structure FabResp where
  dst : Nat
  core : Nat
  src : Nat
  seq : Nat
  data : List Byte
  fault : Option Nat
  auth : Bool
  deriving DecidableEq, Repr

/-- What a flit carries. -/
inductive FlitBody where
  | req (r : FabReq)
  | resp (r : FabResp)
  deriving DecidableEq, Repr

/-- A flit: its hop count (R417), the epoch and sequence number of the link (R419, R420), whether its CRC and its authentication hold, the
latest flit of the other direction that its sender acknowledges, and its body; what it carries may take several 128-byte flits. -/
structure Flit where
  hop : Nat
  epoch : Nat
  lseq : Nat
  crc : Bool
  auth : Bool
  ack : Option Nat
  body : FlitBody
  deriving DecidableEq, Repr

/-- A host write of an 8-byte register: of 8 bytes (`dbl`) or of 4, and its value (R404). -/
structure HostVal where
  dbl : Bool
  v : Word
  deriving DecidableEq, Repr

/-- A host write of one register: of 8 bytes (`dbl`) or of its lower or upper (`hi`) 4 bytes (R404). -/
structure HostHalf where
  hi : Bool
  dbl : Bool
  v : Word
  deriving DecidableEq, Repr

/-- A fabric request as its sender names it: destination and sequence number (R418). -/
structure ReqNo where
  dst : Nat
  seq : Nat
  deriving DecidableEq, Repr

/-- One direction of a link: what it receives (`rx`), or what it sends (R420). -/
structure LinkDir where
  link : Fin 12
  rx : Bool
  deriving DecidableEq, Repr

/-- The steps of the part. The first 153 are the instructions of the opcode map; the rest are the steps of the other agents. -/
inductive Instr where
  -- integer (R118)
  | add (d a b : Reg)
  | sub (d a b : Reg)
  | addi (d a : Reg) (imm : BitVec 32)
  | mul (d a b : Reg)
  | mulh (d a b : Reg) (k : MulhKind)
  | div (d a b : Reg) (u : Bool)
  | rem (d a b : Reg) (u : Bool)
  | and (d a b : Reg)
  | or (d a b : Reg)
  | xor (d a b : Reg)
  | andi (d a : Reg) (imm : BitVec 32)
  | ori (d a : Reg) (imm : BitVec 32)
  | xori (d a : Reg) (imm : BitVec 32)
  | shl (d a b : Reg)
  | shr (d a b : Reg) (ar : Bool)
  | shli (d a : Reg) (n : BitVec 6)
  | shri (d a : Reg) (n : BitVec 6) (ar : Bool)
  | rotl (d a b : Reg)
  | min (d a b : Reg) (u : Bool)
  | max (d a b : Reg) (u : Bool)
  | clz (d a : Reg)
  | popc (d a : Reg)
  | bswap (d a : Reg)
  | ext (d a : Reg) (lsb wm1 : BitVec 6) (sx : Bool)
  | ins (d a b : Reg) (lsb wm1 : BitVec 6)
  | li (d : Reg) (imm : BitVec 32)
  | lih (d a : Reg) (imm : BitVec 32)
  | mov (d a : Reg)
  | sel (d a b : Reg) (p : Pred)
  | addsh (d a b : Reg) (sh : BitVec 6)
  | madd (d a b c : Reg)
  -- scalar floating point (R121)
  | fadd (d a b : Reg) (dbl : Bool)
  | fsub (d a b : Reg) (dbl : Bool)
  | fmul (d a b : Reg) (dbl : Bool)
  | fma (d a b c : Reg) (dbl : Bool)
  | fdiv (d a b : Reg) (dbl : Bool)
  | fsqrt (d a : Reg) (dbl : Bool)
  | fmin (d a b : Reg) (dbl : Bool)
  | fmax (d a b : Reg) (dbl : Bool)
  | fcvt (d a : Reg) (dst src : CvtType) (rtz : Bool)
  | fsgn (d a b : Reg) (k : SgnKind) (dbl : Bool)
  | fclass (d a : Reg) (dbl : Bool)
  -- predicates (R124)
  | cmp (p : Pred) (pc : Option Pred) (a b : Reg) (cc : Cond)
  | cmpi (p : Pred) (a : Reg) (imm : BitVec 32) (cc : Cond)
  | fcmp (p : Pred) (pc : Option Pred) (a b : Reg) (cc : FCond) (dbl : Bool)
  | plog (p pa pb : Pred) (table : BitVec 4)
  | ptog (d : Reg)
  | gtop (a b : Reg)
  | tbit (p : Pred) (a : Reg) (n : BitVec 6) (inv : Bool)
  -- control, work and system (R126)
  | br (off : BitVec 32)
  | brr (a : Reg) (link : Bool)
  | call (off : BitVec 32)
  | ret (a : Reg)
  | loop (lc : Fin 4) (a : Reg) (lm1 : BitVec 12) (sm1 : BitVec 3) (y : Bool) (pb : BitVec 5)
  | lbrk (lc : Fin 4)
  | yield
  | exit
  | launch (d a : Reg) (nb : Bool)
  | cancel (d a b : Reg) (lvl : Level)
  | waitc (d a b : Reg) (lvl : Level)
  | sbar (mask : BitVec 4)
  | trap (code : BitVec 16)
  | brk (code : BitVec 16)
  | mfs (d : Reg) (sys : BitVec 12)
  | mts (sys : BitVec 12) (a : Reg)
  | rft
  | tlbi (a b : Reg) (kind : TlbiKind) (scp : Scope3)
  | icinv (a b : Reg) (scp : Scope3)
  | nop
  -- memory and synchronisation (chapter 05)
  | ld (d : Reg) (m : MemOp) (sx : Bool) (sz : Size)
  | st (c : Reg) (m : MemOp) (sz : Size)
  | ldq (d c : Reg) (m : MemOp)
  | stq (dm b c : Reg) (masked : Bool) (m : MemOp)
  | ldt (d : Reg) (m : MemOp) (sx : Bool) (sz : Size)
  | ldl (d : Reg) (pc : Pred) (m : MemOp) (sz : Size)
  | stu (c : Reg) (m : MemOp) (sz : Size)
  | spamo (d a b c : Reg) (off : BitVec 10) (op : Aop) (dbl : Bool)
  | amo (d a b c : Reg) (off : BitVec 10) (op : Aop) (dbl : Bool) (ord : Ord) (scp : Scope)
  | amosc (d a b c : Reg) (off : BitVec 10) (op : Aop) (dbl : Bool)
  | fence (ord : Ord) (scp : Scope)
  | tfence (scp : Scope)
  | cueinc (win : Bool) (n : BitVec 6) (a b : Reg) (scp : Scope)
  | cuewait (n : BitVec 6) (b : Reg) (scp : Scope)
  | cuerd (d : Reg) (win : Bool) (n : BitVec 6) (a : Reg)
  | tkpush (mask : BitVec 5)
  | tkpop (mask : BitVec 5)
  | lwarm (a b : Reg)
  | lwwait (a b : Reg)
  | pref (m : MemOp) (llc : Bool)
  | cflush (a b : Reg) (kind : FlushKind) (scp : Scope)
  | mapb (a : Reg) (mode : BankMode)
  -- vector (R188)
  | vshape (d a b c : Reg)
  | vadd (v : VOp)
  | vsub (v : VOp)
  | vmul (v : VOp)
  | vfma (v : VOp)
  | vmax (v : VOp)
  | vmin (v : VOp)
  | vlog (v : VOp)
  | vsh (v : VOp)
  | vcmp (v : VOp)
  | vsel (v : VOp)
  | vsfu (v : VOp)
  | vcvt (v : VOp)
  | vred (v : VOp)
  | vbcast (v : VOp)
  | vtrn (v : VOp)
  | vpart (v : VOp)
  | vgath (v : VOp)
  | vscat (v : VOp)
  | vgathm (v : VOp)
  | vscan (v : VOp)
  | viota (v : VOp)
  | vtopk (v : VOp)
  | vnorm (v : VOp)
  | vrng (v : VOp)
  | vquant (v : VOp)
  | vdeq (v : VOp)
  | vsample (v : VOp)
  | vmovg (v : VOp)
  | vcopy (v : VOp)
  -- matrix (R216)
  | mma (t : Tok) (a b : Reg) (n : Fin 4)
  | mmaz (t : Tok) (a b : Reg) (n : Fin 4)
  | mgma (t : Tok) (a b c : Reg) (n : Fin 4) (gm1 : BitVec 3)
  | mdrain (t : Tok) (a b c : Reg) (n : Fin 4) (fmt : BitVec 4) (sm : BitVec 2) (sat clr : Bool) (scale : BitVec 4)
  | mldacc (t : Tok) (a b : Reg) (n : Fin 4) (int : Bool)
  | mzero (t : Tok) (mask : BitVec 4)
  | mamax (t : Tok) (a : Reg) (n : Fin 4)
  | fmtq (a : Reg)
  -- attention and KV (R237, R245, R248)
  | attn (t : Tok) (a : Reg)
  | attnCaskBoundary (c : Nat)
  | kvapp (t : Tok) (a b c : Reg) (nm1 : BitVec 6) (adv : Bool)
  | kvfork (d a b : Reg)
  | kvdrop (a : Reg)
  | kvclass (a b : Reg) (cls : BitVec 2)
  | kvquery (d a b : Reg)
  | kvtrim (a b : Reg)
  -- copy, card and fabric (R255)
  | cpy (e : EOp) (dsp ssp : Space) (scp : Scope)
  | cpyf (e : EOp) (ssp : Space)
  | cpyg (e : EOp) (dsp : Space) (scp : Scope) (fifo z : Bool)
  | cpys (e : EOp) (scp : Scope)
  | cpyz (e : EOp) (dsp : Space) (scp : Scope)
  | tsobj (t : Tok) (a b : Reg)
  | tsdrop (t : Tok) (b : Reg)
  | xform (e : EOp) (dsp ssp : Space) (scp : Scope) (routine : BitVec 8)
  | card (e : EOp)
  | cardwt (e : EOp)
  | fld (e : EOp) (sz : Fin 7) (ord : Ord)
  | fst (e : EOp) (sz : Fin 7) (ord : Ord)
  | famo (e : EOp) (op : Aop) (dbl : Bool) (ord : Ord)
  | fput (e : EOp) (ssp : Space) (ord : Ord)
  | fget (e : EOp) (dsp : Space) (ord : Ord)
  | fsig (e : EOp)
  | ffence (e : EOp)
  -- steps of strands, engines and the memory system
  | lockstepIssue (c : Nat)
  | queueStallRelease (c : Nat) (t : Fin 4)
  | cuewaitSatisfied (c : Nat) (t : Fin 4)
  | tkpopSatisfied (c : Nat) (t : Fin 4)
  | lwwaitSatisfied (c : Nat) (t : Fin 4)
  | waitcSatisfied (c : Nat) (t : Fin 4)
  | sbarRelease (c : Nat)
  | spamoRetry (c : Nat) (t : Fin 4)
  | engineCommandStart (c : Nat) (e : Eng)
  | engineCommandFinish (c : Nat) (e : Eng)
  | streamBytesReady (c : Nat)
  | globalWritePerform (c k : Nat)
  | dieUpdateApply (d : Fin 4) (k : Nat)
  | llcFill (d : Fin 4) (line key : Nat) (cmp : Bool)
  | llcWrite (d : Fin 4) (line off : Nat) (data : List Byte)
  | engineFault (c : Nat) (e : Eng)
  | engineFaultDelivery (c : Nat)
  | engfaultRestart (c : Nat) (e : Eng)
  | engfaultAbandon (c : Nat) (e : Eng)
  | engctlHalt (c : Nat) (mask : BitVec 4)
  | singleStep (c : Nat) (t : Fin 4)
  | scoreboardedResult (c : Nat) (t : Fin 4) (k : Nat)
  -- steps of the Stage Manager
  | iterationPlace (launch : Nat)
  | slotFill (d : Fin 4)
  | deficitCharge (d : Fin 4) (job clocks : Nat)
  | preemptionRequest (d : Fin 4)
  | cohortAdmit (launch : Nat)
  | understudyStage (c : Nat)
  | prologueCopy (c : Nat)
  | iterationEnterRunning (c : Nat)
  | iterationDrainEnd (c : Nat)
  | nodeStart (node : Nat)
  | nodeEnd (node : Nat)
  | contextStop (c : Nat)
  | imageWrite (c : Nat)
  | drainTimeout (c : Nat)
  | imageRestore (c : Nat)
  | debugStop (c : Nat)
  | debugGo (c : Nat)
  -- cards and the text exchange
  | cardStart (card engine : Nat)
  | prompterCardRun (engine : Nat)
  | narratorCardRun (engine : Nat)
  | cardEnd (card : Nat)
  | engineNotReadyCardFail (card : Nat)
  | request (port : Fin 4) (flow : Nat) (msg : List Byte)
  | cancelMessage (port : Fin 4) (flow : Nat) (msg : List Byte)
  | replyReceived (port : Fin 4) (flow : Nat) (msg : List Byte)
  -- host interface and capsules
  | hifDoorbell (v : Word)
  | hifCapbase (v : HostHalf)
  | jobSet (i : Fin 32)
  | jobFree (i : Fin 32)
  | keyLoad (i : Fin 32)
  | keyDestroy (i : Fin 32)
  | linkKey (i : Fin 32)
  | copy (i : Fin 32)
  | vocabInstall (i : Fin 32)
  | routineLoad (i : Fin 32)
  | serviceSet (i : Fin 32)
  | capsuleLaunch (i : Fin 32)
  | imageResume (i : Fin 32)
  -- fabric
  | fabDevnumWrite (v : Word)
  | flitReceive (link : Fin 12) (f : Flit)
  | fabricRequestPerform (k : Nat)
  | fabRetryExpiry (c : Nat) (n : ReqNo)
  | linkReplay (link : Fin 12) (lseq : Nat) (auth : Bool)
  | epochSwitch (link : Fin 12)
  | oldKeyDestroy (l : LinkDir)
  | chunkGrant (k : Nat)
  -- CXL and the Cellarer
  | cxlRangeWrite (r : Fin 8) (off : Nat) (v : HostVal)
  | cxlPortDownAccess (c : Nat) (line : Nat)
  | cellarerRegisterWrite (d : Fin 4) (off : Nat) (v : HostVal)
  | caskMove (d : Fin 4) (cask tier fmt addr : Nat)
  | fp8Step (d : Fin 4) (cask : Nat)
  | cxlStep (d : Fin 4) (cask : Nat)
  | absentStep (d : Fin 4) (cask : Nat)
  | recall (d : Fin 4) (agree : Fin 8)
  | lenderTimeout (c : Nat)
  | agreementInvalidate (d : Fin 4) (agree : Fin 8)
  -- dependability
  | sramScrub (c row : Nat) (ce ue : Bool)
  | llcScrub (d : Fin 4) (slice set : Nat) (ue : Option Nat)
  | hbmScrub (line : Nat) (ue : Bool)
  | encoreCaptureStart
  | encoreReplayStart
  | encoreOff
  | powerStepDown (mw temp : Word)
  | powerStepUp (mw temp : Word)
  | thermalShutdown (temp : Word)
  -- boot
  | packageReset
  | functionReady (f : Func) (i : Nat)
  | bootGo
  | configBlobApply (blob : List Byte)
  | readinessClear (f : Func) (i : Nat)
  | shaStart (v : Word)
  | shaDone
  | eccStart (v : Word)
  | eccDone
  | measExtend (v : Word)
  | measDone
  | mbxRsplen (v : Word)
  | doeDiscovery (req : List Byte)
  | getVersion (req : List Byte)
  | getCapabilities (req : List Byte)
  | negotiateAlgorithms (req : List Byte)
  | getMeasurements (req : List Byte)
  | registerWrite (off : Nat) (dbl : Bool) (v : Word)
  | flowOpen (port : Fin 4) (flow : Nat)
  | flowClose (port : Fin 4) (flow : Nat)
  | spdmRequest (req : List Byte)
  deriving DecidableEq, Repr

/-- Guards (R84, R85). -/
inductive Guard where
  | always
  | never
  | pred (p : Pred) (neg : Bool)
  deriving DecidableEq, Repr

/-- A decoded syllable (R84): killable bit, guard, instruction. -/
structure Syllable where
  k : Bool
  guard : Guard
  instr : Instr
  deriving DecidableEq, Repr

end Sys2Proof
end

