-- ==== Sys2Proof/WellFormed.lean ====
section
/-! DEFINITION. Which terms of Instr are instructions: the encoding conditions of R91 to R96 and of each instruction's own rule. -/

namespace Sys2Proof

/-- The listed system register indices (R100). -/
def sysListed : List Nat :=
  [0x000, 0x001, 0x002, 0x003, 0x004, 0x005, 0x006, 0x007, 0x010, 0x011, 0x012, 0x013, 0x014, 0x015, 0x016, 0x018,
   0x020, 0x021, 0x022, 0x023, 0x024, 0x025, 0x026, 0x030, 0x031, 0x032, 0x040, 0x041, 0x042,
   0x050, 0x051, 0x052, 0x053, 0x058]

/-- Format code classes of R188: F. -/
def fmtF : List Nat := [0x0, 0x1, 0x2]
/-- Format code classes of R188: I. -/
def fmtI : List Nat := [0x9, 0xB, 0xC, 0xD]
/-- Format code classes of R188: N, the codes 0x0 to 0xD that are not packed. -/
def fmtN : List Nat := [0x0, 0x1, 0x2, 0x3, 0x4, 0x7, 0x9, 0xB, 0xC, 0xD]
/-- F and INT32. -/
def fmtF32 : List Nat := [0x0, 0x1, 0x2, 0xB]
/-- The block-scalable codes 0x3 to 0xA. -/
def fmtBlk : List Nat := [0x3, 0x4, 0x5, 0x6, 0x7, 0x8, 0x9, 0xA]
/-- Integer format codes (R57). -/
def fmtInt : List Nat := [0x9, 0xA, 0xB, 0xC, 0xD]

/-- Masks that name endpoint `bit` in POP or PUSH are refused (R28, R94). -/
def Tok.wf (t : Tok) (bit : Nat) : Bool :=
  !(t.pop.getLsbD bit) && !(t.push.getLsbD bit)

/-- The modifier columns of R188: sources 1 and 2, SCALE, CLAMP. -/
structure VMods where
  m1 : Bool
  m2 : Bool
  sc : Bool
  cl : Bool
  deriving DecidableEq, Repr

/-- No source or destination step. -/
def VMods.none : VMods := ⟨false, false, false, false⟩

/-- One row of R188: formats and sub-functions accepted, modifiers accepted, register fields used; R178 on SCALE. -/
def VOp.wf (v : VOp) (fmts subs : List Nat) (m : VMods) (useB useC : Bool) : Bool :=
  v.tok.wf 2 && fmts.contains v.fmt.toNat && subs.contains v.sub.toNat
    && (m.m1 || (!v.neg1 && !v.abs1)) && (m.m2 || (!v.neg2 && !v.abs2))
    && (m.sc || v.scale == 0) && (m.cl || v.clamp == 0)
    && (v.scale == 0 || !(fmtInt.contains v.fmt.toNat))
    && (useB || v.b == 0) && (useC || v.c == 0)

/-- Conditions R145 puts on every address operand: the scope is written only with an ordering and only in global space. -/
def MemOp.wf (m : MemOp) (ords : List Ord) : Bool :=
  ords.contains m.ord && (m.ord != .rlx || m.scp == .cr) && (m.spc == .g || m.scp == .cr)

/-- TRY and the scope of a destination in scratchpad (R96, R255). -/
def EOp.wf (e : EOp) (bit : Nat) (useA useB useC : Bool) : Bool :=
  e.tok.wf bit && (useA || e.a == 0) && (useB || e.b == 0) && (useC || e.c == 0)

/-- SCP must be 0 when the destination is scratchpad (R255). -/
def scpOk (d : Space) (s : Scope) : Bool := d == .g || s == .cr

/-- Core numbers (R3). -/
def isCore (c : Nat) : Bool := c < 256

/-- The encoding conditions of an instruction, and the index ranges of a step of another agent. An amo with ORD .rlx and a scope other
than .cr is refused as the forms of R144 are (DESIGN CHOICE, log 94: R158 gives amo a scope and states no such condition). -/
def Instr.wf : Instr → Bool
  | .add _ _ _ | .sub _ _ _ | .addi _ _ _ | .mul _ _ _ | .mulh _ _ _ _ | .div _ _ _ _ | .rem _ _ _ _ => true
  | .and _ _ _ | .or _ _ _ | .xor _ _ _ | .andi _ _ _ | .ori _ _ _ | .xori _ _ _ => true
  | .shl _ _ _ | .shr _ _ _ _ | .shli _ _ _ | .shri _ _ _ _ | .rotl _ _ _ | .min _ _ _ _ | .max _ _ _ _ => true
  | .clz _ _ | .popc _ _ | .bswap _ _ => true
  | .ext _ _ lsb wm1 _ => lsb.toNat + wm1.toNat + 1 ≤ 64
  | .ins _ _ _ lsb wm1 => lsb.toNat + wm1.toNat + 1 ≤ 64
  | .li _ _ | .lih _ _ _ | .mov _ _ | .sel _ _ _ _ | .addsh _ _ _ _ | .madd _ _ _ _ => true
  | .fadd _ _ _ _ | .fsub _ _ _ _ | .fmul _ _ _ _ | .fma _ _ _ _ _ | .fdiv _ _ _ _ | .fsqrt _ _ _ => true
  | .fmin _ _ _ _ | .fmax _ _ _ _ | .fsgn _ _ _ _ _ | .fclass _ _ _ => true
  | .fcvt _ _ dst src _ =>
    dst != src && !([CvtType.i32, .u32, .i64, .u64].contains dst && [CvtType.i32, .u32, .i64, .u64].contains src)
  | .cmp p pc _ _ _ => pc != some p
  | .cmpi _ _ _ _ => true
  | .fcmp p pc _ _ _ _ => pc != some p
  | .plog _ _ _ _ | .ptog _ | .gtop _ _ | .tbit _ _ _ _ => true
  | .br _ | .brr _ _ | .call _ | .ret _ => true
  | .loop _ _ _ sm1 _ pb => if sm1 == 0 then pb == 0 else pb.toNat + sm1.toNat ≤ 23
  | .lbrk _ | .yield | .exit | .launch _ _ _ | .cancel _ _ _ _ | .waitc _ _ _ _ | .sbar _ | .trap _ | .brk _ => true
  | .mfs _ sys => sysListed.contains sys.toNat
  | .mts sys _ => sysListed.contains sys.toNat
  | .rft | .tlbi _ _ _ _ | .icinv _ _ _ | .nop => true
  | .ld _ m _ _ => m.wf [.rlx, .acq]
  | .st _ m _ => m.wf [.rlx, .rel]
  | .ldq d c m => m.wf [.rlx, .acq] && m.b == 0 && m.sh == 0 && (d != c || d == 0)
  | .stq dm _ _ masked m => m.wf [.rlx, .rel] && m.b == 0 && m.sh == 0 && (masked || dm == 0)
  | .ldt _ m _ _ => m.wf [.rlx] && m.spc == .g
  | .ldl _ _ m _ => m.wf [.rlx] && m.spc == .sp
  | .stu _ m _ => m.wf [.rlx] && m.spc == .sp
  | .spamo _ _ b _ _ op _ => op == .cas || b == 0
  | .amo _ _ b _ _ op _ ord scp => (op == .cas || b == 0) && ord != .sc && (ord != .rlx || scp == .cr)
  | .amosc _ _ b _ _ op _ => op == .cas || b == 0
  | .fence ord scp => ord != .rlx && (ord != .sc || scp == .pkg)
  | .tfence _ => true
  | .cueinc win n a _ _ => if win then n == 0 else a == 0
  | .cuewait _ _ _ => true
  | .cuerd _ win n a => if win then n == 0 else a == 0
  | .tkpush mask => mask != 0 && !mask.getLsbD 4
  | .tkpop mask => mask != 0 && !mask.getLsbD 4
  | .lwarm _ _ | .lwwait _ _ => true
  | .pref m _ => m.wf [.rlx] && m.spc == .g
  | .cflush _ _ _ scp => scp == .cr || scp == .pkg
  | .mapb _ _ => true
  | .vshape _ _ _ _ => true
  | .vadd v | .vsub v | .vmul v => v.wf (fmtF ++ fmtI) [0] ⟨true, true, true, true⟩ true true
  | .vfma v => v.wf fmtF [0] ⟨true, true, true, true⟩ true true
  | .vmax v | .vmin v => v.wf (fmtF ++ fmtI) [0] ⟨true, true, true, true⟩ true true
  | .vlog v => v.wf fmtN (List.range 16) VMods.none true true
  | .vsh v => v.wf fmtI (List.range 4) VMods.none true true
  | .vcmp v => v.wf (fmtF ++ fmtI) (List.range 7) ⟨true, true, false, false⟩ true true
  | .vsel v => v.wf fmtN [0] VMods.none true true
  | .vsfu v => v.wf fmtF (List.range 9) ⟨true, false, true, true⟩ true false
  | .vcvt v => v.wf (List.range 14) (List.range 14) ⟨true, false, true, true⟩ true false
  | .vred v => v.wf fmtF32 (List.range 8) ⟨true, false, true, true⟩ true false
  | .vbcast v => v.wf fmtN [0, 1, 2] VMods.none (v.sub != 2) (v.sub == 2)
  | .vtrn v => v.wf fmtN [0] VMods.none true false
  | .vpart v => v.wf [0xB] [0] VMods.none true true
  | .vgath v | .vscat v => v.wf fmtN [0] VMods.none true true
  | .vgathm v => v.wf (List.range 15) [0, 1] VMods.none true true
  | .vscan v => v.wf fmtF32 [0, 1, 2, 4, 5, 6] ⟨true, false, true, true⟩ true false
  | .viota v => v.wf fmtF32 [0] ⟨false, false, true, true⟩ true true
  | .vtopk v => v.wf fmtF32 [0, 1] ⟨true, false, false, false⟩ true true
  | .vnorm v => v.wf fmtF [0, 1, 2] ⟨true, false, true, true⟩ true true
  | .vrng v =>
    if v.sub == 0 then v.wf fmtF [0] ⟨false, false, true, true⟩ true true else v.wf [0xB] [1] VMods.none true true
  | .vquant v =>
    v.wf fmtBlk [0, 1, 2, 16, 17, 18] ⟨true, false, false, true⟩ true true && (v.clamp == 0 || v.clamp == 3)
  | .vdeq v => v.wf fmtBlk [0, 1, 2, 16, 17, 18] ⟨false, false, true, true⟩ true true
  | .vsample v => v.wf fmtF [0] VMods.none true true
  | .vmovg v => v.wf [0x0] [0, 1] VMods.none true true
  | .vcopy v => v.wf (List.range 15) [0, 1] VMods.none true false
  | .mma t _ _ _ | .mmaz t _ _ _ => t.wf 3
  | .mgma t _ _ _ _ _ => t.wf 3
  | .mdrain t _ _ c _ fmt sm sat _ _ =>
    t.wf 3 && fmt.toNat < 14 && sm != 3 && (sm != 0 || c == 0)
      && (sm != 1 || (fmtBlk.contains fmt.toNat && !sat))
  | .mldacc t _ _ _ _ => t.wf 3
  | .mzero t mask => t.wf 3 && mask != 0
  | .mamax t _ _ => t.wf 3
  | .fmtq _ => true
  | .attn t _ => t.wf 3
  | .kvapp t _ _ _ _ _ => t.wf 3
  | .kvfork _ _ _ | .kvdrop _ | .kvclass _ _ _ | .kvquery _ _ _ | .kvtrim _ _ => true
  | .cpy e dsp _ scp => e.wf 1 true true true && scpOk dsp scp
  | .cpyf e _ => e.wf 1 true true true
  | .cpyg e dsp scp fifo _ => e.wf 1 true true true && scpOk dsp scp && (!fifo || (dsp == .g && scp == .cr))
  | .cpys e _ => e.wf 1 true true true
  | .cpyz e dsp scp => e.wf 1 true false true && scpOk dsp scp
  | .tsobj t _ _ => t.wf 1
  | .tsdrop t _ => t.wf 1
  | .xform e dsp _ scp _ => e.wf 1 true true true && scpOk dsp scp
  | .card e | .cardwt e => e.wf 1 true false false
  | .fld e _ ord => e.wf 0 true true false && (ord == .rlx || ord == .acq)
  | .fst e _ ord => e.wf 0 true true false && (ord == .rlx || ord == .rel)
  | .famo e _ _ ord => e.wf 0 true true true && ord != .sc
  | .fput e _ ord => e.wf 0 true true true && (ord == .rlx || ord == .rel)
  | .fget e _ ord => e.wf 0 true true true && (ord == .rlx || ord == .acq)
  | .fsig e => e.wf 0 true true false
  | .ffence e => e.wf 0 false false false
  | .attnCaskBoundary c => isCore c
  | .lockstepIssue c | .sbarRelease c => isCore c
  | .queueStallRelease c _ | .cuewaitSatisfied c _ | .tkpopSatisfied c _ | .lwwaitSatisfied c _ => isCore c
  | .waitcSatisfied c _ | .spamoRetry c _ | .singleStep c _ => isCore c
  | .engineCommandStart c _ | .engineCommandFinish c _ | .engineFault c _ => isCore c
  | .engfaultRestart c _ | .engfaultAbandon c _ => isCore c
  | .streamBytesReady c | .globalWritePerform c _ | .engineFaultDelivery c => isCore c
  | .dieUpdateApply _ _ => true
  | .llcFill _ line key _ => line < 2 ^ 52 && line % 128 == 0 && key < 1024
  | .llcWrite _ line off data => line < 2 ^ 52 && line % 128 == 0 && off + data.length ≤ 128
  | .engctlHalt c _ => isCore c
  | .iterationPlace _ | .slotFill _ | .preemptionRequest _ | .cohortAdmit _ => true
  | .deficitCharge _ job _ => job < 2 ^ 32
  | .understudyStage c | .prologueCopy c | .iterationEnterRunning c | .iterationDrainEnd c => isCore c
  | .nodeStart _ | .nodeEnd _ => true
  | .contextStop c | .imageWrite c | .drainTimeout c | .imageRestore c | .debugStop c | .debugGo c => isCore c
  | .cardStart _ e => e < 16
  | .prompterCardRun e | .narratorCardRun e => e < 8
  | .cardEnd _ | .engineNotReadyCardFail _ => true
  | .request _ _ _ | .cancelMessage _ _ _ | .replyReceived _ _ _ => true
  | .hifDoorbell _ | .hifCapbase _ => true
  | .jobSet _ | .jobFree _ | .keyLoad _ | .keyDestroy _ | .linkKey _ | .copy _ | .vocabInstall _ => true
  | .routineLoad _ | .serviceSet _ | .capsuleLaunch _ | .imageResume _ => true
  | .fabDevnumWrite _ | .flitReceive _ _ | .fabricRequestPerform _ | .fabRetryExpiry _ _ => true
  | .linkReplay _ _ _ | .epochSwitch _ | .oldKeyDestroy _ | .chunkGrant _ => true
  | .cxlRangeWrite _ off _ => off < 32
  | .cxlPortDownAccess c line => isCore c && line < 2 ^ 52
  | .cellarerRegisterWrite _ off _ => off < 0x10000
  | .caskMove _ _ tier fmt _ => tier < 4 && fmt < 16
  | .fp8Step _ _ | .cxlStep _ _ | .absentStep _ _ | .recall _ _ | .agreementInvalidate _ _ => true
  | .lenderTimeout c => isCore c
  | .sramScrub c row _ _ => isCore c && row < 16384
  | .llcScrub _ slice set _ => slice < 64 && set < 12288
  | .hbmScrub line _ => line < 2 ^ 52 && line % 128 == 0
  | .encoreCaptureStart | .encoreReplayStart | .encoreOff => true
  | .powerStepDown _ _ | .powerStepUp _ _ | .thermalShutdown _ => true
  | .packageReset | .bootGo | .configBlobApply _ | .functionReady _ _ | .readinessClear _ _ => true
  | .shaStart _ | .shaDone | .eccStart _ | .eccDone | .measExtend _ | .measDone | .mbxRsplen _ => true
  | .doeDiscovery _ | .getVersion _ | .getCapabilities _ | .negotiateAlgorithms _ | .getMeasurements _ => true
  | .registerWrite off _ _ => off < 2 ^ 32
  | .scoreboardedResult c _ _ => isCore c
  | .flowOpen _ _ | .flowClose _ _ | .spdmRequest _ => true

/-- The instructions of Unoazar (R97), as against the steps of the other agents. -/
def Instr.isStep : Instr → Bool
  | .attnCaskBoundary _ | .lockstepIssue _ | .queueStallRelease _ _ | .cuewaitSatisfied _ _ | .tkpopSatisfied _ _ => true
  | .lwwaitSatisfied _ _ | .waitcSatisfied _ _ | .sbarRelease _ | .spamoRetry _ _ | .engineCommandStart _ _ => true
  | .engineCommandFinish _ _ | .streamBytesReady _ | .globalWritePerform _ _ | .dieUpdateApply _ _ => true
  | .llcFill _ _ _ _ | .llcWrite _ _ _ _ | .engineFault _ _ | .engineFaultDelivery _ | .engfaultRestart _ _ => true
  | .engfaultAbandon _ _ | .engctlHalt _ _ | .singleStep _ _ | .iterationPlace _ | .slotFill _ => true
  | .deficitCharge _ _ _ | .preemptionRequest _ | .cohortAdmit _ | .understudyStage _ | .prologueCopy _ => true
  | .iterationEnterRunning _ | .iterationDrainEnd _ | .nodeStart _ | .nodeEnd _ | .contextStop _ => true
  | .imageWrite _ | .drainTimeout _ | .imageRestore _ | .debugStop _ | .debugGo _ | .cardStart _ _ => true
  | .prompterCardRun _ | .narratorCardRun _ | .cardEnd _ | .engineNotReadyCardFail _ | .request _ _ _ => true
  | .cancelMessage _ _ _ | .replyReceived _ _ _ | .hifDoorbell _ | .hifCapbase _ | .jobSet _ | .jobFree _ => true
  | .keyLoad _ | .keyDestroy _ | .linkKey _ | .copy _ | .vocabInstall _ | .routineLoad _ | .serviceSet _ => true
  | .capsuleLaunch _ | .imageResume _ | .fabDevnumWrite _ | .flitReceive _ _ | .fabricRequestPerform _ => true
  | .fabRetryExpiry _ _ | .linkReplay _ _ _ | .epochSwitch _ | .oldKeyDestroy _ | .chunkGrant _ => true
  | .cxlRangeWrite _ _ _ | .cxlPortDownAccess _ _ | .cellarerRegisterWrite _ _ _ | .caskMove _ _ _ _ _ => true
  | .fp8Step _ _ | .cxlStep _ _ | .absentStep _ _ | .recall _ _ | .lenderTimeout _ | .agreementInvalidate _ _ => true
  | .sramScrub _ _ _ _ | .llcScrub _ _ _ _ | .hbmScrub _ _ | .encoreCaptureStart | .encoreReplayStart => true
  | .encoreOff | .powerStepDown _ _ | .powerStepUp _ _ | .thermalShutdown _ | .packageReset | .bootGo => true
  | .configBlobApply _ | .functionReady _ _ | .readinessClear _ _ | .shaStart _ | .shaDone | .eccStart _ => true
  | .eccDone | .measExtend _ | .measDone | .mbxRsplen _ | .doeDiscovery _ | .getVersion _ => true
  | .getCapabilities _ | .negotiateAlgorithms _ | .getMeasurements _ | .registerWrite _ _ _ => true
  | .scoreboardedResult _ _ _ | .flowOpen _ _ | .flowClose _ _ | .spdmRequest _ => true
  | _ => false

/-- System registers whose User column reads Priv (R100). -/
def sysPriv : List Nat := [0x020, 0x030, 0x031, 0x032, 0x058]

end Sys2Proof
end

