-- ==== Sys2Proof/Decode.lean ====
section
/-! DEFINITION. Decoding of syllables and bundles (R82 to R101) and the encoder, both from the encoding tables of the spec. -/

namespace Sys2Proof

/-- SPC (R144), DSP and SSP (R255). -/
def Space.code : Space → Nat
  | .g => 0
  | .sp => 1

/-- SPC (R144), DSP and SSP (R255). Any other code is refused. -/
def Space.ofCode : Nat → Option Space
  | 0 => some .g
  | 1 => some .sp
  | _ => none

/-- SCP (R144). -/
def Scope.code : Scope → Nat
  | .cr => 0
  | .die => 1
  | .pkg => 2
  | .sys => 3

/-- SCP (R144). Any other code is refused. -/
def Scope.ofCode : Nat → Option Scope
  | 0 => some .cr
  | 1 => some .die
  | 2 => some .pkg
  | 3 => some .sys
  | _ => none

/-- ORD (R144, R158). -/
def Ord.code : Ord → Nat
  | .rlx => 0
  | .acq => 1
  | .rel => 2
  | .ar => 3
  | .sc => 4

/-- ORD (R144, R158). Any other code is refused. -/
def Ord.ofCode : Nat → Option Ord
  | 0 => some .rlx
  | 1 => some .acq
  | 2 => some .rel
  | 3 => some .ar
  | 4 => some .sc
  | _ => none

/-- SZ (R144). -/
def Size.code : Size → Nat
  | .b => 0
  | .h => 1
  | .w => 2
  | .d => 3

/-- SZ (R144). Any other code is refused. -/
def Size.ofCode : Nat → Option Size
  | 0 => some .b
  | 1 => some .h
  | 2 => some .w
  | 3 => some .d
  | _ => none

/-- X of mulh (R118). -/
def MulhKind.code : MulhKind → Nat
  | .ss => 0
  | .uu => 1
  | .su => 2

/-- X of mulh (R118). Any other code is refused. -/
def MulhKind.ofCode : Nat → Option MulhKind
  | 0 => some .ss
  | 1 => some .uu
  | 2 => some .su
  | _ => none

/-- Conditions of cmp and cmpi (R124). -/
def Cond.code : Cond → Nat
  | .eq => 0
  | .ne => 1
  | .lt => 2
  | .ge => 3
  | .ltu => 4
  | .geu => 5

/-- Conditions of cmp and cmpi (R124). Any other code is refused. -/
def Cond.ofCode : Nat → Option Cond
  | 0 => some .eq
  | 1 => some .ne
  | 2 => some .lt
  | 3 => some .ge
  | 4 => some .ltu
  | 5 => some .geu
  | _ => none

/-- Conditions of fcmp (R124). -/
def FCond.code : FCond → Nat
  | .eq => 0
  | .lt => 1
  | .le => 2
  | .un => 3
  | .ne => 4

/-- Conditions of fcmp (R124). Any other code is refused. -/
def FCond.ofCode : Nat → Option FCond
  | 0 => some .eq
  | 1 => some .lt
  | 2 => some .le
  | 3 => some .un
  | 4 => some .ne
  | _ => none

/-- X[2:1] of fsgn (R121). -/
def SgnKind.code : SgnKind → Nat
  | .same => 0
  | .inv => 1
  | .xor => 2

/-- X[2:1] of fsgn (R121). Any other code is refused. -/
def SgnKind.ofCode : Nat → Option SgnKind
  | 0 => some .same
  | 1 => some .inv
  | 2 => some .xor
  | _ => none

/-- Types of fcvt (R122). -/
def CvtType.code : CvtType → Nat
  | .f32 => 0
  | .f64 => 1
  | .bf16 => 2
  | .f16 => 3
  | .i32 => 4
  | .u32 => 5
  | .i64 => 6
  | .u64 => 7

/-- Types of fcvt (R122). Any other code is refused. -/
def CvtType.ofCode : Nat → Option CvtType
  | 0 => some .f32
  | 1 => some .f64
  | 2 => some .bf16
  | 3 => some .f16
  | 4 => some .i32
  | 5 => some .u32
  | 6 => some .i64
  | 7 => some .u64
  | _ => none

/-- Levels of cancel and waitc (R126). -/
def Level.code : Level → Nat
  | .launch => 0
  | .graph => 1
  | .phase => 2
  | .job => 3

/-- Levels of cancel and waitc (R126). Any other code is refused. -/
def Level.ofCode : Nat → Option Level
  | 0 => some .launch
  | 1 => some .graph
  | 2 => some .phase
  | 3 => some .job
  | _ => none

/-- Kinds of tlbi (R141). -/
def TlbiKind.code : TlbiKind → Nat
  | .va => 0
  | .asid => 1
  | .nonglobal => 2
  | .all => 3

/-- Kinds of tlbi (R141). Any other code is refused. -/
def TlbiKind.ofCode : Nat → Option TlbiKind
  | 0 => some .va
  | 1 => some .asid
  | 2 => some .nonglobal
  | 3 => some .all
  | _ => none

/-- Scopes of tlbi and icinv (R126). -/
def Scope3.code : Scope3 → Nat
  | .cr => 0
  | .die => 1
  | .pkg => 2

/-- Scopes of tlbi and icinv (R126). Any other code is refused. -/
def Scope3.ofCode : Nat → Option Scope3
  | 0 => some .cr
  | 1 => some .die
  | 2 => some .pkg
  | _ => none

/-- Modes of mapb (R170). -/
def BankMode.code : BankMode → Nat
  | .scratch => 0
  | .cache => 1
  | .fifo => 2
  | .dark => 3

/-- Modes of mapb (R170). Any other code is refused. -/
def BankMode.ofCode : Nat → Option BankMode
  | 0 => some .scratch
  | 1 => some .cache
  | 2 => some .fifo
  | 3 => some .dark
  | _ => none

/-- AOP (R159). -/
def Aop.code : Aop → Nat
  | .add => 0
  | .and => 1
  | .or => 2
  | .xor => 3
  | .min => 4
  | .max => 5
  | .minu => 6
  | .maxu => 7
  | .swap => 8
  | .cas => 9
  | .fadd => 10
  | .fmax => 11
  | .fmin => 12

/-- AOP (R159). Any other code is refused. -/
def Aop.ofCode : Nat → Option Aop
  | 0 => some .add
  | 1 => some .and
  | 2 => some .or
  | 3 => some .xor
  | 4 => some .min
  | 5 => some .max
  | 6 => some .minu
  | 7 => some .maxu
  | 8 => some .swap
  | 9 => some .cas
  | 10 => some .fadd
  | 11 => some .fmax
  | 12 => some .fmin
  | _ => none

/-- Kinds of cflush (R169). -/
def FlushKind.code : FlushKind → Nat
  | .clean => 0
  | .inv => 1
  | .discard => 2

/-- Kinds of cflush (R169). Any other code is refused. -/
def FlushKind.ofCode : Nat → Option FlushKind
  | 0 => some .clean
  | 1 => some .inv
  | 2 => some .discard
  | _ => none
/-- Splits a number into fields of the given widths, the first field lowest. -/
def unpack : List Nat → Nat → List Nat
  | [], _ => []
  | w :: ws, n => n % 2 ^ w :: unpack ws (n / 2 ^ w)

/-- Joins fields of the given widths, the first field lowest. -/
def pack : List Nat → List Nat → Nat
  | w :: ws, v :: vs => v + 2 ^ w * pack ws vs
  | _, _ => 0

/-- The causes decoding may raise (R86); `unlistedSysreg` becomes illegal_instruction or reserved_sysreg by the mode (R101). -/
inductive DecodeError where
  | illegalGuard
  | illegalInstruction
  | unlistedSysreg (index : Nat)
  | reservedField
  deriving DecidableEq, Repr

/-- What decoding an operation gives. -/
abbrev Dec := Except DecodeError Instr

/-- Accepts an instruction whose must-be-zero fields are zero (`z`) and whose encoding conditions hold. -/
def need (z : Bool) (i : Instr) : Dec :=
  if z && i.wf then .ok i else .error .reservedField

/-- Goes on with a field whose code is assigned. -/
def ask {α : Type} (o : Option α) (f : α → Dec) : Dec :=
  match o with
  | some a => f a
  | none => .error .reservedField

/-- A register field (R91). -/
def rg (n : Nat) : Reg := BitVec.ofNat 6 n

/-- A predicate field: 0 to 23 (R91). -/
def pr (n : Nat) : Option Pred := if h : n < 24 then some ⟨n, h⟩ else none

/-- A two-bit number. -/
def q4 (n : Nat) : Fin 4 := Fin.ofNat 4 n

/-- An optional predicate under a flag bit: the field must be zero without the flag (R96, R124). -/
def prIf (flag n : Nat) : Option (Option Pred) :=
  if flag = 1 then (pr n).map some else if n = 0 then some none else none

/-- Format R with D, A, B and no X. -/
def decDAB (mk : Reg → Reg → Reg → Instr) (body : Nat) : Dec :=
  match unpack [23, 6, 6, 6, 6] body with
  | [x, c, b, a, d] => need (x == 0 && c == 0) (mk (rg d) (rg a) (rg b))
  | _ => .error .reservedField

/-- Format R with D, A, B and X[0]. -/
def decDABx (mk : Reg → Reg → Reg → Bool → Instr) (body : Nat) : Dec :=
  match unpack [1, 22, 6, 6, 6, 6] body with
  | [u, x, c, b, a, d] => need (x == 0 && c == 0) (mk (rg d) (rg a) (rg b) (u == 1))
  | _ => .error .reservedField

/-- Format R with D, A and no X. -/
def decDA (mk : Reg → Reg → Instr) (body : Nat) : Dec :=
  match unpack [23, 6, 6, 6, 6] body with
  | [x, c, b, a, d] => need (x == 0 && c == 0 && b == 0) (mk (rg d) (rg a))
  | _ => .error .reservedField

/-- Format R with D, A and X[0]. -/
def decDAx (mk : Reg → Reg → Bool → Instr) (body : Nat) : Dec :=
  match unpack [1, 22, 6, 6, 6, 6] body with
  | [u, x, c, b, a, d] => need (x == 0 && c == 0 && b == 0) (mk (rg d) (rg a) (u == 1))
  | _ => .error .reservedField

/-- Format R with A, B and no X. -/
def decAB (mk : Reg → Reg → Instr) (body : Nat) : Dec :=
  match unpack [23, 6, 6, 6, 6] body with
  | [x, c, b, a, d] => need (x == 0 && c == 0 && d == 0) (mk (rg a) (rg b))
  | _ => .error .reservedField

/-- Format R with all four registers and no X. -/
def decDABC (mk : Reg → Reg → Reg → Reg → Instr) (body : Nat) : Dec :=
  match unpack [23, 6, 6, 6, 6] body with
  | [x, c, b, a, d] => need (x == 0) (mk (rg d) (rg a) (rg b) (rg c))
  | _ => .error .reservedField

/-- Format R with all four registers and X[0]. -/
def decDABCx (mk : Reg → Reg → Reg → Reg → Bool → Instr) (body : Nat) : Dec :=
  match unpack [1, 22, 6, 6, 6, 6] body with
  | [u, x, c, b, a, d] => need (x == 0) (mk (rg d) (rg a) (rg b) (rg c) (u == 1))
  | _ => .error .reservedField

/-- Format R with only A. -/
def decA (mk : Reg → Instr) (body : Nat) : Dec :=
  match unpack [23, 6, 6, 6, 6] body with
  | [x, c, b, a, d] => need (x == 0 && c == 0 && b == 0 && d == 0) (mk (rg a))
  | _ => .error .reservedField

/-- Format R with nothing. -/
def decNone (i : Instr) (body : Nat) : Dec :=
  match unpack [23, 6, 6, 6, 6] body with
  | [x, c, b, a, d] => need (x == 0 && c == 0 && b == 0 && d == 0 && a == 0) i
  | _ => .error .reservedField

/-- Format I with D, A and IMM32. -/
def decI (mk : Reg → Reg → BitVec 32 → Instr) (body : Nat) : Dec :=
  match unpack [3, 32, 6, 6] body with
  | [x, imm, a, d] => need (x == 0) (mk (rg d) (rg a) (BitVec.ofNat 32 imm))
  | _ => .error .reservedField

/-- Format B with OFF32. -/
def decB (mk : BitVec 32 → Instr) (body : Nat) : Dec :=
  match unpack [9, 6, 32] body with
  | [x, a, off] => need (x == 0 && a == 0) (mk (BitVec.ofNat 32 off))
  | _ => .error .reservedField

/-- The X layout of R144 with the four registers. -/
def decMem (mk : (d c : Nat) → MemOp → (sx : Bool) → (sz : Nat) → Dec) (body : Nat) : Dec :=
  match unpack [2, 1, 1, 3, 2, 2, 12, 6, 6, 6, 6] body with
  | [sz, spc, sx, ord, scp, sh, off, c, b, a, d] =>
    ask (Space.ofCode spc) fun spc => ask (if ord < 4 then Ord.ofCode ord else none) fun ord =>
    ask (Scope.ofCode scp) fun scp =>
      mk d c ⟨rg a, rg b, BitVec.ofNat 12 off, BitVec.ofNat 2 sh, spc, scp, ord⟩ (sx == 1) sz
  | _ => .error .reservedField

/-- The X layout of R158 with the four registers. -/
def decAtomic (mk : (d a b c : Reg) → BitVec 10 → Aop → Bool → Space → Ord → Scope → Dec) (body : Nat) : Dec :=
  match unpack [1, 1, 1, 1, 3, 2, 4, 10, 6, 6, 6, 6] body with
  | [dbl, hi, spc, z, ord, scp, aop, off, c, b, a, d] =>
    ask (Space.ofCode spc) fun spc => ask (Ord.ofCode ord) fun ord => ask (Scope.ofCode scp) fun scp =>
    ask (Aop.ofCode aop) fun aop =>
      if hi = 1 ∧ z = 0 then mk (rg d) (rg a) (rg b) (rg c) (BitVec.ofNat 10 off) aop (dbl == 1) spc ord scp
      else .error .reservedField
  | _ => .error .reservedField

/-- Format E of the vector instructions: the X layout of R95. -/
def decV (mk : VOp → Instr) (body : Nat) : Dec :=
  match unpack [5, 4, 2, 1, 1, 1, 1, 4, 6, 6, 6, 5, 5] body with
  | [sub, scale, clamp, abs2, neg2, abs1, neg1, fmt, c, b, a, push, pop] =>
    need true (mk ⟨⟨BitVec.ofNat 5 pop, BitVec.ofNat 5 push⟩, rg a, rg b, rg c, BitVec.ofNat 4 fmt, neg1 == 1, abs1 == 1,
      neg2 == 1, abs2 == 1, BitVec.ofNat 2 clamp, BitVec.ofNat 4 scale, BitVec.ofNat 5 sub⟩)
  | _ => .error .reservedField

/-- Token masks of format E (R94). -/
def tk (pop push : Nat) : Tok := ⟨BitVec.ofNat 5 pop, BitVec.ofNat 5 push⟩

/-- Format E of the copy, card and fabric instructions: TRY, PRED and a 13-bit OPX split by `ws` (R96, R255). -/
def decE (ws : List Nat) (mk : EOp → List Nat → Dec) (body : Nat) : Dec :=
  match unpack [13, 5, 1, 6, 6, 6, 5, 5] body with
  | [opx, p, t, c, b, a, push, pop] =>
    ask (prIf t p) fun tr => mk ⟨tk pop push, tr, rg a, rg b, rg c⟩ (unpack ws opx)
  | _ => .error .reservedField

/-- Unassigned opcodes (R97). -/
def illegal : Dec := .error .illegalInstruction

/-- OP 0x00 to 0x0F (R118). -/
def dec0 (lo body : Nat) : Dec :=
  match lo with
  | 0x1 => decDAB .add body
  | 0x2 => decDAB .sub body
  | 0x3 => decI .addi body
  | 0x4 => decDAB .mul body
  | 0x5 =>
    match unpack [2, 21, 6, 6, 6, 6] body with
    | [k, x, c, b, a, d] => ask (MulhKind.ofCode k) fun k => need (x == 0 && c == 0) (.mulh (rg d) (rg a) (rg b) k)
    | _ => .error .reservedField
  | 0x6 => decDABx .div body
  | 0x7 => decDABx .rem body
  | 0x8 => decDAB .and body
  | 0x9 => decDAB .or body
  | 0xA => decDAB .xor body
  | 0xB => decI .andi body
  | 0xC => decI .ori body
  | 0xD => decI .xori body
  | 0xE => decDAB .shl body
  | 0xF => decDABx .shr body
  | _ => illegal

/-- OP 0x10 to 0x1F (R118). -/
def dec1 (lo body : Nat) : Dec :=
  match lo with
  | 0x0 =>
    match unpack [3, 6, 26, 6, 6] body with
    | [x, n, z, a, d] => need (x == 0 && z == 0) (.shli (rg d) (rg a) (BitVec.ofNat 6 n))
    | _ => .error .reservedField
  | 0x1 =>
    match unpack [1, 2, 6, 26, 6, 6] body with
    | [ar, x, n, z, a, d] => need (x == 0 && z == 0) (.shri (rg d) (rg a) (BitVec.ofNat 6 n) (ar == 1))
    | _ => .error .reservedField
  | 0x2 => decDAB .rotl body
  | 0x3 => decDABx .min body
  | 0x4 => decDABx .max body
  | 0x5 => decDA .clz body
  | 0x6 => decDA .popc body
  | 0x7 => decDA .bswap body
  | 0x8 =>
    match unpack [6, 6, 1, 10, 6, 6, 6, 6] body with
    | [lsb, wm1, sx, x, c, b, a, d] =>
      need (x == 0 && c == 0 && b == 0) (.ext (rg d) (rg a) (BitVec.ofNat 6 lsb) (BitVec.ofNat 6 wm1) (sx == 1))
    | _ => .error .reservedField
  | 0x9 =>
    match unpack [6, 6, 11, 6, 6, 6, 6] body with
    | [lsb, wm1, x, c, b, a, d] =>
      need (x == 0 && c == 0) (.ins (rg d) (rg a) (rg b) (BitVec.ofNat 6 lsb) (BitVec.ofNat 6 wm1))
    | _ => .error .reservedField
  | 0xA =>
    match unpack [3, 32, 6, 6] body with
    | [x, imm, a, d] => need (x == 0 && a == 0) (.li (rg d) (BitVec.ofNat 32 imm))
    | _ => .error .reservedField
  | 0xB => decI .lih body
  | 0xC => decDA .mov body
  | 0xD =>
    match unpack [23, 6, 6, 6, 6] body with
    | [x, c, b, a, d] => ask (pr c) fun p => need (x == 0) (.sel (rg d) (rg a) (rg b) p)
    | _ => .error .reservedField
  | 0xE =>
    match unpack [6, 17, 6, 6, 6, 6] body with
    | [sh, x, c, b, a, d] => need (x == 0 && c == 0) (.addsh (rg d) (rg a) (rg b) (BitVec.ofNat 6 sh))
    | _ => .error .reservedField
  | 0xF => decDABC .madd body
  | _ => illegal

/-- OP 0x40 to 0x4F (R121 to R123). -/
def dec4 (lo body : Nat) : Dec :=
  match lo with
  | 0x0 => decDABx .fadd body
  | 0x1 => decDABx .fsub body
  | 0x2 => decDABx .fmul body
  | 0x3 => decDABCx .fma body
  | 0x4 => decDABx .fdiv body
  | 0x5 => decDAx .fsqrt body
  | 0x6 => decDABx .fmin body
  | 0x7 => decDABx .fmax body
  | 0x8 =>
    match unpack [4, 4, 1, 14, 6, 6, 6, 6] body with
    | [s, t, rtz, x, c, b, a, d] =>
      ask (CvtType.ofCode s) fun s => ask (CvtType.ofCode t) fun t =>
        need (x == 0 && c == 0 && b == 0) (.fcvt (rg d) (rg a) t s (rtz == 1))
    | _ => .error .reservedField
  | 0x9 =>
    match unpack [1, 2, 20, 6, 6, 6, 6] body with
    | [dbl, k, x, c, b, a, d] =>
      ask (SgnKind.ofCode k) fun k => need (x == 0 && c == 0) (.fsgn (rg d) (rg a) (rg b) k (dbl == 1))
    | _ => .error .reservedField
  | 0xA => decDAx .fclass body
  | _ => illegal

/-- OP 0x60 to 0x6F (R124). -/
def dec6 (lo body : Nat) : Dec :=
  match lo with
  | 0x0 =>
    match unpack [4, 1, 18, 6, 6, 6, 6] body with
    | [cc, two, x, c, b, a, d] =>
      ask (Cond.ofCode cc) fun cc => ask (pr d) fun p => ask (prIf two c) fun pc =>
        need (x == 0) (.cmp p pc (rg a) (rg b) cc)
    | _ => .error .reservedField
  | 0x1 =>
    match unpack [3, 32, 6, 6] body with
    | [cc, imm, a, d] =>
      ask (Cond.ofCode cc) fun cc => ask (pr d) fun p => need true (.cmpi p (rg a) (BitVec.ofNat 32 imm) cc)
    | _ => .error .reservedField
  | 0x2 =>
    match unpack [1, 3, 1, 18, 6, 6, 6, 6] body with
    | [dbl, cc, two, x, c, b, a, d] =>
      ask (FCond.ofCode cc) fun cc => ask (pr d) fun p => ask (prIf two c) fun pc =>
        need (x == 0) (.fcmp p pc (rg a) (rg b) cc (dbl == 1))
    | _ => .error .reservedField
  | 0x3 =>
    match unpack [4, 19, 6, 6, 6, 6] body with
    | [t, x, c, b, a, d] =>
      ask (pr d) fun p => ask (pr a) fun pa => ask (pr b) fun pb =>
        need (x == 0 && c == 0) (.plog p pa pb (BitVec.ofNat 4 t))
    | _ => .error .reservedField
  | 0x4 =>
    match unpack [23, 6, 6, 6, 6] body with
    | [x, c, b, a, d] => need (x == 0 && c == 0 && b == 0 && a == 0) (.ptog (rg d))
    | _ => .error .reservedField
  | 0x5 => decAB .gtop body
  | 0x6 =>
    match unpack [6, 1, 16, 6, 6, 6, 6] body with
    | [n, inv, x, c, b, a, d] =>
      ask (pr d) fun p => need (x == 0 && c == 0 && b == 0) (.tbit p (rg a) (BitVec.ofNat 6 n) (inv == 1))
    | _ => .error .reservedField
  | _ => illegal

/-- OP 0x70 to 0x7F (R126, R128). -/
def dec7 (lo body : Nat) : Dec :=
  match lo with
  | 0x0 => decB .br body
  | 0x1 =>
    match unpack [1, 22, 6, 6, 6, 6] body with
    | [l, x, c, b, a, d] => need (x == 0 && c == 0 && b == 0 && d == 0) (.brr (rg a) (l == 1))
    | _ => .error .reservedField
  | 0x2 => decB .call body
  | 0x3 => decA .ret body
  | 0x4 =>
    match unpack [12, 3, 2, 1, 5, 6, 6, 6, 6] body with
    | [lm1, sm1, n, y, pb, c, b, a, d] =>
      need (c == 0 && b == 0 && d == 0)
        (.loop (q4 n) (rg a) (BitVec.ofNat 12 lm1) (BitVec.ofNat 3 sm1) (y == 1) (BitVec.ofNat 5 pb))
    | _ => .error .reservedField
  | 0x5 =>
    match unpack [2, 21, 6, 6, 6, 6] body with
    | [n, x, c, b, a, d] => need (x == 0 && c == 0 && b == 0 && a == 0 && d == 0) (.lbrk (q4 n))
    | _ => .error .reservedField
  | 0x6 => decNone .yield body
  | 0x7 => decNone .exit body
  | 0x8 => decDAx .launch body
  | 0x9 =>
    match unpack [2, 21, 6, 6, 6, 6] body with
    | [l, x, c, b, a, d] => ask (Level.ofCode l) fun l => need (x == 0 && c == 0) (.cancel (rg d) (rg a) (rg b) l)
    | _ => .error .reservedField
  | 0xA =>
    match unpack [2, 21, 6, 6, 6, 6] body with
    | [l, x, c, b, a, d] => ask (Level.ofCode l) fun l => need (x == 0 && c == 0) (.waitc (rg d) (rg a) (rg b) l)
    | _ => .error .reservedField
  | 0xB =>
    match unpack [4, 19, 6, 6, 6, 6] body with
    | [m, x, c, b, a, d] => need (x == 0 && c == 0 && b == 0 && a == 0 && d == 0) (.sbar (BitVec.ofNat 4 m))
    | _ => .error .reservedField
  | _ => illegal

/-- OP 0x80 to 0x8F (R144 to R165). -/
def dec8 (lo body : Nat) : Dec :=
  match lo with
  | 0x0 => decMem (fun d c m sx sz => ask (Size.ofCode sz) fun sz => need (c == 0) (.ld (rg d) m sx sz)) body
  | 0x1 => decMem (fun d c m sx sz => ask (Size.ofCode sz) fun sz => need (d == 0 && !sx) (.st (rg c) m sz)) body
  | 0x2 => decMem (fun d c m sx sz => need (sz == 0 && !sx) (.ldq (rg d) (rg c) m)) body
  | 0x3 => decMem (fun d c m sx sz => need (sz == 0) (.stq (rg d) m.b (rg c) sx { m with b := 0 })) body
  | 0x4 => decMem (fun d c m sx sz => ask (Size.ofCode sz) fun sz => need (c == 0) (.ldt (rg d) m sx sz)) body
  | 0x5 => decMem (fun d c m sx sz => ask (Size.ofCode sz) fun sz => ask (pr c) fun p => need (!sx) (.ldl (rg d) p m sz)) body
  | 0x6 => decMem (fun d c m sx sz => ask (Size.ofCode sz) fun sz => need (d == 0 && !sx) (.stu (rg c) m sz)) body
  | 0x7 => decAtomic (fun d a b c off op dbl spc ord scp =>
      need (spc == .sp && ord == .rlx && scp == .cr) (.spamo d a b c off op dbl)) body
  | 0x8 => decAtomic (fun d a b c off op dbl spc ord scp => need (spc == .g) (.amo d a b c off op dbl ord scp)) body
  | 0x9 => decAtomic (fun d a b c off op dbl spc ord scp =>
      need (spc == .g && ord == .sc && scp == .pkg) (.amosc d a b c off op dbl)) body
  | 0xA =>
    match unpack [4, 3, 2, 14, 6, 6, 6, 6] body with
    | [z, ord, scp, x, c, b, a, d] =>
      ask (Ord.ofCode ord) fun ord => ask (Scope.ofCode scp) fun scp =>
        need (z == 0 && x == 0 && c == 0 && b == 0 && a == 0 && d == 0) (.fence ord scp)
    | _ => .error .reservedField
  | 0xB =>
    match unpack [7, 2, 14, 6, 6, 6, 6] body with
    | [z, scp, x, c, b, a, d] =>
      ask (Scope.ofCode scp) fun scp =>
        need (z == 0 && x == 0 && c == 0 && b == 0 && a == 0 && d == 0) (.tfence scp)
    | _ => .error .reservedField
  | 0xC =>
    match unpack [6, 1, 2, 14, 6, 6, 6, 6] body with
    | [n, win, scp, x, c, b, a, d] =>
      ask (Scope.ofCode scp) fun scp =>
        need (x == 0 && c == 0 && d == 0) (.cueinc (win == 1) (BitVec.ofNat 6 n) (rg a) (rg b) scp)
    | _ => .error .reservedField
  | 0xD =>
    match unpack [6, 1, 2, 14, 6, 6, 6, 6] body with
    | [n, win, scp, x, c, b, a, d] =>
      ask (Scope.ofCode scp) fun scp =>
        need (win == 0 && x == 0 && c == 0 && a == 0 && d == 0) (.cuewait (BitVec.ofNat 6 n) (rg b) scp)
    | _ => .error .reservedField
  | 0xE =>
    match unpack [6, 1, 16, 6, 6, 6, 6] body with
    | [n, win, x, c, b, a, d] =>
      need (x == 0 && c == 0 && b == 0) (.cuerd (rg d) (win == 1) (BitVec.ofNat 6 n) (rg a))
    | _ => .error .reservedField
  | 0xF =>
    match unpack [5, 18, 6, 6, 6, 6] body with
    | [m, x, c, b, a, d] =>
      need (x == 0 && c == 0 && b == 0 && a == 0 && d == 0) (.tkpush (BitVec.ofNat 5 m))
    | _ => .error .reservedField
  | _ => illegal

/-- OP 0x90 to 0x9F (R165 to R170). -/
def dec9 (lo body : Nat) : Dec :=
  match lo with
  | 0x0 =>
    match unpack [5, 18, 6, 6, 6, 6] body with
    | [m, x, c, b, a, d] =>
      need (x == 0 && c == 0 && b == 0 && a == 0 && d == 0) (.tkpop (BitVec.ofNat 5 m))
    | _ => .error .reservedField
  | 0x1 => decAB .lwarm body
  | 0x2 => decAB .lwwait body
  | 0x3 => decMem (fun d c m sx sz => need (d == 0 && c == 0 && !sx && decide (sz < 2)) (.pref m (sz == 1))) body
  | 0x4 =>
    match unpack [2, 5, 2, 14, 6, 6, 6, 6] body with
    | [k, z, scp, x, c, b, a, d] =>
      ask (FlushKind.ofCode k) fun k => ask (Scope.ofCode scp) fun scp =>
        need (z == 0 && x == 0 && c == 0 && d == 0) (.cflush (rg a) (rg b) k scp)
    | _ => .error .reservedField
  | 0x5 =>
    match unpack [2, 21, 6, 6, 6, 6] body with
    | [m, x, c, b, a, d] =>
      ask (BankMode.ofCode m) fun m => need (x == 0 && c == 0 && b == 0 && d == 0) (.mapb (rg a) m)
    | _ => .error .reservedField
  | _ => illegal

/-- OP 0xA0 to 0xAF (R174, R188). -/
def decA0 (lo body : Nat) : Dec :=
  match lo with
  | 0x0 => decDABC .vshape body
  | 0x1 => decV .vadd body
  | 0x2 => decV .vsub body
  | 0x3 => decV .vmul body
  | 0x4 => decV .vfma body
  | 0x5 => decV .vmax body
  | 0x6 => decV .vmin body
  | 0x7 => decV .vlog body
  | 0x8 => decV .vsh body
  | 0x9 => decV .vcmp body
  | 0xA => decV .vsel body
  | 0xB => decV .vsfu body
  | 0xC => decV .vcvt body
  | 0xD => decV .vred body
  | 0xE => decV .vbcast body
  | 0xF => decV .vtrn body
  | _ => illegal

/-- OP 0xB0 to 0xBF (R188). -/
def decB0 (lo body : Nat) : Dec :=
  match lo with
  | 0x0 => decV .vpart body
  | 0x1 => decV .vgath body
  | 0x2 => decV .vscat body
  | 0x3 => decV .vgathm body
  | 0x4 => decV .vscan body
  | 0x5 => decV .viota body
  | 0x6 => decV .vtopk body
  | 0x7 => decV .vnorm body
  | 0x8 => decV .vrng body
  | 0x9 => decV .vquant body
  | 0xA => decV .vdeq body
  | 0xB => decV .vsample body
  | 0xC => decV .vmovg body
  | 0xD => decV .vcopy body
  | _ => illegal

/-- OP 0xC0 to 0xCF (R216, R237, R245, R248). -/
def decC0 (lo body : Nat) : Dec :=
  match lo with
  | 0x0 =>
    match unpack [2, 17, 6, 6, 6, 5, 5] body with
    | [n, x, c, b, a, push, pop] => need (x == 0 && c == 0) (.mma (tk pop push) (rg a) (rg b) (q4 n))
    | _ => .error .reservedField
  | 0x1 =>
    match unpack [2, 17, 6, 6, 6, 5, 5] body with
    | [n, x, c, b, a, push, pop] => need (x == 0 && c == 0) (.mmaz (tk pop push) (rg a) (rg b) (q4 n))
    | _ => .error .reservedField
  | 0x2 =>
    match unpack [2, 3, 14, 6, 6, 6, 5, 5] body with
    | [n, gm1, x, c, b, a, push, pop] =>
      need (x == 0) (.mgma (tk pop push) (rg a) (rg b) (rg c) (q4 n) (BitVec.ofNat 3 gm1))
    | _ => .error .reservedField
  | 0x3 =>
    match unpack [2, 4, 2, 1, 1, 4, 5, 6, 6, 6, 5, 5] body with
    | [n, fmt, sm, sat, clr, scale, x, c, b, a, push, pop] =>
      need (x == 0) (.mdrain (tk pop push) (rg a) (rg b) (rg c) (q4 n) (BitVec.ofNat 4 fmt) (BitVec.ofNat 2 sm)
        (sat == 1) (clr == 1) (BitVec.ofNat 4 scale))
    | _ => .error .reservedField
  | 0x4 =>
    match unpack [2, 1, 16, 6, 6, 6, 5, 5] body with
    | [n, t, x, c, b, a, push, pop] => need (x == 0 && c == 0) (.mldacc (tk pop push) (rg a) (rg b) (q4 n) (t == 1))
    | _ => .error .reservedField
  | 0x5 =>
    match unpack [4, 15, 6, 6, 6, 5, 5] body with
    | [m, x, c, b, a, push, pop] =>
      need (x == 0 && c == 0 && b == 0 && a == 0) (.mzero (tk pop push) (BitVec.ofNat 4 m))
    | _ => .error .reservedField
  | 0x6 =>
    match unpack [2, 17, 6, 6, 6, 5, 5] body with
    | [n, x, c, b, a, push, pop] => need (x == 0 && c == 0 && b == 0) (.mamax (tk pop push) (rg a) (q4 n))
    | _ => .error .reservedField
  | 0x7 => decA .fmtq body
  | 0x8 =>
    match unpack [19, 6, 6, 6, 5, 5] body with
    | [x, c, b, a, push, pop] => need (x == 0 && c == 0 && b == 0) (.attn (tk pop push) (rg a))
    | _ => .error .reservedField
  | 0x9 =>
    match unpack [6, 1, 12, 6, 6, 6, 5, 5] body with
    | [n, adv, x, c, b, a, push, pop] =>
      need (x == 0) (.kvapp (tk pop push) (rg a) (rg b) (rg c) (BitVec.ofNat 6 n) (adv == 1))
    | _ => .error .reservedField
  | 0xA => decDAB .kvfork body
  | 0xB => decA .kvdrop body
  | 0xC =>
    match unpack [2, 21, 6, 6, 6, 6] body with
    | [k, x, c, b, a, d] => need (x == 0 && c == 0 && d == 0) (.kvclass (rg a) (rg b) (BitVec.ofNat 2 k))
    | _ => .error .reservedField
  | 0xD => decDAB .kvquery body
  | 0xE => decAB .kvtrim body
  | _ => illegal

/-- OP 0xE0 to 0xEF (R255). -/
def decE0 (lo body : Nat) : Dec :=
  match lo with
  | 0x0 => decE [1, 1, 2, 9] (fun e x => match x with
      | [d, s, scp, z] => ask (Space.ofCode d) fun d => ask (Space.ofCode s) fun s => ask (Scope.ofCode scp) fun scp =>
          need (z == 0) (.cpy e d s scp)
      | _ => .error .reservedField) body
  | 0x1 => decE [1, 1, 11] (fun e x => match x with
      | [y, s, z] => ask (Space.ofCode s) fun s => need (y == 0 && z == 0) (.cpyf e s)
      | _ => .error .reservedField) body
  | 0x2 => decE [1, 1, 2, 1, 1, 7] (fun e x => match x with
      | [d, y, scp, fifo, zz, z] => ask (Space.ofCode d) fun d => ask (Scope.ofCode scp) fun scp =>
          need (y == 0 && z == 0) (.cpyg e d scp (fifo == 1) (zz == 1))
      | _ => .error .reservedField) body
  | 0x3 => decE [2, 2, 9] (fun e x => match x with
      | [y, scp, z] => ask (Scope.ofCode scp) fun scp => need (y == 0 && z == 0) (.cpys e scp)
      | _ => .error .reservedField) body
  | 0x4 => decE [1, 1, 2, 9] (fun e x => match x with
      | [d, y, scp, z] => ask (Space.ofCode d) fun d => ask (Scope.ofCode scp) fun scp =>
          need (y == 0 && z == 0) (.cpyz e d scp)
      | _ => .error .reservedField) body
  | 0x5 =>
    match unpack [19, 6, 6, 6, 5, 5] body with
    | [x, c, b, a, push, pop] => need (x == 0 && c == 0) (.tsobj (tk pop push) (rg a) (rg b))
    | _ => .error .reservedField
  | 0x6 =>
    match unpack [19, 6, 6, 6, 5, 5] body with
    | [x, c, b, a, push, pop] => need (x == 0 && c == 0 && a == 0) (.tsdrop (tk pop push) (rg b))
    | _ => .error .reservedField
  | 0x7 => decE [1, 1, 2, 8, 1] (fun e x => match x with
      | [d, s, scp, r, z] => ask (Space.ofCode d) fun d => ask (Space.ofCode s) fun s => ask (Scope.ofCode scp) fun scp =>
          need (z == 0) (.xform e d s scp (BitVec.ofNat 8 r))
      | _ => .error .reservedField) body
  | 0x8 => decE [13] (fun e x => match x with
      | [z] => need (z == 0) (.card e)
      | _ => .error .reservedField) body
  | 0x9 => decE [13] (fun e x => match x with
      | [z] => need (z == 0) (.cardwt e)
      | _ => .error .reservedField) body
  | _ => illegal

/-- A size code of fld and fst: 0 to 6 (R255). -/
def fsz (n : Nat) : Option (Fin 7) := if h : n < 7 then some ⟨n, h⟩ else none

/-- OP 0xF0 to 0xFF (R126, R255). -/
def decF0 (lo body : Nat) : Dec :=
  match lo with
  | 0x0 => decE [3, 2, 2, 6] (fun e x => match x with
      | [sz, y, ord, z] => ask (fsz sz) fun sz => ask (Ord.ofCode ord) fun ord =>
          need (y == 0 && z == 0) (.fld e sz ord)
      | _ => .error .reservedField) body
  | 0x1 => decE [3, 2, 2, 6] (fun e x => match x with
      | [sz, y, ord, z] => ask (fsz sz) fun sz => ask (Ord.ofCode ord) fun ord =>
          need (y == 0 && z == 0) (.fst e sz ord)
      | _ => .error .reservedField) body
  | 0x2 => decE [4, 1, 2, 6] (fun e x => match x with
      | [op, dbl, ord, z] => ask (Aop.ofCode op) fun op => ask (Ord.ofCode ord) fun ord =>
          need (z == 0) (.famo e op (dbl == 1) ord)
      | _ => .error .reservedField) body
  | 0x3 => decE [1, 1, 3, 2, 6] (fun e x => match x with
      | [y, s, w, ord, z] => ask (Space.ofCode s) fun s => ask (Ord.ofCode ord) fun ord =>
          need (y == 0 && w == 0 && z == 0) (.fput e s ord)
      | _ => .error .reservedField) body
  | 0x4 => decE [1, 4, 2, 6] (fun e x => match x with
      | [d, y, ord, z] => ask (Space.ofCode d) fun d => ask (Ord.ofCode ord) fun ord =>
          need (y == 0 && z == 0) (.fget e d ord)
      | _ => .error .reservedField) body
  | 0x5 => decE [13] (fun e x => match x with
      | [z] => need (z == 0) (.fsig e)
      | _ => .error .reservedField) body
  | 0x6 => decE [13] (fun e x => match x with
      | [z] => need (z == 0) (.ffence e)
      | _ => .error .reservedField) body
  | 0x8 =>
    match unpack [3, 16, 16, 6, 6] body with
    | [x, code, z, a, d] => need (x == 0 && z == 0 && a == 0 && d == 0) (.trap (BitVec.ofNat 16 code))
    | _ => .error .reservedField
  | 0x9 =>
    match unpack [16, 7, 6, 6, 6, 6] body with
    | [code, x, c, b, a, d] => need (x == 0 && c == 0 && b == 0 && a == 0 && d == 0) (.brk (BitVec.ofNat 16 code))
    | _ => .error .reservedField
  | 0xA =>
    match unpack [23, 12, 6, 6] body with
    | [x, sys, a, d] =>
      if sysListed.contains sys then need (x == 0 && a == 0) (.mfs (rg d) (BitVec.ofNat 12 sys))
      else .error (.unlistedSysreg sys)
    | _ => .error .reservedField
  | 0xB =>
    match unpack [23, 12, 6, 6] body with
    | [x, sys, a, d] =>
      if sysListed.contains sys then need (x == 0 && d == 0) (.mts (BitVec.ofNat 12 sys) (rg a))
      else .error (.unlistedSysreg sys)
    | _ => .error .reservedField
  | 0xC => decNone .rft body
  | 0xD =>
    match unpack [2, 2, 19, 6, 6, 6, 6] body with
    | [k, scp, x, c, b, a, d] =>
      ask (TlbiKind.ofCode k) fun k => ask (Scope3.ofCode scp) fun scp =>
        need (x == 0 && c == 0 && d == 0) (.tlbi (rg a) (rg b) k scp)
    | _ => .error .reservedField
  | 0xE =>
    match unpack [2, 21, 6, 6, 6, 6] body with
    | [scp, x, c, b, a, d] =>
      ask (Scope3.ofCode scp) fun scp => need (x == 0 && c == 0 && d == 0) (.icinv (rg a) (rg b) scp)
    | _ => .error .reservedField
  | 0xF => decNone .nop body
  | _ => illegal

/-- The opcode map (R97): the instruction that opcode `op` and a 47-bit body stand for. -/
def decodeBody (op body : Nat) : Dec :=
  match op / 16 with
  | 0x0 => dec0 (op % 16) body
  | 0x1 => dec1 (op % 16) body
  | 0x4 => dec4 (op % 16) body
  | 0x6 => dec6 (op % 16) body
  | 0x7 => dec7 (op % 16) body
  | 0x8 => dec8 (op % 16) body
  | 0x9 => dec9 (op % 16) body
  | 0xA => decA0 (op % 16) body
  | 0xB => decB0 (op % 16) body
  | 0xC => decC0 (op % 16) body
  | 0xE => decE0 (op % 16) body
  | 0xF => decF0 (op % 16) body
  | _ => illegal

/-- Guards (R84, R85): 31 is always or never, 0 to 23 a predicate, 24 to 30 illegal. -/
def decodeGuard (n g : Nat) : Option Guard :=
  if g = 31 then some (if n = 1 then .never else .always)
  else (pr g).map fun p => .pred p (n == 1)

/-- Decodes one 62-bit syllable (R84 to R86); a *never* syllable decodes as a nop with guard never, whatever its body holds. -/
def decodeSyllable (w : Nat) : Except DecodeError Syllable :=
  match unpack [47, 8, 5, 1, 1] w with
  | [body, op, g, n, k] =>
    match decodeGuard n g with
    | none => .error .illegalGuard
    | some .never => .ok ⟨k == 1, .never, .nop⟩
    | some guard =>
      match decodeBody op body with
      | .ok i => .ok ⟨k == 1, guard, i⟩
      | .error e => .error e
  | _ => .error .reservedField

/-- The parts of a 128-bit bundle (R82): slot 0, slot 1, bits [126:124], SYNC. -/
structure RawBundle where
  slot0 : Nat
  slot1 : Nat
  hdr : Nat
  sync : Bool
  deriving DecidableEq, Repr

/-- Splits a bundle (R82). -/
def splitBundle (w : Nat) : RawBundle :=
  ⟨w % 2 ^ 62, w / 2 ^ 62 % 2 ^ 62, w / 2 ^ 124 % 8, w / 2 ^ 127 % 2 == 1⟩

/-- The number that little-endian bytes hold (R7). -/
def leNat : List (BitVec 8) → Nat
  | [] => 0
  | b :: bs => b.toNat + 256 * leNat bs

/-- `n` little-endian bytes of a number (R7). -/
def leBytes : Nat → Nat → List (BitVec 8)
  | 0, _ => []
  | n + 1, v => BitVec.ofNat 8 v :: leBytes n (v / 256)

/-- The instruction this decoder reads in slot 0 of a bundle that starts with the bits `w`. -/
def decodeTableWord (_nbits w : Nat) : Option Instr :=
  match decodeSyllable (splitBundle (leNat (leBytes 16 w))).slot0 with
  | .ok s => some s.instr
  | .error _ => none

/-! The encoder. -/

/-- X of an address operand with the four registers (R144). -/
def memVals (m : MemOp) (d c : Nat) (sx : Bool) (sz : Nat) : List Nat :=
  [sz, m.spc.code, sx.toNat, m.ord.code, m.scp.code, m.sh.toNat, m.off.toNat, c, m.b.toNat, m.a.toNat, d]

/-- Layout of format R with an unsplit X. -/
def layR : List Nat := [23, 6, 6, 6, 6]
/-- Layout of format R with X[0]. -/
def layR1 : List Nat := [1, 22, 6, 6, 6, 6]
/-- Layout of format I. -/
def layI : List Nat := [3, 32, 6, 6]
/-- Layout of R144. -/
def layMem : List Nat := [2, 1, 1, 3, 2, 2, 12, 6, 6, 6, 6]
/-- Layout of R158. -/
def layAmo : List Nat := [1, 1, 1, 1, 3, 2, 4, 10, 6, 6, 6, 6]
/-- Layout of R95. -/
def layV : List Nat := [5, 4, 2, 1, 1, 1, 1, 4, 6, 6, 6, 5, 5]
/-- Layout of R96. -/
def layE : List Nat := [13, 5, 1, 6, 6, 6, 5, 5]

/-- Values of the fields of R95. -/
def vVals (v : VOp) : List Nat :=
  [v.sub.toNat, v.scale.toNat, v.clamp.toNat, v.abs2.toNat, v.neg2.toNat, v.abs1.toNat, v.neg1.toNat, v.fmt.toNat,
   v.c.toNat, v.b.toNat, v.a.toNat, v.tok.push.toNat, v.tok.pop.toNat]

/-- Values of the fields of R96. -/
def eVals (e : EOp) (opx : Nat) : List Nat :=
  [opx, (e.tr.map (fun p => p.val)).getD 0, e.tr.isSome.toNat, e.c.toNat, e.b.toNat, e.a.toNat,
   e.tok.push.toNat, e.tok.pop.toNat]

/-- Format E with token masks and no TRY. -/
def tVals (t : Tok) (a b c : Nat) : List Nat := [c, b, a, t.push.toNat, t.pop.toNat]

/-- Optional predicate field and its flag. -/
def optPred (p : Option Pred) : Nat := (p.map (fun p => p.val)).getD 0

/-- Opcode, field widths and field values of an instruction; none for a step of another agent. -/
def Instr.fields : Instr → Option (Nat × List Nat × List Nat)
  | .add d a b => some (0x01, layR, [0, 0, b.toNat, a.toNat, d.toNat])
  | .sub d a b => some (0x02, layR, [0, 0, b.toNat, a.toNat, d.toNat])
  | .addi d a i => some (0x03, layI, [0, i.toNat, a.toNat, d.toNat])
  | .mul d a b => some (0x04, layR, [0, 0, b.toNat, a.toNat, d.toNat])
  | .mulh d a b k => some (0x05, [2, 21, 6, 6, 6, 6], [k.code, 0, 0, b.toNat, a.toNat, d.toNat])
  | .div d a b u => some (0x06, layR1, [u.toNat, 0, 0, b.toNat, a.toNat, d.toNat])
  | .rem d a b u => some (0x07, layR1, [u.toNat, 0, 0, b.toNat, a.toNat, d.toNat])
  | .and d a b => some (0x08, layR, [0, 0, b.toNat, a.toNat, d.toNat])
  | .or d a b => some (0x09, layR, [0, 0, b.toNat, a.toNat, d.toNat])
  | .xor d a b => some (0x0A, layR, [0, 0, b.toNat, a.toNat, d.toNat])
  | .andi d a i => some (0x0B, layI, [0, i.toNat, a.toNat, d.toNat])
  | .ori d a i => some (0x0C, layI, [0, i.toNat, a.toNat, d.toNat])
  | .xori d a i => some (0x0D, layI, [0, i.toNat, a.toNat, d.toNat])
  | .shl d a b => some (0x0E, layR, [0, 0, b.toNat, a.toNat, d.toNat])
  | .shr d a b ar => some (0x0F, layR1, [ar.toNat, 0, 0, b.toNat, a.toNat, d.toNat])
  | .shli d a n => some (0x10, [3, 6, 26, 6, 6], [0, n.toNat, 0, a.toNat, d.toNat])
  | .shri d a n ar => some (0x11, [1, 2, 6, 26, 6, 6], [ar.toNat, 0, n.toNat, 0, a.toNat, d.toNat])
  | .rotl d a b => some (0x12, layR, [0, 0, b.toNat, a.toNat, d.toNat])
  | .min d a b u => some (0x13, layR1, [u.toNat, 0, 0, b.toNat, a.toNat, d.toNat])
  | .max d a b u => some (0x14, layR1, [u.toNat, 0, 0, b.toNat, a.toNat, d.toNat])
  | .clz d a => some (0x15, layR, [0, 0, 0, a.toNat, d.toNat])
  | .popc d a => some (0x16, layR, [0, 0, 0, a.toNat, d.toNat])
  | .bswap d a => some (0x17, layR, [0, 0, 0, a.toNat, d.toNat])
  | .ext d a l w sx =>
    some (0x18, [6, 6, 1, 10, 6, 6, 6, 6], [l.toNat, w.toNat, sx.toNat, 0, 0, 0, a.toNat, d.toNat])
  | .ins d a b l w => some (0x19, [6, 6, 11, 6, 6, 6, 6], [l.toNat, w.toNat, 0, 0, b.toNat, a.toNat, d.toNat])
  | .li d i => some (0x1A, layI, [0, i.toNat, 0, d.toNat])
  | .lih d a i => some (0x1B, layI, [0, i.toNat, a.toNat, d.toNat])
  | .mov d a => some (0x1C, layR, [0, 0, 0, a.toNat, d.toNat])
  | .sel d a b p => some (0x1D, layR, [0, p.val, b.toNat, a.toNat, d.toNat])
  | .addsh d a b s => some (0x1E, [6, 17, 6, 6, 6, 6], [s.toNat, 0, 0, b.toNat, a.toNat, d.toNat])
  | .madd d a b c => some (0x1F, layR, [0, c.toNat, b.toNat, a.toNat, d.toNat])
  | .fadd d a b x => some (0x40, layR1, [x.toNat, 0, 0, b.toNat, a.toNat, d.toNat])
  | .fsub d a b x => some (0x41, layR1, [x.toNat, 0, 0, b.toNat, a.toNat, d.toNat])
  | .fmul d a b x => some (0x42, layR1, [x.toNat, 0, 0, b.toNat, a.toNat, d.toNat])
  | .fma d a b c x => some (0x43, layR1, [x.toNat, 0, c.toNat, b.toNat, a.toNat, d.toNat])
  | .fdiv d a b x => some (0x44, layR1, [x.toNat, 0, 0, b.toNat, a.toNat, d.toNat])
  | .fsqrt d a x => some (0x45, layR1, [x.toNat, 0, 0, 0, a.toNat, d.toNat])
  | .fmin d a b x => some (0x46, layR1, [x.toNat, 0, 0, b.toNat, a.toNat, d.toNat])
  | .fmax d a b x => some (0x47, layR1, [x.toNat, 0, 0, b.toNat, a.toNat, d.toNat])
  | .fcvt d a t s r =>
    some (0x48, [4, 4, 1, 14, 6, 6, 6, 6], [s.code, t.code, r.toNat, 0, 0, 0, a.toNat, d.toNat])
  | .fsgn d a b k x => some (0x49, [1, 2, 20, 6, 6, 6, 6], [x.toNat, k.code, 0, 0, b.toNat, a.toNat, d.toNat])
  | .fclass d a x => some (0x4A, layR1, [x.toNat, 0, 0, 0, a.toNat, d.toNat])
  | .cmp p pc a b cc =>
    some (0x60, [4, 1, 18, 6, 6, 6, 6], [cc.code, pc.isSome.toNat, 0, optPred pc, b.toNat, a.toNat, p.val])
  | .cmpi p a i cc => some (0x61, layI, [cc.code, i.toNat, a.toNat, p.val])
  | .fcmp p pc a b cc x =>
    some (0x62, [1, 3, 1, 18, 6, 6, 6, 6],
      [x.toNat, cc.code, pc.isSome.toNat, 0, optPred pc, b.toNat, a.toNat, p.val])
  | .plog p pa pb t => some (0x63, [4, 19, 6, 6, 6, 6], [t.toNat, 0, 0, pb.val, pa.val, p.val])
  | .ptog d => some (0x64, layR, [0, 0, 0, 0, d.toNat])
  | .gtop a b => some (0x65, layR, [0, 0, b.toNat, a.toNat, 0])
  | .tbit p a n inv => some (0x66, [6, 1, 16, 6, 6, 6, 6], [n.toNat, inv.toNat, 0, 0, 0, a.toNat, p.val])
  | .br o => some (0x70, [9, 6, 32], [0, 0, o.toNat])
  | .brr a l => some (0x71, layR1, [l.toNat, 0, 0, 0, a.toNat, 0])
  | .call o => some (0x72, [9, 6, 32], [0, 0, o.toNat])
  | .ret a => some (0x73, layR, [0, 0, 0, a.toNat, 0])
  | .loop n a l s y pb =>
    some (0x74, [12, 3, 2, 1, 5, 6, 6, 6, 6], [l.toNat, s.toNat, n.val, y.toNat, pb.toNat, 0, 0, a.toNat, 0])
  | .lbrk n => some (0x75, [2, 21, 6, 6, 6, 6], [n.val, 0, 0, 0, 0, 0])
  | .yield => some (0x76, layR, [0, 0, 0, 0, 0])
  | .exit => some (0x77, layR, [0, 0, 0, 0, 0])
  | .launch d a nb => some (0x78, layR1, [nb.toNat, 0, 0, 0, a.toNat, d.toNat])
  | .cancel d a b l => some (0x79, [2, 21, 6, 6, 6, 6], [l.code, 0, 0, b.toNat, a.toNat, d.toNat])
  | .waitc d a b l => some (0x7A, [2, 21, 6, 6, 6, 6], [l.code, 0, 0, b.toNat, a.toNat, d.toNat])
  | .sbar m => some (0x7B, [4, 19, 6, 6, 6, 6], [m.toNat, 0, 0, 0, 0, 0])
  | .trap c => some (0xF8, [3, 16, 16, 6, 6], [0, c.toNat, 0, 0, 0])
  | .brk c => some (0xF9, [16, 7, 6, 6, 6, 6], [c.toNat, 0, 0, 0, 0, 0])
  | .mfs d s => some (0xFA, [23, 12, 6, 6], [0, s.toNat, 0, d.toNat])
  | .mts s a => some (0xFB, [23, 12, 6, 6], [0, s.toNat, a.toNat, 0])
  | .rft => some (0xFC, layR, [0, 0, 0, 0, 0])
  | .tlbi a b k s => some (0xFD, [2, 2, 19, 6, 6, 6, 6], [k.code, s.code, 0, 0, b.toNat, a.toNat, 0])
  | .icinv a b s => some (0xFE, [2, 21, 6, 6, 6, 6], [s.code, 0, 0, b.toNat, a.toNat, 0])
  | .nop => some (0xFF, layR, [0, 0, 0, 0, 0])
  | .ld d m sx sz => some (0x80, layMem, memVals m d.toNat 0 sx sz.code)
  | .st c m sz => some (0x81, layMem, memVals m 0 c.toNat false sz.code)
  | .ldq d c m => some (0x82, layMem, memVals m d.toNat c.toNat false 0)
  | .stq dm b c k m => some (0x83, layMem, memVals { m with b := b } dm.toNat c.toNat k 0)
  | .ldt d m sx sz => some (0x84, layMem, memVals m d.toNat 0 sx sz.code)
  | .ldl d p m sz => some (0x85, layMem, memVals m d.toNat p.val false sz.code)
  | .stu c m sz => some (0x86, layMem, memVals m 0 c.toNat false sz.code)
  | .spamo d a b c off op x =>
    some (0x87, layAmo, [x.toNat, 1, 1, 0, 0, 0, op.code, off.toNat, c.toNat, b.toNat, a.toNat, d.toNat])
  | .amo d a b c off op x ord scp =>
    some (0x88, layAmo,
      [x.toNat, 1, 0, 0, ord.code, scp.code, op.code, off.toNat, c.toNat, b.toNat, a.toNat, d.toNat])
  | .amosc d a b c off op x =>
    some (0x89, layAmo, [x.toNat, 1, 0, 0, 4, 2, op.code, off.toNat, c.toNat, b.toNat, a.toNat, d.toNat])
  | .fence o s => some (0x8A, [4, 3, 2, 14, 6, 6, 6, 6], [0, o.code, s.code, 0, 0, 0, 0, 0])
  | .tfence s => some (0x8B, [7, 2, 14, 6, 6, 6, 6], [0, s.code, 0, 0, 0, 0, 0])
  | .cueinc w n a b s =>
    some (0x8C, [6, 1, 2, 14, 6, 6, 6, 6], [n.toNat, w.toNat, s.code, 0, 0, b.toNat, a.toNat, 0])
  | .cuewait n b s => some (0x8D, [6, 1, 2, 14, 6, 6, 6, 6], [n.toNat, 0, s.code, 0, 0, b.toNat, 0, 0])
  | .cuerd d w n a => some (0x8E, [6, 1, 16, 6, 6, 6, 6], [n.toNat, w.toNat, 0, 0, 0, a.toNat, d.toNat])
  | .tkpush m => some (0x8F, [5, 18, 6, 6, 6, 6], [m.toNat, 0, 0, 0, 0, 0])
  | .tkpop m => some (0x90, [5, 18, 6, 6, 6, 6], [m.toNat, 0, 0, 0, 0, 0])
  | .lwarm a b => some (0x91, layR, [0, 0, b.toNat, a.toNat, 0])
  | .lwwait a b => some (0x92, layR, [0, 0, b.toNat, a.toNat, 0])
  | .pref m llc => some (0x93, layMem, memVals m 0 0 false llc.toNat)
  | .cflush a b k s => some (0x94, [2, 5, 2, 14, 6, 6, 6, 6], [k.code, 0, s.code, 0, 0, b.toNat, a.toNat, 0])
  | .mapb a m => some (0x95, [2, 21, 6, 6, 6, 6], [m.code, 0, 0, 0, a.toNat, 0])
  | .vshape d a b c => some (0xA0, layR, [0, c.toNat, b.toNat, a.toNat, d.toNat])
  | .vadd v => some (0xA1, layV, vVals v)
  | .vsub v => some (0xA2, layV, vVals v)
  | .vmul v => some (0xA3, layV, vVals v)
  | .vfma v => some (0xA4, layV, vVals v)
  | .vmax v => some (0xA5, layV, vVals v)
  | .vmin v => some (0xA6, layV, vVals v)
  | .vlog v => some (0xA7, layV, vVals v)
  | .vsh v => some (0xA8, layV, vVals v)
  | .vcmp v => some (0xA9, layV, vVals v)
  | .vsel v => some (0xAA, layV, vVals v)
  | .vsfu v => some (0xAB, layV, vVals v)
  | .vcvt v => some (0xAC, layV, vVals v)
  | .vred v => some (0xAD, layV, vVals v)
  | .vbcast v => some (0xAE, layV, vVals v)
  | .vtrn v => some (0xAF, layV, vVals v)
  | .vpart v => some (0xB0, layV, vVals v)
  | .vgath v => some (0xB1, layV, vVals v)
  | .vscat v => some (0xB2, layV, vVals v)
  | .vgathm v => some (0xB3, layV, vVals v)
  | .vscan v => some (0xB4, layV, vVals v)
  | .viota v => some (0xB5, layV, vVals v)
  | .vtopk v => some (0xB6, layV, vVals v)
  | .vnorm v => some (0xB7, layV, vVals v)
  | .vrng v => some (0xB8, layV, vVals v)
  | .vquant v => some (0xB9, layV, vVals v)
  | .vdeq v => some (0xBA, layV, vVals v)
  | .vsample v => some (0xBB, layV, vVals v)
  | .vmovg v => some (0xBC, layV, vVals v)
  | .vcopy v => some (0xBD, layV, vVals v)
  | .mma t a b n => some (0xC0, [2, 17, 6, 6, 6, 5, 5], n.val :: 0 :: tVals t a.toNat b.toNat 0)
  | .mmaz t a b n => some (0xC1, [2, 17, 6, 6, 6, 5, 5], n.val :: 0 :: tVals t a.toNat b.toNat 0)
  | .mgma t a b c n g =>
    some (0xC2, [2, 3, 14, 6, 6, 6, 5, 5], n.val :: g.toNat :: 0 :: tVals t a.toNat b.toNat c.toNat)
  | .mdrain t a b c n f sm sat clr sc =>
    some (0xC3, [2, 4, 2, 1, 1, 4, 5, 6, 6, 6, 5, 5],
      n.val :: f.toNat :: sm.toNat :: sat.toNat :: clr.toNat :: sc.toNat :: 0 :: tVals t a.toNat b.toNat c.toNat)
  | .mldacc t a b n i => some (0xC4, [2, 1, 16, 6, 6, 6, 5, 5], n.val :: i.toNat :: 0 :: tVals t a.toNat b.toNat 0)
  | .mzero t m => some (0xC5, [4, 15, 6, 6, 6, 5, 5], m.toNat :: 0 :: tVals t 0 0 0)
  | .mamax t a n => some (0xC6, [2, 17, 6, 6, 6, 5, 5], n.val :: 0 :: tVals t a.toNat 0 0)
  | .fmtq a => some (0xC7, layR, [0, 0, 0, a.toNat, 0])
  | .attn t a => some (0xC8, [19, 6, 6, 6, 5, 5], 0 :: tVals t a.toNat 0 0)
  | .kvapp t a b c n v =>
    some (0xC9, [6, 1, 12, 6, 6, 6, 5, 5], n.toNat :: v.toNat :: 0 :: tVals t a.toNat b.toNat c.toNat)
  | .kvfork d a b => some (0xCA, layR, [0, 0, b.toNat, a.toNat, d.toNat])
  | .kvdrop a => some (0xCB, layR, [0, 0, 0, a.toNat, 0])
  | .kvclass a b k => some (0xCC, [2, 21, 6, 6, 6, 6], [k.toNat, 0, 0, b.toNat, a.toNat, 0])
  | .kvquery d a b => some (0xCD, layR, [0, 0, b.toNat, a.toNat, d.toNat])
  | .kvtrim a b => some (0xCE, layR, [0, 0, b.toNat, a.toNat, 0])
  | .cpy e d s scp => some (0xE0, layE, eVals e (pack [1, 1, 2, 9] [d.code, s.code, scp.code, 0]))
  | .cpyf e s => some (0xE1, layE, eVals e (pack [1, 1, 11] [0, s.code, 0]))
  | .cpyg e d scp f z =>
    some (0xE2, layE, eVals e (pack [1, 1, 2, 1, 1, 7] [d.code, 0, scp.code, f.toNat, z.toNat, 0]))
  | .cpys e scp => some (0xE3, layE, eVals e (pack [2, 2, 9] [0, scp.code, 0]))
  | .cpyz e d scp => some (0xE4, layE, eVals e (pack [1, 1, 2, 9] [d.code, 0, scp.code, 0]))
  | .tsobj t a b => some (0xE5, [19, 6, 6, 6, 5, 5], 0 :: tVals t a.toNat b.toNat 0)
  | .tsdrop t b => some (0xE6, [19, 6, 6, 6, 5, 5], 0 :: tVals t 0 b.toNat 0)
  | .xform e d s scp r =>
    some (0xE7, layE, eVals e (pack [1, 1, 2, 8, 1] [d.code, s.code, scp.code, r.toNat, 0]))
  | .card e => some (0xE8, layE, eVals e (pack [13] [0]))
  | .cardwt e => some (0xE9, layE, eVals e (pack [13] [0]))
  | .fld e sz o => some (0xF0, layE, eVals e (pack [3, 2, 2, 6] [sz.val, 0, o.code, 0]))
  | .fst e sz o => some (0xF1, layE, eVals e (pack [3, 2, 2, 6] [sz.val, 0, o.code, 0]))
  | .famo e op x o => some (0xF2, layE, eVals e (pack [4, 1, 2, 6] [op.code, x.toNat, o.code, 0]))
  | .fput e s o => some (0xF3, layE, eVals e (pack [1, 1, 3, 2, 6] [0, s.code, 0, o.code, 0]))
  | .fget e d o => some (0xF4, layE, eVals e (pack [1, 4, 2, 6] [d.code, 0, o.code, 0]))
  | .fsig e => some (0xF5, layE, eVals e (pack [13] [0]))
  | .ffence e => some (0xF6, layE, eVals e (pack [13] [0]))
  | _ => none

/-- Opcode and body of an instruction; none for a step of another agent. -/
def encodeBody (i : Instr) : Option (Nat × Nat) :=
  i.fields.map fun f => (f.1, pack f.2.1 f.2.2)

/-- N and G of a guard (R84, R85). -/
def encodeGuard : Guard → Nat × Nat
  | .always => (0, 31)
  | .never => (1, 31)
  | .pred p n => (n.toNat, p.val)

/-- The 62 bits of a syllable (R84); none for a step of another agent. -/
def encodeSyllable (s : Syllable) : Option Nat :=
  (encodeBody s.instr).map fun f =>
    pack [47, 8, 5, 1, 1] [f.2, f.1, (encodeGuard s.guard).2, (encodeGuard s.guard).1, s.k.toNat]

/-- A bundle of two syllables (R82). -/
def encodeBundle (s0 s1 : Nat) (sync : Bool) : Nat :=
  s0 + 2 ^ 62 * s1 + 2 ^ 127 * sync.toNat

/-- The canonical filler (R99). -/
def filler : Nat := 0x0FFF800000000000

/-- The words of a well-formed instruction: one syllable without guard or K, and the filler beside it. -/
def encode (i : Instr) : Option Nat :=
  (encodeSyllable ⟨false, .always, i⟩).map fun w => encodeBundle w filler false

end Sys2Proof
end

