-- ==== Sys2Proof/Config.lean ====
section
/-! DEFINITION. What an implementation or its manufacture fixes, and the free values: constants and functions with no body. -/

namespace Sys2Proof.Config

/-- A free number, named by the tick at which it is drawn (log 4). -/
opaque freeNat : Nat → Nat

/-- A free 64-bit value, named by the tick at which it is drawn (log 4). -/
opaque freeWord : Nat → BitVec 64

/-- A free bit, named by the tick at which it is drawn (log 4). -/
opaque freeBit : Nat → Bool

/-- Undefined contents of a scratchpad byte: bank generation and address (R42, R171; log 3). -/
opaque freeScratch : Nat → Nat → BitVec 8

/-- Undefined accumulator cells after a machine check (R219): tick and cell. -/
opaque freeCell : Nat → Nat → BitVec 32

/-- What byte `i` of a line stored under one key reads as under another (R319; log 12). -/
opaque garble : (stored read line i : Nat) → (plain : List (BitVec 8)) → BitVec 8

/-- What a vendor-signed transform routine computes (R271; log 14): routine, input, parameters, output bytes. -/
opaque transform : (routine : Nat) → (image input : List (BitVec 8)) → (t : Nat) → (n : Nat) → List (BitVec 8)

/-- How a transform routine ends (R271; log 14): none by ecall with x10 = 0; 0 by a trap, 1 by its time limit, n by ecall with
x10 = n − 1. -/
opaque transformFault : (routine : Nat) → (image input : List (BitVec 8)) → (t : Nat) → Option Nat

/-- The number a fault's detail gives an operand: A is 0 here, B is 1, C is 2 (R176, R401; log 29). -/
opaque operandNo : (operand : Nat) → Nat

/-- The hash that picks among working links: source device, source core, destination (R417; log 24). -/
opaque linkHash : (src core dst : Nat) → Nat

/-- The last bits of a transcendental function where exact enclosure does not decide them within the precision
the model works at (log 32): function, numerator and denominator of the argument. -/
opaque tieBreak : Nat → Int → Nat → Bool

/-- The key in ROM that verifies firmware images (R440): Qx then Qy. -/
opaque romKey : List (BitVec 8)

/-- The key a firmware image carries for its configuration blob (R441): from the image's bytes. -/
opaque blobKey : List (BitVec 8) → List (BitVec 8)

/-- Bytes of the mailbox's fixed tables that the spec leaves open (R442): response code and offset. -/
opaque spdmByte : (code offset : Nat) → BitVec 8

/-- Core clocks that pass in one step of the model on a core (R102; log 9). -/
opaque clocks : (step core : Nat) → Nat

/-- Which of the actions the part can take comes next where nothing else says so (log 6). -/
opaque nextAct : (step : Nat) → Nat

end Sys2Proof.Config
end

