-- ==== Sys2Proof/Machine/State.lean ====
section
/-! DEFINITION. The state of the whole package as plain data, its reset, and the closed types Fault and Refusal. -/

namespace Sys2Proof.Machine

/-! ## Ordering data (chapter 10) -/

/-- What a release makes visible: its scope, the core of its agent (256: not a core), the writes that happen before it (R292, R295). -/
structure Rel where
  scp : Scope
  agent : Nat
  ids : List Nat
  deriving DecidableEq, Repr

/-- Who wrote a byte last and the releases a read of it may synchronise with (R292). -/
structure Meta where
  wid : Nat
  rels : List Rel
  deriving DecidableEq, Repr

/-- The metadata of a byte nothing has written. -/
def Meta.zero : Meta := ⟨0, []⟩

/-- Ordering state of a strand (R292 to R295): writes that happen before its next access; writes it made or read, which its
next release covers; its earlier release fences; releases read but not yet acquired; lines it wrote that are not yet performed
at .sys (R288); the number of its scratchpad stores since its latest release, 0 before the first (R43). -/
structure OrdSt where
  hb : List Nat
  own : List Nat
  fence : List Rel
  unacq : List Rel
  lines : List Nat
  sid : Nat
  deriving DecidableEq, Repr

/-- No ordering yet. -/
def OrdSt.zero : OrdSt := ⟨[], [], [], [], [], 0⟩

/-! ## Strands (chapters 01, 04) -/

/-- A destination of a fixed-latency operation (R17). -/
inductive Dst where
  | reg (r : Reg)
  | pred (p : Pred)
  deriving DecidableEq, Repr

/-- A fixed-latency operation in flight (R16 to R22): bundle it issued in, bundle that first reads it, K, destination, value, flags. -/
structure Pend where
  issued : Nat
  ready : Nat
  k : Bool
  dst : Dst
  val : Word
  flags : BitVec 9
  deriving DecidableEq, Repr

/-- What a pending scoreboarded operation still has to do (R16, R19): nothing but write; a global load to perform; a spamo
whose lock another strand holds. -/
inductive SbWork where
  | done
  | load (pa len : Nat) (kid : Nat) (cmp : Bool) (sx : Bool)
  | spamo (addr : Nat) (op : Aop) (dbl : Bool) (b c : Word)
  deriving DecidableEq, Repr

/-- A pending scoreboarded operation: number, destinations, values for them, flags, work left. -/
structure Sb where
  id : Nat
  dst : List Reg
  vals : List Word
  flags : BitVec 9
  work : SbWork
  deriving DecidableEq, Repr

/-- A hardware loop controller (R128): idle is none. `order` numbers the moment it was made live. -/
structure LoopC where
  start : Word
  stop : Word
  n : Word
  s : Nat
  pb : Nat
  i : Nat
  y : Bool
  sup : Bool
  order : Nat
  deriving DecidableEq, Repr

/-- What a strand waits in (R131, R339). -/
inductive Wait where
  | cue
  | token
  | land
  | waitc
  | sbar (mask : Nat)
  | sync
  | queue
  | fifoFull
  | launch
  | debug
  | encore
  | lock
  deriving DecidableEq, Repr

/-- Condition of a strand (R15, R47, R131, R132). -/
inductive StrandCond where
  | exited
  | ready
  | waiting (w : Wait)
  | parked
  deriving DecidableEq, Repr

/-- One strand (R13, R100). -/
structure Strand where
  g : Tab Word
  p : BitVec 24
  lc : Quad (Option LoopC)
  pc : Word
  sup : Bool
  lkstep : Bool
  xflags : Word
  rmode : Word
  tshape : Word
  tvec : Word
  tpc : Word
  tcause : Word
  tsub : Word
  tval : Word
  tscratch : Word
  tstatus : Word
  cond : StrandCond
  n : Nat
  pend : List Pend
  sb : List Sb
  sbNext : Nat
  lcNext : Nat
  ord : OrdSt
  /-- The next bundle is single-stepped (R456). -/
  stepPend : Bool
  /-- Address of a bundle whose sbar the strand has left and which has not yet completed (R133). -/
  passed : Option Word
  /-- The trap's next bundle may not issue before every scoreboarded operation has written (R20). -/
  drain : Bool
  deriving DecidableEq, Repr

/-- A strand before any iteration. -/
def Strand.zero : Strand :=
  { g := [], p := 0, lc := Quad.all none, pc := 0, sup := false, lkstep := false, xflags := 0, rmode := 0, tshape := 0,
    tvec := 0, tpc := 0, tcause := 0, tsub := 0, tval := 0, tscratch := 0, tstatus := 0, cond := .exited, n := 0,
    pend := [], sb := [], sbNext := 0, lcNext := 0, ord := OrdSt.zero, stepPend := false, passed := none, drain := false }

/-! ## Traps -/

/-- A cause with its sub-cause and value (R401). -/
structure Trap where
  cause : Nat
  sub : Nat
  val : Word
  deriving DecidableEq, Repr

/-! ## Engines (R23 to R30, R396 to R400) -/

/-- Progress of the attention a command holds (R236, R239, R241): no cask of this execution yet done, next cask, positions done,
running maxima, sums, outputs as FP32 patterns. -/
structure AttnProg where
  first : Bool
  next : Nat
  done : Nat
  m : List Nat
  l : List Nat
  o : List Nat
  deriving DecidableEq, Repr

/-- Progress of the head command of an engine. -/
inductive Prog where
  | none
  | rows (n s0 : Nat)
  | attn (a : AttnProg)
  | wait (n : Nat)
  /-- Bytes a product has consumed of its A and B streams while it waits for the rest (R210). -/
  | stream (a b : List Byte)
  /-- Chunks of an fput or fget still to be performed (R260). -/
  | chunks (l : List Nat)
  deriving DecidableEq, Repr

/-- A command in an engine queue with everything it captured (R23) and what it keeps over a fault (R218, R386). -/
structure Cmd where
  instr : Instr
  strand : Fin 4
  a : Word
  b : Word
  c : Word
  tshape : Word
  sup : Bool
  syl : Nat
  popped : Bool
  word : Option Word
  prog : Prog
  prologue : Bool
  /-- The shape object taken at start (R262). -/
  obj : List Byte
  /-- Number of a started F command (R185); 0 for those of the other engines. -/
  num : Nat
  /-- The descriptor of the instance under way (R268), and the routine an xform started with and its output under way (R271, R431). -/
  desc : List Byte
  routine : Option (List Byte)
  out : List Byte
  /-- Destination bytes written and not yet delivered, by 128-byte block (R269). -/
  blk : List (Nat × Nat × List Nat)
  deriving DecidableEq, Repr

/-- What a started command holds until it finishes: flags (R81), poisoned rows it replaced as (i, idx, address) (R205, R260),
the AMAX update of a drain (R77), the global writes it made (R30) and the lines they are in (R288), the numbers of its scratchpad
writes by what delivers them: a 128-byte block's, numbered from 1, or the command's, 0 (R43, R301). -/
structure Commit where
  flags : BitVec 9
  repl : List (Nat × Nat × Nat)
  amax : Option (Fin 4 × Nat × Bool)
  ids : List Nat
  lines : List Nat
  sids : Tab Nat
  deriving DecidableEq, Repr

/-- Nothing held. -/
def Commit.zero : Commit := ⟨0, [], none, [], [], []⟩

/-- All writes a command made. -/
def Commit.all (x : Commit) : List Nat := x.ids ++ x.sids.map (·.2)

/-- An F command under way (R281, R283, R418, R422): its number, what it holds, its requests without response as (device, sequence
number, chunk), chunks not yet granted as (device, die, chunk), data of an fget's chunks not yet written, and the
first fault met. -/
structure Fly where
  num : Nat
  cmd : Cmd
  com : Commit
  out : List (Nat × Nat × Nat)
  left : List (Nat × Nat × Nat)
  got : Tab (List Byte)
  fault : Option Trap
  deriving DecidableEq, Repr

/-- Phase of an engine's head command: not started, executed with what it holds, faulted with the record to be written,
stopped on a recorded fault that no strand has taken yet, stopped. -/
inductive Phase where
  | idle
  | running (c : Commit)
  | faulting (t : Trap)
  | raised
  | stopped
  deriving DecidableEq, Repr

/-- One engine (R23, R399, R400): `hb` the writes its commands carry (R293, R295), `flight` the commands of F under way. -/
structure Engine where
  q : List Cmd
  phase : Phase
  pend : Bool
  cause : Nat
  detail : Nat
  tval : Word
  halt : Bool
  /-- ACT written and not yet taken up, and the commands then in the queue (R399). -/
  act : Nat
  actN : Nat
  hb : List Nat
  flight : List Fly
  flyNext : Nat
  /-- What a command that faulted goes on holding (R205, R386, R399). -/
  kept : Commit
  deriving DecidableEq, Repr

/-- An engine at core bring-up. -/
def Engine.zero : Engine := ⟨[], .idle, false, 0, 0, 0, false, 0, 0, [], [], 0, Commit.zero⟩

/-- A request to a lender that the M command of a core waits for (R240, R246): a write or a read, which part of a write, the borrower's cask id, the
die and sequence number of the request, whether the lender was lost, the answer; the sequence entry and the descriptor that a boundary
had read, each with its place (R240). -/
structure KvRem where
  wr : Bool
  part : Nat
  cask : Nat
  die : Nat
  seq : Nat
  lost : Bool
  data : Option (List Byte)
  ent : Nat × List Byte
  desc : Nat × List Byte
  deriving DecidableEq, Repr

/-- A token in a handoff FIFO with the writes its push releases (R30, R165), its causal stamp (R453) and its pusher's agent number (R452). -/
structure Tokn where
  ids : List Nat
  stamp : Nat
  src : Nat
  deriving DecidableEq, Repr

/-- Accumulator states (R215). -/
inductive AccKind where
  | clear
  | fp32
  | int32
  deriving DecidableEq, Repr

/-- One accumulator: state and the non-zero cells, numbered 64 i + j. -/
structure Acc where
  kind : AccKind
  cells : Tab (BitVec 32)
  deriving DecidableEq, Repr

/-- A CLEAR accumulator (R215). -/
def Acc.zero : Acc := ⟨.clear, []⟩

/-- A byte V writes that V does not yet see (R181): address, value before, step from which the new one is visible. -/
structure VHist where
  addr : Nat
  old : Byte
  visible : Word
  deriving DecidableEq, Repr

/-- The latest write of an aligned 8-byte word of scratchpad (R43): the agent (a strand, or 4 and the engine) and its write's number, the
word's 8 bytes before it, and the agents that the write happens before. A read by any other agent may still find the bytes before. -/
structure Torn where
  who : Nat
  id : Nat
  old : List Byte
  seen : List Nat
  deriving DecidableEq, Repr

/-! ## Core memory structures -/

/-- A posted store not yet performed at the home slice (R147, R307): what it waits for, what happens before it, the releases it
carries, the lines that are to be performed at .sys before it (R148). -/
structure WEnt where
  id : Nat
  strand : Fin 4
  bytes : List (Nat × Byte)
  kid : Nat
  cmp : Bool
  after : List Nat
  hb : List Nat
  rels : List Rel
  sys : List Nat
  deriving DecidableEq, Repr

/-- A TLB entry (R392): virtual address divided by the span of its level, level, ASID, the leaf or, in a die's TLB, the table
pointer, global. -/
structure TlbEnt where
  va : Nat
  lvl : Nat
  asid : Nat
  e : Nat
  glob : Bool
  deriving DecidableEq, Repr

/-- A bundle held in the instruction cache (R142): virtual and physical address, bits. -/
structure IcEnt where
  va : Nat
  pa : Nat
  w : Nat
  deriving DecidableEq, Repr

/-- A line of the table cache (R317) with the metadata of its bytes (R295). -/
structure TcLine where
  line : Nat
  kid : Nat
  data : List Byte
  mts : List Meta
  deriving DecidableEq, Repr

/-- A line of the core's data cache (R307): its bank is its way. -/
structure DcLine where
  line : Nat
  kid : Nat
  way : Nat
  dirty : Bool
  deriving DecidableEq, Repr

/-- What the part keeps of a saved context beside its image, whose format has no place for it (R23, R51, R386): the captured modes of
the saved commands in their order, and when each live loop of each strand was made live. -/
structure Kept where
  sups : List Bool
  loops : Quad (Quad Nat)
  deriving DecidableEq, Repr

/-- A running or staged iteration's context (R379, R380). -/
structure Ctx where
  iter : Nat
  launch : Nat
  cancelled : Bool
  fatal : Bool
  yreq : Bool
  slot : Option Nat
  draining : Bool
  /-- The strands' work is over and its engines still run a pre-emption drain (R383). -/
  preDrain : Bool
  /-- Prologue commands not yet enqueued (R272, R379). -/
  prologue : List Cmd
  /-- Order in which contexts entered RUNNING (R377). -/
  order : Nat
  /-- No further pre-emption request after a failed image (R383). -/
  noReq : Bool
  /-- An image is being taken up (R387). -/
  restored : Bool
  /-- Writes its engine commands made, for its completion's release (R293), and the lines they are in (R270). -/
  wrote : List Nat
  lines : List Nat
  deriving DecidableEq, Repr

/-- The understudy (R379): its context, whether its banks are prepared, staged FIFO counts and staged CFLAGS, the fault its first
prologue command has met and what that command goes on holding (R260). -/
structure Under where
  ctx : Ctx
  banked : Bool
  fifos : Tab (List Tokn)
  cflags : BitVec 9
  fault : Option Trap
  com : Commit
  deriving DecidableEq, Repr

/-- An entry of the poison log (R449): address, index, row, launch, engine code, cycle. -/
structure PlogEnt where
  addr : Nat
  idx : Nat
  i : Nat
  launch : Nat
  eng : Nat
  cycle : Word
  deriving DecidableEq, Repr

/-- One core (R12, R51). -/
structure Core where
  st : Quad Strand
  eng : Quad Engine
  fifo : Tab (List Tokn)
  cues : Tab (BitVec 32)
  cueRels : Tab (List Rel)
  /-- Largest causal stamp received with an increment, and the last increment's source: device, core, agent (R453, R455). -/
  cueStamp : Tab Nat
  cueSrc : Tab (Nat × Nat × Nat)
  scratch : Mem
  scrMeta : Tab Meta
  /-- Aligned 8-byte words of scratchpad, by number, that some agents may still read as they were (R43). -/
  torn : Tab Torn
  bankMode : Tab BankMode
  bankEpoch : Tab Nat
  rings : Tab (List Byte)
  locks : Tab (Fin 4)
  lockRels : Tab (List Nat)
  /-- Strand that last took each lock (R157). -/
  lockLast : Tab Nat
  pendRows : List (Nat × Eng × Nat)
  /-- Writes each landing word's generations have released, and those of deliveries counted since its last one (R301). -/
  landRels : Tab (List Nat)
  landOpen : Tab (List Nat)
  /-- Causal stamp and agent of the last delivery to each landing word (R453, R455). -/
  landStamp : Tab Nat
  landSrc : Tab Nat
  /-- Agent that last popped each FIFO (R455). -/
  fifoPop : Tab Nat
  acc : Quad Acc
  amax : Quad Word
  fmtq : List Word
  iterId : Word
  launchId : Word
  jobId : Word
  phaseId : Word
  graphId : Word
  keyid : Word
  ptbase : Word
  asid : Word
  brkctl : Word
  tracectl : Word
  pendchk : Word
  cycle : Word
  tlb : List TlbEnt
  ic : List IcEnt
  tc : List TcLine
  /-- Writes below this number were made before the core's latest tfence (R152). -/
  tfWid : Nat
  dc : List DcLine
  wbuf : List WEnt
  vstep : Word
  vhist : List VHist
  /-- Latest visibility step of every V command so far (R180). -/
  vvis : Word
  run : Option Ctx
  under : Option Under
  budget : BitVec 32
  stamp : BitVec 32
  poisonRepl : Word
  sramCe : Word
  sramUe : Word
  traceLost : Word
  plogHead : Word
  plog : Tab PlogEnt
  kvRem : List KvRem
  stopReq : Bool
  stopped : Bool
  /-- A strand has reached the point of a debug stop (R457): which, and the kernel iteration it was in. -/
  dbgHit : Option (Fin 4 × Nat)
  dbgImg : Word
  /-- What the image of a debug stop has no place for (R457). -/
  dbgKept : Option Kept
  traceN : Nat
  traceDrop : Nat
  ueWords : List Nat
  deriving DecidableEq, Repr

/-- A core at bring-up. -/
def Core.zero : Core :=
  { st := Quad.all Strand.zero, eng := Quad.all Engine.zero, fifo := [], cues := [], cueRels := [], cueStamp := [], cueSrc := [], scratch := [],
    scrMeta := [], torn := [], bankMode := [], bankEpoch := [], rings := [], locks := [], lockRels := [], lockLast := [],
    pendRows := [], landRels := [], landOpen := [], landStamp := [], landSrc := [], fifoPop := [], acc := Quad.all Acc.zero, amax := Quad.all 0, fmtq := [], iterId := 0, launchId := 0,
    jobId := 0, phaseId := 0, graphId := 0, keyid := 0, ptbase := 0, asid := 0, brkctl := 0, tracectl := 0, pendchk := 0,
    cycle := 0, tlb := [], ic := [], tc := [], tfWid := 0, dc := [], wbuf := [], vstep := 0, vhist := [], vvis := 0, run := none,
    under := none, budget := 0, stamp := 0, poisonRepl := 0, sramCe := 0, sramUe := 0, traceLost := 0, plogHead := 0,
    plog := [], kvRem := [], stopReq := false, stopped := false, dbgHit := none, dbgImg := 0, dbgKept := none, traceN := 0, traceDrop := 0, ueWords := [] }

/-! ## Compute dies (chapters 10, 11, 16, 17) -/

/-- A line of an LLC slice (R309): line number, key ID, code, CMP, dirty, poison, guest copy, plaintext. -/
structure Line where
  line : Nat
  kid : Nat
  code : Nat
  cmp : Bool
  dirty : Bool
  poison : Bool
  guest : Bool
  data : List Byte
  deriving DecidableEq, Repr

/-- A byte a die copy still shows in place of the home's newer one (R287, R297). -/
structure Stale where
  val : Byte
  m : Meta
  deriving DecidableEq, Repr

/-- An update sent to a die and not yet applied there (R288, R297). -/
structure Upd where
  wid : Nat
  bytes : List (Nat × Byte)
  rels : List Rel
  hb : List Nat
  deriving DecidableEq, Repr

/-- Where a released value goes: a pool of a die, or back to the lender of a cask as (device, cask there) (R250). -/
inductive GiveTo where
  | pool (die p v : Nat)
  | lender (dev cask : Nat)
  deriving DecidableEq, Repr

/-- A release under way (R250): the core whose iteration it is of, if of one; the cask it waits for a walker to leave. -/
structure Give where
  core : Option Nat
  cask : Option Nat
  dest : GiveTo
  deriving DecidableEq, Repr

/-- One compute die. -/
structure Die where
  sets : Tab (List Line)
  counters : Tab Nat
  upds : List Upd
  stale : Tab Stale
  shapes : Tab (Nat × List Byte)
  tlb : List TlbEnt
  /-- Key material of each loaded key ID (R410). -/
  keys : Tab Nat
  drainMax : Nat
  errLog : Word
  errCnt : Word
  /-- DRR lists per level (R376): jobs in circular order, the pointer's job first. -/
  drr : Tab (List Nat)
  deficit : Tab Int
  /-- Slots reserved for COHORT nodes (core, node; R378), pre-emption requests outstanding (core, level; R377), jobs whose
  iterations left RUNNING and are still to be charged (R376). -/
  resv : List (Nat × Nat)
  reqs : List (Nat × Nat)
  owed : List Nat
  /-- Storage pools the Cellarer is refilling up to HIGH (R428). -/
  demoting : List Nat
  /-- Releases its Cellarer still has to make (R250). -/
  gives : List Give
  /-- Cellarer page (R425) by offset. -/
  cell : Tab Word
  mcHead : Word
  /-- Machine-check log (R447): the 32 bytes of each entry. -/
  mcLog : Tab (List Byte)
  deriving DecidableEq, Repr

/-- A die at bring-up. -/
def Die.zero : Die :=
  { sets := [], counters := [], upds := [], stale := [], shapes := [], tlb := [], keys := [], drainMax := 0x100000,
    errLog := 0, errCnt := 0, drr := [], deficit := [], resv := [], reqs := [], owed := [], demoting := [], gives := [], cell := [(0x60, 0x100000)], mcHead := 0, mcLog := [] }

/-! ## Stage Manager coordinator (R368 to R387) -/

/-- A job slot (R368); its read-only counts are computed (State.jobLive, State.jobRunning). `count` is the job's completion counter:
nodes of it that have ended (R44). -/
structure JobSlot where
  cancelled : Bool
  jobid : Nat
  weight : Nat
  maxprio : Nat
  keyid : Nat
  asid : Nat
  ptbase : Word
  tvec : Word
  brkctl : Word
  tracectl : Word
  pendchk : Word
  engctl : Word
  frbase : Word
  count : Nat
  deriving DecidableEq, Repr

/-- The translation a request is made under: PTBASE, ASID, KEYID and the mode. -/
structure Space3 where
  ptbase : Word
  asid : Word
  keyid : Word
  sup : Bool
  deriving DecidableEq, Repr

/-- A footprint region (R369). -/
structure Region where
  base : Nat
  len : Nat
  w : Bool
  deriving DecidableEq, Repr

/-- An accepted loop-nest record (R45). -/
structure Launch where
  entry : Quad Word
  bound : Quad Nat
  dims : Nat
  order : Nat
  cohort : Bool
  preempt : Bool
  encore : Bool
  prio : Nat
  budget : BitVec 32
  cachemask : BitVec 32
  argptr : Word
  placekind : Nat
  placeptr : Word
  saveptr : Word
  nslot : Nat
  prologue : List Cmd
  deriving DecidableEq, Repr

/-- A job card (R273, R274) as read when it was entered, with its submitting core's causal stamp (R453); the vocabulary it took at
its start with its slot (R326); how it has ended, as state and detail, once its outcome is settled (R336). -/
structure Card where
  addr : Word
  kind : Nat
  eng : Nat
  cueCore : Nat
  cueNum : Nat
  cueAmt : Nat
  core : Nat
  stamp : Nat
  vslot : Option Nat
  vocab : List Byte
  out : Option (Nat × Nat)
  deriving DecidableEq, Repr

/-- What a node is (R369). -/
inductive NodeKind where
  | launch (l : Launch)
  | card (c : Card)
  deriving DecidableEq, Repr

/-- States of an iteration that has one (R380). -/
inductive IterSt where
  | eligible
  | staged
  | running
  | yielded
  | draining
  deriving DecidableEq, Repr

/-- An iteration that has been placed on a die and has not ended. -/
structure Iter where
  n : Nat
  idx : Quad Nat
  die : Nat
  st : IterSt
  core : Option Nat
  slot : Option Nat
  /-- Image outside the launch's save area that it resumes from (R408 IMAGE_RESUME). -/
  img : Option Word
  kept : Option Kept
  deriving DecidableEq, Repr

/-- A live node (R370, R371). -/
structure Node where
  id : Nat
  die : Nat
  job : Nat
  phase : Nat
  graph : Nat
  seq : Nat
  kind : NodeKind
  space : Space3
  regions : List Region
  deps : List Nat
  started : Bool
  startOrder : Nat
  cancelled : Bool
  badIter : Bool
  hb : List Nat
  /-- Iterations the walker has visited (R373). -/
  walker : Nat
  iters : List Iter
  complete : Nat
  usedSlots : List Nat
  /-- Engine a running card has (Prompters 0 to 7, Narrators 8 to 15). -/
  engine : Option Nat
  /-- Writes its iterations made, for its completion's release. -/
  rel : List Nat
  deriving DecidableEq, Repr

/-- The recorded end of a launch: its job, id and die, its outcome, the writes its completion releases (R137, R372). -/
structure Ended where
  job : Nat
  a : Nat
  b : Nat
  cancelled : Bool
  rel : List Nat
  deriving DecidableEq, Repr

/-- A graph, or a phase under graph number 0, that a node has named (R44, R137, R372): its completion counter, which counts nodes
of it that have ended; the ids given in it while it is live (R134); whether a node of it ended cancelled; the writes its completion
releases. -/
structure Group where
  job : Nat
  phase : Nat
  graph : Nat
  count : Nat
  ids : List Nat
  cancelled : Bool
  rel : List Nat
  deriving DecidableEq, Repr

/-! ## What issues the instruction under execution (the model's own; log 5) -/

/-- Issue context: core, strand, slot, address and raw bits of the syllable, K; what the bundle has decided so far: next PC,
taken branch, trap taken, wait, exit, park, system register writes that wait for the bundle's end, destinations. -/
structure Issue where
  core : Nat
  strand : Fin 4
  slot : Nat
  pc : Word
  k : Bool
  syl : Nat
  redirect : Option Word
  taken : Bool
  noStep : Bool
  trapped : Option Trap
  held : Option Wait
  sysw : List (Nat × Word)
  ret : Option Bool
  exits : Bool
  parks : Bool
  deriving DecidableEq, Repr

/-- No instruction is under execution. -/
def Issue.zero : Issue :=
  { core := 0, strand := 0, slot := 0, pc := 0, k := false, syl := 0, redirect := none, taken := false, noStep := false,
    trapped := none, held := none, sysw := [], ret := none, exits := false, parks := false }

/-- What moves next: a strand issues a bundle, or another agent takes a step (log 6). -/
inductive Act where
  | strand (core : Nat) (t : Fin 4)
  | ev (i : Instr)
  /-- A replay delivers its next captured message (R462). -/
  | replay
  deriving DecidableEq, Repr

/-! ## The I/O die -/

/-- A Kasupra link (R419, R420): its registers, keys by epoch, the old epoch's held for each direction, transmit count, replay buffer,
the flit that has been asked for again with how often, failures of the flit that fails to arrive now, number of the last good one. -/
structure Link where
  epoch : Nat
  key : Option Nat
  nextKey : Option Nat
  oldTx : Option Nat
  oldRx : Option Nat
  authFail : Word
  lseq : Nat
  txCount : Word
  replay : List Flit
  txFail : Nat × Nat
  rxFails : Nat
  rxGood : Option Nat
  deriving DecidableEq, Repr

/-- A link at reset. -/
def Link.zero : Link := ⟨0, none, none, none, none, 0, 0, 0, [], (0, 0), 0, none⟩

/-- A request this device waits for (R418): the request, the number of its F command or, for a Cellarer's, of the core whose M command waits (none: nobody), resends made, whether
it was discarded on its way (R417). -/
structure OutReq where
  req : FabReq
  fly : Option Nat
  tries : Nat
  dead : Bool
  deriving DecidableEq, Repr

/-- Chunks a source has announced to this device (R422): source device and core, command, the receiving dies of the chunks still to be
granted and of those outstanding. -/
structure Demand where
  src : Nat
  core : Nat
  cmd : Nat
  left : List Nat
  outst : List Nat
  deriving DecidableEq, Repr

/-- What arrived from one source core (R418): next sequence number, those performed ahead of it; for a core of this device, the writes of
its finished F commands, which its fsig and .rel commands release (R303). -/
structure SrcSeq where
  next : Nat
  ahead : List Nat
  hb : List Nat
  deriving DecidableEq, Repr

/-- The configuration entries of R441. -/
structure Blob where
  never : List (Func × Nat)
  hostKey : Option Nat
  vocabKey : Option (List Byte)
  power : Nat
  clock : Nat
  deriving DecidableEq, Repr

/-- The management core: its PC as the boot chain sets it and machine mode (R432, R440), its blocks, boot memory and mailbox (R435 to
R443). -/
structure Mgmt where
  pc : Word
  machine : Bool
  flash : Mem
  sram : Mem
  shaSrc : Word
  shaLen : Word
  shaBusy : Bool
  shaDig : List Byte
  /-- What the operation a block is busy with will leave: digest, validity, bytes to extend with. -/
  shaNext : List Byte
  eccNext : Bool
  measNext : List Byte
  eccDig : Word
  eccSig : Word
  eccKey : Word
  eccSel : Bool
  eccBusy : Bool
  eccValid : Bool
  measSrc : Word
  measBusy : Bool
  measCount : Nat
  meas0 : List Byte
  bootStatus : Nat
  go : Bool
  /-- The entry of a verified image; a firmware image has been entered. -/
  entry : Option Nat
  entered : Bool
  /-- The request the mailbox holds, and the response buffer (R435, R436). -/
  req : Option (List Byte)
  rsp : List Byte
  /-- The latest response sent: object type and bytes. -/
  sent : Option (Nat × List Byte)
  deriving DecidableEq, Repr

/-- The management core at package reset (R432). -/
def Mgmt.zero : Mgmt :=
  { pc := 0, machine := true, flash := [], sram := [], shaSrc := 0, shaLen := 0, shaBusy := false, shaDig := List.replicate 48 0,
    shaNext := [], eccNext := false, measNext := [], eccDig := 0, eccSig := 0,
    eccKey := 0, eccSel := false, eccBusy := false, eccValid := false, measSrc := 0, measBusy := false, measCount := 0,
    meas0 := List.replicate 48 0, bootStatus := 0, go := false, entry := none, entered := false, req := none, rsp := [],
    sent := none }

/-- Functions of the I/O die and the outside interfaces. -/
structure Iod where
  /-- FAB_DEVNUM and FAB_RETRY (R415, R418). -/
  devnum : Nat
  fabRetry : Word
  /-- Route table entries (R416). -/
  route : Tab Word
  links : Tab Link
  outReqs : List OutReq
  /-- Next sequence number by core × 4096 + device, and what arrived by device × 1024 + core. -/
  seqNext : Tab Nat
  srcSeqs : Tab SrcSeq
  inbound : List FabReq
  demands : List Demand
  /-- The readiness map (R433): the functions that are ready. -/
  ready : List (Func × Nat)
  /-- CXL range registers (R424): 8-byte register k of range r at 4 r + k. -/
  cxlReg : Tab Word
  /-- Encore registers (R460): mode, base, size, head, diverge, overflow, key ID and job. -/
  encMode : Nat
  encBase : Nat
  encSize : Nat
  encHead : Nat
  encDiverge : Bool
  encOvf : Bool
  encKid : Nat
  encJob : Nat
  encSeq : Nat
  /-- Operations each capture agent has counted (R459): launch sequence, iteration, agent, count. -/
  encCnt : List (Nat × Nat × Nat × Nat)
  /-- Capture records a replay has consumed, by sequence number (R462). -/
  encDone : List Nat
  /-- Transform routines loaded (R431). -/
  routines : Tab (List Byte)
  /-- Host memory as DMA finds it; an unlisted byte does not answer (log 33). -/
  host : Mem
  /-- Host interface registers (R405), capsules pending, and those in progress as read (R407). -/
  capBase : Word
  hifHead : Nat
  hifTail : Nat
  hifStopped : Bool
  hifReady : Bool
  inProg : List (Nat × List Byte)
  /-- MSI-X messages signalled, oldest first (R403). -/
  msix : List Nat
  /-- Vocabulary slots (R325), the service table (R413), open flows (R334), messages sent as (port, flow, bytes). -/
  vocab : Tab (List Byte)
  svc : Tab (List Byte)
  flows : List (Nat × Nat)
  sentMsgs : List (Nat × Nat × List Byte)
  /-- Next slot sequence number of each service's inbox (R414), and causal stamps that card completions carry (R453). -/
  svcSeq : Tab Nat
  cardStamp : Tab Nat
  /-- Management log: events of R414. -/
  mgmtLog : List Nat
  blob : Option Blob
  mgmt : Mgmt
  /-- Telemetry (R466). -/
  pwrPkg : Word
  temp : Word
  clkMhz : Nat
  thrEvents : Word
  thrMs : Word
  deriving DecidableEq, Repr

/-- The I/O die after reset. -/
def Iod.zero : Iod :=
  { devnum := 0xFFF, fabRetry := 0x100000, route := [], links := [], outReqs := [], seqNext := [], srcSeqs := [], inbound := [],
    demands := [], ready := [], cxlReg := [], encMode := 0, encBase := 0, encSize := 0, encHead := 0, encDiverge := false,
    encOvf := false, encKid := 0, encJob := 0, encSeq := 0, encCnt := [], encDone := [], routines := [], host := [], capBase := 0,
    hifHead := 0, hifTail := 0, hifStopped := false, hifReady := false, inProg := [], msix := [], vocab := [], svc := [],
    flows := [], sentMsgs := [], svcSeq := [], cardStamp := [], mgmtLog := [], blob := none, mgmt := Mgmt.zero, pwrPkg := 0, temp := 0, clkMhz := 4000,
    thrEvents := 0, thrMs := 0 }

/-! ## The package -/

/-- The state of the whole G7. -/
structure State where
  cores : Tab Core
  dies : Quad Die
  iod : Iod
  /-- Memory below the LLC (R304): plaintext under the key it is stored under. -/
  dram : Mem
  /-- Key material each line below the LLC is stored under (R319); unlisted: never written under a key. -/
  lineKey : Tab Nat
  /-- Lines stored poisoned (R318). -/
  poisoned : Tab Bool
  /-- Last writer and releases of each byte of global memory (R292). -/
  gmeta : Tab Meta
  jobs : Tab JobSlot
  nodes : List Node
  nodeNext : Nat
  orderNext : Nat
  endedNodes : List Ended
  graphs : List Group
  phases : List Group
  cancelledGraphs : List (Nat × Nat × Nat)
  cancelledPhases : List (Nat × Nat)
  seqs : Tab Nat
  scTicket : Nat
  scSet : List Nat
  widNext : Nat
  iss : Issue
  agenda : List Act
  tick : Nat
  powered : Bool
  deriving DecidableEq, Repr

/-- The machine right after package reset: every register at the value the spec states, the rest as the log names. -/
def State.reset : State :=
  { cores := [], dies := Quad.all Die.zero, iod := Iod.zero, dram := [], lineKey := [], poisoned := [], gmeta := [], jobs := [],
    nodes := [], nodeNext := 0, orderNext := 0, endedNodes := [], graphs := [], phases := [], cancelledGraphs := [],
    cancelledPhases := [], seqs := [], scTicket := 0, scSet := [], widNext := 1, iss := Issue.zero, agenda := [], tick := 0,
    powered := true }

/-- What stops the machine. -/
inductive Fault where
  /-- Raised by step when the part has shut down for heat (R465) and anything but a package reset is asked of it; safe. -/
  | shutDown
  deriving DecidableEq, Repr

/-- Instructions without a meaning. -/
inductive Refusal where
  /-- Raised by an arm of Dispatch.lean for an instruction the model gives no meaning; safe. -/
  | notModelled (mnemonic : String)
  deriving DecidableEq, Repr

end Sys2Proof.Machine
end

