-- ==== Sys2Proof/Machine/Llc.lean ====
section
/-! DEFINITION. The line codes of the compressed last-level cache (R310, R311) and the arithmetic of where a line lives (R304, R305). -/

namespace Sys2Proof.Machine

/-- The home die of a physical address: HBM by its 128 GiB range, CXL by PA[15:14]; none where nothing is populated (R4, R304). -/
def homeDie (pa : Nat) : Option (Fin 4) :=
  if pa < 2 ^ 39 then some (Fin.ofNat 4 (pa / 2 ^ 37))
  else if 2 ^ 51 ≤ pa ∧ pa < 2 ^ 52 then some (Fin.ofNat 4 (pa / 2 ^ 14))
  else none

/-- Whether a physical address is CXL memory (R304). -/
def isCxl (pa : Nat) : Bool := 2 ^ 51 ≤ pa

/-- The home die of a populated line; die 0 where there is none, which no translated access reaches. -/
def homeOf (line : Nat) : Fin 4 := (homeDie (128 * line)).getD 0

/-- The slice of line number `l` (R305). -/
def sliceOf (l : Nat) : Nat := (l % 64) ^^^ (l / 64 % 64) ^^^ (l / 4096 % 64)

/-- The set of line number `l` within its slice (R305). -/
def setOf (l : Nat) : Nat := l / 64 % 12288

/-- The key under which a die lists the set of a line. -/
def setKey (l : Nat) : Nat := sliceOf l * 12288 + setOf l

/-- The little-endian number of a list of bytes. -/
def le (bs : List Byte) : Nat := bs.foldr (fun b n => b.toNat + 256 * n) 0

/-- `n` little-endian bytes of a number. -/
def toLe : Nat → Nat → List Byte
  | 0, _ => []
  | n + 1, v => BitVec.ofNat 8 v :: toLe n (v / 256)

/-- The little-endian elements of `w` bytes of a list, at most `n` of them. -/
def elems (w : Nat) : Nat → List Byte → List Nat
  | 0, _ => []
  | n + 1, bs => le (bs.take w) :: elems w n (bs.drop w)

/-- Whether an element of `w` bytes is a sign-extended `d`-byte delta (R311). -/
def fitsz (w d x : Nat) : Bool :=
  let lo := x % 2 ^ (8 * d)
  let up := if 2 ^ (8 * d) ≤ 2 * lo then lo + 2 ^ (8 * w) - 2 ^ (8 * d) else lo
  up == x

/-- Base-delta encoding of R311: base, and for each element its mask bit and delta. -/
def bdParts (w d : Nat) (es : List Nat) : Option (Nat × List (Bool × Nat)) :=
  let base := ((es.find? (fun e => !fitsz w d e)).getD 0)
  let part (e : Nat) : Option (Bool × Nat) :=
    if fitsz w d e then some (false, e % 2 ^ (8 * d))
    else
      let x := (e + 2 ^ (8 * w) - base) % 2 ^ (8 * w)
      if fitsz w d x then some (true, x % 2 ^ (8 * d)) else none
  (es.mapM part).map fun ps => (base, ps)

/-- Element and delta widths of the base-delta codes (R310). -/
def bdWidths : Nat → Option (Nat × Nat)
  | 0x2 => some (8, 1)
  | 0x3 => some (8, 2)
  | 0x4 => some (8, 4)
  | 0x5 => some (4, 1)
  | 0x6 => some (4, 2)
  | 0x7 => some (2, 1)
  | _ => none

/-- Number of non-zero 4-byte words of a line. -/
def zrunCount (bs : List Byte) : Nat := ((elems 4 32 bs).filter (· ≠ 0)).length

/-- Whether a code applies to a line (R310). -/
def codeApplies (code : Nat) (bs : List Byte) : Bool :=
  match code with
  | 0x0 => bs.all (· == 0)
  | 0x1 => (match elems 8 16 bs with | e :: es => es.all (· == e) | [] => true)
  | 0x8 => decide (1 ≤ zrunCount bs ∧ zrunCount bs ≤ 27)
  | 0xF => true
  | c => match bdWidths c with
    | some (w, d) => (bdParts w d (elems w (128 / w) bs)).isSome
    | none => false

/-- Sectors a code takes (R310). -/
def codeSectors (code : Nat) (bs : List Byte) : Nat :=
  match code with
  | 0x0 => 0
  | 0x1 => 1
  | 0x2 => 2
  | 0x3 => 3
  | 0x4 => 5
  | 0x5 => 3
  | 0x6 => 5
  | 0x7 => 5
  | 0x8 => (4 + 4 * zrunCount bs + 15) / 16
  | _ => 8

/-- The encoder's choice of code (R311). -/
def chooseCode (bs : List Byte) (cmp : Bool) : Nat :=
  if bs.all (· == 0) then 0x0
  else if !cmp then 0xF
  else [1, 2, 3, 4, 5, 6, 7, 8].foldl
    (fun best c => if codeApplies c bs && decide (codeSectors c bs < codeSectors best bs) then c else best) 0xF

/-- The stored bytes of a line under a code, padded to whole sectors (R310). -/
def storedBytes (code : Nat) (bs : List Byte) : List Byte :=
  let raw : List Byte :=
    match code with
    | 0x0 => []
    | 0x1 => bs.take 8
    | 0x8 =>
      let ws := elems 4 32 bs
      let mask := (List.range 32).foldl (fun m i => if ws.getD i 0 ≠ 0 then m + 2 ^ i else m) 0
      toLe 4 mask ++ (ws.filter (· ≠ 0)).flatMap (toLe 4)
    | 0xF => bs
    | c => match bdWidths c with
      | some (w, d) => (match bdParts w d (elems w (128 / w) bs) with
          | some (base, ps) =>
            let n := 128 / w
            let mask := (List.range n).foldl (fun m i => if (ps.getD i (false, 0)).1 then m + 2 ^ i else m) 0
            toLe (n / 8) mask ++ toLe w base ++ ps.flatMap (fun p => toLe d p.2)
          | none => [])
      | none => []
  raw ++ List.replicate (16 * codeSectors code bs - raw.length) 0

/-- Rebuilds a line from its stored bytes (R311). -/
def decodeStored (code : Nat) (st : List Byte) : List Byte :=
  match code with
  | 0x0 => List.replicate 128 0
  | 0x1 => (List.replicate 16 (st.take 8)).flatten
  | 0x8 =>
    let mask := le (st.take 4)
    ((List.range 32).foldl (fun (acc : List Byte × List Byte) i =>
        if mask.testBit i then (acc.1 ++ acc.2.take 4, acc.2.drop 4) else (acc.1 ++ [0, 0, 0, 0], acc.2))
      ([], st.drop 4)).1
  | 0xF => st.take 128
  | c => match bdWidths c with
    | some (w, d) =>
      let n := 128 / w
      let mask := le (st.take (n / 8))
      let base := le ((st.drop (n / 8)).take w)
      let ds := elems d n (st.drop (n / 8 + w))
      let sx (x : Nat) := if 2 ^ (8 * d) ≤ 2 * x then x + 2 ^ (8 * w) - 2 ^ (8 * d) else x
      (List.range n).flatMap fun i =>
        toLe w (((if mask.testBit i then base else 0) + sx (ds.getD i 0)) % 2 ^ (8 * w))
    | none => []

/-- Sectors in use by a resident line: none while it is poisoned (R318). -/
def Line.sectors (l : Line) : Nat := if l.poison then 0 else codeSectors l.code l.data

/-- Sectors in use in a set. -/
def setSectors (ls : List Line) : Nat := ls.foldl (fun n l => n + l.sectors) 0

end Sys2Proof.Machine
end

