-- ==== Sys2Proof/Machine/Base.lean ====
section
/-! DEFINITION. Accessors of the parts of the state, free values, and the identifiers of R401. -/

namespace Sys2Proof.Machine

/-! ## Parts of the state -/

/-- Core `c`. -/
def State.core (s : State) (c : Nat) : Core := s.cores.get Core.zero c

/-- Changes core `c`. -/
def State.modCore (s : State) (c : Nat) (f : Core → Core) : State := { s with cores := s.cores.put c (f (s.core c)) }

/-- Strand `t` of core `c`. -/
def State.strand (s : State) (c : Nat) (t : Fin 4) : Strand := (s.core c).st.get t

/-- Changes strand `t` of core `c`. -/
def State.modStrand (s : State) (c : Nat) (t : Fin 4) (f : Strand → Strand) : State :=
  s.modCore c fun k => { k with st := k.st.set t (f (k.st.get t)) }

/-- Engine `e` of core `c`. -/
def State.engine (s : State) (c : Nat) (e : Eng) : Engine := (s.core c).eng.get e

/-- Changes engine `e` of core `c`. -/
def State.modEngine (s : State) (c : Nat) (e : Eng) (f : Engine → Engine) : State :=
  s.modCore c fun k => { k with eng := k.eng.set e (f (k.eng.get e)) }

/-- Compute die `d`. -/
def State.die (s : State) (d : Fin 4) : Die := s.dies.get d

/-- Changes compute die `d`. -/
def State.modDie (s : State) (d : Fin 4) (f : Die → Die) : State := { s with dies := s.dies.set d (f (s.dies.get d)) }

/-- The die of a core (R3). -/
def dieOf (c : Nat) : Fin 4 := Fin.ofNat 4 (c / 64)

/-- The core that issues the instruction under execution. -/
def State.me (s : State) : Core := s.core s.iss.core

/-- The strand that issues the instruction under execution. -/
def State.str (s : State) : Strand := s.strand s.iss.core s.iss.strand

/-- Changes the issuing core. -/
def State.modMe (s : State) (f : Core → Core) : State := s.modCore s.iss.core f

/-- Changes the issuing strand. -/
def State.modStr (s : State) (f : Strand → Strand) : State := s.modStrand s.iss.core s.iss.strand f

/-- Changes the issue context. -/
def State.modIss (s : State) (f : Issue → Issue) : State := { s with iss := f s.iss }

/-- A function is ready (R433). -/
def State.isReady (s : State) (f : Func) (i : Nat) : Bool := s.iod.ready.contains (f, i)

/-- The node of a number. -/
def State.node (s : State) (id : Nat) : Option Node := s.nodes.find? (fun n => n.id == id)

/-- Replaces a node. -/
def State.modNode (s : State) (id : Nat) (f : Node → Node) : State :=
  { s with nodes := s.nodes.map fun n => if n.id == id then f n else n }

/-- Puts an element before the first one it is not after. -/
def insertBy {α : Type} (le : α → α → Bool) (a : α) : List α → List α
  | [] => [a]
  | b :: bs => if le a b then a :: b :: bs else b :: insertBy le a bs

/-- A list sorted by insertion, equal elements in their order. -/
def sortBy {α : Type} (le : α → α → Bool) : List α → List α
  | [] => []
  | a :: as => insertBy le a (sortBy le as)

/-! ## Free values (log 4) -/

/-- Draws the next free-value number. -/
def State.draw (s : State) : Nat × State := (s.tick, { s with tick := s.tick + 1 })

/-- A free bit. -/
def State.drawBit (s : State) : Bool × State := (Config.freeBit s.tick, { s with tick := s.tick + 1 })

/-- A free word. -/
def State.drawWord (s : State) : Word × State := (Config.freeWord s.tick, { s with tick := s.tick + 1 })

/-- A fresh write number. -/
def State.drawWid (s : State) : Nat × State := (s.widNext, { s with widNext := s.widNext + 1 })

/-! ## Operations that may raise a cause -/

/-- An operation over the state that ends with a value or with a cause (R9 raise). -/
abbrev Op := StateT State (Except Trap)

/-- Raises a cause (R401). -/
def raise {α : Type} (cause sub : Nat) (val : Word) : Op α := fun _ => .error ⟨cause, sub, val⟩

/-- Raises a trap already formed. -/
def raiseT {α : Type} (t : Trap) : Op α := fun _ => .error t

/-- Lifts a function that answers a value or a cause. -/
def liftE {α : Type} (f : State → Except Trap (α × State)) : Op α := fun s =>
  match f s with
  | .ok r => .ok r
  | .error t => .error t

/-- Raises `t` unless `p` holds. -/
def check (p : Bool) (cause sub : Nat) (val : Word) : Op Unit := fun s =>
  if p then .ok ((), s) else .error ⟨cause, sub, val⟩

/-- A free word inside an operation. -/
def freshWord : Op Word := fun s => .ok s.drawWord

/-- A free bit inside an operation. -/
def freshBit : Op Bool := fun s => .ok s.drawBit

/-! Cause codes (R401). -/
namespace Cause
def illegalInstruction : Nat := 0x01
def reservedField : Nat := 0x02
def illegalGuard : Nat := 0x03
def illegalBundleHeader : Nat := 0x04
def privilegedInstruction : Nat := 0x05
def writeConflict : Nat := 0x06
def reservedSysreg : Nat := 0x07
def softwareTrap : Nat := 0x08
def breakpoint : Nat := 0x09
def integerDivideByZero : Nat := 0x0A
def loopBusy : Nat := 0x0B
def translationNotPresent : Nat := 0x20
def readPermission : Nat := 0x21
def writePermission : Nat := 0x22
def executePermission : Nat := 0x23
def misalignedAccess : Nat := 0x24
def scratchpadRange : Nat := 0x25
def bankModeViolation : Nat := 0x26
def bankModeBusy : Nat := 0x27
def keyMismatch : Nat := 0x28
def poisonConsumed : Nat := 0x29
def noncanonicalAddress : Nat := 0x2A
def pendingRead : Nat := 0x2B
def formatQueueEmpty : Nat := 0x40
def bankConflict : Nat := 0x41
def tileSpan : Nat := 0x42
def shapeInvalid : Nat := 0x43
def shapeHandleInvalid : Nat := 0x44
def groupedBounds : Nat := 0x45
def transformFault : Nat := 0x46
def formatWordInvalid : Nat := 0x47
def fifoBankMode : Nat := 0x48
def kvAbsent : Nat := 0x60
def kvBadHandle : Nat := 0x61
def kvRackInvalid : Nat := 0x62
def kvPoolEmpty : Nat := 0x63
def kvLenderLost : Nat := 0x64
def kvPositionRange : Nat := 0x65
def kvResumeInvalid : Nat := 0x66
def cueOverflow : Nat := 0xA0
def cardRejected : Nat := 0xA1
def launchRecordInvalid : Nat := 0xA2
def cancelled : Nat := 0xA3
def footprintTableFull : Nat := 0xA4
def fabricRemoteFault : Nat := 0xC0
def fabricUnreachable : Nat := 0xC1
def cxlPoison : Nat := 0xC2
def linkAuthFail : Nat := 0xC3
def watchpoint : Nat := 0xE0
def singleStep : Nat := 0xE1
def sramUncorrectable : Nat := 0xF0
def engineInternal : Nat := 0xF2
end Cause

/-- Endpoints of the handoff FIFOs, numbered X 0, M 1, V 2, C 3, F 4 (R28, R384). -/
def engEnd (e : Eng) : Nat := e.val + 1

/-- Index of the FIFO from endpoint `a` to endpoint `b` (R384). -/
def fifoIx (a b : Nat) : Nat := 4 * a + b - (if a < b then 1 else 0)

/-- Endpoint that bit `i` of a token mask names: bit 4 X, 3 M, 2 V, 1 C, 0 F (R94). -/
def maskEnd (i : Nat) : Nat := 4 - i

/-- Endpoints a token mask names, in ascending number. -/
def maskEnds (m : BitVec 5) : List Nat := (List.range 5).filter fun e => m.getLsbD (4 - e)

/-- The engine an instruction is enqueued to (R98). -/
def engineOf : Instr → Option Eng
  | .vadd _ | .vsub _ | .vmul _ | .vfma _ | .vmax _ | .vmin _ | .vlog _ | .vsh _ | .vcmp _ | .vsel _ | .vsfu _ => some 1
  | .vcvt _ | .vred _ | .vbcast _ | .vtrn _ | .vpart _ | .vgath _ | .vscat _ | .vgathm _ | .vscan _ | .viota _ => some 1
  | .vtopk _ | .vnorm _ | .vrng _ | .vquant _ | .vdeq _ | .vsample _ | .vmovg _ | .vcopy _ => some 1
  | .mma _ _ _ _ | .mmaz _ _ _ _ | .mgma _ _ _ _ _ _ | .mdrain _ _ _ _ _ _ _ _ _ _ | .mldacc _ _ _ _ _ => some 0
  | .mzero _ _ | .mamax _ _ _ | .attn _ _ | .kvapp _ _ _ _ _ _ => some 0
  | .cpy _ _ _ _ | .cpyf _ _ | .cpyg _ _ _ _ _ | .cpys _ _ | .cpyz _ _ _ | .tsobj _ _ _ | .tsdrop _ _ => some 2
  | .xform _ _ _ _ _ | .card _ | .cardwt _ => some 2
  | .fld _ _ _ | .fst _ _ _ | .famo _ _ _ _ | .fput _ _ _ | .fget _ _ _ | .fsig _ | .ffence _ => some 3
  | _ => none

/-- Token masks of an engine instruction. -/
def tokOf : Instr → Tok
  | .vadd v | .vsub v | .vmul v | .vfma v | .vmax v | .vmin v | .vlog v | .vsh v | .vcmp v | .vsel v | .vsfu v => v.tok
  | .vcvt v | .vred v | .vbcast v | .vtrn v | .vpart v | .vgath v | .vscat v | .vgathm v | .vscan v | .viota v => v.tok
  | .vtopk v | .vnorm v | .vrng v | .vquant v | .vdeq v | .vsample v | .vmovg v | .vcopy v => v.tok
  | .mma t _ _ _ | .mmaz t _ _ _ | .mgma t _ _ _ _ _ | .mdrain t _ _ _ _ _ _ _ _ _ | .mldacc t _ _ _ _ => t
  | .mzero t _ | .mamax t _ _ | .attn t _ | .kvapp t _ _ _ _ _ | .tsobj t _ _ | .tsdrop t _ => t
  | .cpy e _ _ _ | .cpyf e _ | .cpyg e _ _ _ _ | .cpys e _ | .cpyz e _ _ | .xform e _ _ _ _ | .card e | .cardwt e => e.tok
  | .fld e _ _ | .fst e _ _ | .famo e _ _ _ | .fput e _ _ | .fget e _ _ | .fsig e | .ffence e => e.tok
  | _ => ⟨0, 0⟩

/-- The predicate a .try syllable writes (R96). -/
def tryOf : Instr → Option Pred
  | .cpy e _ _ _ | .cpyf e _ | .cpyg e _ _ _ _ | .cpys e _ | .cpyz e _ _ | .xform e _ _ _ _ | .card e | .cardwt e => e.tr
  | .fld e _ _ | .fst e _ _ | .famo e _ _ _ | .fput e _ _ | .fget e _ _ | .fsig e | .ffence e => e.tr
  | _ => none

end Sys2Proof.Machine
end

