-- ==== Sys2Proof/Machine/Mem.lean ====
section
/-! DEFINITION. Global memory: home slices, die copies, posted stores, causal order between dies (chapters 10, 11). -/

namespace Sys2Proof.Machine

/-- The byte an unlisted address of memory below the LLC reads as (log 1). -/
def Memory.unlisted : Byte := 0

/-- The canonical form of memory below the LLC. -/
def Memory.wf (m : Mem) : Bool := Tab.wf Memory.unlisted m

/-- One byte of memory below the LLC. -/
def Memory.read (m : Mem) (a : Nat) : Byte := Tab.get m Memory.unlisted a

/-- Writes one byte of memory below the LLC, keeping the canonical form. -/
def Memory.write (m : Mem) (a : Nat) (v : Byte) : Mem := Tab.set Memory.unlisted m a v

/-- Writes consecutive bytes. -/
def Memory.writeList (m : Mem) (a : Nat) : List Byte → Mem
  | [] => m
  | b :: bs => Memory.writeList (Memory.write m a b) (a + 1) bs

/-- `n` consecutive bytes from `a`. -/
def Memory.readList (m : Mem) (a : Nat) : Nat → List Byte
  | 0 => []
  | n + 1 => Memory.read m a :: Memory.readList m (a + 1) n

/-! ## Ordering sets -/

/-- Union of two lists of write numbers. -/
def uni (a b : List Nat) : List Nat := a ++ b.filter (fun x => !a.contains x)

/-- Whether a write is still unperformed at some home or unapplied on some die, or of scratchpad and still unseen by some agent. -/
def State.alive (s : State) (id : Nat) : Bool :=
  s.dies.toList.any (fun d => d.upds.any (fun u => u.wid == id))
    || s.cores.any (fun c => c.2.wbuf.any (fun w => w.id == id) || c.2.torn.any (fun e => e.2.id == id))

/-- Drops from a set the writes that every die and agent sees: no later access can miss them. -/
def State.prune (s : State) (ids : List Nat) : List Nat := ids.filter s.alive

/-- Whether a scope contains two agents named by core number; 256 and above are agents of the IOD, 512 and above outside (R148, R285). -/
def scopeHas (sc : Scope) (a b : Nat) : Bool :=
  match sc with
  | .cr => a == b
  | .die => a < 256 && b < 256 && a / 64 == b / 64
  | .pkg => a < 512 && b < 512
  | .sys => true

/-- The writes an acquire at scope `sc` by agent `b` receives from releases `rs` (R292). -/
def relIds (sc : Scope) (b : Nat) (rs : List Rel) : List Nat :=
  rs.foldl (fun acc r => if scopeHas sc r.agent b && scopeHas r.scp r.agent b then uni acc r.ids else acc) []

/-! ## Lines below the LLC -/

/-- The key material of key ID `kid` at the home of a line (R410). -/
def State.keyAt (s : State) (line kid : Nat) : Option Nat := (s.die (homeOf line)).keys.find kid

/-- The cause a poisoned read of a line raises (R146, R318). -/
def poisonCause (line : Nat) : Nat := if isCxl (128 * line) then Cause.cxlPoison else Cause.poisonConsumed

/-- The first valid CXL range register that holds an address (R424). -/
def State.cxlRange (s : State) (pa : Nat) : Option Nat :=
  (List.range 8).find? fun r =>
    let b := (s.iod.cxlReg.get 0 (4 * r)).toNat
    let sz := (s.iod.cxlReg.get 0 (4 * r + 1)).toNat / 2 ^ 30 * 2 ^ 30
    b.testBit 0 && b / 2 ^ 30 * 2 ^ 30 ≤ pa && pa < b / 2 ^ 30 * 2 ^ 30 + sz

/-- Whether a CXL address lies in a configured range (R424). -/
def State.cxlConfigured (s : State) (pa : Nat) : Bool := (s.cxlRange pa).isSome

/-- The port a CXL address is reached through (R424 PORTSEL). -/
def State.cxlPort (s : State) (r pa : Nat) : Nat :=
  match (s.iod.cxlReg.get 0 (4 * r + 2)).toNat / 2 ^ 24 % 16 with
  | 0 => 0
  | 1 => 1
  | _ => pa / 2 ^ 12 % 2

/-- Where a line lies below the LLC: an HBM line under its own number; a line of a CXL range at its target, which port and routing
id name, and there at DPA plus its distance from BASE (R424; log 95). -/
def State.below (s : State) (line : Nat) : Nat :=
  match (if isCxl (128 * line) then s.cxlRange (128 * line) else none) with
  | none => line
  | some r =>
    let reg (k : Nat) : Nat := (s.iod.cxlReg.get 0 (4 * r + k)).toNat
    let port := s.cxlPort r (128 * line)
    let pid := reg 2 / (if port = 0 then 1 else 2 ^ 12) % 2 ^ 12
    2 ^ 64 * (1 + 2 ^ 12 * port + pid) + (reg 3 + (128 * line - reg 0 / 2 ^ 30 * 2 ^ 30)) % 2 ^ 64 / 128

/-- Plaintext of a line below the LLC as key `k` decrypts it (R319; log 12). -/
def State.plain (s : State) (line k : Nat) : List Byte :=
  let n := s.below line
  let raw := Memory.readList s.dram (128 * n) 128
  match s.lineKey.find n with
  | none => raw
  | some k' => if k' = k then raw else (List.range 128).map fun i => Config.garble k' k line i raw

/-- A line is stored poisoned in HBM or CXL memory (R318). -/
def State.storedPoison (s : State) (line : Nat) : Bool := s.poisoned.get false (s.below line)

/-- A line of a configured CXL range whose port is down (R424). -/
def State.cxlDown (s : State) (line : Nat) : Bool :=
  match s.cxlRange (128 * line) with
  | some r => isCxl (128 * line) && !s.iod.ready.contains (.cxl, s.cxlPort r (128 * line))
  | none => false

/-- A dirty line goes back to memory under its key ID (R312); one of a CXL range no longer configured is dropped and logged (R424),
one whose port is down leaves poison (log 45). -/
def State.writeBack (s : State) (l : Line) : State :=
  if !l.dirty then s
  else if isCxl (128 * l.line) && !s.cxlConfigured (128 * l.line) then
    let (t, s) := (s.tick, { s with tick := s.tick + 1 })
    { s with iod := { s.iod with mgmtLog := s.iod.mgmtLog ++ [Config.freeNat t] } }
  else
    let s :=
      if l.poison || s.cxlDown l.line then { s with poisoned := s.poisoned.put (s.below l.line) true }
      else { s with poisoned := s.poisoned.del (s.below l.line), dram := Memory.writeList s.dram (128 * s.below l.line) l.data }
    match s.keyAt l.line l.kid with
    | some k => { s with lineKey := s.lineKey.put (s.below l.line) k }
    | none => s

/-- Adds to an LLC counter (R315): slice and block offset divided by 8. -/
def State.count (s : State) (d : Fin 4) (slice ix n : Nat) : State :=
  s.modDie d fun k => { k with counters := k.counters.put (16 * slice + ix) (((k.counters.get 0 (16 * slice + ix)) + n) % 2 ^ 64) }

/-- Makes room in a set for a fill of `need` sectors (R312). -/
def State.makeRoom (s : State) (d : Fin 4) (slice sk need : Nat) : Nat → State
  | 0 => s
  | fuel + 1 =>
    let ls := (s.die d).sets.get [] sk
    if ls.length < 16 ∧ setSectors ls + need ≤ 64 then s
    else
      match ls.getLast? with
      | none => s
      | some v =>
        let s := s.writeBack v
        let s := s.modDie d fun k => { k with sets := k.sets.put sk ls.dropLast }
        (s.count d slice 14 1).makeRoom d slice sk need fuel

/-- Makes room for a growing write to the line at the head of its set (R312). -/
def State.growRoom (s : State) (d : Fin 4) (slice sk new : Nat) : Nat → State
  | 0 => s
  | fuel + 1 =>
    let ls := (s.die d).sets.get [] sk
    if setSectors ls.tail + new ≤ 64 then s
    else
      match ls with
      | l :: v :: rest =>
        let vs := v :: rest
        match vs.getLast? with
        | none => s
        | some x =>
          let s := if x.dirty then (s.writeBack x).count d slice 13 1 else s
          let s := s.modDie d fun k => { k with sets := k.sets.put sk (l :: vs.dropLast) }
          (s.count d slice 12 1).growRoom d slice sk new fuel
      | _ => s

/-- Counts a fill (R315). -/
def State.countFill (s : State) (d : Fin 4) (slice code : Nat) (cmp : Bool) : State :=
  if code < 9 then s.count d slice code 1
  else if cmp then s.count d slice 9 1
  else s.count d slice 10 1

/-- Installs a line as the most recently used of its set (R312 fill). -/
def State.installLine (s : State) (d : Fin 4) (l : Line) : State :=
  let slice := sliceOf l.line
  let sk := setKey l.line
  let s := s.makeRoom d slice sk l.sectors 80
  s.modDie d fun k => { k with sets := k.sets.put sk (l :: k.sets.get [] sk) }

/-- The resident copy of a line on a die. -/
def State.resident (s : State) (d : Fin 4) (line : Nat) : Option Line :=
  ((s.die d).sets.get [] (setKey line)).find? (fun l => l.line == line)

/-- Replaces the resident copy of a line and makes it the most recently used. -/
def State.touchLine (s : State) (d : Fin 4) (l : Line) : State :=
  s.modDie d fun k =>
    { k with sets := k.sets.put (setKey l.line) (l :: (k.sets.get [] (setKey l.line)).filter (fun x => x.line != l.line)) }

/-- The home line under a key ID, filled if it is not resident (R312, R318, R319); raises key_mismatch or poison. -/
def State.homeLine (s : State) (line kid : Nat) (cmp : Bool) (va : Word) : Except Trap (Line × State) :=
  let h := homeOf line
  match s.keyAt line kid with
  | none => .error ⟨Cause.keyMismatch, 3, va⟩
  | some key =>
    match s.resident h line with
    | some l =>
      if l.kid ≠ kid then .error ⟨Cause.keyMismatch, 2, va⟩
      else if l.poison then .error ⟨poisonCause line, 0, va⟩
      else .ok (l, s.touchLine h l)
    | none =>
      if s.storedPoison line || s.cxlDown line then
        .error ⟨poisonCause line, 0, va⟩
      else
        let data := s.plain line key
        let code := chooseCode data cmp
        let l : Line := ⟨line, kid, code, cmp, false, false, false, data⟩
        .ok (l, (s.installLine h l).countFill h (sliceOf line) code cmp)

/-- The tag that a fill of a line stored poisoned leaves (R318). -/
def State.poisonFill (s : State) (line kid : Nat) (cmp : Bool) : State :=
  let h := homeOf line
  if (s.resident h line).isNone && s.storedPoison line && (s.keyAt line kid).isSome then
    (s.installLine h ⟨line, kid, 0xF, cmp, false, true, false, []⟩).count h (sliceOf line) 15 1
  else s

/-- The bytes of a line as a die copy shows them: the home's, with the older values the die still holds (R287). -/
def State.overlay (s : State) (d : Fin 4) (line : Nat) (data : List Byte) : List Byte :=
  (List.range 128).map fun i =>
    match (s.die d).stale.find (128 * line + i) with
    | some st => st.val
    | none => data.getD i 0

/-- A line of die `d`'s die copy: the home line on the home die, a guest copy elsewhere (R287, R309, R313). -/
def State.dieLine (s : State) (d : Fin 4) (line kid : Nat) (cmp : Bool) (va : Word) : Except Trap (List Byte × State) :=
  if d = homeOf line then
    match s.homeLine line kid cmp va with
    | .ok (l, s) => .ok (l.data, s)
    | .error t => .error t
  else if (s.keyAt line kid).isNone then .error ⟨Cause.keyMismatch, 3, va⟩
  else
    match s.resident d line with
    | some l =>
      if l.kid ≠ kid then .error ⟨Cause.keyMismatch, 2, va⟩
      else if l.poison then .error ⟨poisonCause line, 0, va⟩
      else .ok (l.data, s.touchLine d l)
    | none =>
      match s.homeLine line kid cmp va with
      | .error t => .error t
      | .ok (l, s) =>
        let data := s.overlay d line l.data
        let code := chooseCode data l.cmp
        .ok (data, (s.installLine d ⟨line, kid, code, l.cmp, false, false, true, data⟩).countFill d (sliceOf line) code l.cmp)

/-- `n` bytes of die `d`'s copy within one line. -/
def State.dieRead (s : State) (d : Fin 4) (pa n kid : Nat) (cmp : Bool) (va : Word) : Except Trap (List Byte × State) :=
  match s.dieLine d (pa / 128) kid cmp va with
  | .ok (data, s) => .ok ((data.drop (pa % 128)).take n, s)
  | .error t => .error t

/-- Metadata of a byte as die `d` shows it. -/
def State.metaAt (s : State) (d : Fin 4) (a : Nat) : Meta :=
  match (s.die d).stale.find a with
  | some st => st.m
  | none => s.gmeta.get Meta.zero a

/-- The bytes of a line without any change of residency, where its key allows. -/
def State.peekLine (s : State) (d : Fin 4) (line kid : Nat) : Option (List Byte) :=
  match s.resident d line with
  | some l => if l.kid = kid ∧ ¬ l.poison then some l.data else none
  | none =>
    match s.resident (homeOf line) line with
    | some l => if l.kid = kid ∧ ¬ l.poison then some (s.overlay d line l.data) else none
    | none =>
      if s.storedPoison line then none
      else (s.keyAt line kid).map fun k => s.overlay d line (s.plain line k)

/-! ## Writes -/

/-- Bytes of a list replaced at the offsets of a line. -/
def mergeBytes (data : List Byte) (line : Nat) (bytes : List (Nat × Byte)) : List Byte :=
  bytes.foldl (fun d b => if b.1 / 128 = line then d.set (b.1 % 128) b.2 else d) data

/-- Re-encodes a resident line with new data under the growth rule (R312 write). -/
def State.rewrite (s : State) (d : Fin 4) (l : Line) (data : List Byte) (dirty : Bool) : State :=
  let code := chooseCode data l.cmp
  let s := s.touchLine d l
  let s := s.growRoom d (sliceOf l.line) (setKey l.line) (codeSectors code data) 40
  s.touchLine d { l with code := code, data := data, dirty := dirty, poison := false }

/-- A guest copy takes written bytes; a poisoned one takes nothing less than a whole line (R309, R318). -/
def State.copyWrite (s : State) (d : Fin 4) (g : Line) (line : Nat) (bytes : List (Nat × Byte)) : State :=
  if g.poison && bytes.length != 128 then s
  else s.rewrite d g (mergeBytes (if g.poison then List.replicate 128 0 else g.data) line bytes) false

/-- Applies one update to a die copy (R287, R289): a byte with a later update still pending shows this one's value. -/
def State.applyUpd (s : State) (d : Fin 4) (u : Upd) : State :=
  let rest := (s.die d).upds.filter (fun x => x.wid != u.wid)
  let s := s.modDie d fun k => { k with upds := rest }
  let s := u.bytes.foldl (fun s b =>
    if rest.any (fun x => x.bytes.any (fun y => y.1 == b.1)) then
      s.modDie d fun k => { k with stale := k.stale.put b.1 ⟨b.2, u.wid, u.rels⟩ }
    else s.modDie d fun k => { k with stale := k.stale.del b.1 }) s
  match u.bytes with
  | [] => s
  | b :: _ =>
    match s.resident d (b.1 / 128) with
    | some l => if l.guest then s.copyWrite d l (b.1 / 128) u.bytes else s
    | none => s

/-- The updates a set of writes needs, with those that happen before them and older ones to the same bytes; newest first in `us`. -/
def neededUpds (ids : List Nat) : List Upd → List Upd → List Upd
  | [], acc => acc
  | u :: us, acc =>
    let need := ids.contains u.wid || acc.any (fun x => x.hb.contains u.wid || x.bytes.any (fun b => u.bytes.any (fun c => c.1 == b.1)))
    neededUpds ids us (if need then u :: acc else acc)

/-- Makes die `d` hold every write of `ids` that is on its way to it, with all that happens before them (R297). -/
def State.forceUpds (s : State) (d : Fin 4) (ids : List Nat) : State :=
  (neededUpds ids (s.die d).upds.reverse []).foldl (fun s u => s.applyUpd d u) s

/-- A write about to be serialised. -/
structure GWrite where
  id : Nat
  die : Fin 4
  bytes : List (Nat × Byte)
  kid : Nat
  cmp : Bool
  hb : List Nat
  rels : List Rel
  deriving DecidableEq, Repr

/-- Serialises a write of bytes of one line at its home slice and applies it to the writer's die copy; its update goes to every
other die (R288, R296, R297, R312). A partial write to a poisoned line changes no byte (R318). -/
def State.serialise (s : State) (w : GWrite) : State :=
  match w.bytes with
  | [] => s
  | b0 :: _ =>
    let line := b0.1 / 128
    let h := homeOf line
    let s := (s.forceUpds h w.hb).forceUpds w.die w.hb
    let older := ((s.die w.die).upds.filter (fun u => u.bytes.any (fun b => w.bytes.any (fun c => c.1 == b.1)))).map (·.wid)
    let s := s.forceUpds w.die older
    let full := w.bytes.length == 128
    let s := if full then s else s.poisonFill line w.kid w.cmp
    let base : Option (Line × State) :=
      match s.resident h line with
      | some l => if l.poison && !full then none else some ({ l with data := if l.poison then List.replicate 128 0 else l.data }, s)
      | none =>
        match (if s.cxlDown line && !full then none else s.keyAt line w.kid) with
        | none => none
        | some key =>
          let data := mergeBytes (if full then List.replicate 128 0 else s.plain line key) line w.bytes
          let code := chooseCode data w.cmp
          let l : Line := ⟨line, w.kid, code, w.cmp, true, false, false, data⟩
          some ({ l with data := if full then List.replicate 128 0 else s.plain line key },
            (s.installLine h l).countFill h (sliceOf line) code w.cmp)
    match base with
    | none => match s.resident h line with | some l => s.touchLine h l | none => s
    | some (l, s) =>
      let old := l.data
      let m0 := s.gmeta
      let s := s.rewrite h l (mergeBytes old line w.bytes) true
      let s := { s with gmeta := w.bytes.foldl (fun t b => t.put b.1 ⟨w.id, w.rels⟩) s.gmeta }
      [(0 : Fin 4), 1, 2, 3].foldl (fun s d =>
        if d = h then s
        else if d = w.die then
          match s.resident d line with
          | some g => s.copyWrite d g line w.bytes
          | none => s
        else
          s.modDie d fun k => { k with
            upds := k.upds ++ [⟨w.id, w.bytes, w.rels, s.prune w.hb⟩],
            stale := w.bytes.foldl (fun t b =>
              if (Tab.find t b.1).isSome then t else t.put b.1 ⟨old.getD (b.1 % 128) 0, m0.get Meta.zero b.1⟩) k.stale }) s

/-- The bytes a posted store leaves where its line has been refilled under another key ID since it issued: undefined (R319; log 4). -/
def State.mixed (s : State) (e : WEnt) : List (Nat × Byte) :=
  let line := (e.bytes.headD (0, 0)).1 / 128
  if (match s.resident (homeOf line) line with | some l => l.kid != e.kid | none => false) then
    e.bytes.zipIdx.map fun b => (b.1.1, BitVec.ofNat 8 (Config.freeNat (s.tick + b.2)))
  else e.bytes

/-- Writes to some lines are performed at .sys: dirty home lines are written back and stay, clean (R288; log 16). -/
def State.toSys (s : State) (lines : List Nat) : State :=
  lines.foldl (fun s n =>
    match s.resident (homeOf n) n with
    | none => s
    | some l => (s.writeBack l).modDie (homeOf n) fun k =>
        { k with sets := k.sets.put (setKey n) ((k.sets.get [] (setKey n)).map fun x => if x.line = n then { x with dirty := false } else x) }) s

/-- Performs one posted store of core `c` (R288). -/
def State.performEnt (s : State) (c : Nat) (e : WEnt) : State :=
  let s := s.toSys e.sys
  let s := s.modCore c fun k => { k with wbuf := k.wbuf.filter (fun x => x.id != e.id) }
  let bytes := s.mixed e
  let s := if bytes = e.bytes then s else { s with tick := s.tick + e.bytes.length }
  s.serialise ⟨e.id, dieOf c, bytes, e.kid, e.cmp, e.hb, e.rels⟩

/-- Whether two byte lists meet. -/
def overlap (a b : List (Nat × Byte)) : Bool := a.any fun x => b.any fun y => x.1 == y.1

/-- The posted stores that must be performed for those of `ids` to be: what they wait for, what happens before them, older
stores to the same bytes. Newest first. -/
def neededEnts (ids : List Nat) : List WEnt → List WEnt → List WEnt
  | [], acc => acc
  | e :: es, acc =>
    let need := ids.contains e.id ||
      acc.any (fun x => x.after.contains e.id || x.hb.contains e.id || overlap x.bytes e.bytes)
    neededEnts ids es (if need then e :: acc else acc)

/-- Performs the posted stores of core `c` named by `ids`, with all they need, in order. -/
def State.flushIds (s : State) (c : Nat) (ids : List Nat) : State :=
  (neededEnts ids (s.core c).wbuf.reverse []).foldl (fun s e => s.performEnt c e) s

/-- Performs every posted store of strand `t` (R148: a release beyond .cr). -/
def State.flushStrand (s : State) (c : Nat) (t : Fin 4) : State :=
  s.flushIds c (((s.core c).wbuf.filter (fun e => e.strand == t)).map (·.id))

/-- Performs every posted store of a core. -/
def State.flushCore (s : State) (c : Nat) : State := s.flushIds c ((s.core c).wbuf.map (·.id))

/-- Performs the posted stores of core `c` to the lines that satisfy `p`. -/
def State.flushLines (s : State) (c : Nat) (p : Nat → Bool) : State :=
  s.flushIds c (((s.core c).wbuf.filter (fun e => e.bytes.any (fun b => p (b.1 / 128)))).map (·.id))

/-- The value a strand of core `c` reads of a byte: its core's newest posted store, or the die copy (R287, R296). -/
def State.coreByte (s : State) (c : Nat) (a : Nat) (die : Byte) : Byte :=
  match (s.core c).wbuf.reverse.find? (fun e => e.bytes.any (fun b => b.1 == a)) with
  | some e => ((e.bytes.find? (fun b => b.1 == a)).map (·.2)).getD die
  | none => die

/-- Its metadata. -/
def State.coreMeta (s : State) (c : Nat) (a : Nat) : Meta :=
  match (s.core c).wbuf.reverse.find? (fun e => e.bytes.any (fun b => b.1 == a)) with
  | some e => ⟨e.id, e.rels⟩
  | none => s.metaAt (dieOf c) a

/-! ## Engine and IOD accesses at the home slice (R300) -/

/-- Reads bytes of one line at the home slice. -/
def State.homeRead (s : State) (pa n kid : Nat) (cmp : Bool) (va : Word) : Except Trap (List Byte × State) :=
  match s.homeLine (pa / 128) kid cmp va with
  | .ok (l, s) => .ok ((l.data.drop (pa % 128)).take n, s)
  | .error t => .error t

/-- Removes a core's cached copy of a line, its posted stores performed first (R300). -/
def State.dropCopy (s : State) (c : Nat) (line : Nat) : State :=
  (s.flushLines c (· == line)).modCore c fun k => { k with dc := k.dc.filter (fun l => l.line != line) }

/-- The key_mismatch of a write to a line at its home slice (R319). -/
def State.homeKey (s : State) (line kid : Nat) (va : Word) : Option Trap :=
  match s.keyAt line kid with
  | none => some ⟨Cause.keyMismatch, 3, va⟩
  | some _ =>
    match s.resident (homeOf line) line with
    | some l => if l.kid ≠ kid then some ⟨Cause.keyMismatch, 2, va⟩ else none
    | none => none

/-- Writes bytes of one line at the home slice for an engine of core `c` or, from 256, an agent of the IOD; answers the write's number. -/
def State.homeGo (s : State) (c line : Nat) (bytes : List (Nat × Byte)) (kid : Nat) (cmp : Bool) (hb : List Nat) (rels : List Rel) :
    Nat × State :=
  let s := if c < 256 then (s.dropCopy c line).flushIds c hb else s
  let (id, s) := s.drawWid
  let d := if c < 256 then dieOf c else homeOf line
  (id, s.serialise ⟨id, d, bytes, kid, cmp, hb, rels⟩)

/-- Writes bytes of one line at the home slice; raises key_mismatch. -/
def State.homeWrite (s : State) (c : Nat) (pa : Nat) (data : List Byte) (kid : Nat) (cmp : Bool) (hb : List Nat)
    (rels : List Rel) (va : Word) : Except Trap (Nat × State) :=
  match s.homeKey (pa / 128) kid va with
  | some t => .error t
  | none => .ok (s.homeGo c (pa / 128) ((List.range data.length).map fun i => (pa + i, data.getD i 0)) kid cmp hb rels)

end Sys2Proof.Machine
end

