-- ==== Sys2Proof/Machine/Mmu.lean ====
section
/-! DEFINITION. Address translation, the TLBs, and the checks of every access (R146, R388 to R393). -/

namespace Sys2Proof.Machine

/-! ## Page-table entries (R389, R390) -/

def pteP (e : Nat) : Bool := e.testBit 0
def pteLeaf (e : Nat) : Bool := e.testBit 1
def pteR (e : Nat) : Bool := e.testBit 2
def pteW (e : Nat) : Bool := e.testBit 3
def pteX (e : Nat) : Bool := e.testBit 4
def pteU (e : Nat) : Bool := e.testBit 5
def pteG (e : Nat) : Bool := e.testBit 6
def pteCp (e : Nat) : Nat := e / 2 ^ 7 % 8
def pteCh (e : Nat) : Bool := e.testBit 10
def pteRmt (e : Nat) : Bool := e.testBit 11
def pteKid (e : Nat) : Nat := e / 2 ^ 12 % 1024
def ptePpn (e : Nat) : Nat := e / 2 ^ 22 % 2 ^ 38

/-- A leaf with the level it was found at. -/
structure Leaf where
  e : Nat
  lvl : Nat
  deriving DecidableEq, Repr

/-- Bytes an entry of a level maps: as a leaf 16 KiB, 32 MiB or 64 GiB, as a table pointer of level 0 2^47 (R388). -/
def leafSpan (lvl : Nat) : Nat := if lvl = 3 then 2 ^ 14 else if lvl = 2 then 2 ^ 25 else if lvl = 1 then 2 ^ 36 else 2 ^ 47

/-- Physical address of a virtual address under a leaf. -/
def Leaf.pa (l : Leaf) (va : Nat) : Nat := ptePpn l.e * 2 ^ 14 + va % leafSpan l.lvl

/-- Index of a virtual address at a level (R388). -/
def vaIndex (va lvl : Nat) : Nat := va / 2 ^ (47 - 11 * lvl) % 2048

/-- Whether a physical address is populated (R304). -/
def State.populated (s : State) (pa : Nat) : Bool :=
  decide (pa < 2 ^ 39) || (decide (2 ^ 51 ≤ pa ∧ pa < 2 ^ 52) && s.cxlConfigured pa)

/-- Reason of a failed walk (R391), if the leaf `e` at level `lvl` is not valid. -/
def State.leafFault (s : State) (e lvl va : Nat) : Option Nat :=
  if lvl = 0 then some 3
  else if (lvl = 1 ∧ ptePpn e % 2 ^ 22 ≠ 0) ∨ (lvl = 2 ∧ ptePpn e % 2 ^ 11 ≠ 0) then some 2
  else if 4 ≤ pteCp e then some 4
  else if pteRmt e && (pteCp e ≠ 0 || pteX e) then some 4
  else if pteCp e = 2 ∧ (8 ≤ ptePpn e ∨ va / 2 ^ 14 % 8 ≠ ptePpn e % 8) then some 4
  else if pteCp e = 3 ∧ 4 ≤ ptePpn e then some 4
  else if pteRmt e || pteCp e == 2 || pteCp e == 3 then none
  else if s.populated (ptePpn e * 2 ^ 14) && s.populated (ptePpn e * 2 ^ 14 + va % leafSpan lvl) then none else some 5

/-- translation_not_present with its reason and level (R391). -/
def notPresent (reason lvl : Nat) (va : Word) : Trap := ⟨Cause.translationNotPresent, 16 * reason + lvl, va⟩

/-- The walk of R391 from level `lvl`, through die `d`'s copy under key ID `kid`. -/
def State.walkFrom (s : State) (d : Fin 4) (kid : Nat) (va : Word) (a : Nat) : Nat → Nat → Except Trap (Leaf × State)
  | 0, lvl => .error (notPresent 3 lvl va)
  | fuel + 1, lvl =>
    let ea := a + 8 * vaIndex va.toNat lvl
    if !s.populated ea then .error (notPresent 5 lvl va)
    else
      match s.dieRead d ea 8 kid false va with
      | .error t =>
        if t.cause = Cause.poisonConsumed ∨ t.cause = Cause.cxlPoison then .error (notPresent 6 lvl va) else .error t
      | .ok (bs, s) =>
        let e := le bs
        if !pteP e then .error (notPresent 0 lvl va)
        else if e / 2 ^ 60 ≠ 0 ∨ (¬ pteLeaf e ∧ e / 4 % 2 ^ 20 ≠ 0) then .error (notPresent 1 lvl va)
        else if pteLeaf e then
          match s.leafFault e lvl va.toNat with
          | some r => .error (notPresent r lvl va)
          | none => .ok (⟨e, lvl⟩, s)
        else if lvl = 3 then .error (notPresent 3 3 va)
        else s.walkFrom d kid va (ptePpn e * 2 ^ 14) fuel (lvl + 1)

/-- A whole walk from PTBASE. -/
def State.walk (s : State) (d : Fin 4) (sp : Space3) (va : Word) : Except Trap (Leaf × State) :=
  s.walkFrom d (sp.keyid.toNat % 1024) va (sp.ptbase.toNat / 2 ^ 14 % 2 ^ 38 * 2 ^ 14) 4 0

/-- What a walk would find, with no change of residency. -/
def State.peekWalk (s : State) (d : Fin 4) (sp : Space3) (va : Word) : Option Leaf :=
  match s.walk d sp va with
  | .ok (l, _) => some l
  | .error _ => none

/-- Whether a TLB entry matches a virtual address under an ASID (R392). -/
def TlbEnt.hits (t : TlbEnt) (va asid : Nat) : Bool := (t.glob || t.asid == asid) && t.va == va / leafSpan t.lvl

/-- The leaf a lookup uses: a cached entry that memory no longer confirms may be used or not (R392; log 10). -/
def State.pick (s : State) (cached : Option TlbEnt) (fresh : Option Leaf) : Option Leaf × State :=
  match cached with
  | none => (none, s)
  | some t =>
    let l : Leaf := ⟨t.e, t.lvl⟩
    if fresh = some l then (some l, s)
    else
      let (b, s) := s.drawBit
      (if b then some l else none, s)

/-- The table pointers a walk from PTBASE meets, from level `lvl` on (R391). -/
def State.pointersOn (s : State) (d : Fin 4) (kid asid : Nat) (va : Word) (a : Nat) : Nat → Nat → List TlbEnt
  | 0, _ => []
  | fuel + 1, lvl =>
    match s.dieRead d (a + 8 * vaIndex va.toNat lvl) 8 kid false va with
    | .error _ => []
    | .ok (bs, _) =>
      let e := le bs
      if pteLeaf e then []
      else ⟨va.toNat / leafSpan lvl, lvl, asid, e, false⟩ :: s.pointersOn d kid asid va (ptePpn e * 2 ^ 14) fuel (lvl + 1)

/-- Fills the TLBs with a leaf, the die's with the table pointers of its walk too; one it already holds stays (R392). -/
def State.fillTlb (s : State) (c : Nat) (d : Fin 4) (sp : Space3) (va : Word) (l : Leaf) : State :=
  let asid := sp.asid.toNat % 2 ^ 16
  let t : TlbEnt := ⟨va.toNat / leafSpan l.lvl, l.lvl, asid, l.e, pteG l.e⟩
  let old (x : TlbEnt) : Bool := pteLeaf x.e && x.hits va.toNat asid
  let ptrs := (s.pointersOn d (sp.keyid.toNat % 1024) asid va (sp.ptbase.toNat / 2 ^ 14 % 2 ^ 38 * 2 ^ 14) 3 0).filter fun p =>
    !(s.die d).tlb.any fun x => !pteLeaf x.e && x.lvl == p.lvl && x.hits va.toNat asid
  let s := s.modDie d fun k => { k with tlb := (t :: ptrs ++ k.tlb.filter fun x => !old x).take 65536 }
  if c < 256 then s.modCore c fun k => { k with tlb := (t :: k.tlb.filter fun x => !old x).take 512 } else s

/-- What a walk answers without its state. -/
def walkEnd : Except Trap (Leaf × State) → Leaf ⊕ Trap
  | .ok (l, _) => .inl l
  | .error t => .inr t

/-- A walk that may begin at a table pointer the die's TLB still holds where that leads elsewhere than memory does (R392; log 10). -/
def State.walkVia (s : State) (d : Fin 4) (sp : Space3) (va : Word) : List TlbEnt → Except Trap (Leaf × State)
  | [] => s.walk d sp va
  | p :: ps =>
    let go (s : State) : Except Trap (Leaf × State) :=
      s.walkFrom d (sp.keyid.toNat % 1024) va (ptePpn p.e * 2 ^ 14) (3 - p.lvl) (p.lvl + 1)
    if walkEnd (go s) = walkEnd (s.walk d sp va) then s.walkVia d sp va ps
    else
      let (b, s) := s.drawBit
      if b then go s else s.walkVia d sp va ps

/-- Translates a canonical virtual address for core `c` (256 and above: an agent of the IOD) on die `d` (R391, R392). -/
def State.translate (s : State) (c : Nat) (d : Fin 4) (sp : Space3) (va : Word) : Except Trap (Leaf × State) :=
  let hit (leaf : Bool) (t : TlbEnt) : Bool := pteLeaf t.e == leaf && t.hits va.toNat (sp.asid.toNat % 2 ^ 16)
  let fresh := s.peekWalk d sp va
  let own := if c < 256 then (s.core c).tlb.find? (hit true) else none
  match s.pick own fresh with
  | (some l, s) => .ok (l, s)
  | (none, s) =>
    match s.pick ((s.die d).tlb.find? (hit true)) fresh with
    | (some l, s) => .ok (l, s.fillTlb c d sp va l)
    | (none, s) =>
      match s.walkVia d sp va ((s.die d).tlb.filter (hit false)) with
      | .ok (l, s) => .ok (l, s.fillTlb c d sp va l)
      | .error t => .error t

/-- The translation space of a core with a mode (R393). -/
def Core.space (k : Core) (sup : Bool) : Space3 := ⟨k.ptbase, k.asid, k.keyid, sup⟩

/-- Kinds of access the checks of R146 distinguish. -/
inductive Acc3 where
  | rd
  | wr
  | rw
  | drop
  | ex
  | counter
  | cueWr
  | cueRd
  | remoteRd
  | remoteWr
  | remoteRw
  deriving DecidableEq, Repr

/-- Steps 1 to 4 of R146 in global space: canonical, aligned, translated, permitted. -/
def State.gcheck (s : State) (c : Nat) (d : Fin 4) (sp : Space3) (ea : Word) (size : Nat) (k : Acc3) :
    Except Trap (Leaf × State) :=
  if ea.toNat / 2 ^ 58 ≠ 0 then .error ⟨Cause.noncanonicalAddress, 0, ea⟩
  else if ea.toNat % size ≠ 0 then .error ⟨Cause.misalignedAccess, 0, ea⟩
  else
    match s.translate c d sp ea with
    | .error t => .error t
    | .ok (l, s) =>
      let rdf : Except Trap (Leaf × State) := .error ⟨Cause.readPermission, l.lvl, ea⟩
      let wrf : Except Trap (Leaf × State) := .error ⟨Cause.writePermission, l.lvl, ea⟩
      let ok : Except Trap (Leaf × State) := .ok (l, s)
      let us := sp.sup || pteU l.e
      let cp := pteCp l.e
      let rmt := pteRmt l.e
      match k with
      | .rd => if pteR l.e && us && !rmt && cp < 2 then ok else rdf
      | .wr => if pteW l.e && us && !rmt && cp < 2 then ok else wrf
      | .rw => if pteR l.e && pteW l.e && us && !rmt && cp < 2 then ok else wrf
      | .drop => if !(pteR l.e && us && !rmt && cp != 2) then rdf else if !(pteW l.e && cp < 2) then wrf else ok
      | .ex => if pteX l.e && us && !rmt && cp < 2 then ok else .error ⟨Cause.executePermission, l.lvl, ea⟩
      | .counter => if pteR l.e && us && !rmt && (cp < 2 || cp == 3) then ok else rdf
      | .cueWr => if cp == 2 then ok else wrf
      | .cueRd => if cp == 2 then ok else rdf
      | .remoteRd => if pteR l.e && us && rmt then ok else rdf
      | .remoteWr => if pteW l.e && us && rmt then ok else wrf
      | .remoteRw => if pteR l.e && pteW l.e && us && rmt then ok else wrf

/-- Step 5 of R146 for an access that does not fill yet: the key of a posted store (R147, R319). -/
def State.keyCheck (s : State) (c : Nat) (line kid : Nat) (va : Word) : Option Trap :=
  if (s.core c).dc.any (fun l => l.line == line && l.kid != kid) then some ⟨Cause.keyMismatch, 0, va⟩
  else
    match s.keyAt line kid with
    | none => some ⟨Cause.keyMismatch, 3, va⟩
    | some _ =>
      if (match s.resident (homeOf line) line with | some l => l.kid != kid | none => false)
          || (match s.resident (dieOf c) line with | some l => l.kid != kid | none => false) then
        some ⟨Cause.keyMismatch, 2, va⟩
      else none

/-- Ways of the data cache: the CACHE banks of the budget (R171, R307). -/
def Core.cacheWays (k : Core) : List Nat :=
  (List.range 32).filter fun b => k.budget.getLsbD b && k.bankMode.get .scratch b == .cache

/-- Allocates or touches a line of the data cache, evicting the least recently used of its set (R307). -/
def State.dcTouch (s : State) (c : Nat) (line kid : Nat) (dirty : Bool) : State :=
  let k := s.core c
  let ways := k.cacheWays
  if ways = [] then s
  else
    match k.dc.find? (fun l => l.line == line) with
    | some l =>
      s.modCore c fun k => { k with dc := { l with dirty := l.dirty || dirty } :: k.dc.filter (fun x => x.line != line) }
    | none =>
      let inSet := k.dc.filter (fun l => l.line % 512 == line % 512)
      match ways.find? (fun w => !inSet.any (fun l => l.way == w)) with
      | some w => s.modCore c fun k => { k with dc := ⟨line, kid, w, dirty⟩ :: k.dc }
      | none =>
        match inSet.getLast? with
        | none => s
        | some v =>
          let s := if v.dirty then s.flushLines c (· == v.line) else s
          s.modCore c fun k => { k with dc := ⟨line, kid, v.way, dirty⟩ :: k.dc.filter (fun x => x.line != v.line) }

end Sys2Proof.Machine
end

