-- ==== Sys2Proof/Machine/Num.lean ====
section
/-! DEFINITION. Number formats: exact values, decoding, and the one rounding of every encoding (chapter 02). -/

namespace Sys2Proof.Machine

/-- An exact value: a signed number (both zeros kept apart), an infinity, a NaN (R55, R63). -/
inductive FVal where
  | num (neg : Bool) (m : Rat)
  | inf (neg : Bool)
  | nan (neg : Bool)
  deriving DecidableEq, Repr

/-- Sticky flags of one group (R80). -/
abbrev Flags := BitVec 9

namespace Flag
def nv : Flags := 1
def dz : Flags := 2
def of : Flags := 4
def uf : Flags := 8
def nx : Flags := 16
def sat : Flags := 32
def nar : Flags := 64
def int4 : Flags := 128
def daz : Flags := 256
end Flag

/-- Rounding modes (R70). -/
inductive RM where
  | rne
  | rtz
  | rdn
  | rup
  deriving DecidableEq, Repr

/-- RM of RMODE (R70). -/
def RM.ofCode : Nat → RM
  | 0 => .rne
  | 1 => .rtz
  | 2 => .rdn
  | _ => .rup

/-- 2^e. -/
def pow2 (e : Int) : Rat := if 0 ≤ e then ((2 ^ e.toNat : Nat) : Rat) else mkRat 1 (2 ^ (-e).toNat)

/-- floor(log2 x) of a positive x. -/
def flog2 (x : Rat) : Int :=
  let k : Int := (Nat.log2 x.num.natAbs : Int) - (Nat.log2 x.den : Int)
  if pow2 k ≤ x then k else k - 1

/-- A non-negative rational rounded to an integer, for a value of sign `neg`. -/
def roundNat (rm : RM) (neg : Bool) (x : Rat) : Nat :=
  let q := x.num.natAbs / x.den
  let r := x.num.natAbs % x.den
  if r = 0 then q
  else match rm with
    | .rne => if 2 * r < x.den then q else if x.den < 2 * r then q + 1 else if q % 2 = 0 then q else q + 1
    | .rtz => q
    | .rdn => if neg then q + 1 else q
    | .rup => if neg then q else q + 1

/-- How a binary format codes NaN and infinity (R54). -/
inductive BinKind where
  | ieee
  | e4m3
  | finite
  deriving DecidableEq, Repr

/-- A binary floating-point format (R54). -/
structure BinFmt where
  e : Nat
  f : Nat
  bias : Int
  kind : BinKind
  deriving DecidableEq, Repr

def fp64 : BinFmt := ⟨11, 52, 1023, .ieee⟩
def fp32 : BinFmt := ⟨8, 23, 127, .ieee⟩
def bf16 : BinFmt := ⟨8, 7, 127, .ieee⟩
def fp16 : BinFmt := ⟨5, 10, 15, .ieee⟩
def e4m3 : BinFmt := ⟨4, 3, 7, .e4m3⟩
def e5m2 : BinFmt := ⟨5, 2, 15, .ieee⟩
def e3m2 : BinFmt := ⟨3, 2, 3, .finite⟩
def e2m1 : BinFmt := ⟨2, 1, 1, .finite⟩

/-- Sign bit set in a pattern. -/
def BinFmt.sgn (b : BinFmt) (neg : Bool) : Nat := if neg then 2 ^ (b.e + b.f) else 0

/-- Pattern of the largest finite magnitude (R54). -/
def BinFmt.maxBits (b : BinFmt) : Nat :=
  match b.kind with
  | .ieee => (2 ^ b.e - 1) * 2 ^ b.f - 1
  | .e4m3 => 2 ^ (b.e + b.f) - 2
  | .finite => 2 ^ (b.e + b.f) - 1

/-- Value of a magnitude pattern that is neither infinity nor NaN (R55). -/
def BinFmt.magVal (b : BinFmt) (p : Nat) : Rat :=
  let ex := p / 2 ^ b.f
  let fr := p % 2 ^ b.f
  if ex = 0 then (fr : Rat) * pow2 (1 - b.bias - b.f)
  else ((2 ^ b.f + fr : Nat) : Rat) * pow2 (ex - b.bias - b.f)

/-- Canonical NaN (R55). -/
def BinFmt.nanBits (b : BinFmt) (neg : Bool) : Nat :=
  b.sgn neg + (match b.kind with
    | .ieee => (2 ^ b.e - 1) * 2 ^ b.f + 2 ^ (b.f - 1)
    | .e4m3 => 2 ^ (b.e + b.f) - 1
    | .finite => 0)

/-- Infinity. -/
def BinFmt.infBits (b : BinFmt) (neg : Bool) : Nat := b.sgn neg + (2 ^ b.e - 1) * 2 ^ b.f

/-- Decodes a pattern (R54, R55). -/
def BinFmt.decode (b : BinFmt) (w : Nat) : FVal :=
  let neg := decide (w / 2 ^ (b.e + b.f) % 2 = 1)
  let p := w % 2 ^ (b.e + b.f)
  match b.kind with
  | .ieee =>
    if p / 2 ^ b.f = 2 ^ b.e - 1 then (if p % 2 ^ b.f = 0 then .inf neg else .nan neg) else .num neg (b.magVal p)
  | .e4m3 => if p = 2 ^ (b.e + b.f) - 1 then .nan neg else .num neg (b.magVal p)
  | .finite => .num neg (b.magVal p)

/-- Whether a pattern is a non-zero subnormal. -/
def BinFmt.isSub (b : BinFmt) (w : Nat) : Bool :=
  let p := w % 2 ^ (b.e + b.f)
  decide (p ≠ 0 ∧ p / 2 ^ b.f = 0)

/-- Pattern and value of a positive magnitude rounded with the exponent range unbounded above, gradual below (R63). -/
def BinFmt.roundMag (b : BinFmt) (rm : RM) (neg : Bool) (m : Rat) : Nat × Rat :=
  let e := max (flog2 m) (1 - b.bias)
  let q := pow2 (e - b.f)
  let n := roundNat rm neg (m / q)
  (n + ((e - (1 - b.bias)).toNat) * 2 ^ b.f, (n : Rat) * q)

/-- Tininess, detected after rounding (R63). -/
def BinFmt.tiny (b : BinFmt) (rm : RM) (neg : Bool) (m : Rat) : Bool :=
  let q := pow2 (flog2 m - b.f)
  decide ((roundNat rm neg (m / q) : Rat) * q < pow2 (1 - b.bias))

/-- Encodes a finite non-zero magnitude (R63, R64, R71). -/
def BinFmt.encMag (b : BinFmt) (rm : RM) (sat neg : Bool) (m : Rat) : Nat × Flags :=
  let (p, v) := b.roundMag rm neg m
  if b.magVal b.maxBits < v then
    let big := b.sgn neg + b.maxBits
    match b.kind with
    | .finite => (big, Flag.of ||| Flag.sat ||| Flag.nx)
    | .e4m3 => if sat then (big, Flag.of ||| Flag.sat ||| Flag.nx) else (b.nanBits neg, Flag.of ||| Flag.nx)
    | .ieee =>
      if sat then (big, Flag.of ||| Flag.sat ||| Flag.nx)
      else
        let toMax := match rm with
          | .rne => false
          | .rtz => true
          | .rdn => !neg
          | .rup => neg
        (if toMax then big else b.infBits neg, Flag.of ||| Flag.nx)
  else
    let inexact := decide (v ≠ m)
    (b.sgn neg + p,
      (if inexact then Flag.nx else 0) ||| (if inexact && b.tiny rm neg m then Flag.uf else 0))

/-- Encodes a value in a binary format (R63 to R65). -/
def BinFmt.encode (b : BinFmt) (rm : RM) (sat : Bool) (v : FVal) : Nat × Flags :=
  match v with
  | .num neg m => if m = 0 then (b.sgn neg, 0) else b.encMag rm sat neg m
  | .inf neg =>
    match b.kind with
    | .ieee => if sat then (b.sgn neg + b.maxBits, Flag.sat) else (b.infBits neg, 0)
    | .e4m3 => if sat then (b.sgn neg + b.maxBits, Flag.sat) else (b.nanBits false, Flag.nv)
    | .finite => (b.sgn neg + b.maxBits, Flag.sat)
  | .nan neg =>
    match b.kind with
    | .finite => (0, Flag.nv)
    | _ => (b.nanBits neg, 0)

/-! ## Tapered formats (R60 to R62) -/

/-- Number of leading bits equal to `b` among the low `n` bits of `p`, from the high end. -/
def leadRun (b : Bool) (p : Nat) : Nat → Nat
  | 0 => 0
  | n + 1 => if p.testBit n == b then 1 + leadRun b p n else 0

/-- Decodes a tapered pattern of `n` bits (R60). -/
def taperDecode (n w : Nat) : FVal × Flags :=
  let p := w % 2 ^ n
  if p = 0 then (.num false 0, 0)
  else if p = 2 ^ (n - 1) then (.nan false, Flag.nar)
  else
    let s := p.testBit (n - 1)
    let p := if s then (2 ^ n - p) % 2 ^ n else p
    let first := p.testBit (n - 2)
    let run := leadRun first p (n - 1)
    let k : Int := if first then (run : Int) - 1 else -(run : Int)
    let left := n - 1 - run - 1
    let rest := p % 2 ^ left
    let e := if left = 0 then 0 else rest / 2 ^ (left - 1)
    let fb := left - 1
    let f : Rat := mkRat ((rest % 2 ^ fb : Nat) : Int) (2 ^ fb)
    (.num s (pow2 (2 * k) * pow2 e * (1 + f)), 0)

/-- Encodes a value in `n` tapered bits, rounding in the pattern (R62). -/
def taperEncode (n : Nat) (v : FVal) : Nat × Flags :=
  match v with
  | .inf _ | .nan _ => (2 ^ (n - 1), Flag.nar)
  | .num neg m =>
    if m = 0 then (0, 0)
    else
      let l := flog2 m
      let k := l / 2
      let e := (l - 2 * k).toNat
      let f := m / pow2 l - 1
      let (len, reg) : Nat × Nat :=
        if 0 ≤ k then (k.toNat + 2, 2 ^ (k.toNat + 2) - 2) else ((-k).toNat + 1, 1)
      let x := (((2 * reg + e : Nat) : Rat) + f) * pow2 ((n : Int) - 1 - (len + 1))
      let q0 := x.num.natAbs / x.den
      let t := x - (q0 : Rat)
      let q1 := if mkRat 1 2 < t ∨ (t = mkRat 1 2 ∧ q0 % 2 = 1) then q0 + 1 else q0
      let (q, sat) := if q1 = 0 then (1, true) else if 2 ^ (n - 1) - 1 < q1 then (2 ^ (n - 1) - 1, true) else (q1, false)
      let w := if neg then (2 ^ n - q) % 2 ^ n else q
      let nx := decide ((taperDecode n w).1 ≠ .num neg m)
      (w, (if sat then Flag.sat else 0) ||| (if nx then Flag.nx else 0))

/-! ## Integers (R57, R58, R64, R65) -/

/-- Two's complement value of the low `w` bits. -/
def sintOf (w n : Nat) : Int :=
  let p := n % 2 ^ w
  if 2 * p < 2 ^ w then (p : Int) else (p : Int) - (2 ^ w : Nat)

/-- An integer as an exact value. -/
def FVal.ofInt (i : Int) : FVal := .num (decide (i < 0)) ((i.natAbs : Nat) : Rat)

/-- The low `w` bits of an integer. -/
def intBits (w : Nat) (i : Int) : Nat := (i % ((2 ^ w : Nat) : Int)).toNat

/-- Rounds to an integer and saturates to `lo` and `hi`; `infNv` and `ovf` are the flags of R64 and R122. -/
def toInt (rm : RM) (lo hi : Int) (v : FVal) : Int × Flags :=
  match v with
  | .nan _ => (0, Flag.nv)
  | .inf neg => (if neg then lo else hi, Flag.nv)
  | .num neg m =>
    let n := roundNat rm neg m
    let i : Int := if neg then -(n : Int) else n
    if i < lo then (lo, Flag.sat ||| Flag.nx)
    else if hi < i then (hi, Flag.sat ||| Flag.nx)
    else (i, if (n : Rat) = m then 0 else Flag.nx)

/-! ## Formats by code (R52) -/

/-- Width in bits of a format code (R52). -/
def fmtWidth : Nat → Nat
  | 0x0 | 0xB => 32
  | 0x1 | 0x2 | 0xC => 16
  | 0x5 | 0x8 => 6
  | 0x6 | 0xA => 4
  | _ => 8

/-- Whether a format code is an integer one (R57). -/
def isIntFmt (c : Nat) : Bool := [0x9, 0xA, 0xB, 0xC, 0xD].contains c

/-- Whether a format code is block-scalable (R52). -/
def isBlkFmt (c : Nat) : Bool := 3 ≤ c && c ≤ 10

/-- The binary format of a code, if it is one. -/
def binOf : Nat → Option BinFmt
  | 0x0 => some fp32
  | 0x1 => some bf16
  | 0x2 => some fp16
  | 0x3 => some e4m3
  | 0x4 => some e5m2
  | 0x5 => some e3m2
  | 0x6 => some e2m1
  | _ => none

/-- Range of an integer format code (R57). -/
def intRange : Nat → Int × Int
  | 0x9 => (-128, 127)
  | 0xA => (-7, 7)
  | 0xB => (-2147483648, 2147483647)
  | 0xC => (-32768, 32767)
  | _ => (0, 255)

/-- Decodes an element of a format code exactly (R55, R58, R60). -/
def decodeFmt (c w : Nat) : FVal × Flags :=
  match binOf c with
  | some b => (b.decode w, 0)
  | none =>
    match c with
    | 0x7 => taperDecode 8 w
    | 0x8 => taperDecode 6 w
    | 0x9 => (FVal.ofInt (sintOf 8 w), 0)
    | 0xA => if w % 16 = 8 then (.num false 0, Flag.int4) else (FVal.ofInt (sintOf 4 w), 0)
    | 0xB => (FVal.ofInt (sintOf 32 w), 0)
    | 0xC => (FVal.ofInt (sintOf 16 w), 0)
    | _ => (FVal.ofInt ((w % 256 : Nat) : Int), 0)

/-- Encodes a value into a format code, to nearest even, saturating or not (R62 to R65). -/
def encodeFmt (c : Nat) (sat : Bool) (v : FVal) : Nat × Flags :=
  match binOf c with
  | some b => b.encode .rne sat v
  | none =>
    match c with
    | 0x7 => taperEncode 8 v
    | 0x8 => taperEncode 6 v
    | _ =>
      let (lo, hi) := intRange c
      let (i, fl) := toInt .rne lo hi v
      (intBits (fmtWidth c) i, fl)

/-! ## Exact arithmetic -/

/-- Sign of a value. -/
def FVal.neg : FVal → Bool
  | .num n _ => n
  | .inf n => n
  | .nan n => n

/-- Negation; a NaN stays NaN with its sign reversed. -/
def FVal.negate : FVal → FVal
  | .num n m => .num (!n) m
  | .inf n => .inf (!n)
  | .nan n => .nan (!n)

/-- Absolute value. -/
def FVal.abs : FVal → FVal
  | .num _ m => .num false m
  | .inf _ => .inf false
  | .nan _ => .nan false

/-- Whether a value is NaN. -/
def FVal.isNan : FVal → Bool
  | .nan _ => true
  | _ => false

/-- Whether a value is a zero. -/
def FVal.isZero : FVal → Bool
  | .num _ m => decide (m = 0)
  | _ => false

/-- A NaN an invalid operation creates (R55). -/
def FVal.qnan : FVal := .nan false

/-- Sum of two numbers with the sign of an exact zero by the rounding mode (IEEE 754, R71). -/
def addNum (rm : RM) (n1 : Bool) (m1 : Rat) (n2 : Bool) (m2 : Rat) : FVal :=
  if n1 = n2 then .num n1 (m1 + m2)
  else if m1 = m2 then .num (rm == .rdn) 0
  else if m2 < m1 then .num n1 (m1 - m2)
  else .num n2 (m2 - m1)

/-- Exact sum; a NaN operand gives NaN, opposite infinities the canonical NaN and NV. -/
def FVal.add (rm : RM) (x y : FVal) : FVal × Flags :=
  match x, y with
  | .nan _, _ => (.qnan, 0)
  | _, .nan _ => (.qnan, 0)
  | .inf a, .inf b => if a = b then (.inf a, 0) else (.qnan, Flag.nv)
  | .inf a, _ => (.inf a, 0)
  | _, .inf b => (.inf b, 0)
  | .num a m, .num b n => (addNum rm a m b n, 0)

/-- Exact product. -/
def FVal.mul (x y : FVal) : FVal × Flags :=
  match x, y with
  | .nan _, _ => (.qnan, 0)
  | _, .nan _ => (.qnan, 0)
  | .inf a, .inf b => (.inf (a != b), 0)
  | .inf a, .num b n => if n = 0 then (.qnan, Flag.nv) else (.inf (a != b), 0)
  | .num a m, .inf b => if m = 0 then (.qnan, Flag.nv) else (.inf (a != b), 0)
  | .num a m, .num b n => (.num (a != b) (m * n), 0)

/-- Exact quotient; a finite non-zero value over zero sets DZ (R121). -/
def FVal.div (x y : FVal) : FVal × Flags :=
  match x, y with
  | .nan _, _ => (.qnan, 0)
  | _, .nan _ => (.qnan, 0)
  | .inf _, .inf _ => (.qnan, Flag.nv)
  | .inf a, .num b _ => (.inf (a != b), 0)
  | .num a _, .inf b => (.num (a != b) 0, 0)
  | .num a m, .num b n =>
    if n = 0 then (if m = 0 then (.qnan, Flag.nv) else (.inf (a != b), Flag.dz))
    else (.num (a != b) (m / n), 0)

/-- Largest r with r * r ≤ n, searching the bits below `k`. -/
def isqrtBits (n : Nat) : Nat → Nat → Nat
  | 0, r => r
  | k + 1, r => isqrtBits n k (if (r + 2 ^ k) * (r + 2 ^ k) ≤ n then r + 2 ^ k else r)

/-- floor(sqrt n). -/
def isqrt (n : Nat) : Nat := isqrtBits n (Nat.log2 n / 2 + 1) 0

/-- A rational that rounds as the square root of a positive `m` does in every format: exact where the root is, else a value
strictly between the same two numbers of 80 more bits. -/
def sqrtRat (m : Rat) : Rat :=
  let l := flog2 m
  let k : Int := 80 - l / 2
  let y := m * pow2 (2 * k)
  let n := y.num.natAbs / y.den
  let r := isqrt n
  if ((r * r : Nat) : Rat) = y then (r : Rat) * pow2 (-k)
  else mkRat ((2 * r + 1 : Nat) : Int) 2 * pow2 (-k)

/-- Square root (R121). -/
def FVal.sqrt (x : FVal) : FVal × Flags :=
  match x with
  | .nan _ => (.qnan, 0)
  | .inf neg => if neg then (.qnan, Flag.nv) else (.inf false, 0)
  | .num neg m =>
    if m = 0 then (.num neg 0, 0)
    else if neg then (.qnan, Flag.nv)
    else (.num false (sqrtRat m), 0)

/-- x × y + z, exact; 0 × ∞ + z sets NV whatever z is (R121, R189). -/
def FVal.fma (rm : RM) (x y z : FVal) : FVal × Flags :=
  let (p, f1) := x.mul y
  let (r, f2) := p.add rm z
  (r, f1 ||| f2)

/-- Multiplication by 2^e, exact. -/
def FVal.scale (x : FVal) (e : Int) : FVal :=
  match x with
  | .num n m => .num n (m * pow2 e)
  | y => y

/-- Order of two values that are not NaN, −0 equal to +0. -/
def FVal.lt (x y : FVal) : Bool :=
  match x, y with
  | .nan _, _ => false
  | _, .nan _ => false
  | .inf a, .inf b => a && !b
  | .inf a, .num _ _ => a
  | .num _ _, .inf b => !b
  | .num a m, .num b n =>
    if a then (if b then decide (n < m) else decide (m ≠ 0 ∨ n ≠ 0)) else (if b then false else decide (m < n))

/-- Equality of values that are not NaN, −0 equal to +0. -/
def FVal.eqv (x y : FVal) : Bool :=
  match x, y with
  | .nan _, _ => false
  | _, .nan _ => false
  | .inf a, .inf b => a == b
  | .num a m, .num b n => decide (m = n) && (a == b || decide (m = 0))
  | _, _ => false

/-- Strict order of R72: as `lt`, with −0 below +0. -/
def FVal.below (x y : FVal) : Bool :=
  match x, y with
  | .num a m, .num b n => if m = 0 ∧ n = 0 then a && !b else x.lt y
  | _, _ => x.lt y

/-- Minimum (R72). -/
def FVal.min (x y : FVal) : FVal :=
  if x.isNan then (if y.isNan then .qnan else y) else if y.isNan then x else if y.below x then y else x

/-- Maximum (R72). -/
def FVal.max (x y : FVal) : FVal :=
  if x.isNan then (if y.isNan then .qnan else y) else if y.isNan then x else if x.below y then y else x

/-- Rounds to FP32, to nearest even, non-saturating (R177), as an FP32 value. -/
def round32 (v : FVal) : FVal × Flags :=
  let (w, f) := fp32.encode .rne false v
  (fp32.decode w, f)

/-! ## Scales (R59, R66 to R68) -/

/-- Value of an E8M0 byte: none for NaN (R59). -/
def e8m0 (e : Nat) : Option Rat := if e = 255 then none else some (pow2 ((e : Int) - 127))

/-- An element under an E8M0 block scale (R66). -/
def blockScaled (e : Nat) (v : FVal) : FVal :=
  match e8m0 e with
  | none => .qnan
  | some _ => v.scale ((e : Int) - 127)

/-- An element under an FP32 row scale (R66): a zero or infinite scale gives NaN and NV, a NaN scale NaN. -/
def rowScaled (s : Nat) (v : FVal) : FVal × Flags :=
  match fp32.decode s with
  | .nan _ => (.qnan, 0)
  | .inf _ => (.qnan, Flag.nv)
  | .num n m => if m = 0 then (.qnan, Flag.nv) else (match v with
      | .nan g => .nan g
      | w => ((FVal.num n m).mul w).1, 0)

/-- An element as it is encoded under an FP32 row scale (R68): the exact quotient, or a NaN. -/
def rowQuot (s : Nat) (v : FVal) : FVal :=
  match fp32.decode s with
  | .num n m => if m = 0 then .qnan else (match v with
      | .num a x => .num (a != n) (x / m)
      | .inf a => .inf (a != n)
      | w => w)
  | _ => .qnan

/-- Exponent of the largest power of two of a block-scalable format (R67). -/
def emaxOf : Nat → Int
  | 0x3 => 8
  | 0x4 => 15
  | 0x5 => 4
  | 0x6 => 2
  | 0x7 => 12
  | 0x8 => 8
  | 0x9 => 6
  | _ => 2

/-- Magnitude of a number, zero for the rest. -/
def FVal.mag : FVal → Rat
  | .num _ m => m
  | _ => 0

/-- Replaces a subnormal FP32 value by the zero of its sign (R69 compatibility mode, R67). -/
def dazVal (v : FVal) : FVal × Flags :=
  match v with
  | .num n m => if m ≠ 0 ∧ m < pow2 (-126) then (.num n 0, Flag.daz) else (v, 0)
  | w => (w, 0)

/-- Block encoding of the values of one block (R67): scale byte, patterns, flags. -/
def blockEncode (c : Nat) (compat : Bool) (vs : List FVal) : Nat × List Nat × Flags :=
  let ds := vs.map fun v => if compat then dazVal v else (v, 0)
  let f0 := ds.foldl (fun f d => f ||| d.2) 0
  let vs := ds.map (·.1)
  if vs.any (fun v => match v with | .num _ _ => false | _ => true) then
    let anyInf := vs.any (fun v => match v with | .inf _ => true | _ => false)
    (0xFF, vs.map (fun _ => 0), f0 ||| (if anyInf then Flag.nv else 0))
  else
    let amax := vs.foldl (fun a v => if a < v.mag then v.mag else a) 0
    let x0 : Int := if amax = 0 then -127 else flog2 amax - emaxOf c
    let x := Max.max (-127) (Min.min 127 x0)
    let es := vs.map fun v => encodeFmt c true (v.scale (-x))
    ((x + 127).toNat, es.map (·.1), es.foldl (fun f e => f ||| e.2) f0)

end Sys2Proof.Machine
end

