-- ==== Sys2Proof/Machine/Ops.lean ====
section
/-! DEFINITION. Named operations over registers, memory and ordering; tracing; taking a trap and returning from one. -/

namespace Sys2Proof.Machine

/-! ## Registers (R13, R17 to R22) -/

/-- Value of a general register: g0 reads as zero (R13). -/
def Strand.rd (t : Strand) (r : Reg) : Word := if r = 0 then 0 else Tab.get t.g 0 r.toNat

/-- Writes a general register: g0 ignores every write (R13). -/
def Strand.wr (t : Strand) (r : Reg) (v : Word) : Strand := if r = 0 then t else { t with g := Tab.set 0 t.g r.toNat v }

/-- Value of a predicate. -/
def Strand.rp (t : Strand) (p : Pred) : Bool := t.p.getLsbD p.val

/-- A predicate word with bit `n` set to `b`. -/
def setBit24 (w : BitVec 24) (n : Nat) (b : Bool) : BitVec 24 :=
  if b then w ||| (1#24 <<< n) else w &&& ~~~(1#24 <<< n)

/-- Writes a predicate. -/
def Strand.wp (t : Strand) (p : Pred) (b : Bool) : Strand := { t with p := setBit24 t.p p.val b }

/-- ORs flags into a group of XFLAGS whose lowest bit is `at` (R79, R81). -/
def Strand.orFlags (t : Strand) (lo : Nat) (f : Flags) : Strand := { t with xflags := t.xflags ||| (f.zeroExtend 64 <<< lo) }

/-- Lowest bit of SFLAGS, and of the groups of engines M, V, C and F (R79). -/
def sGroup : Nat := 0
def engGroup (e : Eng) : Nat := if e = 0 then 32 else if e = 1 then 16 else 48

/-- Value of register `r` of the issuing strand. -/
def State.rd (s : State) (r : Reg) : Word := s.str.rd r

/-- Writes one destination. -/
def Strand.wrDst (t : Strand) (d : Dst) (v : Word) : Strand :=
  match d with
  | .reg r => t.wr r v
  | .pred p => t.wp p (v.getLsbD 0)

/-- Flags that merge into a strand after they arose; those of an exited strand are discarded (R81). -/
def Strand.mergeFlags (t : Strand) (lo : Nat) (f : Flags) : Strand := if t.cond = .exited then t else t.orFlags lo f

/-- An operation in flight writes its result and its flags (R17, R81). -/
def Strand.land (t : Strand) (p : Pend) : Strand := (t.wrDst p.dst p.val).orFlags sGroup p.flags

/-- Lands, in the order of issue, the operations that become readable at bundle `n` or before (R17, R19). -/
def Strand.landDue (t : Strand) (n : Nat) : Strand :=
  (t.pend.filter (fun p => p.ready ≤ n)).foldl (fun t p => t.land p) { t with pend := t.pend.filter (fun p => !(p.ready ≤ n)) }

/-- Lands the operations in flight in the order they would become readable, up to `k` bundles ahead. -/
def Strand.landAhead (t : Strand) : Nat → Nat → Strand
  | 0, _ => t
  | k + 1, n => (t.landDue n).landAhead k (n + 1)

/-- Lands everything in flight (R20). -/
def Strand.landAll (t : Strand) : Strand := t.landAhead 24 t.n

/-- Lands what is in flight from earlier bundles than the one that issues (R20, R140). -/
def Strand.landEarlier (t : Strand) : Strand :=
  { ({ t with pend := t.pend.filter fun p => p.issued != t.n }).landAll with pend := t.pend.filter fun p => p.issued == t.n }

/-- A fixed-latency result: readable `l` bundles after this one (R16, R17). -/
def State.fixed (s : State) (l : Nat) (d : Dst) (v : Word) (f : Flags) : State :=
  s.modStr fun t => { t with pend := t.pend ++ [⟨t.n, t.n + l, s.iss.k, d, v, f⟩] }

/-- A taken branch kills the killable operations still in flight from earlier bundles (R21). -/
def Strand.kill (t : Strand) : Strand :=
  { t with pend := t.pend.filter fun p => !(p.k && decide (p.issued < t.n) && decide (t.n < p.ready)) }

/-! ## Ordering of a strand (R292 to R295) -/

/-- Writes of scratchpad happen before what an agent of the core does next: it reads no word as it was before them (R43, R294). -/
def Core.sees (k : Core) (who : Nat) (ids : List Nat) : Core :=
  { k with torn := k.torn.map fun e => if ids.contains e.2.id then (e.1, { e.2 with seen := uni e.2.seen [who] }) else e }

/-- A release covers the scratchpad stores a strand has made: later ones count apart (R43). -/
def Strand.newStores (t : Strand) : Strand := { t with ord := { t.ord with sid := 0 } }

/-- The writes the next release of a strand covers. -/
def State.relSet (s : State) (c : Nat) (t : Fin 4) : List Nat :=
  let o := (s.strand c t).ord
  s.prune (uni o.hb o.own)

/-- A strand receives writes by an acquire: its die holds them from now on (R297), and of scratchpad it sees them (R43). -/
def State.acquire (s : State) (c : Nat) (t : Fin 4) (ids : List Nat) : State :=
  let s := s.modStrand c t fun k => { k with ord := { k.ord with hb := s.prune (uni k.ord.hb ids) } }
  (s.modCore c fun k => k.sees t.val ids).forceUpds (dieOf c) ids

/-- Notes the writes a read returned (R295) and the releases it met; an acquire read synchronises with them (R292). -/
def State.noteRead (s : State) (c : Nat) (t : Fin 4) (ms : List Meta) (acq : Option Scope) : State :=
  let ids := ms.foldl (fun l m => if m.wid = 0 then l else uni l [m.wid]) []
  let rels := (ms.flatMap (·.rels)).dedup
  let s := s.modStrand c t fun k =>
    { k with ord := { k.ord with own := s.prune (uni k.ord.own ids), unacq := (k.ord.unacq ++ rels).dedup } }
  match acq with
  | none => s
  | some sc => s.acquire c t (relIds sc c rels)

/-- Completes one pending load: its value is what the core then sees, or, where that cannot be read, what it saw at issue. -/
def State.sbPerform (s : State) (c : Nat) (t : Fin 4) (b : Sb) : Sb × State :=
  match b.work with
  | .load pa len kid _ sx =>
    match s.peekLine (dieOf c) (pa / 128) kid with
    | none => ({ b with work := .done }, s)
    | some data =>
      let bs := (List.range len).map fun i => s.coreByte c (pa + i) (data.getD (pa % 128 + i) 0)
      let ms := (List.range len).map fun i => s.coreMeta c (pa + i)
      let s := s.noteRead c t ms none
      let v := le bs
      let vals : List Word :=
        if len = 16 then [BitVec.ofNat 64 v, BitVec.ofNat 64 (v / 2 ^ 64)]
        else [if sx ∧ 2 ^ (8 * len) ≤ 2 * v then BitVec.ofNat 64 (v + 2 ^ 64 - 2 ^ (8 * len)) else BitVec.ofNat 64 v]
      ({ b with vals := vals, work := .done }, s)
  | _ => (b, s)

/-- Whether a pending operation only has to write. -/
def Sb.isDone (b : Sb) : Bool := match b.work with | .done => true | _ => false

/-- Whether a pending operation can be completed at will: everything but a spamo that waits for a lock. -/
def Sb.free (b : Sb) : Bool := match b.work with | .spamo _ _ _ _ _ => false | _ => true

/-- A scoreboarded operation writes its destinations and leaves (R19). -/
def State.sbWrite (s : State) (c : Nat) (t : Fin 4) (b : Sb) : State :=
  s.modStrand c t fun k =>
    let k := { k with sb := k.sb.filter (fun x => x.id != b.id) }
    ((List.zip b.dst b.vals).foldl (fun k dv => k.wr dv.1 dv.2) k).mergeFlags sGroup b.flags

/-- Completes one pending operation that can be. -/
def State.sbComplete (s : State) (c : Nat) (t : Fin 4) (b : Sb) : State :=
  if b.free then
    let (b, s) := s.sbPerform c t b
    s.sbWrite c t b
  else s

/-- Completes every pending operation that satisfies `p`, oldest first. -/
def State.sbForce (s : State) (c : Nat) (t : Fin 4) (p : Sb → Bool) : State :=
  ((s.strand c t).sb.filter p).foldl (fun s b => s.sbComplete c t b) s

/-- Completes the strand's pending loads: a release or an acquire fence follows them (R148, R161). -/
def State.loadsDone (s : State) (c : Nat) (t : Fin 4) : State := s.sbForce c t (fun _ => true)

/-- Whether a pending load reads a byte of a range of physical addresses. -/
def Sb.meets (b : Sb) (pa n : Nat) : Bool :=
  match b.work with
  | .load q len _ _ _ => decide (q < pa + n ∧ pa < q + len)
  | _ => false

/-- A release at a scope: the strand's earlier accesses are performed there (R148); answers the writes it covers. -/
def State.release (s : State) (c : Nat) (t : Fin 4) (sc : Scope) : List Nat × State :=
  let s := s.loadsDone c t
  let s := if sc = .cr then s else s.flushStrand c t
  let ids := s.relSet c t
  let s := if sc = .cr then s else s.flushIds c ids
  let s := if sc = .sys then
      (s.toSys (s.strand c t).ord.lines).modStrand c t fun u => { u with ord := { u.ord with lines := [] } }
    else s
  (s.relSet c t, s.modStrand c t Strand.newStores)

/-- What a strand made and read happens before its next access: a release and an acquire in one (R294). -/
def Strand.mergeOrd (t : Strand) : Strand := { t with ord := { t.ord with hb := uni t.ord.hb t.ord.own } }

/-- Adds a scoreboarded operation of the issuing strand (R16, R19). -/
def State.scoreboard (s : State) (dst : List Reg) (vals : List Word) (f : Flags) (w : SbWork) : State :=
  s.modStr fun t => { t with sb := t.sb ++ [⟨t.sbNext, dst, vals, f, w⟩], sbNext := t.sbNext + 1 }

/-! ## Virtual accesses of engines and other agents of a core -/

/-- Reads `n` bytes at a virtual address at the home slices, piece by piece of a line (R300). -/
def State.vread (s : State) (c : Nat) (sp : Space3) : Nat → Word → Nat → Except Trap (List Byte × State)
  | 0, _, _ => .ok ([], s)
  | fuel + 1, va, n =>
    if n = 0 then .ok ([], s)
    else
      let m := Min.min n (128 - va.toNat % 128)
      match s.gcheck c (dieOf c) sp va 1 .rd with
      | .error t => .error t
      | .ok (l, s) =>
        match s.homeRead (l.pa va.toNat) m (pteKid l.e) (pteCh l.e) va with
        | .error t => .error t
        | .ok (bs, s) =>
          match s.vread c sp fuel (va + BitVec.ofNat 64 m) (n - m) with
          | .error t => .error t
          | .ok (rest, s) => .ok (bs ++ rest, s)

/-- Writes bytes at a virtual address at the home slices; answers the numbers of the writes (R300). -/
def State.vwrite (s : State) (c : Nat) (sp : Space3) (hb : List Nat) (rels : List Rel) :
    Nat → Word → List Byte → Except Trap (List Nat × State)
  | 0, _, _ => .ok ([], s)
  | fuel + 1, va, bs =>
    if bs = [] then .ok ([], s)
    else
      let m := Min.min bs.length (128 - va.toNat % 128)
      match s.gcheck c (dieOf c) sp va 1 .wr with
      | .error t => .error t
      | .ok (l, s) =>
        match s.homeWrite c (l.pa va.toNat) (bs.take m) (pteKid l.e) (pteCh l.e) hb rels va with
        | .error t => .error t
        | .ok (id, s) =>
          match s.vwrite c sp hb rels fuel (va + BitVec.ofNat 64 m) (bs.drop m) with
          | .error t => .error t
          | .ok (ids, s) => .ok (id :: ids, s)

/-- Reads at most 2^16 lines' worth of bytes. -/
def State.vget (s : State) (c : Nat) (sp : Space3) (va : Word) (n : Nat) : Except Trap (List Byte × State) :=
  s.vread c sp (n / 128 + 2) va n

/-- Writes bytes. -/
def State.vput (s : State) (c : Nat) (sp : Space3) (va : Word) (bs : List Byte) (hb : List Nat) (rels : List Rel) :
    Except Trap (List Nat × State) :=
  s.vwrite c sp hb rels (bs.length / 128 + 2) va bs

/-! ## Events and tracing (R368, R450 to R455) -/

/-- Signals an MSI-X vector (R403). -/
def State.msix (s : State) (v : Nat) : State := { s with iod := { s.iod with msix := s.iod.msix ++ [v] } }

/-- What a host write of 8 bytes (`dbl`) or 4 bytes at an offset makes of an 8-byte register (R404). -/
def hostMerge (old : Word) (off : Nat) (dbl : Bool) (v : Word) : Word :=
  if dbl then v
  else if off % 8 = 0 then (old &&& 0xFFFFFFFF00000000) ||| (v &&& 0xFFFFFFFF)
  else (old &&& 0xFFFFFFFF) ||| (v <<< 32)

/-- Logs a Stage Manager event on a die (R368 SM_ERRLOG, SM_ERRCNT) and signals the host (R403). -/
def State.logEvent (s : State) (d : Fin 4) (event core launch : Nat) : State :=
  (s.modDie d fun k =>
    { k with errLog := BitVec.ofNat 64 (event % 256 + 256 * (core % 64) + 65536 * (launch % 2 ^ 32)), errCnt := k.errCnt + 1 }).msix 1

/-- Writes an entry of a die's machine-check log and signals the host (R447); its stamp is free. -/
def State.machineCheck (s : State) (d : Fin 4) (cause kind unit addr kid : Nat) : State :=
  let (t, s) := s.drawWord
  let e := toLe 1 cause ++ toLe 1 kind ++ toLe 2 unit ++ toLe 4 0 ++ toLe 8 addr ++ toLe 2 kid ++ toLe 6 0 ++ toLe 8 t.toNat
  (s.modDie d fun k => { k with mcLog := k.mcLog.put (k.mcHead.toNat % 32) e, mcHead := k.mcHead + 1 }).msix 1

/-- A read of a core that met an uncorrectable error (R445, R447). -/
def State.sramError (s : State) (c addr : Nat) : State :=
  (s.modCore c fun k => { k with sramUe := k.sramUe + 1 }).machineCheck (dieOf c) Cause.sramUncorrectable 0 (c % 64) addr 0

/-- The bytes of a trace record (R452). -/
def traceBytes (cycle : Word) (event core agent stamp a b cc : Nat) : List Byte :=
  toLe 8 cycle.toNat ++ toLe 2 event ++ toLe 1 core ++ toLe 1 agent ++ toLe 4 stamp ++ toLe 4 a ++ toLe 4 b ++ toLe 8 cc

/-- Writes one record into the trace buffer; a failure is counted as lost (R451). -/
def State.traceWrite (s : State) (c : Nat) (event agent a b cc : Nat) : State :=
  let k := s.core c
  let tc := k.tracectl.toNat
  let base := tc / 2 ^ 18 * 2 ^ 12
  let n := 2 ^ (tc / 2 ^ 14 % 16) * 512
  let lost (s : State) : State := s.modCore c fun k => { k with traceLost := k.traceLost + 1, traceDrop := k.traceDrop + 1 }
  if base / 2 ^ 12 % 4 ≠ 0 then lost s
  else
    let stamp := k.stamp + 1
    let at' := BitVec.ofNat 64 (base + 32 + 32 * (k.traceN % (n - 1)))
    match s.vput c (k.space true) at' (traceBytes k.cycle event c agent stamp.toNat a b cc) [] [] with
    | .error _ => lost s
    | .ok (ids, s) =>
      let head := toLe 8 (k.traceN + 1) ++ toLe 8 k.traceLost.toNat
      let s := match s.vput c (k.space true) (BitVec.ofNat 64 base) head ids [⟨.pkg, c, ids⟩] with
        | .ok (_, s) => s
        | .error _ => s
      s.modCore c fun k => { k with traceN := k.traceN + 1, stamp := stamp }

/-- Records an event when tracing and its class bit are on; losses are announced first (R450, R451). -/
def State.trace (s : State) (c : Nat) (bit event agent a b cc : Nat) : State :=
  let k := s.core c
  if k.tracectl.getLsbD 0 && k.tracectl.getLsbD bit then
    let s :=
      if k.traceDrop = 0 then s
      else
        let d := k.traceDrop
        let s := s.traceWrite c 0x3F agent (Min.min d (2 ^ 32 - 1)) 0 0
        if (s.core c).traceDrop = d then s.modCore c fun k => { k with traceDrop := 0 } else s
    s.traceWrite c event agent (a % 2 ^ 32) (b % 2 ^ 32) cc
  else s

/-- A wait ends: a WAIT record if it lasted the threshold, which is a free choice, as is its length (R454, R455). -/
def State.waitRec (s : State) (c agent kind detail satDev satCore satAgent : Nat) : State :=
  let k := s.core c
  if k.tracectl.getLsbD 0 && k.tracectl.getLsbD 3 then
    let (b, s) := s.drawBit
    let (w, s) := s.drawWord
    let thr := 2 ^ (k.tracectl.toNat / 2 ^ 10 % 16 + 6)
    if b then
      s.trace c 3 0x20 agent (kind * 2 ^ 28 + detail % 2 ^ 28) (Max.max thr (w.toNat % 2 ^ 32))
        (satDev % 2 ^ 12 + 2 ^ 12 * (satCore % 256) + 2 ^ 20 * satAgent)
    else s
  else s

/-- A causal stamp received with a token, a cue or a landing word (R453). -/
def State.stampIn (s : State) (c : Nat) (v : Nat) : State :=
  s.modCore c fun k =>
    let x := BitVec.ofNat 32 v
    if (x - k.stamp).toNat < 2 ^ 31 then { k with stamp := x } else k

/-! ## Scratchpad (R40 to R43, R146) -/

/-- Mode of a bank. -/
def Core.mode (k : Core) (b : Nat) : BankMode := k.bankMode.get .scratch b

/-- One byte of scratchpad; a byte nothing has written since its bank entered SCRATCH is free (R42, R171; log 3). -/
def Core.spByte (k : Core) (a : Nat) : Byte :=
  match Tab.find k.scratch a with
  | some b => b
  | none => Config.freeScratch (k.bankEpoch.get 0 (a / 65536)) a

/-- `n` bytes of scratchpad. -/
def Core.spRead (k : Core) (a n : Nat) : List Byte := (List.range n).map fun i => k.spByte (a + i)

/-- Writes one byte of scratchpad. -/
def Core.spPut (k : Core) (a : Nat) (b : Byte) : Core := { k with scratch := Tab.put k.scratch a b, scrMeta := Tab.del k.scrMeta a }

/-- Writes bytes of scratchpad; a write of all 8 bytes of a marked word clears its mark (R446). -/
def Core.spWrite (k : Core) (a : Nat) : List Byte → Core
  | [] => k
  | b :: bs => (k.spPut a b).spWrite (a + 1) bs

/-- The aligned 8-byte words of a range. -/
def wordsOf (a n : Nat) : List Nat := if n = 0 then [] else (List.range ((a + n - 1) / 8 + 1 - a / 8)).map fun i => a / 8 + i

/-- Agent `who` is about to write words, as write `id`, that the others need not see yet (R43); of a word that this write has begun the
bytes before it stay those it found. -/
def Core.tear (k : Core) (who id : Nat) (ws : List Nat) : Core :=
  { k with torn := ws.foldl (fun t w => match t.find w with
      | some e => if e.who = who ∧ e.id = id then t else t.put w ⟨who, id, k.spRead (8 * w) 8, []⟩
      | none => t.put w ⟨who, id, k.spRead (8 * w) 8, []⟩) k.torn }

/-- A write to words that every agent sees at once. -/
def Core.whole (k : Core) (ws : List Nat) : Core := { k with torn := k.torn.filter fun e => !ws.contains e.1 }

/-- Whether agent `who` reads a word as it was before its latest write: a free choice where nothing orders the read after the write
(R43). An agent that has read the write finds nothing older, and no other does (R289). -/
def State.seeWord (s : State) (c who w : Nat) : Bool × State :=
  match (s.core c).torn.find w with
  | none => (false, s)
  | some e =>
    if e.who = who ∨ who ∈ e.seen then (false, s)
    else
      let (b, s) := s.drawBit
      (b, if b then s else s.modCore c fun k => k.whole [w])

/-- The words of a list that an agent reads as they were. -/
def State.seeWords (s : State) (c who : Nat) : List Nat → List Nat × State
  | [] => ([], s)
  | w :: ws =>
    let (b, s) := s.seeWord c who w
    let (l, s) := s.seeWords c who ws
    (if b then w :: l else l, s)

/-- A byte of scratchpad as it was before the latest write of its word. -/
def Core.spOld (k : Core) (a : Nat) : Byte := match k.torn.find (a / 8) with | some e => e.old.getD (a % 8) 0 | none => k.spByte a

/-- `n` bytes of scratchpad as agent `who` reads them (R43). -/
def State.spSee (s : State) (c who a n : Nat) : List Byte × State :=
  let (olds, s) := s.seeWords c who (wordsOf a n)
  let k := s.core c
  ((List.range n).map fun i => if olds.contains ((a + i) / 8) then k.spOld (a + i) else k.spByte (a + i), s)

/-- The issuing strand is about to store to words of scratchpad: a release, and a store behind one of its release fences, is seen at once,
and any other when it is (R43, R150). -/
def State.tearing (s : State) (atOnce : Bool) (ws : List Nat) : State :=
  if atOnce then s.modMe fun k => k.whole ws
  else
    let (id, s) := if s.str.ord.sid = 0 then s.drawWid else (s.str.ord.sid, s)
    (s.modStr fun u => { u with ord := { u.ord with sid := id, own := uni u.ord.own [id] } }).modMe fun k => k.tear s.iss.strand.val id ws

/-- Clears the uncorrectable marks of words wholly inside a range (R446). -/
def Core.ueClear (k : Core) (a n : Nat) : Core :=
  { k with ueWords := k.ueWords.filter fun w => !(decide (a ≤ 8 * w ∧ 8 * w + 8 ≤ a + n)) }

/-- Whether a range reads a word marked uncorrectable (R445). -/
def Core.ueHit (k : Core) (a n : Nat) : Bool := k.ueWords.any fun w => decide (8 * w < a + n ∧ a < 8 * w + 8)

/-- Whether a row of a range is pending under PENDCHK for a reader (R184, R185); an engine is not checked against itself. -/
def Core.pendHit (k : Core) (a n : Nat) (self : Option Eng) : Bool :=
  k.pendchk.getLsbD 0 && k.pendRows.any fun r => decide (128 * r.1 < a + n ∧ a < 128 * r.1 + 128) && self != some r.2.1

/-- The first row of a range that is pending for an engine's read (R185). -/
def Core.pendRow (k : Core) (a n : Nat) (e : Eng) : Nat :=
  ((List.range ((a + n) / 128 + 1 - a / 128)).find? fun i => k.pendRows.any fun r => r.1 == a / 128 + i && r.2.1 != e).getD 0 + a / 128

/-- The scratchpad column of R146 for an access of `n` aligned bytes. -/
def Core.spCheck (k : Core) (ea : Word) (n : Nat) (isRead : Bool) : Option Trap :=
  let a := ea.toNat
  if a / 2 ^ 21 ≠ 0 then some ⟨Cause.scratchpadRange, 0, ea⟩
  else if !k.budget.getLsbD (a / 65536) then some ⟨Cause.scratchpadRange, 0, ea⟩
  else if a % n ≠ 0 then some ⟨Cause.misalignedAccess, 0, ea⟩
  else if k.mode (a / 65536) ≠ .scratch then some ⟨Cause.bankModeViolation, 0, ea⟩
  else if isRead && k.pendHit a n none then some ⟨Cause.pendingRead, 0, ea⟩
  else if isRead && k.ueHit a n then some ⟨Cause.sramUncorrectable, a / 65536, ea⟩
  else none

/-- Checks a scratchpad access of the issuing strand. -/
def spCheck (ea : Word) (n : Nat) (isRead : Bool) : Op Unit := fun s =>
  match s.me.spCheck ea n isRead with
  | none => .ok ((), s)
  | some t => .error t

/-- A watched user-mode access to global memory raises watchpoint once every check has passed (R456). -/
def watch (ea : Word) (n : Nat) (isWrite : Bool) : Op Unit := fun s =>
  let b := s.me.brkctl.toNat
  let kind := b / 64 % 4
  let blk := b / 2 ^ 16
  let hit := decide (blk * 1024 < ea.toNat + n ∧ ea.toNat < blk * 1024 + 1024)
  if !s.str.sup && hit && (if isWrite then 2 ≤ kind else kind % 2 == 1) then
    .error ⟨Cause.watchpoint, if isWrite then 2 else 1, ea⟩
  else .ok ((), s)

/-! ## Landing words (R36 to R39) -/

/-- The update a delivery of `n` bytes makes to a landing word (R38): the new word and whether a generation completed. -/
def landUpdate (target count gen flags n : Nat) : Nat × Nat × Nat × Bool :=
  let t := count + n
  if target = 0 then (t % 2 ^ 32, gen, flags, false)
  else if t = target then (0, (gen + 1) % 2 ^ 32, flags, true)
  else if target < t then ((t - target) % 2 ^ 32, (gen + 1) % 2 ^ 32, flags ||| 1, true)
  else (t, gen, flags, false)

/-- Delivers `n` bytes, written by `ids`, to the landing word at scratchpad address `a`; a change of its generation releases what was
counted since the one before (R38, R39, R301). -/
def State.deliver (s : State) (c a n : Nat) (ids : List Nat) (stamp agent : Nat) : Except Trap State :=
  let k := s.core c
  if k.mode (a / 65536) ≠ .scratch then .error ⟨Cause.bankModeViolation, 0, BitVec.ofNat 64 a⟩
  else
    let w := k.spRead a 16
    let f (i : Nat) := le ((w.drop (4 * i)).take 4)
    let (cnt, gen, fl, turned) := landUpdate (f 0) (f 1) (f 2) (f 3) n
    let counted := uni (k.landOpen.get [] a) (s.prune ids)
    let s := s.modCore c fun k =>
      { (k.whole (wordsOf a 16)).spWrite (a + 4) (toLe 4 cnt ++ toLe 4 gen ++ toLe 4 fl) with
        landRels := if turned then k.landRels.put a (uni (k.landRels.get [] a) counted) else k.landRels,
        landOpen := Tab.set [] k.landOpen a (if turned then [] else counted),
        landStamp := k.landStamp.put a stamp, landSrc := k.landSrc.put a agent }
    .ok s

/-! ## Traps (R394, R396) and the return from one (R140) -/

/-- A strand stops for good: nothing in flight writes (R136). -/
def Strand.stop (t : Strand) : Strand := { t with cond := .exited, pend := [], sb := [], drain := false, lkstep := false }

/-- An engine whose commands that have not started are discarded; a started one finishes, one stopped on a fault ends (R136). -/
def Engine.discard (e : Engine) : Engine :=
  match e.phase with
  | .running _ => { e with q := e.q.take 1 }
  | _ => { e with q := [], phase := .idle, pend := false, act := 0 }

/-- Commands of every engine that have not started are discarded (R136). -/
def Core.discarded (k : Core) : Core :=
  { k with eng := ⟨k.eng.e0.discard, k.eng.e1.discard, k.eng.e2.discard, k.eng.e3.discard⟩ }

/-- Every strand of a core stops and its engines start nothing more; locks are freed (R136, R156). -/
def Core.halted (k : Core) : Core :=
  { k.discarded with st := ⟨k.st.e0.stop, k.st.e1.stop, k.st.e2.stop, k.st.e3.stop⟩, locks := [] }

/-- The iteration a core runs leaves RUNNING: its job is to be charged, requests made of it are settled (R376, R377, R380). -/
def State.endRunning (s : State) (c : Nat) : State :=
  match (s.core c).run with
  | none => s
  | some r =>
    if r.draining then s
    else s.modDie (dieOf c) fun d =>
      { d with owed := d.owed ++ [(s.core c).jobId.toNat], reqs := d.reqs.filter fun q => q.1 != c }

/-- The iteration a core runs enters DRAINING (R48, R136, R380, R394). -/
def State.startDrain (s : State) (c : Nat) : State :=
  let s := s.endRunning c
  match (s.core c).run with
  | none => s
  | some r =>
    (s.modNode r.launch fun n => { n with iters := n.iters.map fun i => if i.n = r.iter then { i with st := .draining } else i }).modCore c
      fun k => { k with run := some { r with draining := true, preDrain := false } }

/-- An iteration's context ends fatally: it drains and ends CANCELLED (R394). -/
def State.fatal (s : State) (c event : Nat) : State :=
  let s := (s.logEvent (dieOf c) event c (s.core c).launchId.toNat).startDrain c
  s.modCore c fun k => { k.halted with run := k.run.map fun r => { r with fatal := true } }

/-- TSTATUS fields (R395). -/
def mkTstatus (engf plk tip pmode : Bool) : Word :=
  BitVec.ofNat 64 (8 * engf.toNat + 4 * plk.toNat + 2 * tip.toNat + pmode.toNat)

/-- TIP of TSTATUS. -/
def Strand.tip (t : Strand) : Bool := t.tstatus.getLsbD 1

/-- The registers a trap writes before its fatal checks (R394). -/
def Strand.saveTrap (t : Strand) (tr : Trap) (pc : Word) : Strand :=
  { t with tpc := pc, tcause := BitVec.ofNat 64 tr.cause, tsub := BitVec.ofNat 64 tr.sub, tval := tr.val }

/-- The mode change of a trap (R394). -/
def Strand.enterHandler (t : Strand) (engf : Bool) : Strand :=
  { t with tstatus := mkTstatus engf t.lkstep true t.sup, sup := true, lkstep := false, pc := t.tvec, cond := .ready,
           drain := !t.sb.isEmpty }

/-- A read that a poisoned line ended with a cause: a line stored poisoned is filled as a poisoned tag (R318), and a CXL port that is
down is signalled (R424). -/
def State.poisonSeen (s : State) (c : Nat) (sp : Space3) (t : Trap) : State :=
  if t.cause = Cause.poisonConsumed ∨ t.cause = Cause.cxlPoison then
    match s.translate c (dieOf c) sp t.val with
    | .error _ => s
    | .ok (l, _) =>
      let line := l.pa t.val.toNat / 128
      let s := if s.cxlDown line then s.msix 3 else s
      s.poisonFill line (pteKid l.e) (pteCh l.e)
  else s

/-- Strand `t` of core `c` takes a trap with its PC saved as `pc` (R394). -/
def State.enterTrap (s : State) (c : Nat) (t : Fin 4) (tr : Trap) (pc : Word) (engf : Bool) : State :=
  let s := (s.sbForce c t (fun _ => true)).modStrand c t fun k => (k.landAll).saveTrap tr pc
  let s := if tr.cause = Cause.sramUncorrectable && !engf then s.sramError c tr.val.toNat else s
  let k := s.strand c t
  if k.tip || k.tvec == 0 then s.fatal c 0x30
  else
    let s := s.modStrand c t fun k => k.enterHandler engf
    s.trace c 4 0x10 t.val (pc.toNat % 2 ^ 32) tr.cause tr.val.toNat

/-- The issuing strand takes a precise trap at its bundle (R394, class P); the bundle is marked as trapped. -/
def State.takeTrap (s : State) (tr : Trap) : State :=
  ((s.poisonSeen s.iss.core (s.me.space s.str.sup) tr).enterTrap s.iss.core s.iss.strand tr s.iss.pc false).modIss fun i => { i with trapped := some tr }

/-- The return from a trap (R140): at the end of the bundle what earlier bundles have in flight writes, the mode comes back from
PMODE, TIP clears and PC := TPC. An sbar the strand had left stays left where it returns to that bundle (R133). -/
def State.trapReturn (s : State) : State :=
  let s := s.modIss fun i => { i with redirect := some s.str.tpc, noStep := true, ret := some (s.str.tstatus.getLsbD 0) }
  s.trace s.iss.core 4 0x11 s.iss.strand.val (s.str.tpc.toNat % 2 ^ 32) s.str.tcause.toNat s.str.tval.toNat

/-- Runs an operation as the meaning of an instruction: a cause it raises becomes a trap with none of its effect. -/
def run (m : Op Unit) (s : State) : Host.Outcome State Fault Refusal :=
  match m s with
  | .ok (_, s') => .next s'
  | .error t => .next (s.takeTrap t)

/-- The bundle waits and has no effect yet. -/
def State.hold (s : State) (w : Wait) : State := s.modIss fun i => { i with held := some w }

end Sys2Proof.Machine
end

