-- ==== Sys2Proof/Machine/Operands.lean ====
section
/-! DEFINITION. Operand forms: immediates, branch targets, effective addresses, floating-point registers. -/

namespace Sys2Proof.Machine

/-- IMM32 sign-extended (R92). -/
def imm64 (i : BitVec 32) : Word := i.signExtend 64

/-- Target of a format B branch (R92). -/
def branchTarget (pc : Word) (off : BitVec 32) : Word := pc + off.signExtend 64 * 16

/-- Effective address of R145. -/
def memEa (m : MemOp) (s : State) : Word := s.rd m.a + (s.rd m.b <<< m.sh.toNat) + m.off.signExtend 64

/-- Effective address of R158. -/
def atomicEa (s : State) (a : Reg) (off : BitVec 10) : Word := s.rd a + off.signExtend 64

/-- Bytes of an access size (R144). -/
def szBytes : Size → Nat
  | .b => 1
  | .h => 2
  | .w => 4
  | .d => 8

/-- The scalar format of a precision bit (R121). -/
def precFmt (dbl : Bool) : BinFmt := if dbl then fp64 else fp32

/-- Pattern a scalar instruction reads: bits [31:0], or all 64 (R121). -/
def fpBits (dbl : Bool) (w : Word) : Nat := if dbl then w.toNat else w.toNat % 2 ^ 32

/-- Value of a scalar floating-point source (R121). -/
def fpVal (dbl : Bool) (w : Word) : FVal := (precFmt dbl).decode (fpBits dbl w)

/-- Rounding mode of the issuing strand (R70). -/
def State.rm (s : State) : RM := RM.ofCode (s.str.rmode.toNat % 4)

/-- Zero- or sign-extension of `n` bytes to a register. -/
def extend (sx : Bool) (n v : Nat) : Word :=
  if sx ∧ 2 ^ (8 * n) ≤ 2 * v then BitVec.ofNat 64 (v + 2 ^ 64 - 2 ^ (8 * n)) else BitVec.ofNat 64 v

/-- The value a fixed-width field holds when one bit range of `b` is replaced by the low bits of `a` (R120). -/
def insertField (a b : Word) (lsb width : Nat) : Word :=
  let m : Word := BitVec.ofNat 64 (2 ^ width - 1)
  (b &&& ~~~(m <<< lsb)) ||| ((a &&& m) <<< lsb)

/-- A bit field zero- or sign-extended (R120). -/
def extractField (a : Word) (lsb width : Nat) (sx : Bool) : Word :=
  let f := a.toNat / 2 ^ lsb % 2 ^ width
  if sx ∧ 2 ^ width ≤ 2 * f then BitVec.ofNat 64 (f + 2 ^ 64 - 2 ^ width) else BitVec.ofNat 64 f

end Sys2Proof.Machine
end

