-- ==== Sys2Proof/Machine/Flags.lean ====
section
/-! DEFINITION. Results that carry flags: scalar floating-point operations and conversions (R70, R71, R81, R121, R122). -/

namespace Sys2Proof.Machine

/-- Rounds an exact result with its flags into the precision's pattern (R121). -/
def fpResult (rm : RM) (dbl : Bool) (r : FVal × Flags) : Word × Flags :=
  let (w, f) := (precFmt dbl).encode rm false r.1
  (BitVec.ofNat 64 w, r.2 ||| f)

/-- Two-operand scalar operation. -/
def fp2 (op : FVal → FVal → FVal × Flags) (rm : RM) (dbl : Bool) (a b : Word) : Word × Flags :=
  fpResult rm dbl (op (fpVal dbl a) (fpVal dbl b))

/-- Sum. -/
def fpAdd (rm : RM) := fp2 (FVal.add rm) rm

/-- Difference. -/
def fpSub (rm : RM) := fp2 (fun x y => FVal.add rm x y.negate) rm

/-- Product. -/
def fpMul (rm : RM) := fp2 FVal.mul rm

/-- Quotient. -/
def fpDiv (rm : RM) := fp2 FVal.div rm

/-- Minimum and maximum set no flag (R72, R121). -/
def fpMin (rm : RM) := fp2 (fun x y => (FVal.min x y, 0)) rm
def fpMax (rm : RM) := fp2 (fun x y => (FVal.max x y, 0)) rm

/-- Fused multiply-add. -/
def fpFma (rm : RM) (dbl : Bool) (a b c : Word) : Word × Flags :=
  fpResult rm dbl (FVal.fma rm (fpVal dbl a) (fpVal dbl b) (fpVal dbl c))

/-- Square root. -/
def fpSqrt (rm : RM) (dbl : Bool) (a : Word) : Word × Flags := fpResult rm dbl (fpVal dbl a).sqrt

/-- Sign bit position of a precision. -/
def signBit (dbl : Bool) : Nat := if dbl then 63 else 31

/-- fsgn: the magnitude bits of A with the chosen sign (R121). -/
def fpSgn (k : SgnKind) (dbl : Bool) (a b : Word) : Word :=
  let n := signBit dbl
  let mag := fpBits dbl a % 2 ^ n
  let sa := a.getLsbD n
  let sb := b.getLsbD n
  let sg := match k with
    | .same => sb
    | .inv => !sb
    | .xor => sa != sb
  BitVec.ofNat 64 (mag + (if sg then 2 ^ n else 0))

/-- The class bit of fclass (R123). -/
def fpClass (dbl : Bool) (a : Word) : Nat :=
  let b := precFmt dbl
  match b.decode (fpBits dbl a) with
  | .nan _ => 8
  | .inf neg => if neg then 0 else 7
  | .num neg m =>
    if m = 0 then (if neg then 3 else 4)
    else if b.isSub (fpBits dbl a) then (if neg then 2 else 5)
    else if neg then 1 else 6

/-- Comparison of fcmp with its flags (R124). -/
def fpCmp (cc : FCond) (x y : FVal) : Bool × Flags :=
  let un := x.isNan || y.isNan
  match cc with
  | .eq => (!un && x.eqv y, 0)
  | .lt => (!un && x.lt y, if un then Flag.nv else 0)
  | .le => (!un && (x.lt y || x.eqv y), if un then Flag.nv else 0)
  | .un => (un, 0)
  | .ne => (un || !x.eqv y, 0)

/-- The binary format of a floating-point type of fcvt (R122). -/
def cvtFmt : CvtType → Option BinFmt
  | .f32 => some fp32
  | .f64 => some fp64
  | .bf16 => some bf16
  | .f16 => some fp16
  | _ => none

/-- Register bits read for a type of fcvt (R122). -/
def cvtWidth : CvtType → Nat
  | .f32 | .i32 | .u32 => 32
  | .f64 | .i64 | .u64 => 64
  | .bf16 | .f16 => 16

/-- Signed integer types of fcvt. -/
def cvtSigned : CvtType → Bool
  | .i32 | .i64 => true
  | _ => false

/-- Value of a source of fcvt (R122). -/
def cvtSource (t : CvtType) (a : Word) : FVal :=
  let w := a.toNat % 2 ^ cvtWidth t
  match cvtFmt t with
  | some b => b.decode w
  | none => FVal.ofInt (if cvtSigned t then sintOf (cvtWidth t) w else (w : Int))

/-- fcvt (R122). -/
def fpCvt (rm : RM) (dst src : CvtType) (a : Word) : Word × Flags :=
  let v := cvtSource src a
  match cvtFmt dst with
  | some b => let (w, f) := b.encode rm false v; (BitVec.ofNat 64 w, f)
  | none =>
    let n := cvtWidth dst
    let lo : Int := if cvtSigned dst then -((2 ^ (n - 1) : Nat) : Int) else 0
    let hi : Int := if cvtSigned dst then ((2 ^ (n - 1) : Nat) : Int) - 1 else ((2 ^ n : Nat) : Int) - 1
    let (i, f) := toInt rm lo hi v
    (BitVec.ofInt 64 i, f)

end Sys2Proof.Machine
end

