-- ==== Sys2Proof/Machine/Scalar.lean ====
section
/-! DEFINITION. Meanings of the integer instructions (R118 to R120). -/

namespace Sys2Proof.Machine

/-- What a meaning answers. -/
abbrev Out := Host.Outcome State Fault Refusal

/-- A fixed-latency integer result without flags (R16, R116). -/
def alu (l : Nat) (d : Reg) (v : Word) (s : State) : Out := .next (s.fixed l (.reg d) v 0)

def execAdd (d a b : Reg) (s : State) : Out := alu 1 d (s.rd a + s.rd b) s
def execSub (d a b : Reg) (s : State) : Out := alu 1 d (s.rd a - s.rd b) s
def execAddi (d a : Reg) (i : BitVec 32) (s : State) : Out := alu 1 d (s.rd a + imm64 i) s
def execMul (d a b : Reg) (s : State) : Out := alu 3 d (s.rd a * s.rd b) s

/-- Bits [127:64] of the exact product (R118). -/
def mulHigh (k : MulhKind) (a b : Word) : Word :=
  let x : Int := match k with | .uu => a.toNat | _ => a.toInt
  let y : Int := match k with | .ss => b.toInt | _ => b.toNat
  BitVec.ofInt 64 (x * y / 2 ^ 64)

def execMulh (d a b : Reg) (k : MulhKind) (s : State) : Out := alu 3 d (mulHigh k (s.rd a) (s.rd b)) s

/-- Quotient and remainder of R119 for a divisor that is not zero. -/
def divide (u : Bool) (a b : Word) : Word × Word :=
  if u then (BitVec.ofNat 64 (a.toNat / b.toNat), BitVec.ofNat 64 (a.toNat % b.toNat))
  else (BitVec.ofInt 64 (a.toInt.tdiv b.toInt), BitVec.ofInt 64 (a.toInt.tmod b.toInt))

/-- An interlocked division (R16, R19, R119). -/
def divOp (d : Reg) (b : Word) (v : Word) (s : State) : Out :=
  if b = 0 then .next (s.takeTrap ⟨Cause.integerDivideByZero, 0, 0⟩)
  else .next (s.scoreboard [d] [v] 0 .done)

def execDiv (d a b : Reg) (u : Bool) (s : State) : Out := divOp d (s.rd b) (divide u (s.rd a) (s.rd b)).1 s
def execRem (d a b : Reg) (u : Bool) (s : State) : Out := divOp d (s.rd b) (divide u (s.rd a) (s.rd b)).2 s
def execAnd (d a b : Reg) (s : State) : Out := alu 1 d (s.rd a &&& s.rd b) s
def execOr (d a b : Reg) (s : State) : Out := alu 1 d (s.rd a ||| s.rd b) s
def execXor (d a b : Reg) (s : State) : Out := alu 1 d (s.rd a ^^^ s.rd b) s
def execAndi (d a : Reg) (i : BitVec 32) (s : State) : Out := alu 1 d (s.rd a &&& imm64 i) s
def execOri (d a : Reg) (i : BitVec 32) (s : State) : Out := alu 1 d (s.rd a ||| imm64 i) s
def execXori (d a : Reg) (i : BitVec 32) (s : State) : Out := alu 1 d (s.rd a ^^^ imm64 i) s

/-- Right shift, logical or arithmetic. -/
def shiftRight (ar : Bool) (a : Word) (n : Nat) : Word := if ar then a.sshiftRight n else a >>> n

def execShl (d a b : Reg) (s : State) : Out := alu 1 d (s.rd a <<< ((s.rd b).toNat % 64)) s
def execShr (d a b : Reg) (ar : Bool) (s : State) : Out := alu 1 d (shiftRight ar (s.rd a) ((s.rd b).toNat % 64)) s
def execShli (d a : Reg) (n : BitVec 6) (s : State) : Out := alu 1 d (s.rd a <<< n.toNat) s
def execShri (d a : Reg) (n : BitVec 6) (ar : Bool) (s : State) : Out := alu 1 d (shiftRight ar (s.rd a) n.toNat) s
def execRotl (d a b : Reg) (s : State) : Out := alu 1 d ((s.rd a).rotateLeft ((s.rd b).toNat % 64)) s

/-- Whether A is below B, signed or unsigned. -/
def below (u : Bool) (a b : Word) : Bool := if u then a.ult b else a.slt b

def execMin (d a b : Reg) (u : Bool) (s : State) : Out :=
  alu 1 d (if below u (s.rd b) (s.rd a) then s.rd b else s.rd a) s
def execMax (d a b : Reg) (u : Bool) (s : State) : Out :=
  alu 1 d (if below u (s.rd a) (s.rd b) then s.rd b else s.rd a) s

/-- Leading zero bits among the low `n` bits. -/
def clzBits (a : Word) : Nat → Nat
  | 0 => 0
  | n + 1 => if a.getLsbD n then 0 else 1 + clzBits a n

def execClz (d a : Reg) (s : State) : Out := alu 1 d (BitVec.ofNat 64 (clzBits (s.rd a) 64)) s

/-- One bits among the low `n` bits. -/
def popBits (a : Word) : Nat → Nat
  | 0 => 0
  | n + 1 => (a.getLsbD n).toNat + popBits a n

def execPopc (d a : Reg) (s : State) : Out := alu 1 d (BitVec.ofNat 64 (popBits (s.rd a) 64)) s

/-- Bytes of a register in the opposite order. -/
def byteSwap (a : Word) : Word := BitVec.ofNat 64 (le (toLe 8 a.toNat).reverse)

def execBswap (d a : Reg) (s : State) : Out := alu 1 d (byteSwap (s.rd a)) s
def execExt (d a : Reg) (lsb wm1 : BitVec 6) (sx : Bool) (s : State) : Out :=
  alu 1 d (extractField (s.rd a) lsb.toNat (wm1.toNat + 1) sx) s
def execIns (d a b : Reg) (lsb wm1 : BitVec 6) (s : State) : Out :=
  alu 1 d (insertField (s.rd a) (s.rd b) lsb.toNat (wm1.toNat + 1)) s
def execLi (d : Reg) (i : BitVec 32) (s : State) : Out := alu 1 d (imm64 i) s
def execLih (d a : Reg) (i : BitVec 32) (s : State) : Out :=
  alu 1 d ((i.zeroExtend 64 <<< 32) + ((s.rd a).truncate 32).zeroExtend 64) s
def execMov (d a : Reg) (s : State) : Out := alu 1 d (s.rd a) s
def execSel (d a b : Reg) (p : Pred) (s : State) : Out := alu 1 d (if s.str.rp p then s.rd a else s.rd b) s
def execAddsh (d a b : Reg) (sh : BitVec 6) (s : State) : Out := alu 1 d (s.rd a + (s.rd b <<< sh.toNat)) s
def execMadd (d a b c : Reg) (s : State) : Out := alu 3 d (s.rd a * s.rd b + s.rd c) s

end Sys2Proof.Machine
end

