-- ==== Sys2Proof/Machine/Float.lean ====
section
/-! DEFINITION. Meanings of the scalar floating-point and predicate instructions (R121 to R125). -/

namespace Sys2Proof.Machine

/-- A fixed-latency result with flags for SFLAGS (R81). -/
def fpu (l : Nat) (d : Reg) (r : Word × Flags) (s : State) : Out := .next (s.fixed l (.reg d) r.1 r.2)

def execFadd (d a b : Reg) (x : Bool) (s : State) : Out := fpu 4 d (fpAdd s.rm x (s.rd a) (s.rd b)) s
def execFsub (d a b : Reg) (x : Bool) (s : State) : Out := fpu 4 d (fpSub s.rm x (s.rd a) (s.rd b)) s
def execFmul (d a b : Reg) (x : Bool) (s : State) : Out := fpu 4 d (fpMul s.rm x (s.rd a) (s.rd b)) s
def execFma (d a b c : Reg) (x : Bool) (s : State) : Out := fpu 4 d (fpFma s.rm x (s.rd a) (s.rd b) (s.rd c)) s
def execFdiv (d a b : Reg) (x : Bool) (s : State) : Out := fpu 16 d (fpDiv s.rm x (s.rd a) (s.rd b)) s
def execFsqrt (d a : Reg) (x : Bool) (s : State) : Out := fpu 20 d (fpSqrt s.rm x (s.rd a)) s
def execFmin (d a b : Reg) (x : Bool) (s : State) : Out := fpu 4 d (fpMin s.rm x (s.rd a) (s.rd b)) s
def execFmax (d a b : Reg) (x : Bool) (s : State) : Out := fpu 4 d (fpMax s.rm x (s.rd a) (s.rd b)) s
def execFcvt (d a : Reg) (t f : CvtType) (rtz : Bool) (s : State) : Out :=
  fpu 4 d (fpCvt (if rtz then .rtz else s.rm) t f (s.rd a)) s
def execFsgn (d a b : Reg) (k : SgnKind) (x : Bool) (s : State) : Out := fpu 4 d (fpSgn k x (s.rd a) (s.rd b), 0) s
def execFclass (d a : Reg) (x : Bool) (s : State) : Out := fpu 4 d (BitVec.ofNat 64 (2 ^ fpClass x (s.rd a)), 0) s

/-- A predicate result readable `l` bundles later (R16). -/
def State.setPred (s : State) (l : Nat) (p : Pred) (b : Bool) (f : Flags) : State :=
  s.fixed l (.pred p) (if b then 1 else 0) f

/-- The value of a comparison written to pD and its inverse to pC when named (R124). -/
def twoPreds (l : Nat) (p : Pred) (pc : Option Pred) (b : Bool) (f : Flags) (s : State) : Out :=
  let s := s.setPred l p b f
  match pc with
  | none => .next s
  | some q => .next (s.setPred l q (!b) 0)

/-- Conditions of cmp and cmpi (R124). -/
def intCond (cc : Cond) (a b : Word) : Bool :=
  match cc with
  | .eq => a == b
  | .ne => a != b
  | .lt => a.slt b
  | .ge => !a.slt b
  | .ltu => a.ult b
  | .geu => !a.ult b

def execCmp (p : Pred) (pc : Option Pred) (a b : Reg) (cc : Cond) (s : State) : Out :=
  twoPreds 1 p pc (intCond cc (s.rd a) (s.rd b)) 0 s
def execCmpi (p : Pred) (a : Reg) (i : BitVec 32) (cc : Cond) (s : State) : Out :=
  twoPreds 1 p none (intCond cc (s.rd a) (imm64 i)) 0 s
def execFcmp (p : Pred) (pc : Option Pred) (a b : Reg) (cc : FCond) (x : Bool) (s : State) : Out :=
  let r := fpCmp cc (fpVal x (s.rd a)) (fpVal x (s.rd b))
  twoPreds 4 p pc r.1 r.2 s
def execPlog (p pa pb : Pred) (table : BitVec 4) (s : State) : Out :=
  twoPreds 1 p none (table.getLsbD (2 * (s.str.rp pa).toNat + (s.str.rp pb).toNat)) 0 s
def execPtog (d : Reg) (s : State) : Out := alu 1 d (s.str.p.zeroExtend 64) s

/-- The predicates gtop's mask names, in ascending number. -/
def gtopMask (b : Word) : List Pred := (List.finRange 24).filter fun p => b.getLsbD p.val

def execGtop (a b : Reg) (s : State) : Out :=
  .next ((gtopMask (s.rd b)).foldl (fun s' p => s'.setPred 1 p ((s.rd a).getLsbD p.val) 0) s)
def execTbit (p : Pred) (a : Reg) (n : BitVec 6) (inv : Bool) (s : State) : Out :=
  twoPreds 1 p none ((s.rd a).getLsbD n.toNat != inv) 0 s

end Sys2Proof.Machine
end

