-- ==== Sys2Proof/Machine/Control.lean ====
section
/-! DEFINITION. Meanings of branches, loops, yield points, barriers, traps, system registers and cache control (R127 to R143). -/

namespace Sys2Proof.Machine

/-! ## Contexts -/

/-- The loop-nest record of a launch node. -/
def Node.launch? (n : Node) : Option Launch := match n.kind with | .launch l => some l | .card _ => none

/-- The loop-nest record of the launch a core runs. -/
def State.runLaunch (s : State) (c : Nat) : Option Launch :=
  match (s.core c).run with
  | none => none
  | some r => (s.node r.launch).bind Node.launch?

/-- A pre-emption request is pending for the context (R50). -/
def Core.yreq (k : Core) : Bool := match k.run with | some r => r.yreq | none => false

/-- The launch of the context is PREEMPTIBLE. -/
def State.preemptible (s : State) (c : Nat) : Bool := match s.runLaunch c with | some l => l.preempt | none => false

/-- Whether a strand holds a scratchpad lock (R156). -/
def Core.holdsLock (k : Core) (t : Fin 4) : Bool := k.locks.any fun l => l.2 == t

/-- Whether a yield point in the issuing strand is honoured (R131, R156), or makes a debug stop (R457). -/
def State.yieldHonoured (s : State) : Bool :=
  !s.str.sup && !s.me.holdsLock s.iss.strand && ((s.me.yreq && s.preemptible s.iss.core) || s.me.stopReq)

/-! ## Branches (R127) -/

/-- A taken branch to `target`. -/
def State.jump (s : State) (target : Word) : State :=
  s.modIss fun i => { i with redirect := some target, taken := true, noStep := true }

/-- The link register's value (R127). -/
def State.link (s : State) : State := s.fixed 1 (.reg 63) (s.iss.pc + 16) 0

def execBr (off : BitVec 32) (s : State) : Out := .next (s.jump (branchTarget s.iss.pc off))
def execCall (off : BitVec 32) (s : State) : Out := .next (s.link.jump (branchTarget s.iss.pc off))

/-- A branch to a register's value, which must be 16-byte aligned; a trap leaves the link register alone (R394). -/
def jumpReg (a : Word) (link : Bool) (s : State) : Out :=
  if a.toNat % 16 ≠ 0 then .next (s.takeTrap ⟨Cause.misalignedAccess, 0, a⟩)
  else .next ((if link then s.link else s).jump a)

def execBrr (a : Reg) (link : Bool) (s : State) : Out := jumpReg (s.rd a) link s
def execRet (a : Reg) (s : State) : Out := jumpReg (s.rd a) false s

/-! ## Hardware loops (R128 to R130) -/

/-- Whether stage `j` of a loop works in kernel iteration `i` (R128). -/
def stageOn (i j n : Nat) : Bool := decide (j ≤ i ∧ i - j < n)

/-- Writes the stage block of a loop for kernel iteration `i`, readable from the next bundle (R128). -/
def State.stage (s : State) (l : LoopC) (i : Nat) : State :=
  (List.range l.s).foldl (fun s j =>
    match pr (l.pb + j) with
    | some p => s.modStr fun t =>
        { t with pend := t.pend ++ [⟨t.n, t.n + 1, false, .pred p, if stageOn i j l.n.toNat then 1 else 0, 0⟩] }
    | none => s) s

/-- Writes a loop trace record (R452). -/
def State.loopTrace (s : State) (bit event : Nat) (lc : Fin 4) (l : LoopC) (i : Nat) : State :=
  let blk := (List.range l.s).foldl (fun m j => if stageOn i j l.n.toNat then m + 2 ^ j else m) 0
  let blk := if l.s = 1 then 0 else blk
  s.trace s.iss.core bit event s.iss.strand.val (l.start.toNat / 16 % 2 ^ 32) i (blk + 2 ^ 8 * lc.val + 2 ^ 10 * l.pb)

/-- The live loops of a strand with their numbers, latest made live first (R129). -/
def Strand.liveLoops (t : Strand) : List (Fin 4 × LoopC) :=
  let ls := [(0 : Fin 4), 1, 2, 3].filterMap fun i => (t.lc.get i).map fun l => (i, l)
  sortBy (fun a b => decide (b.2.order ≤ a.2.order)) ls

/-- loop (R128). -/
def execLoop (lc : Fin 4) (a : Reg) (lm1 : BitVec 12) (sm1 : BitVec 3) (y : Bool) (pb : BitVec 5) (s : State) : Out :=
  let n := s.rd a
  let pc := s.iss.pc
  let len := lm1.toNat + 1
  let t := s.str
  let last := pc + BitVec.ofNat 64 (16 * len)
  if (t.lc.get lc).isSome then .next (s.takeTrap ⟨Cause.loopBusy, 0, 0⟩)
  else if t.liveLoops.any (fun e => decide (e.2.start.toNat ≤ pc.toNat ∧ pc.toNat ≤ e.2.stop.toNat
      ∧ e.2.stop.toNat < pc.toNat + 16 * len)) then .next (s.takeTrap ⟨Cause.loopBusy, 1, 0⟩)
  else if n = 0 then .next (s.modIss fun i => { i with redirect := some (last + 16), noStep := true })
  else
    let l : LoopC := ⟨pc + 16, last, n, sm1.toNat + 1, pb.toNat, 0, y, t.sup, t.lcNext⟩
    let s := s.modStr fun t => { t with lc := t.lc.set lc (some l), lcNext := t.lcNext + 1 }
    let s := if 2 ≤ l.s then s.stage l 0 else s
    .next (s.loopTrace 1 0x01 lc l 0)

/-- lbrk (R130). -/
def execLbrk (lc : Fin 4) (s : State) : Out :=
  match s.str.lc.get lc with
  | none => .next s
  | some l =>
    let keep (x : Option LoopC) : Option LoopC := match x with
      | some e => if l.order ≤ e.order then none else some e
      | none => none
    let s := s.loopTrace 1 0x03 lc l l.i
    let s := s.modStr fun t => { t with lc := ⟨keep t.lc.e0, keep t.lc.e1, keep t.lc.e2, keep t.lc.e3⟩ }
    .next (s.jump (l.stop + 16))

/-! ## Yield points, exit, barriers (R131 to R133) -/

def execYield (s : State) : Out := .next (if s.yieldHonoured then s.modIss fun i => { i with parks := true } else s)
def execExit (s : State) : Out := .next (s.modIss fun i => { i with exits := true })

/-- Whether strand `u` of a core is named by an sbar mask that strand `t` waits with: a mask of 0 names every strand, and a strand
always names itself (R133). -/
def sbarNames (mask : Nat) (t u : Fin 4) : Bool := mask == 0 || mask.testBit u.val || u == t

/-- Whether a strand has exited or waits in an sbar with a mask. -/
def sbarThere (k : Core) (mask : Nat) (u : Fin 4) : Bool :=
  (k.st.get u).cond == .exited || (k.st.get u).cond == .waiting (.sbar mask)

/-- The strands of a core that wait in an sbar with a mask, strand `t` among them. -/
def sbarParts (k : Core) (mask : Nat) (t : Fin 4) : List (Fin 4) :=
  [(0 : Fin 4), 1, 2, 3].filter fun u => u == t || (k.st.get u).cond == .waiting (.sbar mask)

/-- A strand leaves its sbar: its bundle goes on without waiting there again (R133). -/
def Strand.passSbar (u : Strand) : Strand := { u with cond := .ready, passed := some u.pc }

/-- sbar (R133): once every strand it names is there or has exited, all that wait with its mask leave together; every access of a
participant happens before every later one of each. -/
def execSbar (mask : BitVec 4) (s : State) : Out :=
  let c := s.iss.core
  let t := s.iss.strand
  let m := mask.toNat
  if s.str.passed = some s.iss.pc then .next s
  else if [(0 : Fin 4), 1, 2, 3].all (fun u => u == t || !sbarNames m t u || sbarThere s.me m u) then
    let parts := sbarParts s.me m t
    let s := parts.foldl (fun s u => s.loadsDone c u) s
    let ids := parts.foldl (fun l u => uni l (s.relSet c u)) []
    let s := parts.foldl (fun s u => (s.acquire c u ids).modStrand c u Strand.newStores) s
    .next (parts.foldl (fun s u =>
      if u = t then s else (s.modStrand c u Strand.passSbar).waitRec c u.val 10 m s.iod.devnum c t.val) s)
  else .next (s.hold (.sbar m))

/-! ## Traps and breakpoints (R138) -/

def execTrap (code : BitVec 16) (s : State) : Out := .next (s.takeTrap ⟨Cause.softwareTrap, code.toNat, 0⟩)

/-- brk: BRKCTL.ROUTE chooses between the trap and a debug stop at the brk bundle (R138, R456, R457). -/
def execBrk (code : BitVec 16) (s : State) : Out :=
  if s.me.brkctl.getLsbD 1 then .next (s.hold .debug) else .next (s.takeTrap ⟨Cause.breakpoint, code.toNat, 0⟩)

/-- A supervisor instruction in user mode (R49). -/
def needSup (s : State) (f : State → Out) : Out :=
  if s.str.sup then f s else .next (s.takeTrap ⟨Cause.privilegedInstruction, s.iss.slot, 0⟩)

def execRft (s : State) : Out := needSup s fun s => .next s.trapReturn

/-! ## System registers (R100 to R102, R139) -/

/-- The system registers by index (R100). -/
inductive SysReg where
  | status
  | xflags
  | rmode
  | tshape
  | amax (i : Fin 4)
  | coreId
  | strandId
  | iterId
  | launchId
  | jobId
  | phaseId
  | graphId
  | cycle
  | tvec
  | tpc
  | tcause
  | tsub
  | tval
  | tscratch
  | tstatus
  | keyid
  | ptbase
  | asid
  | brkctl
  | tracectl
  | pendchk
  | engfault (e : Eng)
  | engctl
  deriving DecidableEq, Repr

/-- The register of an index (R100). -/
def SysReg.ofIndex : Nat → Option SysReg
  | 0x000 => some .status
  | 0x001 => some .xflags
  | 0x002 => some .rmode
  | 0x003 => some .tshape
  | 0x004 => some (.amax 0)
  | 0x005 => some (.amax 1)
  | 0x006 => some (.amax 2)
  | 0x007 => some (.amax 3)
  | 0x010 => some .coreId
  | 0x011 => some .strandId
  | 0x012 => some .iterId
  | 0x013 => some .launchId
  | 0x014 => some .jobId
  | 0x015 => some .phaseId
  | 0x016 => some .graphId
  | 0x018 => some .cycle
  | 0x020 => some .tvec
  | 0x021 => some .tpc
  | 0x022 => some .tcause
  | 0x023 => some .tsub
  | 0x024 => some .tval
  | 0x025 => some .tscratch
  | 0x026 => some .tstatus
  | 0x030 => some .keyid
  | 0x031 => some .ptbase
  | 0x032 => some .asid
  | 0x040 => some .brkctl
  | 0x041 => some .tracectl
  | 0x042 => some .pendchk
  | 0x050 => some (.engfault 0)
  | 0x051 => some (.engfault 1)
  | 0x052 => some (.engfault 2)
  | 0x053 => some (.engfault 3)
  | 0x058 => some .engctl
  | _ => none

/-- Fields software writes, per register (R50, R70, R79, R173, R184, R393, R395, R450, R456). -/
def SysReg.mask : SysReg → Word
  | .xflags => 0x01FF01FF01FF01FF
  | .rmode => 0x3
  | .tshape => 0xFFFFFFFFF
  | .tvec => 0xFFFFFFFFFFFFFFF0
  | .tpc | .tval | .tscratch => 0xFFFFFFFFFFFFFFFF
  | .tcause => 0xFF
  | .tsub => 0xFFFF
  | .tstatus => 0xF
  | .keyid => 0x3FF
  | .ptbase => 0x000FFFFFFFFFC000
  | .asid => 0xFFFF
  | .brkctl => 0xFFFFFFFFFFFF00C6
  | .tracectl => 0xFFFFFFFFFFFFFC3F
  | .pendchk => 0x3
  | .engctl => 0xF
  | _ => 0

/-- STATUS of a strand (R50). -/
def State.status (s : State) (c : Nat) (t : Fin 4) : Word :=
  let k := s.strand c t
  let co := match s.runLaunch c with | some l => l.cohort | none => false
  let en := match s.runLaunch c with | some l => l.encore | none => false
  BitVec.ofNat 64 (k.sup.toNat + 2 * k.lkstep.toNat + 4 * (s.core c).yreq.toNat + 8 * co.toNat + 16 * en.toNat)

/-- Whether an engine's queue is empty and no command runs (R400). -/
def Engine.empty (e : Engine) : Bool := e.q.isEmpty && e.flight.isEmpty

/-- ENGFAULT as mfs reads it (R399). -/
def Engine.faultWord (e : Engine) : Word :=
  if e.pend then BitVec.ofNat 64 (2 ^ 63 + 2 ^ 48 * (e.cause % 256) + 2 ^ 32 * (e.detail % 65536)) else 0

/-- Value of a system register (R139). -/
def State.sysRead (s : State) (c : Nat) (t : Fin 4) (r : SysReg) : Word :=
  let k := s.core c
  let u := s.strand c t
  match r with
  | .status => s.status c t
  | .xflags => u.xflags
  | .rmode => u.rmode
  | .tshape => u.tshape
  | .amax i => k.amax.get i
  | .coreId => BitVec.ofNat 64 (c % 256)
  | .strandId => BitVec.ofNat 64 t.val
  | .iterId => k.iterId
  | .launchId => k.launchId
  | .jobId => k.jobId
  | .phaseId => k.phaseId
  | .graphId => k.graphId
  | .cycle => k.cycle
  | .tvec => u.tvec
  | .tpc => u.tpc
  | .tcause => u.tcause
  | .tsub => u.tsub
  | .tval => u.tval
  | .tscratch => u.tscratch
  | .tstatus => u.tstatus
  | .keyid => k.keyid
  | .ptbase => k.ptbase
  | .asid => k.asid
  | .brkctl => k.brkctl
  | .tracectl => k.tracectl
  | .pendchk => k.pendchk
  | .engfault e => (k.eng.get e).faultWord
  | .engctl =>
    BitVec.ofNat 64 ((k.eng.toList.zipIdx.foldl (fun m e => m + (if e.1.empty then 2 ^ (16 + e.2) else 0)
      + (if e.1.halt then 2 ^ e.2 else 0)) 0))

/-- Sets the HALT bits of ENGCTL (R400). -/
def Core.setHalt (k : Core) (v : Word) : Core :=
  { k with eng := ⟨{ k.eng.e0 with halt := v.getLsbD 0 }, { k.eng.e1 with halt := v.getLsbD 1 },
      { k.eng.e2 with halt := v.getLsbD 2 }, { k.eng.e3 with halt := v.getLsbD 3 }⟩ }

/-- Writes a system register: only the fields marked RW take the value (R8, R139). -/
def State.sysWrite (s : State) (c : Nat) (t : Fin 4) (r : SysReg) (v : Word) : State :=
  let v := v &&& (match r with | .engfault _ => v | x => x.mask)
  match r with
  | .xflags => s.modStrand c t fun u => { u with xflags := v }
  | .rmode => s.modStrand c t fun u => { u with rmode := v }
  | .tshape => s.modStrand c t fun u => { u with tshape := v }
  | .tvec => s.modStrand c t fun u => { u with tvec := v }
  | .tpc => s.modStrand c t fun u => { u with tpc := v }
  | .tcause => s.modStrand c t fun u => { u with tcause := v }
  | .tsub => s.modStrand c t fun u => { u with tsub := v }
  | .tval => s.modStrand c t fun u => { u with tval := v }
  | .tscratch => s.modStrand c t fun u => { u with tscratch := v }
  | .tstatus => s.modStrand c t fun u => { u with tstatus := v }
  | .keyid => s.modCore c fun k => { k with keyid := v }
  | .ptbase => s.modCore c fun k => { k with ptbase := v }
  | .asid => s.modCore c fun k => { k with asid := v }
  | .brkctl => s.modCore c fun k => { k with brkctl := v }
  | .tracectl => s.modCore c fun k =>
      { k with tracectl := v, traceN := if v.getLsbD 0 && !k.tracectl.getLsbD 0 then 0 else k.traceN }
  | .pendchk => s.modCore c fun k => { k with pendchk := v, pendRows := if v.getLsbD 0 then k.pendRows else [] }
  | .engfault e => s.modEngine c e fun g =>
      let a := v.toNat / 2 ^ 58 % 4
      if g.pend ∧ (a = 1 ∨ a = 2) then { g with act := a, actN := g.q.length } else g
  | .engctl => s.modCore c fun k => k.setHalt v
  | _ => s

/-- The cause of an access to a privileged or unlisted register (R100, R101), if there is one. -/
def sysFault (sup : Bool) (ix slot : Nat) : Option Trap :=
  if !sysListed.contains ix then
    some (if sup then ⟨Cause.reservedSysreg, ix, 0⟩ else ⟨Cause.illegalInstruction, slot, 0⟩)
  else if sysPriv.contains ix && !sup then some ⟨Cause.privilegedInstruction, slot, 0⟩
  else none

def execMfs (d : Reg) (ix : BitVec 12) (s : State) : Out :=
  match sysFault s.str.sup ix.toNat s.iss.slot, SysReg.ofIndex ix.toNat with
  | some t, _ => .next (s.takeTrap t)
  | none, none => .next s
  | none, some r => alu 1 d (s.sysRead s.iss.core s.iss.strand r) s

/-- mts: the write waits for the end of the bundle (R101); ENGFAULT is read-only in user mode (R100). -/
def execMts (ix : BitVec 12) (a : Reg) (s : State) : Out :=
  match sysFault s.str.sup ix.toNat s.iss.slot with
  | some t => .next (s.takeTrap t)
  | none =>
    if !s.str.sup && decide (0x50 ≤ ix.toNat ∧ ix.toNat ≤ 0x53) then .next s
    else .next (s.modIss fun i => { i with sysw := i.sysw ++ [(ix.toNat, s.rd a)] })

/-! ## Translation and instruction caches (R141, R142) -/

/-- Whether tlbi removes an entry (R141). -/
def tlbiHits (k : TlbiKind) (va asid : Nat) (t : TlbEnt) : Bool :=
  match k with
  | .va => t.hits va asid
  | .asid => t.asid == asid
  | .nonglobal => !t.glob
  | .all => true

/-- Whether core `c` is in the scope of an operation by core `me`. -/
def inScope3 (sc : Scope3) (me c : Nat) : Bool :=
  match sc with
  | .cr => me == c
  | .die => me / 64 == c / 64
  | .pkg => true

/-- Changes every listed core in scope. -/
def State.mapCores (s : State) (sc : Scope3) (me : Nat) (f : Core → Core) : State :=
  { s with cores := s.cores.map fun e => if inScope3 sc me e.1 then (e.1, f e.2) else e }

/-- Stores that are visible at a scope reach every die in it: those before the strand's release fences at the scope or wider and
those that happen before its next access; at .cr every store of the core; at .pkg every write a home slice has serialised (R141,
R142, R392; log 16). -/
def State.visibleAt (s : State) (sc : Scope3) : State :=
  let c := s.iss.core
  let o := s.str.ord
  let wide (r : Scope) : Bool := match sc, r with
    | .cr, _ => true
    | .die, .cr => false
    | .die, _ => true
    | .pkg, .pkg | .pkg, .sys => true
    | .pkg, _ => false
  let ids := (o.fence.filter fun r => wide r.scp).foldl (fun l r => uni l r.ids) o.hb
  match sc with
  | .cr => (s.flushCore c).forceUpds (dieOf c) ids
  | .die => (s.flushIds c ids).forceUpds (dieOf c) ids
  | .pkg =>
    let s := s.flushIds c ids
    [(0 : Fin 4), 1, 2, 3].foldl (fun s d => s.forceUpds d ((s.die d).upds.map (·.wid))) s

def execTlbi (a b : Reg) (k : TlbiKind) (sc : Scope3) (s : State) : Out := needSup s fun s =>
  let va := (s.rd a).toNat
  let asid := (s.rd b).toNat % 2 ^ 16
  let me := s.iss.core
  let s := (s.visibleAt sc).mapCores sc me fun k' => { k' with tlb := k'.tlb.filter fun t => !tlbiHits k va asid t }
  let drop (d : Die) : Die := { d with tlb := d.tlb.filter fun t => !tlbiHits k va asid t }
  .next (match sc with
    | .cr => s
    | .die => s.modDie (dieOf me) drop
    | .pkg => { s with dies := ⟨drop s.dies.e0, drop s.dies.e1, drop s.dies.e2, drop s.dies.e3⟩ })

def execIcinv (a b : Reg) (sc : Scope3) (s : State) : Out :=
  let lo := (s.rd a).toNat
  let n := (s.rd b).toNat
  .next ((s.visibleAt sc).mapCores sc s.iss.core fun k =>
    { k with ic := if n = 0 then [] else k.ic.filter fun e => !(decide (lo < e.va + 16 ∧ e.va < lo + n)) })

def execNop (s : State) : Out := .next s

end Sys2Proof.Machine
end

