-- ==== Sys2Proof/Machine/Encore.lean ====
section
/-! DEFINITION. Encore capture and replay (R459 to R463). -/

namespace Sys2Proof.Machine

/-- Changes the I/O die. -/
def State.modIod (s : State) (f : Iod → Iod) : State := { s with iod := f s.iod }

/-- Writes bytes at a physical address under a key ID for an agent outside the dies, with its releases, line by line. -/
def State.physWrite (s : State) (who kid : Nat) (rels : List Rel) : Nat → Nat → List Byte → Except Trap State
  | 0, _, _ => .ok s
  | fuel + 1, pa, bs =>
    if bs = [] then .ok s
    else
      let m := Min.min bs.length (128 - pa % 128)
      match s.homeWrite who pa (bs.take m) kid false [] rels (BitVec.ofNat 64 pa) with
      | .error t => .error t
      | .ok (_, s) => s.physWrite who kid rels fuel (pa + m) (bs.drop m)

/-- Reads bytes at a physical address under a key ID for an agent of the IOD. -/
def State.physRead (s : State) (kid : Nat) : Nat → Nat → Nat → Except Trap (List Byte × State)
  | 0, _, _ => .ok ([], s)
  | fuel + 1, pa, n =>
    if n = 0 then .ok ([], s)
    else
      let m := Min.min n (128 - pa % 128)
      match s.homeRead pa m kid false (BitVec.ofNat 64 pa) with
      | .error t => .error t
      | .ok (bs, s) =>
        match s.physRead kid fuel (pa + m) (n - m) with
        | .error t => .error t
        | .ok (rest, s) => .ok (bs ++ rest, s)

/-- Writes bytes at a physical address for an agent of the IOD. -/
def State.pput (s : State) (kid pa : Nat) (bs : List Byte) : Except Trap State := s.physWrite 256 kid [] (bs.length / 128 + 2) pa bs

/-- Reads bytes at a physical address. -/
def State.pget (s : State) (kid pa n : Nat) : Except Trap (List Byte × State) := s.physRead kid (n / 128 + 2) pa n

/-- The bytes of a capture record: head and padded payload (R461). -/
def encRecord (kind seq : Nat) (payload : List Byte) : List Byte :=
  let pad := (16 - payload.length % 16) % 16
  let body := payload ++ List.replicate pad 0
  [BitVec.ofNat 8 kind, 0] ++ toLe 2 body.length ++ toLe 4 0 ++ toLe 8 seq ++ body

/-- Appends a capture record to the ring; where it would not fit before the last 32 bytes, a GAP record ends the capture (R461). -/
def State.encAppend (s : State) (kind : Nat) (payload : List Byte) : State :=
  let i := s.iod
  if i.encMode ≠ 1 ∨ i.encOvf then s
  else
    let put (s : State) (r : List Byte) : State :=
      let s := match s.pput i.encKid (i.encBase + i.encHead) r with
        | .ok s => s
        | .error _ => s
      s.modIod fun k => { k with encHead := k.encHead + r.length, encSeq := k.encSeq + 1 }
    let r := encRecord kind i.encSeq payload
    if i.encHead + r.length + 32 ≤ i.encSize then put s r
    else (put s (encRecord 6 i.encSeq [])).modIod fun k => { k with encOvf := true }

/-- The name of a capture agent of a core: launch node sequence number, linear iteration number, strand or engine (R459). -/
def State.encAgent (s : State) (c agent : Nat) : Nat × Nat × Nat :=
  match (s.core c).run with
  | none => (0, 0, agent)
  | some r => (((s.node r.launch).map (·.seq)).getD 0, r.iter, agent)

/-- Operations an agent has counted so far. -/
def Iod.encCount (i : Iod) (a : Nat × Nat × Nat) : Nat :=
  ((i.encCnt.find? (fun e => (e.1, e.2.1, e.2.2.1) == a)).map (·.2.2.2)).getD 0

/-- Counts one more operation of an agent. -/
def Iod.encBump (i : Iod) (a : Nat × Nat × Nat) : Iod :=
  { i with encCnt := (a.1, a.2.1, a.2.2, i.encCount a + 1) :: i.encCnt.filter fun e => (e.1, e.2.1, e.2.2.1) != a }

/-- The records of the capture ring in order: kind, sequence number, payload (R461). -/
def State.encRecords (s : State) : Nat → Nat → List (Nat × Nat × List Byte)
  | 0, _ => []
  | fuel + 1, off =>
    if s.iod.encSize ≤ off + 16 then []
    else
      match s.pget s.iod.encKid (s.iod.encBase + off) 16 with
      | .error _ => []
      | .ok (h, _) =>
        let kind := le (h.take 1)
        let len := le ((h.drop 2).take 2)
        let seq := le ((h.drop 8).take 8)
        if kind = 0 ∨ kind = 6 then []
        else
          match s.pget s.iod.encKid (s.iod.encBase + off + 16) len with
          | .error _ => []
          | .ok (p, _) => (kind, seq, p) :: s.encRecords fuel (off + 16 + len)

/-- An event the capture does not name: DIVERGE and event 0x50 (R462). -/
def State.encDiverge (s : State) (c : Nat) : State :=
  (s.modIod fun k => { k with encDiverge := true }).logEvent (dieOf c) 0x50 c (s.core c).launchId.toNat

/-- One captured operation of kind `kind` whose payload starts with `key` and goes on with `rest`: captured in capture mode; in
replay none while the capture names another operation first (R459, R462). `same` picks the records one serialisation point sees. -/
def State.encEvent (s : State) (c agent kind : Nat) (payload : Nat → List Byte) (same : List Byte → Bool) : Option State :=
  let i := s.iod
  if i.encMode = 0 ∨ (s.core c).jobId.toNat ≠ i.encJob then some s
  else
    let a := s.encAgent c agent
    let p := payload (i.encCount a)
    if i.encMode = 1 then some ((s.encAppend kind p).modIod fun k => k.encBump a)
    else if i.encMode ≠ 2 ∨ i.encDiverge then some s
    else
      let left := (s.encRecords 4096 0).filter fun r => r.1 == kind && !i.encDone.contains r.2.1 && same r.2.2
      match left with
      | [] => some (s.encDiverge c)
      | r :: rs =>
        if r.2.2 = p then
          some (s.modIod fun k => { k.encBump a with encDone := r.2.1 :: k.encDone, encHead := k.encHead + 16 + p.length })
        else if rs.any (fun x => x.2.2 == p) then none
        else some (s.encDiverge c)

/-- The 9 bytes of an agent triple. -/
def encTriple (a : Nat × Nat × Nat) : List Byte := toLe 4 a.1 ++ toLe 4 a.2.1 ++ toLe 1 a.2.2

/-- An SC ticket is captured or held (R459, kind 2); none too while the SC sequencer is not ready (R434). -/
def State.encTicket (s : State) (c agent : Nat) : Option State :=
  if !s.isReady .scseq 0 then none
  else s.encEvent c agent 2 (fun n => encTriple (s.encAgent c agent) ++ [0, 0, 0] ++ toLe 4 n) (fun _ => true)

/-- An amo.fadd to a footprint byte of an ENCORE launch is captured or held (R459, kind 3). -/
def State.encFadd (s : State) (c agent pa : Nat) : Option State :=
  s.encEvent c agent 3
    (fun n => toLe 8 pa ++ encTriple (s.encAgent c agent) ++ List.replicate 7 0 ++ toLe 4 n ++ [0, 0, 0, 0])
    (fun p => let q := le (p.take 8); sliceOf (q / 128) == sliceOf (pa / 128) && homeDie q == homeDie pa)

/-- A die's Stage Manager and the coordinator are ready (R434). -/
def State.smOn (s : State) (d : Fin 4) : Bool := s.isReady .smgr d.val && s.isReady .coord 0

/-- A node sequence number is captured or held (R459, kind 4); none too while the Stage Manager is not ready (R434). -/
def State.encNode (s : State) (c agent job phase graph seq : Nat) : Option State :=
  if !s.smOn (dieOf c) then none
  else s.encEvent c agent 4
    (fun n => toLe 4 job ++ toLe 4 phase ++ toLe 4 graph ++ toLe 4 seq ++ encTriple (s.encAgent c agent) ++ [0, 0, 0] ++ toLe 4 n)
    (fun _ => true)

/-- Whether a byte lies in a footprint of an ENCORE launch that the core runs (R459). -/
def State.encFootprint (s : State) (c : Nat) (va : Nat) : Bool :=
  match (s.core c).run with
  | none => false
  | some r =>
    match s.node r.launch with
    | none => false
    | some n => (match n.kind with | .launch l => l.encore | .card _ => false)
        && n.regions.any fun g => decide (g.base ≤ va ∧ va < g.base + g.len)

end Sys2Proof.Machine
end

