-- ==== Sys2Proof/Machine/Memory.lean ====
section
/-! DEFINITION. Meanings of loads, stores, locks, atomics, fences, cues, tokens, landing words and cache hints (R144 to R169). -/

namespace Sys2Proof.Machine

/-! ## Orderings -/

def Ord.acquires : Ord → Bool
  | .acq | .ar | .sc => true
  | _ => false

def Ord.releases : Ord → Bool
  | .rel | .ar | .sc => true
  | _ => false

/-- The scope at which an ordered access acquires. -/
def acqAt (o : Ord) (sc : Scope) : Option Scope := if Ord.acquires o then some sc else none

/-- Holds the bundle: it has no effect yet (R18). -/
def holdOp (w : Wait) : Op Unit := fun s => .ok ((), s.hold w)

/-- The translation space of the issuing strand. -/
def State.mySpace (s : State) : Space3 := s.me.space s.str.sup

/-- Steps 1 to 4 of R146 for the issuing strand. -/
def gAccess (ea : Word) (size : Nat) (k : Acc3) : Op Leaf :=
  liftE fun s => s.gcheck s.iss.core (dieOf s.iss.core) s.mySpace ea size k

/-- Later accesses to bytes a pending load reads come after it (R289). -/
def settle (pa n : Nat) : Op Unit := fun s =>
  .ok ((), s.sbForce s.iss.core s.iss.strand (fun b => b.meets pa n))

/-! ## Reads through the data cache (R287, R307) -/

/-- Bytes a strand of core `c` reads within one line, with their writers. -/
def State.coreRead (s : State) (c pa n kid : Nat) (cmp alloc : Bool) (ea : Word) : Except Trap ((List Byte × List Meta) × State) :=
  let line := pa / 128
  let done (bs : List Byte) (s : State) : Except Trap ((List Byte × List Meta) × State) :=
    .ok (((List.range n).map fun i => s.coreByte c (pa + i) (bs.getD i 0), (List.range n).map fun i => s.coreMeta c (pa + i)),
      if alloc then s.dcTouch c line kid false else s)
  match (s.core c).dc.find? (fun l => l.line == line) with
  | some l =>
    if (s.keyAt line kid).isNone then .error ⟨Cause.keyMismatch, 3, ea⟩
    else if l.kid ≠ kid then .error ⟨Cause.keyMismatch, 0, ea⟩
    else
      match s.peekLine (dieOf c) line kid with
      | some d => done ((d.drop (pa % 128)).take n) s
      | none =>
        match s.dieRead (dieOf c) pa n kid cmp ea with
        | .ok (bs, s) => done bs s
        | .error t => .error t
  | none =>
    match s.dieRead (dieOf c) pa n kid cmp ea with
    | .ok (bs, s) => done bs s
    | .error t => .error t

/-- LLC counter `ix` of a slice: SECTORS is computed (R315). -/
def Die.counter (d : Die) (slice ix : Nat) : Nat :=
  if ix = 11 then d.sets.foldl (fun n e => if e.1 / 12288 = slice then n + setSectors e.2 else n) 0
  else d.counters.get 0 (16 * slice + ix)

/-- A byte of the counter page of a die: the slices' blocks and, at 0x2000, their sums (R315, R316). -/
def Die.counterByte (d : Die) (off : Nat) : Byte :=
  let ix := off % 128 / 8
  let v :=
    if off < 0x2000 then d.counter (off / 128) ix
    else if off < 0x2080 then (List.range 64).foldl (fun n i => n + d.counter i ix) 0
    else 0
  BitVec.ofNat 8 (v / 256 ^ (off % 8))

/-- A read of a die's counters includes the slice events of every access that happens before it (R316). -/
def State.beforeCounters (s : State) (d : Fin 4) : State :=
  let hb := s.str.ord.hb
  (s.flushIds s.iss.core hb).forceUpds d hb

/-- A global load of up to 16 bytes, or of a counter page (R149, R316). -/
def loadGlobal (ea : Word) (size : Nat) (ord : Ord) (scp : Scope) (sx : Bool) (dst : List Reg) : Op Unit := do
  let l ← gAccess ea size (if size ≤ 8 then .counter else .rd)
  let pa := l.pa ea.toNat
  if pteCp l.e = 3 then
    watch ea size false
    modify fun s =>
      let s := s.beforeCounters (Fin.ofNat 4 (ptePpn l.e))
      let d := s.die (Fin.ofNat 4 (ptePpn l.e))
      s.scoreboard dst [extend sx size (le ((List.range size).map fun i => d.counterByte (ea.toNat % 2 ^ 14 + i)))] 0 .done
  else
    settle pa size
    let (bs, ms) ← liftE fun s => s.coreRead s.iss.core pa size (pteKid l.e) (pteCh l.e) (pteCp l.e != 1) ea
    watch ea size false
    modify fun s =>
      let v := le bs
      let vals : List Word := if size = 16 then [BitVec.ofNat 64 v, BitVec.ofNat 64 (v / 2 ^ 64)] else [extend sx size v]
      if Ord.acquires ord then (s.noteRead s.iss.core s.iss.strand ms (some scp)).scoreboard dst vals 0 .done
      else s.scoreboard dst vals 0 (.load pa size (pteKid l.e) (pteCh l.e) sx)

/-- A scratchpad access that a pending spamo of the strand precedes waits for it (R147). -/
def State.spamoAhead (s : State) (a n : Nat) : Bool :=
  s.str.sb.any fun b => match b.work with
    | .spamo q _ dbl _ _ => decide (q < a + n ∧ a < q + (if dbl then 8 else 4))
    | _ => false

/-- Metadata of a range of scratchpad. -/
def Core.spMeta (k : Core) (a n : Nat) : List Meta := (List.range n).map fun i => k.scrMeta.get Meta.zero (a + i)

/-- A scratchpad load: latency 5 (R16, R149). -/
def loadScratch (ea : Word) (size : Nat) (ord : Ord) (sx : Bool) (dst : List Reg) : Op Unit := do
  spCheck ea size true
  let s ← get
  if s.spamoAhead ea.toNat size then holdOp .lock
  else
    modify fun s =>
      let a := ea.toNat
      let ms := s.me.spMeta a size
      let (bs, s) := s.spSee s.iss.core s.iss.strand.val a size
      let v := le bs
      let s := s.noteRead s.iss.core s.iss.strand ms (acqAt ord .cr)
      let vals : List Word := if size = 16 then [BitVec.ofNat 64 v, BitVec.ofNat 64 (v / 2 ^ 64)] else [extend sx size v]
      (List.zip dst vals).foldl (fun s dv => s.fixed 5 (.reg dv.1) dv.2 0) s

def execLd (d : Reg) (m : MemOp) (sx : Bool) (sz : Size) (s : State) : Out :=
  run (match m.spc with
    | .g => loadGlobal (memEa m s) (szBytes sz) m.ord m.scp sx [d]
    | .sp => loadScratch (memEa m s) (szBytes sz) m.ord sx [d]) s

def execLdq (d c : Reg) (m : MemOp) (s : State) : Out :=
  run (match m.spc with
    | .g => loadGlobal (memEa m s) 16 m.ord m.scp false [d, c]
    | .sp => loadScratch (memEa m s) 16 m.ord false [d, c]) s

/-! ## Stores (R147 to R151) -/

/-- The releases a write of the issuing strand carries: its earlier release fences and, if it is a release, its own. -/
def State.writeRels (s : State) (rel : Bool) (sc : Scope) : List Rel :=
  s.str.ord.fence ++ (if rel then [⟨sc, s.iss.core, s.relSet s.iss.core s.iss.strand⟩] else [])

/-- What happens before a write of the issuing strand: before a release, all it made and read too (R294, R295). -/
def State.beforeWrite (s : State) (rel : Bool) : List Nat :=
  if rel then s.relSet s.iss.core s.iss.strand else s.prune s.str.ord.hb

/-- A write of the issuing strand to a line is noted (R288, R295); a write that acquires as well happens before what follows (R294). -/
def State.noteWrite (s : State) (id line : Nat) : State :=
  s.modStr fun u => { u with ord := { u.ord with own := uni u.ord.own [id], lines := uni u.ord.lines [line] } }

/-- A posted global store of some bytes of one line (R147, R307). -/
def State.post (s : State) (bytes : List (Nat × Byte)) (kid : Nat) (cmp rel : Bool) (sc : Scope) : State :=
  let c := s.iss.core
  let t := s.iss.strand
  let s := if rel then s.loadsDone c t else s
  let s := if s.me.cacheWays = [] ∧ 32 ≤ s.me.wbuf.length then s.flushIds c ((s.me.wbuf.take 1).map (·.id)) else s
  let after := if rel && sc != .cr then s.relSet c t else []
  let sys := if rel && sc == .sys then s.str.ord.lines else []
  let rels := s.writeRels rel sc
  let (id, s) := s.drawWid
  let s := s.modMe fun k => { k with wbuf := k.wbuf ++ [⟨id, t, bytes, kid, cmp, after, s.beforeWrite rel, rels, sys⟩] }
  (if rel then s.modStr Strand.newStores else s).noteWrite id ((bytes.headD (0, 0)).1 / 128)

/-- A global store of the bytes of `data` at offsets `sel` from `ea`. -/
def storeGlobal (ea : Word) (size : Nat) (data : List Byte) (sel : List Nat) (ord : Ord) (scp : Scope) : Op Unit := do
  let l ← gAccess ea size .wr
  let pa := l.pa ea.toNat
  let s ← get
  match s.keyCheck s.iss.core (pa / 128) (pteKid l.e) ea with
  | some t => raiseT t
  | none =>
    watch ea size true
    settle pa size
    modify fun s =>
      let s :=
        if s.me.cacheWays = [] ∨ pteCp l.e = 1 then s
        else match s.dieLine (dieOf s.iss.core) (pa / 128) (pteKid l.e) (pteCh l.e) ea with
          | .ok (_, s) => s.dcTouch s.iss.core (pa / 128) (pteKid l.e) true
          | .error _ => s
      s.post (sel.map fun i => (pa + i, data.getD i 0)) (pteKid l.e) (pteCh l.e) (Ord.releases ord) scp

/-- A scratchpad store. -/
def storeScratch (ea : Word) (size : Nat) (data : List Byte) (sel : List Nat) (ord : Ord) : Op Unit := do
  spCheck ea size false
  let s ← get
  if s.spamoAhead ea.toNat size then holdOp .lock
  else
    modify fun s =>
      let rel := Ord.releases ord
      let s := if rel then s.loadsDone s.iss.core s.iss.strand else s
      let rels := s.writeRels rel .cr
      let s := s.tearing (rels != []) (sel.map fun i => (ea.toNat + i) / 8).dedup
      let s := if rel then s.modStr Strand.newStores else s
      s.modMe fun k =>
        let k := sel.foldl (fun k i => k.spPut (ea.toNat + i) (data.getD i 0)) k
        let k := if sel.length = size then k.ueClear ea.toNat size else k
        if rels = [] then k else { k with scrMeta := sel.foldl (fun m i => m.put (ea.toNat + i) ⟨0, rels⟩) k.scrMeta }

/-- A store to either space; with no byte enabled it checks nothing and only keeps its ordering (R151). -/
def storeOp (m : MemOp) (ea : Word) (size : Nat) (data : List Byte) (sel : List Nat) : Op Unit :=
  if sel = [] then modify fun s => if Ord.releases m.ord then s.loadsDone s.iss.core s.iss.strand else s
  else match m.spc with
    | .g => storeGlobal ea size data sel m.ord m.scp
    | .sp => storeScratch ea size data sel m.ord

def execSt (c : Reg) (m : MemOp) (sz : Size) (s : State) : Out :=
  run (storeOp m (memEa m s) (szBytes sz) (toLe (szBytes sz) (s.rd c).toNat) (List.range (szBytes sz))) s

/-- Bytes stq.m writes: those whose mask bit is set (R149). -/
def maskSel (masked : Bool) (mask : Word) : List Nat :=
  if masked then (List.range 16).filter fun i => mask.getLsbD i else List.range 16

def execStq (dm b c : Reg) (masked : Bool) (m : MemOp) (s : State) : Out :=
  run (storeOp m (s.rd m.a + m.off.signExtend 64) 16 (toLe 8 (s.rd b).toNat ++ toLe 8 (s.rd c).toNat)
    (maskSel masked (s.rd dm))) s

/-! ## The table path (R152, R153, R317) -/

/-- A line as the table path sees it now, with the metadata of its bytes: the core's own stores since the latest tfence may be
missing (R152). -/
def State.tcSee (s : State) (c line kid : Nat) (cmp : Bool) (ea : Word) : Except Trap (TcLine × State) :=
  match s.dieLine (dieOf c) line kid cmp ea with
  | .error t => .error t
  | .ok (data, s) =>
    let (late, s) := s.drawBit
    let es := (s.core c).wbuf.filter fun e => late || decide (e.id < (s.core c).tfWid)
    let mt (i : Nat) : Meta :=
      match es.reverse.find? fun e => e.bytes.any fun b => b.1 == 128 * line + i with
      | some e => ⟨e.id, e.rels⟩
      | none => s.metaAt (dieOf c) (128 * line + i)
    .ok (⟨line, kid, es.foldl (fun d e => mergeBytes d line e.bytes) data, (List.range 128).map mt⟩, s)

/-- Fills a line of the table cache (R317). -/
def State.tcFill (s : State) (c line kid : Nat) (cmp : Bool) (ea : Word) : Except Trap (TcLine × State) :=
  match s.tcSee c line kid cmp ea with
  | .error t => .error t
  | .ok (l, s) =>
    let k := s.core c
    let inSet := k.tc.filter (fun l => l.line % 128 == line % 128)
    let tc := if inSet.length < 8 then k.tc else k.tc.filter (fun l => some l.line != (inSet.getLast?.map (·.line)))
    .ok (l, s.modCore c fun k => { k with tc := l :: tc })

/-- Bytes of one line read through the table cache, with their writers: each access that hits returns what the cache holds or a newer
value, as a free bit says (R152). -/
def State.tcRead (s : State) (c pa n kid : Nat) (cmp : Bool) (ea : Word) : Except Trap ((List Byte × List Meta) × State) :=
  let line := pa / 128
  let part (l : TcLine) : List Byte × List Meta := ((l.data.drop (pa % 128)).take n, (l.mts.drop (pa % 128)).take n)
  match (s.core c).tc.find? (fun l => l.line == line) with
  | some l =>
    if (s.keyAt line kid).isNone then .error ⟨Cause.keyMismatch, 3, ea⟩
    else if l.kid ≠ kid then .error ⟨Cause.keyMismatch, 1, ea⟩
    else
      let s := s.modCore c fun k => { k with tc := l :: k.tc.filter (fun x => x.line != line) }
      let (newer, s) := s.drawBit
      match (if newer then s.tcSee c line kid cmp ea else .ok (l, s)) with
      | .ok (l, s) => .ok (part l, s)
      | .error _ => .ok (part l, s)
  | none =>
    match s.tcFill c line kid cmp ea with
    | .ok (l, s) => .ok (part l, s)
    | .error t => .error t

def execLdt (d : Reg) (m : MemOp) (sx : Bool) (sz : Size) (s : State) : Out :=
  let ea := memEa m s
  run (do
    let l ← gAccess ea (szBytes sz) .rd
    let (bs, ms) ← liftE fun s => s.tcRead s.iss.core (l.pa ea.toNat) (szBytes sz) (pteKid l.e) (pteCh l.e) ea
    watch ea (szBytes sz) false
    modify fun s => (s.noteRead s.iss.core s.iss.strand ms none).scoreboard [d] [extend sx (szBytes sz) (le bs)] 0 .done) s

/-- An acquire fence at a scope: earlier loads return, then the releases they met are acquired (R161, R292). -/
def State.acqFence (s : State) (sc : Scope) : State :=
  let s := s.loadsDone s.iss.core s.iss.strand
  s.acquire s.iss.core s.iss.strand (relIds sc s.iss.core s.str.ord.unacq)

def execTfence (scp : Scope) (s : State) : Out :=
  .next ((s.acqFence scp).modMe fun k => { k with tc := [], tfWid := s.widNext })

/-! ## Scratchpad locks (R154 to R157) -/

/-- The lock of a scratchpad address: 16 bank + index (R154). -/
def lockOf (a : Nat) : Nat := 16 * (a / 65536) + (a / 8 % 16 ^^^ a / 128 % 16 ^^^ a / 2048 % 16)

/-- The lock is held by another strand. -/
def Core.lockedOut (k : Core) (lk : Nat) (t : Fin 4) : Bool := match k.locks.find lk with | some u => u != t | none => false

def execStu (c : Reg) (m : MemOp) (sz : Size) (s : State) : Out :=
  let ea := memEa m s
  let data := toLe (szBytes sz) (s.rd c).toNat
  run (do
    spCheck ea (szBytes sz) false
    let s ← get
    if s.spamoAhead ea.toNat (szBytes sz) then holdOp .lock
    else
      modify fun s =>
        let lk := lockOf ea.toNat
        if s.me.locks.find lk = some s.iss.strand then
          let s := s.loadsDone s.iss.core s.iss.strand
          let ids := s.relSet s.iss.core s.iss.strand
          let rels := s.writeRels true .cr
          (s.modStr Strand.newStores).modMe fun k =>
            let k := ((k.whole (wordsOf ea.toNat (szBytes sz))).spWrite ea.toNat data).ueClear ea.toNat (szBytes sz)
            { k with locks := k.locks.del lk, lockRels := k.lockRels.put lk ids,
                     scrMeta := (List.range (szBytes sz)).foldl (fun m i => m.put (ea.toNat + i) ⟨0, rels⟩) k.scrMeta }
        else s) s

/-! ## Atomics (R158 to R160) -/

/-- The new value of an atomic on `n` bits, or none for a cas that does not write; with its floating-point flags (R159). -/
def aopApply (op : Aop) (dbl : Bool) (x b c : Nat) : Option Nat × Flags :=
  let n := if dbl then 64 else 32
  let sg (v : Nat) : Int := sintOf n v
  let fp (f : Bool → Word → Word → Word × Flags) : Option Nat × Flags :=
    let (w, fl) := f dbl (BitVec.ofNat 64 x) (BitVec.ofNat 64 c)
    (some (w.toNat % 2 ^ n), fl)
  match op with
  | .add => (some ((x + c) % 2 ^ n), 0)
  | .and => (some (x &&& c), 0)
  | .or => (some (x ||| c), 0)
  | .xor => (some (x ^^^ c), 0)
  | .min => (some (if sg c < sg x then c else x), 0)
  | .max => (some (if sg x < sg c then c else x), 0)
  | .minu => (some (if c < x then c else x), 0)
  | .maxu => (some (if x < c then c else x), 0)
  | .swap => (some c, 0)
  | .cas => (if x = b then some c else none, 0)
  | .fadd => fp (fpAdd .rne)
  | .fmax => fp (fpMax .rne)
  | .fmin => fp (fpMin .rne)

/-- Access size of an atomic. -/
def aopBytes (dbl : Bool) : Nat := if dbl then 8 else 4

/-- A register truncated to the access size. -/
def aopArg (dbl : Bool) (v : Word) : Nat := v.toNat % 2 ^ (8 * aopBytes dbl)

/-- A spamo whose lock is free: reads, modifies and writes in one step. It is no release and no acquire, but it goes on the release
sequence it meets and carries the strand's release fences (R157, R292, R293). In a bank that has left SCRATCH it finds an undefined
value and writes nothing (R172; log 96). -/
def State.spamoDo (s : State) (c : Nat) (t : Fin 4) (a : Nat) (op : Aop) (dbl : Bool) (b cc : Word) : Word × Flags × State :=
  let n := aopBytes dbl
  let s := s.acquire c t ((s.core c).lockRels.get [] (lockOf a))
  if (s.core c).mode (a / 65536) ≠ .scratch then
    let (w, s) := s.drawWord
    (BitVec.ofNat 64 (w.toNat % 2 ^ (8 * n)), 0, s)
  else
    let s := s.modCore c fun k => k.whole (wordsOf a n)
    let x := le ((s.core c).spRead a n)
    let (r, f) := aopApply op dbl x (aopArg dbl b) (aopArg dbl cc)
    let ms := (s.core c).spMeta a n
    let s := s.noteRead c t ms none
    let rels := ((s.strand c t).ord.fence ++ ms.flatMap (·.rels)).dedup
    let s := match r with
      | some v => s.modCore c fun k =>
          let k := (k.spWrite a (toLe n v)).ueClear a n
          if rels = [] then k else { k with scrMeta := (List.range n).foldl (fun m i => m.put (a + i) ⟨0, rels⟩) k.scrMeta }
      | none => s
    (BitVec.ofNat 64 x, f, s)

/-- The strand whose retrying spamo takes a lock next, with that operation: in turn after the strand that last took it (R157). -/
def Core.spamoTurn (k : Core) (lk : Nat) : Option (Fin 4 × Sb) :=
  let after : Nat := match k.lockLast.find lk with | some t => t + 1 | none => 0
  ((List.range 4).map fun i => Fin.ofNat 4 (after + i)).findSome? fun (t : Fin 4) =>
    ((k.st.get t).sb.find? fun b => match b.work with | .spamo a _ _ _ _ => lockOf a == lk | _ => false).map fun b => (t, b)

/-- A retrying spamo takes its lock and works; its result is still to be written (R157). -/
def State.spamoTake (s : State) (c : Nat) (t : Fin 4) (b : Sb) : State :=
  match b.work with
  | .spamo a op dbl x y =>
    let (v, f, s) := s.spamoDo c t a op dbl x y
    let s := s.modCore c fun k => { k with lockLast := k.lockLast.put (lockOf a) t.val }
    s.modStrand c t fun u => { u with sb := u.sb.map fun (z : Sb) => if z.id = b.id then { z with vals := [v], flags := f, work := .done } else z }
  | _ => s

/-- The retrying spamos of a lock that no strand holds are served in turn (R157). -/
def State.spamoServe (s : State) (c lk : Nat) : Nat → State
  | 0 => s
  | fuel + 1 =>
    if ((s.core c).locks.find lk).isSome then s
    else match (s.core c).spamoTurn lk with
      | none => s
      | some (t, b) => (s.spamoTake c t b).spamoServe c lk fuel

/-- Pending operations of a core's strands. -/
def Core.pendingOps (k : Core) : Nat := k.st.toList.foldl (fun n u => n + u.sb.length) 0

def execLdl (d : Reg) (pc : Pred) (m : MemOp) (sz : Size) (s : State) : Out :=
  let ea := memEa m s
  run (do
    spCheck ea (szBytes sz) true
    let s ← get
    if s.spamoAhead ea.toNat (szBytes sz) then holdOp .lock
    else
      modify fun s =>
        let lk := lockOf ea.toNat
        let t := s.iss.strand
        let s := s.spamoServe s.iss.core lk s.me.pendingOps
        if s.me.lockedOut lk t then s.fixed 5 (.pred pc) 0 0
        else
          let ms := s.me.spMeta ea.toNat (szBytes sz)
          let s := s.acquire s.iss.core t (s.me.lockRels.get [] lk)
          let (bs, s) := s.spSee s.iss.core t.val ea.toNat (szBytes sz)
          let v := le bs
          let s := s.noteRead s.iss.core t ms (some .cr)
          let ids := s.relSet s.iss.core t
          let s := s.modMe fun k =>
            { k with locks := k.locks.put lk t, lockLast := k.lockLast.put lk t.val, lockRels := k.lockRels.put lk ids }
          (s.fixed 5 (.reg d) (BitVec.ofNat 64 v) 0).fixed 5 (.pred pc) 1 0) s

def execSpamo (d a b c : Reg) (off : BitVec 10) (op : Aop) (dbl : Bool) (s : State) : Out :=
  let ea := atomicEa s a off
  run (do
    spCheck ea (aopBytes dbl) true
    let s ← get
    if s.spamoAhead ea.toNat (aopBytes dbl) then holdOp .lock
    else
      modify fun s =>
        let lk := lockOf ea.toNat
        let s := s.spamoServe s.iss.core lk s.me.pendingOps
        if s.me.lockedOut lk s.iss.strand then s.scoreboard [d] [] 0 (.spamo ea.toNat op dbl (s.rd b) (s.rd c))
        else
          let (x, f, s) := s.spamoDo s.iss.core s.iss.strand ea.toNat op dbl (s.rd b) (s.rd c)
          let s := s.modMe fun k => { k with lockLast := k.lockLast.put lk s.iss.strand.val }
          s.scoreboard [d] [x] f .done) s

/-- Performs an atomic at the home slice (R159): old value and its state. `id`s of the writes read join what the strand has read. -/
def State.amoDo (s : State) (pa kid : Nat) (cmp : Bool) (op : Aop) (dbl : Bool) (b c : Word) (rel : Bool) (scp : Scope)
    (acq : Option Scope) (ea : Word) : Except Trap (Word × State) :=
  let n := aopBytes dbl
  let me := s.iss.core
  let t := s.iss.strand
  let s := s.dropCopy me (pa / 128)
  match s.homeRead pa n kid cmp ea with
  | .error e => .error e
  | .ok (bs, s) =>
    let x := le bs
    let ms := (List.range n).map fun i => s.gmeta.get Meta.zero (pa + i)
    let s := s.forceUpds (dieOf me) (ms.map (·.wid))
    let rels := (s.writeRels rel scp ++ ms.flatMap (·.rels)).dedup
    let s := s.noteRead me t ms acq
    match (aopApply op dbl x (aopArg dbl b) (aopArg dbl c)).1 with
    | none => .ok (BitVec.ofNat 64 x, s)
    | some v =>
      match s.homeWrite me pa (toLe n v) kid cmp (s.beforeWrite rel) rels ea with
      | .error e => .error e
      | .ok (id, s) =>
        let s := s.noteWrite id (pa / 128)
        .ok (BitVec.ofNat 64 x, if acq.isNone then s
          else if rel then s.modStr Strand.mergeOrd
          else s.modStr fun u => { u with ord := { u.ord with hb := uni u.ord.hb [id] } })

/-- A global atomic of the issuing strand, its address checked; in an Encore run an fadd may be held (R159, R462). -/
def amoOp (l : Leaf) (ea : Word) (d : Reg) (op : Aop) (dbl : Bool) (b c : Word) (ord : Ord) (scp : Scope) : Op Unit := do
  let pa := l.pa ea.toNat
  let n := aopBytes dbl
  settle pa n
  let s ← get
  let captured : Option State :=
    if op = .fadd ∧ s.encFootprint s.iss.core ea.toNat then s.encFadd s.iss.core s.iss.strand.val pa else some s
  match captured with
  | none => holdOp .encore
  | some s' =>
    set s'
    modify fun s => if Ord.releases ord then (s.release s.iss.core s.iss.strand scp).2 else s
    let x ← liftE fun s => s.amoDo pa (pteKid l.e) (pteCh l.e) op dbl b c (Ord.releases ord) scp (acqAt ord scp) ea
    watch ea n true
    modify fun s => s.scoreboard [d] [x] 0 .done

def execAmo (d a b c : Reg) (off : BitVec 10) (op : Aop) (dbl : Bool) (ord : Ord) (scp : Scope) (s : State) : Out :=
  let ea := atomicEa s a off
  run (do
    let l ← gAccess ea (aopBytes dbl) .rw
    amoOp l ea d op dbl (s.rd b) (s.rd c) ord scp) s

/-- Takes an SC ticket (R160, R298): the strand's die then holds every write an earlier ticket covers, and this ticket covers all
its own die holds and all it made. -/
def State.ticket (s : State) : State :=
  let c := s.iss.core
  let t := s.iss.strand
  let s := s.acquire c t s.scSet
  let mine := ((s.die (dieOf c)).upds).map (·.wid)
  let seen := s.dies.toList.foldl (fun l d => uni l ((d.upds.map (·.wid)).filter (fun w => !mine.contains w))) []
  { s with scTicket := s.scTicket + 1, scSet := uni (uni (s.prune s.scSet) seen) (s.relSet c t) }

/-- Steps of R146 up to poison for an amosc, which takes no ticket if it faults (R160). -/
def State.amoscFault (s : State) (l : Leaf) (ea : Word) : Option Trap :=
  match (s.dropCopy s.iss.core (l.pa ea.toNat / 128)).homeRead (l.pa ea.toNat) 1 (pteKid l.e) (pteCh l.e) ea with
  | .error t => some t
  | .ok _ => none

def execAmosc (d a b c : Reg) (off : BitVec 10) (op : Aop) (dbl : Bool) (s : State) : Out :=
  let ea := atomicEa s a off
  run (do
    let l ← gAccess ea (aopBytes dbl) .rw
    let s ← get
    match s.amoscFault l ea with
    | some t => raiseT t
    | none =>
      watch ea (aopBytes dbl) true
      match s.encTicket s.iss.core s.iss.strand.val with
      | none => holdOp .encore
      | some s' =>
        set s'
        modify fun s => ((s.release s.iss.core s.iss.strand .pkg).2).ticket
        amoOp l ea d op dbl (s.rd b) (s.rd c) .ar .pkg
        modify fun s => { s with scSet := uni s.scSet (s.relSet s.iss.core s.iss.strand) }) s

/-! ## Fences (R161) -/

/-- A release fence: what it covers is released by every later write of the strand (R292). -/
def State.relFence (s : State) (sc : Scope) : State :=
  let (ids, s) := s.release s.iss.core s.iss.strand sc
  s.modStr fun u => { u with ord := { u.ord with fence := ⟨sc, s.iss.core, ids⟩ :: u.ord.fence.filter (fun r => r.scp != sc) } }

def execFence (ord : Ord) (scp : Scope) (s : State) : Out :=
  let s1 := if Ord.releases ord then s.relFence scp else s
  let s2 := if Ord.acquires ord then s1.acqFence scp else s1
  let s2 := if Ord.releases ord && Ord.acquires ord then s2.modStr Strand.mergeOrd else s2
  match ord with
  | .sc =>
    match s2.encTicket s.iss.core s.iss.strand.val with
    | none => .next (s.hold .encore)
    | some s3 => .next ((s3.ticket.relFence .pkg).modStr Strand.mergeOrd)
  | _ => .next s2

/-! ## Cues (R162 to R164) -/

/-- The larger of two causal stamps in signed 32-bit difference (R453). -/
def stampMax (a b : Nat) : Nat := if (a + 2 ^ 32 - b) % 2 ^ 32 < 2 ^ 31 then a else b

/-- An increment reaches a cue port (R164): the cue, the release it carries, the sender's stamp, if it has one, and name. -/
def State.cueAdd (s : State) (c n : Nat) (amt : BitVec 32) (r : Rel) (stamp : Option Nat) (src : Nat × Nat × Nat) : State :=
  s.modCore c fun k =>
    { k with cues := Tab.set 0 k.cues n (k.cues.get 0 n + amt),
             cueRels := k.cueRels.put n ((r :: k.cueRels.get [] n).dedup),
             cueStamp := match stamp with
                | some v => k.cueStamp.put n (match k.cueStamp.find n with | some x => stampMax v x | none => v)
                | none => k.cueStamp,
             cueSrc := k.cueSrc.put n src }

/-- Core and cue of an address in a cue window, whose slot's core must be ready (R163). -/
def windowCue (ea : Word) (k : Acc3) : Op (Nat × Nat) := do
  let l ← gAccess ea 8 k
  let o := ea.toNat % 2 ^ 17
  let s ← get
  check (s.isReady .core (o / 512)) Cause.translationNotPresent (16 * 7 + l.lvl) ea
  pure (o / 512, o % 512 / 8)

/-- A cueinc of the issuing strand: a release at the scope, then the increment. -/
def cueIncOp (c n : Nat) (b : Word) (scp : Scope) : Op Unit := do
  check (!b.getLsbD 31) Cause.cueOverflow 0 b
  modify fun s =>
    let (ids, s) := s.release s.iss.core s.iss.strand scp
    s.cueAdd c n (b.truncate 32) ⟨scp, s.iss.core, ids⟩ (some s.me.stamp.toNat) (s.iod.devnum, s.iss.core, s.iss.strand.val)

def execCueinc (win : Bool) (n : BitVec 6) (a b : Reg) (scp : Scope) (s : State) : Out :=
  run (if win then do
      let (c, i) ← windowCue (s.rd a) .cueWr
      check (!(s.rd b).getLsbD 31) Cause.cueOverflow 0 (s.rd b)
      watch (s.rd a) 8 true
      cueIncOp c i (s.rd b) scp
    else cueIncOp s.iss.core n.toNat (s.rd b) scp) s

/-- Whether a wait on target `t` is satisfied by counter `v` (R33). -/
def reached (v t : BitVec 32) : Bool := decide (0 ≤ (v - t).toInt)

/-- The strand was waiting in `w` until now. -/
def State.wasWaiting (s : State) (w : Wait) : Bool := s.str.cond == .waiting w

def execCuewait (n : BitVec 6) (b : Reg) (scp : Scope) (s : State) : Out :=
  let i := n.toNat
  let k := s.me
  if reached (k.cues.get 0 i) ((s.rd b).truncate 32) then
    let s1 := s.acquire s.iss.core s.iss.strand (relIds scp s.iss.core (k.cueRels.get [] i))
    if s.wasWaiting .cue then
      let s2 := match k.cueStamp.find i with | some x => s1.stampIn s.iss.core x | none => s1
      let (d, c, g) := k.cueSrc.get (0, 0, 15) i
      .next (s2.waitRec s.iss.core s.iss.strand.val 1 i d c g)
    else .next (match k.cueStamp.find i with | some x => s1.stampIn s.iss.core x | none => s1)
  else .next (s.hold .cue)

def execCuerd (d : Reg) (win : Bool) (n : BitVec 6) (a : Reg) (s : State) : Out :=
  run (if win then do
      let (c, i) ← windowCue (s.rd a) .cueRd
      watch (s.rd a) 8 false
      modify fun s => s.scoreboard [d] [((s.core c).cues.get 0 i).zeroExtend 64] 0 .done
    else modify fun s => s.scoreboard [d] [(s.me.cues.get 0 n.toNat).zeroExtend 64] 0 .done) s

/-! ## Handoff tokens (R165, R166) -/

/-- Tokens in FIFO `i`. -/
def Core.tokens (k : Core) (i : Nat) : List Tokn := k.fifo.get [] i

/-- Whether each FIFO of a list has room for one more token (R28). -/
def Core.room (k : Core) (is : List Nat) : Bool := is.all fun i => decide ((k.tokens i).length < 15)

/-- Adds one token to each FIFO of a list. -/
def State.pushTok (s : State) (c : Nat) (is : List Nat) (t : Tokn) : State :=
  s.modCore c fun k => { k with fifo := is.foldl (fun f i => f.put i (f.get [] i ++ [t])) k.fifo }

/-- Removes one token from each FIFO of a list: the writes they release and their stamps. -/
def State.popTok (s : State) (c : Nat) (is : List Nat) (agent : Nat) : List Nat × State :=
  let ts := is.filterMap fun i => ((s.core c).tokens i).head?
  let s := s.modCore c fun k =>
    { k with fifo := is.foldl (fun f i => Tab.set [] f i ((f.get [] i).drop 1)) k.fifo,
             fifoPop := is.foldl (fun f i => f.put i agent) k.fifoPop }
  (ts.foldl (fun l t => uni l t.ids) [], ts.foldl (fun s t => s.stampIn c t.stamp) s)

def execTkpush (mask : BitVec 5) (s : State) : Out :=
  let is := (maskEnds mask).map (fifoIx 0)
  if s.me.room is then
    let s1 := s.loadsDone s.iss.core s.iss.strand
    let ids := s1.relSet s.iss.core s.iss.strand
    let s2 := (s1.pushTok s.iss.core is ⟨ids, s.me.stamp.toNat, s.iss.strand.val⟩).modStr Strand.newStores
    let p := is.headD 0
    .next (if s.wasWaiting .fifoFull then
      s2.waitRec s.iss.core s.iss.strand.val 7 p s.iod.devnum s.iss.core (s.me.fifoPop.get 15 p) else s2)
  else .next (s.hold .fifoFull)

def execTkpop (mask : BitVec 5) (s : State) : Out :=
  let is := (maskEnds mask).map (fun e => fifoIx e 0)
  if is.all (fun i => !(s.me.tokens i).isEmpty) then
    let p := is.headD 0
    let src := ((s.me.tokens p).head?.map (·.src)).getD 15
    let (ids, s1) := s.popTok s.iss.core is s.iss.strand.val
    let s2 := s1.acquire s.iss.core s.iss.strand ids
    .next (if s.wasWaiting .token then
      s2.waitRec s.iss.core s.iss.strand.val 2 p s.iod.devnum s.iss.core src else s2)
  else .next (s.hold .token)

/-! ## Landing words (R167) -/

def execLwarm (a b : Reg) (s : State) : Out :=
  let ea := s.rd a
  run (do
    spCheck ea 16 false
    let s ← get
    if s.spamoAhead ea.toNat 16 then holdOp .lock
    else
      modify fun s => s.modMe fun k =>
        (((k.whole (wordsOf ea.toNat 16)).spWrite ea.toNat (toLe 4 ((s.rd b).toNat % 2 ^ 32) ++ toLe 4 0)).spWrite (ea.toNat + 12) (toLe 4 0)).ueClear ea.toNat 8) s

def execLwwait (a b : Reg) (s : State) : Out :=
  let ea := s.rd a
  run (do
    spCheck ea 16 true
    let s ← get
    if s.spamoAhead ea.toNat 16 then holdOp .lock
    else
      let gen : BitVec 32 := BitVec.ofNat 32 (le (s.me.spRead (ea.toNat + 8) 4))
      if decide (0 < (gen - (s.rd b).truncate 32).toInt) then
        modify fun s =>
          let k := s.me
          let s1 := s.acquire s.iss.core s.iss.strand (k.landRels.get [] ea.toNat)
          let s2 := match k.landStamp.find ea.toNat with | some x => s1.stampIn s.iss.core x | none => s1
          if s.wasWaiting .land then
            s2.waitRec s.iss.core s.iss.strand.val 3 (ea.toNat / 16) s.iod.devnum s.iss.core (k.landSrc.get 15 ea.toNat)
          else s2
      else holdOp .land) s

/-! ## Cache hints (R168, R169) -/

/-- pref changes residency alone, and nothing where any check fails (R168). -/
def execPref (m : MemOp) (llc : Bool) (s : State) : Out :=
  let ea := memEa m s
  let op : Op Unit := do
    let l ← gAccess ea 1 .rd
    let pa := l.pa ea.toNat
    if llc then
      let _ ← liftE fun s => s.homeLine (pa / 128) (pteKid l.e) (pteCh l.e) ea
      pure ()
    else
      let _ ← liftE fun s => s.coreRead s.iss.core pa 1 (pteKid l.e) (pteCh l.e) (pteCp l.e != 1) ea
      pure ()
  match op s with
  | .ok (_, s') => .next s'
  | .error t => .next (s.poisonSeen s.iss.core s.mySpace t)

/-- cflush on the core's own CACHE banks, for the lines `p` holds of; a store in no bank is performed all the same (R147, R169). -/
def State.flushCr (s : State) (c : Nat) (kind : FlushKind) (p : Nat → Bool) : State :=
  match kind with
  | .clean => (s.flushLines c p).modCore c fun k => { k with dc := k.dc.map fun l => if p l.line then { l with dirty := false } else l }
  | .inv => (s.flushLines c p).modCore c fun k => { k with dc := k.dc.filter fun l => !p l.line }
  | .discard =>
    let inBank (n : Nat) : Bool := (s.core c).dc.any fun l => l.line == n && l.dirty
    (s.flushLines c fun n => p n && !inBank n).modCore c fun k =>
      { k with dc := k.dc.filter fun l => !p l.line,
               wbuf := k.wbuf.filter fun e => !e.bytes.any fun b => p (b.1 / 128) && inBank (b.1 / 128) }

/-- Drops a die's copies of the lines `p` holds of; guest copies alone where `guest` says so. -/
def Die.dropLines (d : Die) (p : Nat → Bool) (guestOnly : Bool) : Die :=
  { d with sets := d.sets.map fun e => (e.1, e.2.filter fun l => !(p l.line && (l.guest || !guestOnly))) }

/-- cflush on one die (R169): home lines and guest copies. -/
def State.flushDie (s : State) (d : Fin 4) (kind : FlushKind) (p : Nat → Bool) : State :=
  match kind with
  | .discard => s.modDie d fun k =>
      { k.dropLines p false with stale := k.stale.filter fun e => !p (e.1 / 128),
                                 upds := k.upds.filter fun u => !u.bytes.any fun b => p (b.1 / 128) }
  | _ =>
    let homes := ((s.die d).sets.flatMap (·.2)).filter fun l => p l.line && !l.guest
    let s := homes.foldl (fun s l => s.writeBack l) s
    s.modDie d fun k =>
      match kind with
      | .clean => { k with sets := k.sets.map fun e => (e.1, e.2.map fun l => if p l.line && !l.guest then { l with dirty := false } else l) }
      | _ => k.dropLines p false

/-- cflush on a physical range of lines. -/
def State.flushRange (s : State) (c : Nat) (kind : FlushKind) (scp : Scope) (lo hi : Nat) : State :=
  let p (l : Nat) : Bool := decide (lo ≤ l ∧ l ≤ hi)
  let s := s.flushCr c kind p
  match scp with
  | .pkg => [(0 : Fin 4), 1, 2, 3].foldl (fun s d => s.flushDie d kind p) s
  | _ => s

/-- cflush page by page (R169): `n` pages from address `a`, the range ending before `stop`. -/
def cflushPages (kind : FlushKind) (scp : Scope) (stop : Nat) : Nat → Nat → Op Unit
  | 0, _ => pure ()
  | n + 1, a =>
    if stop ≤ a then pure ()
    else do
      let l ← gAccess (BitVec.ofNat 64 a) 1 (if kind = .discard then .drop else .rd)
      let e := Min.min stop (a / 2 ^ 14 * 2 ^ 14 + 2 ^ 14)
      let lo := l.pa a / 128
      let hi := l.pa (e - 1) / 128
      let s ← get
      match (List.range (hi + 1 - lo)).findSome? fun i => s.keyCheck s.iss.core (lo + i) (pteKid l.e) (BitVec.ofNat 64 a) with
      | some t => raiseT t
      | none => modify fun s => s.flushRange s.iss.core kind scp lo hi
      cflushPages kind scp stop n e

def execCflush (a b : Reg) (kind : FlushKind) (scp : Scope) (s : State) : Out :=
  let go (s : State) : Out :=
    let lo := (s.rd a).toNat
    let n := (s.rd b).toNat
    if n = 0 then .next s else run (cflushPages kind scp (lo + n) (n / 2 ^ 14 + 2) lo) s
  if kind = .discard then needSup s go else go s

end Sys2Proof.Machine
end

