-- ==== Sys2Proof/Machine/Queue.lean ====
section
/-! DEFINITION. Engine queues: what a command captures, how it enters its queue, and the monad in which a command executes (R23 to R30). -/

namespace Sys2Proof.Machine

/-- Operand registers A, B and C of an engine instruction (R90). -/
def regsOf : Instr → Reg × Reg × Reg
  | .vadd v | .vsub v | .vmul v | .vfma v | .vmax v | .vmin v | .vlog v | .vsh v | .vcmp v | .vsel v | .vsfu v => (v.a, v.b, v.c)
  | .vcvt v | .vred v | .vbcast v | .vtrn v | .vpart v | .vgath v | .vscat v | .vgathm v | .vscan v | .viota v => (v.a, v.b, v.c)
  | .vtopk v | .vnorm v | .vrng v | .vquant v | .vdeq v | .vsample v | .vmovg v | .vcopy v => (v.a, v.b, v.c)
  | .mma _ a b _ | .mmaz _ a b _ | .mldacc _ a b _ _ => (a, b, 0)
  | .mgma _ a b c _ _ | .mdrain _ a b c _ _ _ _ _ _ | .kvapp _ a b c _ _ => (a, b, c)
  | .mamax _ a _ | .attn _ a => (a, 0, 0)
  | .tsobj _ a b => (a, b, 0)
  | .tsdrop _ b => (0, b, 0)
  | .cpy e _ _ _ | .cpyf e _ | .cpyg e _ _ _ _ | .cpys e _ | .cpyz e _ _ | .xform e _ _ _ _ | .card e | .cardwt e => (e.a, e.b, e.c)
  | .fld e _ _ | .fst e _ _ | .famo e _ _ _ | .fput e _ _ | .fget e _ _ | .fsig e | .ffence e => (e.a, e.b, e.c)
  | _ => (0, 0, 0)

/-- Commands an engine queue holds (R23). -/
def queueSize : Nat := 64

/-- The command an instruction of the issuing strand puts into a queue, with what it captures at issue (R23, R175). -/
def State.capture (s : State) (i : Instr) : Cmd :=
  let (a, b, c) := regsOf i
  { instr := i, strand := s.iss.strand, a := s.rd a, b := s.rd b, c := s.rd c, tshape := s.str.tshape, sup := s.str.sup,
    syl := s.iss.syl, popped := false, word := none, prog := .none, prologue := false, obj := [], num := 0, desc := [], routine := none,
    out := [], blk := [] }

/-- Appends a command to a queue. -/
def State.append (s : State) (c : Nat) (e : Eng) (x : Cmd) : State := s.modEngine c e fun g => { g with q := g.q ++ [x] }

/-- Whether an engine's queue can take a command: those of F that are under way still count (R23; log 94). -/
def Engine.hasRoom (g : Engine) : Bool := decide (g.q.length + g.flight.length < queueSize)

/-- Issue of an engine instruction (R25, R26): the command enters the queue; without room a .try writes false, and any other
bundle stalls. -/
def enqueue (i : Instr) (s : State) : Out :=
  match engineOf i with
  | none => .next s
  | some e =>
    let ok := (s.engine s.iss.core e).hasRoom
    let x := s.capture i
    match tryOf i with
    | some p =>
      let s1 := s.fixed 1 (.pred p) (if ok then 1 else 0) 0
      .next (if ok then s1.append s.iss.core e x else s1)
    | none => if ok then .next (s.append s.iss.core e x) else .next (s.hold .queue)

/-! ## Execution of a command -/

/-- A command under execution: the machine, the core, the engine, the command with its progress, what it holds so far. -/
structure Exe where
  s : State
  c : Nat
  e : Eng
  cmd : Cmd
  com : Commit
  /-- Global bytes of a shaped copy on their way to the home slices: mask and bytes of each 128-byte block (R362). -/
  buf : Tab (Nat × List Byte)
  /-- Entries of V's history of writes older than the command (R185). -/
  older : Nat
  deriving DecidableEq, Repr

/-- Execution of a command: a fault keeps what was done before it (R27). -/
abbrev EM := ExceptT Trap (StateM Exe)

/-- An engine fault (R401 class E): cause, detail, value. -/
def efault {α : Type} (cause detail : Nat) (val : Nat) : EM α := throw ⟨cause, detail, BitVec.ofNat 64 val⟩

/-- Faults unless `p` holds. -/
def echeck (p : Bool) (cause detail : Nat) (val : Nat) : EM Unit := if p then pure () else efault cause detail val

/-- The detail by which a fault names an operand (R176, R401); its numbering is free (log 29). -/
def opNo (k : Nat) : Nat := Config.operandNo k % 2 ^ 16

/-- The executing core. -/
def eCore : EM Core := do
  let x ← get
  pure (x.s.core x.c)

/-- Changes the machine. -/
def eMod (f : State → State) : EM Unit := modify fun x => { x with s := f x.s }

/-- Changes the executing core. -/
def eModCore (f : Core → Core) : EM Unit := modify fun x => { x with s := x.s.modCore x.c f }

/-- Merges flags. -/
def eFlags (f : Flags) : EM Unit := modify fun x => { x with com := { x.com with flags := x.com.flags ||| f } }

/-- A value with flags: keeps the flags. -/
def eVal {α : Type} (r : α × Flags) : EM α := do
  eFlags r.2
  pure r.1

/-- Lifts an access that may raise a cause. -/
def eLift {α : Type} (f : State → Except Trap (α × State)) : EM α := do
  let x ← get
  match f x.s with
  | .ok (a, s) =>
    set { x with s := s }
    pure a
  | .error t => throw t

/-- The translation space of the command: the core's with the captured mode (R23). -/
def eSpace : EM Space3 := do
  let x ← get
  pure ((x.s.core x.c).space x.cmd.sup)

/-- A value the spec does not state (log 4). -/
def eFree : EM Nat := do
  let x ← get
  let (w, s) := x.s.drawWord
  set { x with s := s }
  pure w.toNat

/-- The banks of a range of scratchpad are in SCRATCH mode when an engine reaches it (R172). -/
def eBanks (a n : Nat) : EM Unit := do
  let k ← eCore
  echeck (n == 0 || (List.range ((a + n - 1) / 65536 + 1 - a / 65536)).all fun i => k.mode (a / 65536 + i) == .scratch) Cause.bankModeViolation 0 a

/-- Bytes of scratchpad an engine reads, with the checks of R172, R185 and R445 at the bytes; words that nothing orders may be old (R43). -/
def eRead (a n : Nat) : EM (List Byte) := do
  eBanks a n
  let x ← get
  let k := x.s.core x.c
  echeck (n == 0 || !k.pendHit a n (some x.e)) Cause.pendingRead 0 (Max.max a (k.pendRow a n x.e * 128))
  echeck (n == 0 || !k.ueHit a n) Cause.sramUncorrectable (a / 65536) a
  eLift fun s => .ok (s.spSee x.c (4 + x.e.val) a n)

/-- Marks the rows of a range as pending from a command of an engine (R185). -/
def Core.markRows (k : Core) (e : Eng) (num a n : Nat) : Core :=
  if k.pendchk.getLsbD 0 && decide (0 < n) then
    { k with pendRows := (((List.range ((a + n - 1) / 128 + 1 - a / 128)).map fun i => (a / 128 + i, e, num)) ++ k.pendRows).dedup }
  else k

/-- The rows a command will write are pending from its start (R185). -/
def eMark (a n : Nat) : EM Unit := do
  let x ← get
  eModCore fun k => k.markRows x.e x.cmd.num a n

/-- LWE of a copy control word (R257), and of a fabric control word (R258). -/
def ccLwe (c : Word) : Bool := c.getLsbD 46

/-- An engine is about to write words of scratchpad that other agents need not see yet (R43): as part of a block that a delivery of its
own releases, where the command delivers, and else of the whole command. -/
def eTear (a : Nat) (ws : List Nat) : EM Unit := do
  let x ← get
  let key : Nat := if (x.e = 2 ∨ x.e = 3) ∧ ccLwe x.cmd.c then a / 128 + 1 else 0
  let id ← (match x.com.sids.find key with
    | some id => pure id
    | none => do
      let id ← eLift fun s => .ok s.drawWid
      modify fun y => { y with com := { y.com with sids := y.com.sids.put key id } }
      pure id)
  eModCore fun k => k.tear (4 + x.e.val) id ws

/-- An engine's write of scratchpad bytes. -/
def eWrite (a : Nat) (bs : List Byte) : EM Unit := do
  eBanks a bs.length
  let x ← get
  eTear a (wordsOf a bs.length)
  eModCore fun k => ((k.markRows x.e x.cmd.num a bs.length).spWrite a bs).ueClear a bs.length

/-! ## Elements in bytes (R56, R175) -/

/-- The first `n` elements of width `w` bits packed in bytes. -/
def unpackEls (w n : Nat) (bs : List Byte) : List Nat :=
  let x := le bs
  (List.range n).map fun i => x / 2 ^ (w * i) % 2 ^ w

/-- The bytes elements of width `w` bits pack into. -/
def packEls (w : Nat) (es : List Nat) : List Byte :=
  toLe ((es.length * w + 7) / 8) (es.foldr (fun e x => e % 2 ^ w + 2 ^ w * x) 0)

/-- An operand of a command: which (0 A, 1 B, 2 C), base, rows, pitch, bytes of a row; a list has one row (R175). -/
structure Extent where
  ix : Nat
  base : Nat
  rows : Nat
  pitch : Nat
  len : Nat
  dst : Bool
  deriving DecidableEq, Repr

/-- The ranges of bytes an operand takes. -/
def Extent.ranges (x : Extent) : List (Nat × Nat) :=
  if x.len = 0 then [] else (List.range x.rows).map fun r => (x.base + r * x.pitch, x.len)

/-- The byte after an operand's last; an operand of no bytes ends where it begins (log 94). -/
def Extent.stop (x : Extent) : Nat := if x.len = 0 ∨ x.rows = 0 then x.base else x.base + (x.rows - 1) * x.pitch + x.len

/-- Banks an operand touches. -/
def Extent.banks (x : Extent) : List Nat :=
  (x.ranges.flatMap fun r => (List.range ((r.1 + r.2 - 1) / 65536 + 1 - r.1 / 65536)).map fun i => r.1 / 65536 + i).dedup

/-- Whether two operands share a byte. -/
def Extent.meets (x y : Extent) : Bool :=
  x.ranges.any fun a => y.ranges.any fun b => decide (a.1 < b.1 + b.2 ∧ b.1 < a.1 + a.2)

/-- The scratchpad checks of fixed operands in the order of R176 items 3 to 5 (R223 checks 3 to 5). -/
def extentChecks (xs : List Extent) : EM Unit := do
  xs.forM fun x => echeck (decide (x.stop ≤ 2 ^ 21)) Cause.tileSpan (opNo x.ix) x.base
  let k ← eCore
  xs.forM fun x => echeck (x.banks.all fun b => k.budget.getLsbD b) Cause.scratchpadRange 0 x.base
  xs.forM fun x => echeck (x.banks.all fun b => k.mode b == .scratch) Cause.bankModeViolation 0 x.base

/-! ## FIFO banks (R41, R210) -/

/-- Bytes a ring holds (R210). -/
def ringSize : Nat := 65536

/-- The ring of a FIFO bank. -/
def Core.ring (k : Core) (b : Nat) : List Byte := k.rings.get [] b

/-- Appends a unit to a ring. -/
def Core.ringPut (k : Core) (b : Nat) (bs : List Byte) : Core := { k with rings := Tab.set [] k.rings b (k.ring b ++ bs) }

/-- Takes bytes from a ring's head. -/
def Core.ringTake (k : Core) (b n : Nat) : Core := { k with rings := Tab.set [] k.rings b ((k.ring b).drop n) }

end Sys2Proof.Machine
end

