-- ==== Sys2Proof/Machine/Real.lean ====
section
/-! DEFINITION. Correctly rounded transcendental functions (R192): enclosures in fixed point, narrowed until the rounding is decided. -/

namespace Sys2Proof.Machine

/-- floor of x × 2^p for a non-negative x. -/
def fixLo (p : Nat) (x : Rat) : Nat := x.num.natAbs * 2 ^ p / x.den

/-- ceiling of x × 2^p for a non-negative x. -/
def fixHi (p : Nat) (x : Rat) : Nat := (x.num.natAbs * 2 ^ p + x.den - 1) / x.den

/-- Division rounded up. -/
def cdiv (a b : Nat) : Nat := (a + b - 1) / b

/-- Lower bound of exp(y) in units of 2^-p: the first `k` terms, rounded down. `t` is the current term, `i` its index. -/
def expLoSum (p y : Nat) : Nat → Nat → Nat → Nat
  | 0, _, _ => 0
  | k + 1, t, i => t + expLoSum p y k (t * y / 2 ^ p / (i + 1)) (i + 1)

/-- Upper bound of exp(y) for y below 2: the first `k` terms rounded up, then twice the next. -/
def expHiSum (p y : Nat) : Nat → Nat → Nat → Nat
  | 0, t, _ => 2 * t + 2
  | k + 1, t, i => t + expHiSum p y k (cdiv (cdiv (t * y) (2 ^ p)) (i + 1)) (i + 1)

/-- Sum of z^(2j+1)/(2j+1) rounded down; `t` is z^(2j+1). -/
def atanhLoSum (p z2 : Nat) : Nat → Nat → Nat → Nat
  | 0, _, _ => 0
  | k + 1, t, i => t / i + atanhLoSum p z2 k (t * z2 / 2 ^ p) (i + 2)

/-- Sum of z^(2j+1)/(2j+1) rounded up, with the tail, for z at most 1/3. -/
def atanhHiSum (p z2 : Nat) : Nat → Nat → Nat → Nat
  | 0, t, _ => 2 * t + 2
  | k + 1, t, i => cdiv t i + atanhHiSum p z2 k (cdiv (t * z2) (2 ^ p)) (i + 2)

/-- Enclosure of atanh z in units of 2^-p, for z from 0 to 1/3. -/
def atanhEnc (p : Nat) (z : Rat) : Nat × Nat :=
  let k := p / 3 + 4
  let zl := fixLo p z
  let zh := fixHi p z
  (atanhLoSum p (zl * zl / 2 ^ p) k zl 1, atanhHiSum p (cdiv (zh * zh) (2 ^ p)) k zh 1)

/-- Enclosure of ln 2 = 2 atanh(1/3). -/
def ln2Enc (p : Nat) : Nat × Nat :=
  let (l, h) := atanhEnc p (mkRat 1 3)
  (2 * l, 2 * h)

/-- Units of 2^-p as a rational. -/
def unfix (p n : Nat) : Rat := mkRat n (2 ^ p)

/-- Enclosure of exp(y) in units of 2^-p for a rational interval within 0 to 2. -/
def expEnc (p : Nat) (lo hi : Rat) : Nat × Nat :=
  let k := p / 2 + 16
  (expLoSum p (fixLo p lo) k (2 ^ p) 0, expHiSum p (fixHi p hi) k (2 ^ p) 0)

/-- Enclosure of 2^x: whole part exact, fraction through exp(f ln 2). -/
def exp2Enc (p : Nat) (x : Rat) : Rat × Rat :=
  let n := x.floor
  let f := x - (n : Rat)
  let (l, h) := ln2Enc p
  let (a, b) := expEnc p (f * unfix p l) (f * unfix p h)
  (unfix p a * pow2 n, unfix p b * pow2 n)

/-- Enclosure of e^x for a moderate x, reduced so that the rest lies within 0 and 2. -/
def expRatEnc (p : Nat) (x : Rat) : Rat × Rat :=
  let n := (x * mkRat 1477 1024).floor - 1
  let (l, h) := ln2Enc p
  let (rl, rh) :=
    if 0 ≤ n then (x - (n : Rat) * unfix p h, x - (n : Rat) * unfix p l)
    else (x - (n : Rat) * unfix p l, x - (n : Rat) * unfix p h)
  let (a, b) := expEnc p rl rh
  (unfix p a * pow2 n, unfix p b * pow2 n)

/-- Enclosure of log2 x for a positive x. -/
def log2Enc (p : Nat) (x : Rat) : Rat × Rat :=
  let e := flog2 x
  let m := x / pow2 e
  let (l, h) := ln2Enc p
  let (a, b) := atanhEnc p ((m - 1) / (m + 1))
  ((e : Rat) + unfix p (2 * a) / unfix p h, (e : Rat) + unfix p (2 * b) / unfix p l)

/-- Enclosure of tanh x for a positive x. -/
def tanhEnc (p : Nat) (x : Rat) : Rat × Rat :=
  if x < mkRat 1 1048576 then
    (x - x * x * x / 3, x - x * x * x / 3 + 2 * x * x * x * x * x / 15)
  else
    let (a, b) := expRatEnc p (2 * x)
    (1 - 2 / (a + 1), 1 - 2 / (b + 1))

/-- Enclosure of 1 / (1 + e^-x). -/
def sigmoidEnc (p : Nat) (x : Rat) : Rat × Rat :=
  let (a, b) := expRatEnc p x
  (a / (1 + a), b / (1 + b))

/-- Partial sum of x^(2j) (-1)^j / (j! (2j+1)) in rationals cut to 2^-p, and the magnitude of the next term; the cuts are
counted in `c`. -/
def erfSum (p : Nat) (x2 : Rat) : Nat → Rat → Nat → Rat × Rat
  | 0, t, j => (0, t / ((2 * j + 1 : Nat) : Rat))
  | k + 1, t, j =>
    let term := t / ((2 * j + 1 : Nat) : Rat)
    let next := unfix p (fixLo p (t * x2 / ((j + 1 : Nat) : Rat)))
    let (s, r) := erfSum p x2 k next (j + 1)
    (term - s, r)

/-- Enclosure of sqrt of a positive rational. -/
def sqrtEnc (p : Nat) (x : Rat) : Rat × Rat :=
  let n := fixLo (2 * p) x
  let r := isqrt n
  (unfix p r, unfix p (r + 1))

/-- Enclosure of π = 16 atan(1/5) - 4 atan(1/239), each alternating sum cut off with its next term as the bound. -/
def atanSum (p : Nat) (q2 : Nat) : Nat → Nat → Nat → Int
  | 0, _, _ => 0
  | k + 1, t, i => (t / i : Nat) - atanSum p q2 k (t / q2) (i + 2)

/-- Enclosure of π. -/
def piEnc (p : Nat) : Rat × Rat :=
  let k := p / 4 + 8
  let a := 16 * atanSum p 25 k (2 ^ p / 5) 1 - 4 * atanSum p 57121 k (2 ^ p / 239) 1
  let g : Int := 40 * (k + 4)
  (mkRat (a - g) (2 ^ p), mkRat (a + g) (2 ^ p))

/-- Enclosure of erf x for x from 0 to 6. -/
def erfEnc (p : Nat) (x : Rat) : Rat × Rat :=
  let k := p + 64
  let w := p + 80
  let (s, r) := erfSum w (x * x) k 1 0
  let g := r + mkRat (((k * k : Nat) : Int) * 4) (2 ^ p)
  let (pl, ph) := piEnc w
  let (cl, _) := sqrtEnc w pl
  let (_, ch) := sqrtEnc w ph
  (2 * x * (s - g) / ch, 2 * x * (s + g) / cl)

/-- A value that rounds, in every format of at most 24 bits of precision, as every value of the enclosure does; none when the
enclosure is too wide to tell. -/
def sticky (lo hi : Rat) : Option Rat :=
  if lo ≤ 0 then none
  else
    let k := 27 - flog2 lo
    let a := (lo * pow2 k).floor
    let b := (hi * pow2 k).floor
    if a = b ∧ (a : Rat) < lo * pow2 k then some (mkRat (2 * a + 1) 2 * pow2 (-k)) else none

/-- Tries rising precisions until the rounding is decided. -/
def decideWith (enc : Nat → Rat × Rat) : List Nat → Option Rat
  | [] => none
  | p :: ps =>
    let (lo, hi) := enc p
    match sticky lo hi with
    | some r => some r
    | none => decideWith enc ps

/-- The precisions tried. -/
def precisions : List Nat := [96, 192, 384, 768]

/-- The decided value of a positive function value; past the last precision a free choice between the two neighbours (log 32). -/
def decided (f : Nat) (x : Rat) (enc : Nat → Rat × Rat) : Rat :=
  match decideWith enc precisions with
  | some r => r
  | none =>
    let (lo, hi) := enc 768
    if Config.tieBreak f x.num x.den then lo else hi

/-- The functions of vsfu (R192). -/
inductive Sfu where
  | exp2
  | exp
  | log2
  | rcp
  | rsqrt
  | sqrt
  | tanh
  | sigmoid
  | erf
  deriving DecidableEq, Repr

/-- SUB of vsfu (R192). -/
def Sfu.ofCode : Nat → Sfu
  | 0 => .exp2
  | 1 => .exp
  | 2 => .log2
  | 3 => .rcp
  | 4 => .rsqrt
  | 5 => .sqrt
  | 6 => .tanh
  | 7 => .sigmoid
  | _ => .erf

/-- Signed value of a magnitude and sign. -/
def signedRat (neg : Bool) (m : Rat) : Rat := if neg then -m else m

/-- 2^x for a finite x: beyond every exponent range a power that rounds alike. -/
def exp2Fin (x : Rat) : FVal :=
  if x.den = 1 ∧ -400 < x ∧ x < 400 then .num false (pow2 x.num)
  else if 400 ≤ x then .num false (pow2 400)
  else if x ≤ -400 then .num false (pow2 (-400))
  else .num false (decided 0 x fun p => exp2Enc p x)

/-- e^x for a finite non-zero x. -/
def expFin (x : Rat) : FVal :=
  if 300 ≤ x then .num false (pow2 400)
  else if x ≤ -300 then .num false (pow2 (-400))
  else .num false (decided 1 x fun p => expRatEnc p x)

/-- log2 of a positive number. -/
def log2Fin (m : Rat) : FVal :=
  let e := flog2 m
  if pow2 e = m then FVal.ofInt e
  else if m < 1 then .num true (decided 2 m fun p => let (l, h) := log2Enc p m; (-h, -l))
  else .num false (decided 2 m fun p => log2Enc p m)

/-- Reciprocal square root of a positive number: exact where it is rational, else decided through the square root. -/
def rsqrtFin (m : Rat) : FVal := .num false (sqrtRat (1 / m))

/-- tanh of a positive number. -/
def tanhFin (x : Rat) : Rat :=
  if 60 ≤ x then 1 - pow2 (-60) else decided 6 x fun p => tanhEnc p x

/-- erf of a positive number. -/
def erfFin (x : Rat) : Rat :=
  if 6 ≤ x then 1 - pow2 (-60) else decided 8 x fun p => erfEnc p x

/-- sigmoid of a non-zero number. -/
def sigmoidFin (x : Rat) : Rat :=
  if 60 ≤ x then 1 - pow2 (-60) else if x ≤ -300 then pow2 (-400) else decided 7 x fun p => sigmoidEnc p x

/-- The special-function unit (R192). -/
def sfu (f : Sfu) (v : FVal) : FVal × Flags :=
  match v with
  | .nan _ => (.qnan, 0)
  | .inf neg =>
    match f with
    | .exp2 | .exp => (if neg then .num false 0 else .inf false, 0)
    | .log2 => if neg then (.qnan, Flag.nv) else (.inf false, 0)
    | .rcp => (.num neg 0, 0)
    | .rsqrt => if neg then (.qnan, Flag.nv) else (.num false 0, 0)
    | .sqrt => if neg then (.qnan, Flag.nv) else (.inf false, 0)
    | .tanh | .erf => (.num neg 1, 0)
    | .sigmoid => (.num false (if neg then 0 else 1), 0)
  | .num neg m =>
    match f with
    | .exp2 => (if m = 0 then .num false 1 else exp2Fin (signedRat neg m), 0)
    | .exp => (if m = 0 then .num false 1 else expFin (signedRat neg m), 0)
    | .log2 => if m = 0 then (.inf true, Flag.dz) else if neg then (.qnan, Flag.nv) else (log2Fin m, 0)
    | .rcp => if m = 0 then (.inf neg, Flag.dz) else (.num neg (1 / m), 0)
    | .rsqrt => if m = 0 then (.inf neg, Flag.dz) else if neg then (.qnan, Flag.nv) else (rsqrtFin m, 0)
    | .sqrt => FVal.sqrt v
    | .tanh => (.num neg (if m = 0 then 0 else tanhFin m), 0)
    | .sigmoid => (.num false (if m = 0 then mkRat 1 2 else sigmoidFin (signedRat neg m)), 0)
    | .erf => (.num neg (if m = 0 then 0 else erfFin m), 0)

end Sys2Proof.Machine
end

