-- ==== Sys2Proof/Machine/Vec.lean ====
section
/-! DEFINITION. The vector engine: steps and visibility, operand checks, execution of V commands (R175 to R207). -/

namespace Sys2Proof.Machine

/-! ## Shape and steps (R173 to R181) -/

/-- Columns, rows and pitch in bytes of a tile shape (R173). -/
def shCols (t : Word) : Nat := t.toNat % 4096 + 1
def shRows (t : Word) : Nat := t.toNat / 4096 % 4096 + 1
def shPitch (t : Word) : Nat := t.toNat / 2 ^ 24 % 4096 * 16

/-- Elements of a width that fill 128 bytes in whole packing groups (R179). -/
def unitEls (w : Nat) : Nat := if w = 6 then 168 else 1024 / w

/-- Whether step `a` is not past step `b`: steps wrap, and their difference is taken as a signed value (R179). -/
def stepLe (a b : Word) : Bool := decide (0 ≤ (b - a).toInt)

/-- The later of two steps (R180). -/
def laterStep (a b : Word) : Word := if stepLe a b then b else a

/-- Nothing that V wrote is hidden from what it runs next (R180). -/
def Core.settleV (k : Core) : Core := { k with vhist := [], vstep := laterStep k.vstep k.vvis }

/-- What a V command works with: captured shape, operands, first step. -/
structure VCtx where
  cols : Nat
  rows : Nat
  pitch : Nat
  a : Nat
  b : Nat
  c : Nat
  bw : Word
  cw : Word
  v : VOp
  s0 : Word
  /-- Elements per unit and latency. -/
  e : Nat
  l : Nat
  deriving DecidableEq, Repr

/-- Units per row. -/
def VCtx.upr (x : VCtx) : Nat := (x.cols + x.e - 1) / x.e

/-- Steps of the command (R179). -/
def VCtx.n (x : VCtx) : Nat := x.rows * x.upr

/-- Step of unit `k` of row `r`. -/
def VCtx.step (x : VCtx) (r k : Nat) : Word := x.s0 + BitVec.ofNat 64 (r * x.upr + k)

/-- Step from which the writes of a class W command are visible (R181). -/
def VCtx.wvis (x : VCtx) : Word := x.s0 + BitVec.ofNat 64 (x.n - 1 + x.l)

/-- The value V sees of a byte at a step (R181): newest visible write, going back over those not yet visible. -/
def vseeFrom (st : Word) (a : Nat) : List VHist → Byte → Byte
  | [], cur => cur
  | h :: hs, cur => if h.addr ≠ a then vseeFrom st a hs cur else if stepLe h.visible st then cur else vseeFrom st a hs h.old

/-- The writes that still matter from a step on: of each byte, those newer than its newest visible one. -/
def vLive (st : Word) : List Nat → List VHist → List VHist
  | _, [] => []
  | seen, h :: hs =>
    if seen.contains h.addr then vLive st seen hs
    else if stepLe h.visible st then vLive st (h.addr :: seen) hs
    else h :: vLive st seen hs

/-- Whether the newest V write of a byte is another command's and not visible at a step (R185, VLAT); `own` entries of the history
are the reading command's. -/
def vHidden (st : Word) (own a : Nat) (h : List VHist) : Bool :=
  !((h.take own).any fun x => x.addr == a) && (match h.find? fun x => x.addr == a with | some x => !stepLe x.visible st | none => false)

/-- Bytes V reads at a step, with the checks of R185 and R445. -/
def vRead (st : Word) (a n : Nat) : EM (List Byte) := do
  let k ← eCore
  let bs ← eRead a n
  let x ← get
  if k.pendchk.getLsbD 0 && k.pendchk.getLsbD 1 then
    match (List.range n).find? fun i => vHidden st (k.vhist.length - x.older) (a + i) k.vhist with
    | some i => efault Cause.pendingRead 0 (a + i)
    | none => pure ()
  else pure ()
  pure ((List.range n).map fun i => vseeFrom st (a + i) k.vhist (bs.getD i 0))

/-- V writes bytes visible to V from a step on (R181). -/
def vStore (vis : Word) (bytes : List (Nat × Byte)) : EM Unit := do
  let x ← get
  eTear 0 (bytes.map fun b => b.1 / 8).dedup
  eModCore fun k =>
    let k := bytes.foldl (fun k b => { (k.markRows x.e x.cmd.num b.1 1).spPut b.1 b.2 with vhist := ⟨b.1, k.spByte b.1, vis⟩ :: k.vhist }) k
    match bytes with
    | [] => k
    | b :: _ => k.ueClear b.1 bytes.length

/-- V writes consecutive bytes. -/
def vStoreAt (vis : Word) (a : Nat) (bs : List Byte) : EM Unit := vStore vis ((List.range bs.length).map fun i => (a + i, bs.getD i 0))

/-- Elements `c0` to `c0 + n` of row `r` of a pitched operand at a step. -/
def vEls (x : VCtx) (st : Word) (base w r c0 n : Nat) : EM (List Nat) := do
  let bs ← vRead st (base + r * x.pitch + c0 * w / 8) ((n * w + 7) / 8)
  pure (unpackEls w n bs)

/-! ## Modifiers and destination steps (R95, R177, R178) -/

/-- NEG and ABS on a decoded value. -/
def modify1 (neg abs : Bool) (v : FVal) : FVal :=
  let v := if abs then v.abs else v
  if neg then v.negate else v

/-- SCALE as a signed number. -/
def scaleOf (sc : BitVec 4) : Int := sc.toInt

/-- CLAMP on an exact value: NaN passes, −0 stays (R177). -/
def clampVal (c : BitVec 2) (v : FVal) : FVal :=
  let one (n : Bool) : FVal := .num n 1
  if c = 1 then
    match v with
    | .nan n => .nan n
    | .inf n => if n then .num false 0 else one false
    | .num n m => if m = 0 then v else if n then .num false 0 else if 1 < m then one false else v
  else if c = 2 then
    match v with
    | .nan n => .nan n
    | .inf n => one n
    | .num n m => if 1 < m then one n else v
  else v

/-- The destination steps: scale, clamp, one rounding (R177, R178). -/
def putVal (v : VOp) (fmt : Nat) (x : FVal) : Nat × Flags :=
  encodeFmt fmt (v.clamp == 3) (clampVal v.clamp (x.scale (scaleOf v.scale)))

/-- The FP32 pattern of an FP32-exact value, for SCALE beyond it: values are carried exactly. -/
def srcVal (v : VOp) (second : Bool) (fmt pat : Nat) : FVal × Flags :=
  let (x, f) := decodeFmt fmt pat
  (if second then modify1 v.neg2 v.abs2 x else modify1 v.neg1 v.abs1 x, f)

/-! ## Operand checks (R176) -/

/-- The checks of a V command before its first step: base alignment, then the command's own span checks, then extents, then overlap:
of a destination with a source or a list, one that the command writes among them (R176). -/
def vChecks (bases : List (Nat × Nat)) (spans : List (Bool × Nat × Nat)) (xs : List Extent) (noOverlap : Bool) : EM Unit := do
  bases.forM fun b => echeck (b.2 % 16 == 0) Cause.misalignedAccess 0 b.2
  spans.forM fun p => echeck p.1 Cause.tileSpan (opNo p.2.1) p.2.2
  extentChecks xs
  if noOverlap then
    xs.forM fun d => if d.dst then
        xs.forM fun y => if y.ix ≤ d.ix ∧ y.dst then pure () else echeck (!d.meets y) Cause.bankConflict (opNo d.ix) d.base
      else pure ()
  else pure ()

/-- Bytes of a row of `n` elements. -/
def rowLen (n w : Nat) : Nat := n * w / 8

/-- A pitched operand of `n` elements a row. -/
def VCtx.pit (x : VCtx) (ix base n w : Nat) (dst : Bool) : Extent := ⟨ix, base, x.rows, x.pitch, rowLen n w, dst⟩

/-- A list operand. -/
def lst (ix base bytes : Nat) (dst : Bool) : Extent := ⟨ix, base, 1, 0, bytes, dst⟩

/-- Row bytes whole and, for a destination, within the pitch (R175, R176). -/
def VCtx.span (x : VCtx) (ix base n w : Nat) (dst : Bool) : Bool × Nat × Nat :=
  (n * w % 8 == 0 && !(dst && decide (1 < x.rows) && decide (x.pitch < rowLen n w)), ix, base)

/-- Runs a unit function over every unit: row, first column, columns, step. -/
def VCtx.units (x : VCtx) (f : Nat → Nat → Nat → Word → EM Unit) : EM Unit :=
  (List.range x.rows).forM fun r => (List.range x.upr).forM fun k =>
    f r (k * x.e) (Min.min x.e (x.cols - k * x.e)) (x.step r k)

/-- Column-wise argument lists of equally long rows of patterns. -/
def zipArgs (n : Nat) (srcs : List (List Nat)) : List (List Nat) := (List.range n).map fun i => srcs.map fun s => s.getD i 0

/-- A class U element-wise command: sources (base, format), destination format, function of the patterns. -/
def VCtx.eltwise (x : VCtx) (srcs : List (Nat × Nat)) (dfmt : Nat) (f : List Nat → Nat × Flags) : EM Unit :=
  x.units fun r c0 n st => do
    let ins ← srcs.mapM fun p => vEls x st p.1 (fmtWidth p.2) r c0 n
    let outs ← (zipArgs n ins).mapM fun as => eVal (f as)
    let w := fmtWidth dfmt
    vStoreAt (st + BitVec.ofNat 64 x.l) (x.a + r * x.pitch + c0 * w / 8) (packEls w outs)

/-- Writes elements `c0` and on of row `r` for a class W command. -/
def VCtx.putRow (x : VCtx) (base r w : Nat) (es : List Nat) : EM Unit :=
  vStoreAt x.wvis (base + r * x.pitch) (packEls w es)

/-! ## Rounded steps -/

/-- A step of FP32 arithmetic rounded (R75, R177), or of INT32 arithmetic saturated (R178). -/
def stepRound (int : Bool) (v : FVal) : EM FVal := do
  if int then
    let (p, f) := encodeFmt 0xB true v
    eFlags f
    pure (FVal.ofInt (sintOf 32 p))
  else eVal (round32 v)

/-- An operation of a reduction: 0 sum, 1 product, 2 maximum, 3 minimum (R195). -/
def redOp (op : Nat) (int : Bool) (x y : FVal) : EM FVal := do
  match op with
  | 0 => stepRound int (← eVal (x.add .rne y))
  | 1 => stepRound int (← eVal (x.mul y))
  | 2 => pure (x.max y)
  | _ => pure (x.min y)

/-- One pass of pairs of R75. -/
def pairUp (op : FVal → FVal → EM FVal) : List FVal → EM (List FVal)
  | a :: b :: t => do
    let c ← op a b
    let r ← pairUp op t
    pure (c :: r)
  | l => pure l

/-- The tree of a chunk (R75). -/
def treeRed (op : FVal → FVal → EM FVal) : Nat → List FVal → EM FVal
  | 0, w => pure (w.headD (.num false 0))
  | fuel + 1, w => match w with
    | [] => pure (.num false 0)
    | [a] => pure a
    | w => do
      let w' ← pairUp op w
      treeRed op fuel w'

/-- Lists of `m` consecutive elements. -/
def chunksOf (m : Nat) : Nat → List FVal → List (List FVal)
  | 0, _ => []
  | fuel + 1, l => if l = [] then [] else l.take m :: chunksOf m fuel (l.drop m)

/-- The whole reduction of R75 with `m` elements to a chunk. -/
def chunkRed (op : FVal → FVal → EM FVal) (m : Nat) (l : List FVal) : EM FVal := do
  let cs ← (chunksOf m l.length l).mapM fun c => treeRed op 13 c
  match cs with
  | [] => pure (.num false 0)
  | c :: t => t.foldlM op c

/-- Row `r` of a source at the first step, decoded and modified. -/
def VCtx.rowVals (x : VCtx) (base fmt r : Nat) : EM (List FVal) := do
  let es ← vEls x x.s0 base (fmtWidth fmt) r 0 x.cols
  es.mapM fun p => eVal (srcVal x.v false fmt p)

/-! ## Commands -/

/-- A float or integer element-wise operation of R189 on the modified sources and, for vfma, the addend. -/
def arithOp (i : Instr) (x y z : FVal) : FVal × Flags :=
  match i with
  | .vadd _ => x.add .rne y
  | .vsub _ => x.add .rne y.negate
  | .vmul _ => x.mul y
  | .vfma _ => FVal.fma .rne x y z
  | .vmax _ => (x.max y, 0)
  | _ => (x.min y, 0)

/-- The sum of integers whose exact zero is +0. -/
def VCtx.arith (x : VCtx) (i : Instr) : EM Unit := do
  let f := x.v.fmt.toNat
  let w := fmtWidth f
  vChecks [(0, x.a), (1, x.b), (2, x.c)] [x.span 0 x.a x.cols w true, x.span 1 x.b x.cols w false, x.span 2 x.c x.cols w false]
    [x.pit 0 x.a x.cols w true, x.pit 1 x.b x.cols w false, x.pit 2 x.c x.cols w false] false
  let fma := match i with | .vfma _ => true | _ => false
  x.eltwise ([(x.b, f), (x.c, f)] ++ (if fma then [(x.a, f)] else [])) f fun as =>
    let (p, f1) := srcVal x.v false f (as.getD 0 0)
    let (q, f2) := srcVal x.v true f (as.getD 1 0)
    let (z, f3) := if fma then decodeFmt f (as.getD 2 0) else (.num false 0, 0)
    let (r, f4) := arithOp i p q z
    let (o, f5) := putVal x.v f r
    (o, f1 ||| f2 ||| f3 ||| f4 ||| f5)

/-- vlog (R190). -/
def logBits (table w a b : Nat) : Nat :=
  (List.range w).foldl (fun r i =>
    let k := 2 * (if a.testBit i then 1 else 0) + (if b.testBit i then 1 else 0)
    if table.testBit k then r + 2 ^ i else r) 0

/-- vsh (R190). -/
def shiftBits (kind w x amt : Nat) : Nat :=
  let n := amt % w
  match kind with
  | 0 => x * 2 ^ n % 2 ^ w
  | 1 => x / 2 ^ n
  | 2 => intBits w (sintOf w x / ((2 ^ n : Nat) : Int))
  | _ => (x * 2 ^ n % 2 ^ w) + x / 2 ^ (w - n)

/-- A condition of vcmp (R191). -/
def vcmpCond (cc : Nat) (x y : FVal) : Bool :=
  let un := x.isNan || y.isNan
  match cc with
  | 0 => x.eqv y
  | 1 => un || !x.eqv y
  | 2 => x.lt y
  | 3 => !un && !y.lt x
  | 4 => y.lt x
  | 5 => !un && !x.lt y
  | _ => un

def VCtx.vlog (x : VCtx) : EM Unit := do
  let f := x.v.fmt.toNat
  let w := fmtWidth f
  vChecks [(0, x.a), (1, x.b), (2, x.c)] [x.span 0 x.a x.cols w true]
    [x.pit 0 x.a x.cols w true, x.pit 1 x.b x.cols w false, x.pit 2 x.c x.cols w false] false
  x.eltwise [(x.b, f), (x.c, f)] f fun as => (logBits (x.v.sub.toNat % 16) w (as.getD 0 0) (as.getD 1 0), 0)

def VCtx.vsh (x : VCtx) : EM Unit := do
  let f := x.v.fmt.toNat
  let w := fmtWidth f
  vChecks [(0, x.a), (1, x.b), (2, x.c)] [x.span 0 x.a x.cols w true]
    [x.pit 0 x.a x.cols w true, x.pit 1 x.b x.cols w false, x.pit 2 x.c x.cols w false] false
  x.eltwise [(x.b, f), (x.c, f)] f fun as => (shiftBits (x.v.sub.toNat % 4) w (as.getD 0 0) (as.getD 1 0), 0)

def VCtx.vcmp (x : VCtx) : EM Unit := do
  let f := x.v.fmt.toNat
  let w := fmtWidth f
  vChecks [(0, x.a), (1, x.b), (2, x.c)] [x.span 0 x.a x.cols 8 true]
    [x.pit 0 x.a x.cols 8 true, x.pit 1 x.b x.cols w false, x.pit 2 x.c x.cols w false] false
  x.eltwise [(x.b, f), (x.c, f)] 0xD fun as =>
    (if vcmpCond x.v.sub.toNat (srcVal x.v false f (as.getD 0 0)).1 (srcVal x.v true f (as.getD 1 0)).1 then 1 else 0, 0)

/-- vsel writes only the selected elements (R191). -/
def VCtx.vsel (x : VCtx) : EM Unit := do
  let f := x.v.fmt.toNat
  let w := fmtWidth f
  vChecks [(0, x.a), (1, x.b), (2, x.c)] [x.span 0 x.a x.cols w true]
    [x.pit 0 x.a x.cols w true, x.pit 1 x.b x.cols w false, x.pit 2 x.c x.cols 8 false] false
  x.units fun r c0 n st => do
    let src ← vEls x st x.b w r c0 n
    let mask ← vEls x st x.c 8 r c0 n
    (List.range n).forM fun i =>
      if mask.getD i 0 = 0 then pure ()
      else vStoreAt (st + BitVec.ofNat 64 x.l) (x.a + r * x.pitch + (c0 + i) * w / 8) (packEls w [src.getD i 0])

def VCtx.vsfu (x : VCtx) : EM Unit := do
  let f := x.v.fmt.toNat
  let w := fmtWidth f
  vChecks [(0, x.a), (1, x.b)] [x.span 0 x.a x.cols w true] [x.pit 0 x.a x.cols w true, x.pit 1 x.b x.cols w false] false
  x.eltwise [(x.b, f)] f fun as =>
    let (p, f1) := srcVal x.v false f (as.getD 0 0)
    let (r, f2) := sfu (Sfu.ofCode (x.v.sub.toNat % 16)) p
    let (o, f3) := putVal x.v f r
    (o, f1 ||| f2 ||| f3)

def VCtx.vcvt (x : VCtx) : EM Unit := do
  let f := x.v.fmt.toNat
  let g := x.v.sub.toNat % 16
  vChecks [(0, x.a), (1, x.b)] [x.span 0 x.a x.cols (fmtWidth f) true, x.span 1 x.b x.cols (fmtWidth g) false]
    [x.pit 0 x.a x.cols (fmtWidth f) true, x.pit 1 x.b x.cols (fmtWidth g) false] false
  x.eltwise [(x.b, g)] f fun as =>
    let (p, f1) := srcVal x.v false g (as.getD 0 0)
    let (o, f2) := putVal x.v f p
    (o, f1 ||| f2)

/-- vred (R195): a chunk of R75 is 1024 / w elements counted from the row's first (log 94). -/
def VCtx.vred (x : VCtx) : EM Unit := do
  let f := x.v.fmt.toNat
  let w := fmtWidth f
  let int := isIntFmt f
  let op := x.v.sub.toNat % 4
  let col := x.v.sub.toNat.testBit 2
  let d : Extent := if col then lst 0 x.a (rowLen x.cols w) true else x.pit 0 x.a 1 w true
  vChecks [(0, x.a), (1, x.b)] (if col then [] else [x.span 0 x.a 1 w true]) [d, x.pit 1 x.b x.cols w false] true
  let rows ← (List.range x.rows).mapM fun r => x.rowVals x.b f r
  if col then
    let outs ← (List.range x.cols).mapM fun c => do
      let vs := rows.map fun row => row.getD c (.num false 0)
      let acc ← (vs.drop 1).foldlM (fun a y => do
        let z ← redOp op int a y
        if int then pure z else eVal (round32 z)) (vs.headD (.num false 0))
      eVal (putVal x.v f acc)
    x.putRow x.a 0 w outs
  else
    rows.zipIdx.forM fun p => do
      let z ← chunkRed (redOp op int) (1024 / w) p.1
      let o ← eVal (putVal x.v f z)
      x.putRow x.a p.2 w [o]

/-- vbcast (R194). -/
def VCtx.vbcast (x : VCtx) : EM Unit := do
  let f := x.v.fmt.toNat
  let w := fmtWidth f
  let d := x.pit 0 x.a x.cols w true
  match x.v.sub.toNat % 4 with
  | 0 => do
    vChecks [(0, x.a), (1, x.b)] [x.span 0 x.a x.cols w true] [d, lst 1 x.b (rowLen x.cols w) false] false
    x.units fun r c0 n st => do
      let es ← vEls x st x.b w 0 c0 n
      vStoreAt (st + BitVec.ofNat 64 x.l) (x.a + r * x.pitch + c0 * w / 8) (packEls w es)
  | 1 => do
    vChecks [(0, x.a), (1, x.b)] [x.span 0 x.a x.cols w true] [d, x.pit 1 x.b 1 w false] false
    x.units fun r c0 n st => do
      let es ← vEls x st x.b w r 0 1
      vStoreAt (st + BitVec.ofNat 64 x.l) (x.a + r * x.pitch + c0 * w / 8) (packEls w (List.replicate n (es.getD 0 0)))
  | _ => do
    vChecks [(0, x.a)] [x.span 0 x.a x.cols w true] [d] false
    x.units fun r c0 n st =>
      vStoreAt (st + BitVec.ofNat 64 x.l) (x.a + r * x.pitch + c0 * w / 8) (packEls w (List.replicate n (x.cw.toNat % 2 ^ w)))

/-- vtrn (R194). -/
def VCtx.vtrn (x : VCtx) : EM Unit := do
  let w := fmtWidth x.v.fmt.toNat
  let d : Extent := ⟨0, x.a, x.cols, x.pitch, rowLen x.rows w, true⟩
  vChecks [(0, x.a), (1, x.b)] [(!(decide (1 < x.cols) && decide (x.pitch < rowLen x.rows w)), 0, x.a)]
    [d, x.pit 1 x.b x.cols w false] true
  let rows ← (List.range x.rows).mapM fun r => vEls x x.s0 x.b w r 0 x.cols
  (List.range x.cols).forM fun c => x.putRow x.a c w (rows.map fun row => row.getD c 0)

/-- vpart (R199). -/
def VCtx.vpart (x : VCtx) : EM Unit := do
  let nb := x.c
  let n := x.rows * x.cols
  echeck (x.a % 16 == 0) Cause.misalignedAccess 0 x.a
  echeck (x.b % 16 == 0) Cause.misalignedAccess 0 x.b
  echeck (decide (1 ≤ nb ∧ nb ≤ 4096)) Cause.tileSpan (opNo 2) nb
  vChecks [] [] [lst 0 x.a (4 * (nb + 1 + n)) true, x.pit 1 x.b x.cols 32 false] true
  let rows ← (List.range x.rows).mapM fun r => vEls x x.s0 x.b 32 r 0 x.cols
  let keys := rows.flatten.zipIdx
  let buckets := (List.range nb).map fun b => (keys.filter fun e => e.1 == b).map (·.2)
  let offs := buckets.foldl (fun (l : List Nat) b => l ++ [l.getLastD 0 + b.length]) [0]
  vStoreAt x.wvis x.a (packEls 32 (offs ++ buckets.flatten))

/-- The INT32 index list of a gather or scatter (R203). -/
def VCtx.idxs (x : VCtx) : EM (List Int) := do
  let bs ← vRead x.s0 x.c (4 * x.rows)
  pure ((unpackEls 32 x.rows bs).map (sintOf 32))

/-- vgath and vscat (R203). -/
def VCtx.vgs (x : VCtx) (scat : Bool) : EM Unit := do
  let w := fmtWidth x.v.fmt.toNat
  let rb := rowLen x.cols w
  let il := lst 2 x.c (4 * x.rows) false
  let fixd : Extent := if scat then x.pit 1 x.b x.cols w false else x.pit 0 x.a x.cols w true
  let tb := if scat then x.a else x.b
  let tix := if scat then 0 else 1
  vChecks [(0, x.a), (1, x.b), (2, x.c)] [x.span fixd.ix fixd.base x.cols w (!scat)] [fixd, il] true
  let ids ← x.idxs
  ids.zipIdx.forM fun p =>
    let i := p.2
    if p.1 = -1 then (if scat then pure () else vStoreAt x.wvis (x.a + i * x.pitch) (List.replicate rb 0))
    else if p.1 < 0 then efault Cause.tileSpan (opNo 2) (intBits 64 p.1)
    else do
      let row : Extent := lst tix (tb + p.1.toNat * x.pitch) rb scat
      extentChecks [row]
      echeck (!(row.meets fixd) && !(row.meets il)) Cause.bankConflict (opNo tix) row.base
      if scat then
        let bs ← vRead x.s0 (x.b + i * x.pitch) rb
        vStoreAt x.wvis row.base bs
      else
        let bs ← vRead x.s0 row.base rb
        vStoreAt x.wvis (x.a + i * x.pitch) bs

/-- Bytes of global memory read through the table cache, line by line (R152, R204). -/
def State.tcGather (s : State) (c : Nat) (sp : Space3) : Nat → Word → Nat → Except Trap (List Byte × State)
  | 0, _, _ => .ok ([], s)
  | fuel + 1, va, n =>
    if n = 0 then .ok ([], s)
    else
      let m := Min.min n (128 - va.toNat % 128)
      match s.gcheck c (dieOf c) sp va 1 .rd with
      | .error t => .error t
      | .ok (l, s) =>
        match s.tcRead c (l.pa va.toNat) m (pteKid l.e) (pteCh l.e) va with
        | .error t => .error t
        | .ok ((bs, _), s) =>
          match s.tcGather c sp fuel (va + BitVec.ofNat 64 m) (n - m) with
          | .error t => .error t
          | .ok (rest, s) => .ok (bs ++ rest, s)

/-- Whether a cause is poison met by a read (R205, R268). -/
def isPoison (t : Trap) : Bool := t.cause == Cause.poisonConsumed || t.cause == Cause.cxlPoison

/-- vgathm (R204, R205). -/
def VCtx.vgathm (x : VCtx) : EM Unit := do
  let w := fmtWidth x.v.fmt.toNat
  let rb := rowLen x.cols w
  vChecks [(0, x.a), (1, x.b), (2, x.c)] [x.span 0 x.a x.cols w true]
    [x.pit 0 x.a x.cols w true, lst 1 x.b 16 false, lst 2 x.c (4 * x.rows) false] true
  let d ← vRead x.s0 x.b 16
  let base := le (d.take 8)
  let gp := le ((d.drop 8).take 4)
  let nr := le ((d.drop 12).take 4)
  echeck (base % 16 == 0) Cause.misalignedAccess 0 base
  echeck (gp % 16 == 0) Cause.misalignedAccess 0 gp
  let ids ← x.idxs
  let sp ← eSpace
  ids.zipIdx.forM fun p => do
    let i := p.2
    let zero : EM Unit := vStoreAt x.wvis (x.a + i * x.pitch) (List.replicate rb 0)
    if p.1 = -1 then zero
    else if p.1 < 0 ∨ (nr : Int) ≤ p.1 then efault Cause.tileSpan (opNo 2) (intBits 64 p.1)
    else
      let va := BitVec.ofNat 64 (base + p.1.toNat * gp)
      let y ← get
      match y.s.tcGather y.c sp (rb / 128 + 2) va rb with
      | .ok (bs, s) =>
        set { y with s := s }
        vStoreAt x.wvis (x.a + i * x.pitch) bs
      | .error t =>
        if x.v.sub.getLsbD 0 && isPoison t then
          modify fun z => { z with s := z.s.poisonSeen y.c sp t, com := { z.com with repl := z.com.repl ++ [(i, intBits 32 p.1, va.toNat)] } }
          zero
        else throw t

/-- Running values of a scan (R196). -/
def scanFrom (op : FVal → FVal → EM FVal) (y : FVal) : List FVal → EM (List FVal)
  | [] => pure []
  | v :: vs => do
    let z ← op y v
    let r ← scanFrom op z vs
    pure (z :: r)

/-- vscan (R196). -/
def VCtx.vscan (x : VCtx) : EM Unit := do
  let f := x.v.fmt.toNat
  let w := fmtWidth f
  let int := isIntFmt f
  let op := match x.v.sub.toNat % 4 with | 0 => 0 | 1 => 2 | _ => 3
  let ident : FVal := match op with
    | 0 => .num false 0
    | 2 => if int then FVal.ofInt (-2147483648) else .inf true
    | _ => if int then FVal.ofInt 2147483647 else .inf false
  vChecks [(0, x.a), (1, x.b)] [x.span 0 x.a x.cols w true] [x.pit 0 x.a x.cols w true, x.pit 1 x.b x.cols w false] true
  let rows ← (List.range x.rows).mapM fun r => x.rowVals x.b f r
  rows.zipIdx.forM fun p => do
    let y := p.1.headD (.num false 0)
    let rest ← scanFrom (redOp op int) y (p.1.drop 1)
    let outs := y :: rest
    let outs := if x.v.sub.getLsbD 2 then ident :: outs.dropLast else outs
    let es ← outs.mapM fun o => eVal (putVal x.v f o)
    x.putRow x.a p.2 w es

/-- viota (R201). -/
def VCtx.viota (x : VCtx) : EM Unit := do
  let f := x.v.fmt.toNat
  let w := fmtWidth f
  vChecks [(0, x.a)] [x.span 0 x.a x.cols w true] [x.pit 0 x.a x.cols w true] false
  x.units fun r c0 n st => do
    let es ← (List.range n).mapM fun i =>
      let k : FVal := FVal.ofInt (((r * x.cols + c0 + i : Nat)) : Int)
      let dec (p : Word) : FVal := (decodeFmt (if isIntFmt f then 0xB else 0) (p.toNat % 2 ^ 32)).1
      let (v, f1) := FVal.fma .rne (dec x.cw) k (dec x.bw)
      let (o, f2) := putVal x.v f v
      eVal (o, f1 ||| f2)
    vStoreAt (st + BitVec.ofNat 64 x.l) (x.a + r * x.pitch + c0 * w / 8) (packEls w es)

/-- Order of vtopk: largest first, NaN last, ties in ascending column (R198). -/
def topkBefore (x y : FVal × Nat) : Bool :=
  if x.1.isNan then y.1.isNan && decide (x.2 ≤ y.2)
  else if y.1.isNan then true
  else if y.1.below x.1 then true
  else if x.1.below y.1 then false
  else decide (x.2 ≤ y.2)

/-- vtopk (R198). -/
def VCtx.vtopk (x : VCtx) : EM Unit := do
  let f := x.v.fmt.toNat
  let w := fmtWidth f
  let k := x.c
  let val := x.v.sub.getLsbD 0
  let dw := if val then w else 32
  echeck (x.a % 16 == 0) Cause.misalignedAccess 0 x.a
  echeck (x.b % 16 == 0) Cause.misalignedAccess 0 x.b
  echeck (decide (k ≤ x.cols ∧ k ≤ 256)) Cause.tileSpan (opNo 2) k
  vChecks [] [(!(decide (1 < x.rows) && decide (x.pitch < rowLen k dw)), 0, x.a)]
    [x.pit 0 x.a k dw true, x.pit 1 x.b x.cols w false] true
  let rows ← (List.range x.rows).mapM fun r => vEls x x.s0 x.b w r 0 x.cols
  if k = 0 then pure ()
  else rows.zipIdx.forM fun p =>
    let vs := (p.1.map fun q => (srcVal x.v false f q).1).zipIdx
    let top := (sortBy topkBefore vs).take k
    x.putRow x.a p.2 dw (top.map fun t => if val then (encodeFmt f false t.1).1 else t.2)

/-- vnorm (R197), its chunks counted as those of vred (log 94). -/
def VCtx.vnorm (x : VCtx) : EM Unit := do
  let f := x.v.fmt.toNat
  let w := fmtWidth f
  let m := 1024 / w
  let kind := x.v.sub.toNat % 4
  vChecks [(0, x.a), (1, x.b)] [x.span 0 x.a x.cols w true] [x.pit 0 x.a x.cols w true, x.pit 1 x.b x.cols w false] true
  let sum (l : List FVal) : EM FVal := chunkRed (redOp 0 false) m l
  let n : FVal := FVal.ofInt (x.cols : Int)
  let rows ← (List.range x.rows).mapM fun r => x.rowVals x.b f r
  rows.zipIdx.forM fun p => do
    let outs ← (if kind = 2 then do
        let mx := p.1.foldl (fun (a : FVal) v => FVal.max a v) (FVal.nan false)
        let es ← p.1.mapM fun v => do
          let d ← eVal (v.add .rne mx.negate)
          let d ← eVal (round32 d)
          let q ← eVal (sfu .exp2 d)
          eVal (round32 q)
        let tot ← sum es
        es.mapM fun e => eVal (e.div tot)
      else do
        let xs ← (if kind = 1 then do
            let t ← sum p.1
            let q ← eVal (t.div n)
            let mu ← eVal (round32 q)
            p.1.mapM fun v => do
              let d ← eVal (v.add .rne mu.negate)
              eVal (round32 d)
          else pure p.1)
        let sq ← xs.mapM fun v => do
          let q ← eVal (v.mul v)
          eVal (round32 q)
        let q ← sum sq
        let q ← eVal (q.div n)
        let q ← eVal (round32 q)
        let t ← eVal (q.add .rne (fp32.decode (x.cw.toNat % 2 ^ 32)))
        let t ← eVal (round32 t)
        let r ← eVal (sfu .rsqrt t)
        let sc ← eVal (round32 r)
        xs.mapM fun v => eVal (v.mul sc))
    let es ← outs.mapM fun o => eVal (putVal x.v f o)
    x.putRow x.a p.2 w es

/-- The generator of vrng (R202). -/
def rngWord (key ctr : Word) (n : Nat) : Word :=
  let z := key + (ctr + BitVec.ofNat 64 n + 1) * 0x9E3779B97F4A7C15
  let z := (z ^^^ (z >>> 30)) * 0xBF58476D1CE4E5B9
  let z := (z ^^^ (z >>> 27)) * 0x94D049BB133111EB
  z ^^^ (z >>> 31)

def VCtx.vrng (x : VCtx) : EM Unit := do
  let f := x.v.fmt.toNat
  let w := fmtWidth f
  vChecks [(0, x.a)] [x.span 0 x.a x.cols w true] [x.pit 0 x.a x.cols w true] false
  x.units fun r c0 n st => do
    let es ← (List.range n).mapM fun i =>
      let z := (rngWord x.bw x.cw (r * x.cols + c0 + i)).toNat
      if x.v.sub.getLsbD 0 then pure (z % 2 ^ 32)
      else eVal (putVal x.v f (.num false (mkRat ((z / 2 ^ 40 : Nat) : Int) (2 ^ 24))))
    vStoreAt (st + BitVec.ofNat 64 x.l) (x.a + r * x.pitch + c0 * w / 8) (packEls w es)

/-- Bytes of the scale list of vquant and vdeq (R206). -/
def VCtx.scaleBytes (x : VCtx) (row : Bool) : Nat := if row then 4 * x.rows else x.rows * (x.cols / 32)

/-- vquant (R206). -/
def VCtx.vquant (x : VCtx) : EM Unit := do
  let f := x.v.fmt.toNat
  let g := x.v.sub.toNat % 16
  let row := x.v.sub.getLsbD 4
  let w := fmtWidth f
  vChecks [(0, x.a), (1, x.b), (2, x.c)]
    [x.span 0 x.a x.cols w true, (row || x.cols % 32 == 0, 0, x.a)]
    [x.pit 0 x.a x.cols w true, x.pit 1 x.b x.cols (fmtWidth g) false, lst 2 x.c (x.scaleBytes row) (!row)] true
  let rows ← (List.range x.rows).mapM fun r => x.rowVals x.b g r
  if row then
    let ss ← vRead x.s0 x.c (4 * x.rows)
    rows.zipIdx.forM fun p => do
      let sc := (unpackEls 32 x.rows ss).getD p.2 0
      let es ← p.1.mapM fun v => eVal (encodeFmt f (x.v.clamp == 3) (rowQuot sc v))
      x.putRow x.a p.2 w es
  else
    rows.zipIdx.forM fun p => (List.range (x.cols / 32)).forM fun b => do
      let (sc, es, fl) := blockEncode f false ((p.1.drop (32 * b)).take 32)
      eFlags fl
      vStoreAt x.wvis (x.a + p.2 * x.pitch + 32 * b * w / 8) (packEls w es)
      vStoreAt x.wvis (x.c + p.2 * (x.cols / 32) + b) (toLe 1 sc)

/-- vdeq (R207). -/
def VCtx.vdeq (x : VCtx) : EM Unit := do
  let f := x.v.fmt.toNat
  let g := x.v.sub.toNat % 16
  let row := x.v.sub.getLsbD 4
  let w := fmtWidth f
  vChecks [(0, x.a), (1, x.b), (2, x.c)]
    [x.span 0 x.a x.cols (fmtWidth g) true, x.span 1 x.b x.cols w false, (row || x.cols % 32 == 0, 1, x.b)]
    [x.pit 0 x.a x.cols (fmtWidth g) true, x.pit 1 x.b x.cols w false, lst 2 x.c (x.scaleBytes row) false] true
  let rows ← (List.range x.rows).mapM fun r => vEls x x.s0 x.b w r 0 x.cols
  let ss ← vRead x.s0 x.c (x.scaleBytes row)
  rows.zipIdx.forM fun p => do
    let es ← p.1.zipIdx.mapM fun q => do
      let v ← eVal (decodeFmt f q.1)
      let u ← (if row then eVal (rowScaled ((unpackEls 32 x.rows ss).getD p.2 0) v)
        else pure (blockScaled ((ss.getD (p.2 * (x.cols / 32) + q.2 / 32) 0).toNat) v))
      eVal (putVal x.v g u)
    x.putRow x.a p.2 (fmtWidth g) es

/-- Cumulative sums of vsample (R200). -/
def cumSums (c : FVal) : List FVal → List FVal
  | [] => []
  | p :: ps => let d := (round32 (c.add .rne p).1).1; d :: cumSums d ps

/-- vsample (R200); it sets no flag. -/
def VCtx.vsample (x : VCtx) : EM Unit := do
  let f := x.v.fmt.toNat
  let w := fmtWidth f
  vChecks [(0, x.a), (1, x.b), (2, x.c)] [] [lst 0 x.a (4 * x.rows) true, x.pit 1 x.b x.cols w false, lst 2 x.c (4 * x.rows) false] true
  let us ← vRead x.s0 x.c (4 * x.rows)
  let rows ← (List.range x.rows).mapM fun r => vEls x x.s0 x.b w r 0 x.cols
  rows.zipIdx.forM fun q =>
    let u : FVal := match fp32.decode ((unpackEls 32 x.rows us).getD q.2 0) with
      | .num n m => if n then .num false 0 else if 1 ≤ m then .num false (1 - pow2 (-24)) else .num false m
      | .inf n => if n then .num false 0 else .num false (1 - pow2 (-24))
      | .nan _ => .num false 0
    let ps := q.1.map fun e => match (decodeFmt f e).1 with
      | .num n m => if n then FVal.num false 0 else .num false m
      | _ => .num false 0
    let cm := cumSums (.num false 0) ps
    let t := (round32 (u.mul (cm.getLastD (.num false 0))).1).1
    let hit := (cm.zipIdx.find? fun e => t.lt e.1).map (·.2)
    let last := (ps.zipIdx.filter fun e => !e.1.isZero).getLast?.map (·.2)
    let out := match hit, last with
      | some c, _ => c
      | none, some c => c
      | none, none => 2 ^ 32 - 1
    vStoreAt x.wvis (x.a + 4 * q.2) (toLe 4 out)

/-- vmovg (R194). -/
def VCtx.vmovg (x : VCtx) : EM Unit := do
  let d := x.v.sub.getLsbD 0
  let n := if d then 8 else 16
  echeck (x.a % n == 0) Cause.misalignedAccess 0 x.a
  vChecks [] [] [lst 0 x.a n true] false
  vStoreAt (x.s0 + BitVec.ofNat 64 x.l) x.a (toLe 8 x.bw.toNat ++ (if d then [] else toLe 8 x.cw.toNat))

/-- Appends rows of a tile to a FIFO bank from row `r` on, as many as fit; answers the row it stopped at (R194, R210). -/
def VCtx.appendRows (x : VCtx) (bank rb : Nat) : Nat → Nat → EM Nat
  | 0, r => pure r
  | fuel + 1, r => do
    let k ← eCore
    if x.rows ≤ r then pure r
    else if ringSize < (k.ring bank).length + rb then pure r
    else
      let bs ← (List.range x.upr).mapM fun j => do
        let c0 := j * x.e
        let n := Min.min x.e (x.cols - c0)
        let w := fmtWidth x.v.fmt.toNat
        vRead (x.step r j) (x.b + r * x.pitch + c0 * w / 8) ((n * w + 7) / 8)
      eModCore fun k => k.ringPut bank bs.flatten
      x.appendRows bank rb fuel (r + 1)

/-- vcopy (R194); a row that does not fit the ring waits with the command's progress kept. -/
def VCtx.vcopy (x : VCtx) : EM Unit := do
  let w := fmtWidth x.v.fmt.toNat
  if x.v.sub.getLsbD 0 then
    let bank := x.a % 32
    let y ← get
    let start ← (match y.cmd.prog with
      | .rows n _ => pure n
      | _ => do
        echeck (x.b % 16 == 0) Cause.misalignedAccess 0 x.b
        echeck (x.cols * w % 8 == 0) Cause.tileSpan (opNo 1) x.b
        echeck (decide ((x.pit 1 x.b x.cols w false).stop ≤ 2 ^ 21)) Cause.tileSpan (opNo 1) x.b
        echeck (x.a / 32 == 0) Cause.scratchpadRange 0 x.a
        let k ← eCore
        echeck (k.budget.getLsbD bank) Cause.scratchpadRange 0 x.a
        echeck ((x.pit 1 x.b x.cols w false).banks.all fun b => k.budget.getLsbD b) Cause.scratchpadRange 0 x.b
        echeck (k.mode bank == .fifo) Cause.fifoBankMode 0 bank
        echeck ((x.pit 1 x.b x.cols w false).banks.all fun b => k.mode b == .scratch) Cause.bankModeViolation 0 x.b
        pure 0)
    let r ← x.appendRows bank (rowLen x.cols w) x.rows start
    modify fun z => { z with cmd := { z.cmd with prog := if r < x.rows then .rows r x.s0.toNat else .none } }
  else
    vChecks [(0, x.a), (1, x.b)] [x.span 0 x.a x.cols w true]
      [x.pit 0 x.a x.cols w true, x.pit 1 x.b x.cols w false] false
    x.eltwise [(x.b, x.v.fmt.toNat)] x.v.fmt.toNat fun as => (as.getD 0 0, 0)

/-- Latency of a V command (R188). -/
def vLatency : Instr → Nat
  | .vfma _ => 6
  | .vlog _ | .vsh _ | .vsel _ | .vbcast _ | .viota _ | .vmovg _ | .vcopy _ => 2
  | .vsfu _ => 12
  | .vred _ | .vpart _ | .vscan _ | .vtopk _ | .vquant _ | .vsample _ => 8
  | .vnorm _ => 16
  | _ => 4

/-- Operands of a V instruction. -/
def vopOf : Instr → Option VOp
  | .vadd v | .vsub v | .vmul v | .vfma v | .vmax v | .vmin v | .vlog v | .vsh v | .vcmp v | .vsel v | .vsfu v => some v
  | .vcvt v | .vred v | .vbcast v | .vtrn v | .vpart v | .vgath v | .vscat v | .vgathm v | .vscan v | .viota v => some v
  | .vtopk v | .vnorm v | .vrng v | .vquant v | .vdeq v | .vsample v | .vmovg v | .vcopy v => some v
  | _ => none

/-- Width of the widest format among the pitched operands (R179). -/
def vWidest (i : Instr) (v : VOp) : Nat :=
  let f := fmtWidth v.fmt.toNat
  match i with
  | .vcvt _ | .vquant _ | .vdeq _ => Max.max f (fmtWidth (v.sub.toNat % 16))
  | .vtopk _ => if v.sub.getLsbD 0 then f else 32
  | .vpart _ => 32
  | _ => f

/-- What a V command executes. -/
def VCtx.body (x : VCtx) (i : Instr) : EM Unit :=
  match i with
  | .vlog _ => x.vlog
  | .vsh _ => x.vsh
  | .vcmp _ => x.vcmp
  | .vsel _ => x.vsel
  | .vsfu _ => x.vsfu
  | .vcvt _ => x.vcvt
  | .vred _ => x.vred
  | .vbcast _ => x.vbcast
  | .vtrn _ => x.vtrn
  | .vpart _ => x.vpart
  | .vgath _ => x.vgs false
  | .vscat _ => x.vgs true
  | .vgathm _ => x.vgathm
  | .vscan _ => x.vscan
  | .viota _ => x.viota
  | .vtopk _ => x.vtopk
  | .vnorm _ => x.vnorm
  | .vrng _ => x.vrng
  | .vquant _ => x.vquant
  | .vdeq _ => x.vdeq
  | .vsample _ => x.vsample
  | .vmovg _ => x.vmovg
  | .vcopy _ => x.vcopy
  | i => x.arith i

/-- The context of a V command that starts at step `s0` (R175, R179, R188). -/
def vctx (cmd : Cmd) (v : VOp) (s0 : Word) : VCtx :=
  let mov := match cmd.instr with | .vmovg _ => true | _ => false
  { cols := if mov then 1 else shCols cmd.tshape, rows := if mov then 1 else shRows cmd.tshape, pitch := shPitch cmd.tshape,
    a := cmd.a.toNat, b := cmd.b.toNat, c := cmd.c.toNat, bw := cmd.b, cw := cmd.c, v := v, s0 := s0,
    e := unitEls (vWidest cmd.instr v), l := vLatency cmd.instr }

/-- Runs the head command of V from its first step, or on from where it waits for space (R179 to R181). -/
def runVector (v : VOp) : EM Unit := do
  let y ← get
  let k := y.s.core y.c
  match y.cmd.prog with
  | .rows _ s0 => do
    set { y with older := k.vhist.length }
    (vctx y.cmd v (BitVec.ofNat 64 s0)).body y.cmd.instr
  | _ =>
    let s0 := if (tokOf y.cmd.instr).pop ≠ 0 then laterStep k.vstep k.vvis else k.vstep
    let x := vctx y.cmd v s0
    eModCore fun k => { k with vhist := vLive s0 [] k.vhist }
    modify fun z => { z with older := (z.s.core z.c).vhist.length }
    x.body y.cmd.instr
    eModCore fun k => { k with vstep := s0 + BitVec.ofNat 64 x.n, vvis := laterStep k.vvis x.wvis }

/-! ## vshape (R174) -/

def execVshape (d a b c : Reg) (s : State) : Out :=
  let x := s.rd a
  let y := s.rd b
  let z := s.rd c
  let bad (v : Word) : Bool := v = 0 || decide (4096 < v.toNat)
  if bad x then .next (s.takeTrap ⟨Cause.tileSpan, 1, x⟩)
  else if bad y then .next (s.takeTrap ⟨Cause.tileSpan, 2, y⟩)
  else if z.toNat % 16 ≠ 0 ∨ 65520 < z.toNat then .next (s.takeTrap ⟨Cause.tileSpan, 3, z⟩)
  else
    let w : Word := BitVec.ofNat 64 (z.toNat / 16 * 2 ^ 24 + (y.toNat - 1) * 2 ^ 12 + (x.toNat - 1))
    alu 1 d w (s.modIss fun i => { i with sysw := i.sysw ++ [(3, w)] })

/-! ## Issue of the V instructions (R23, R188) -/

def execVadd (v : VOp) (s : State) : Out := enqueue (.vadd v) s
def execVsub (v : VOp) (s : State) : Out := enqueue (.vsub v) s
def execVmul (v : VOp) (s : State) : Out := enqueue (.vmul v) s
def execVfma (v : VOp) (s : State) : Out := enqueue (.vfma v) s
def execVmax (v : VOp) (s : State) : Out := enqueue (.vmax v) s
def execVmin (v : VOp) (s : State) : Out := enqueue (.vmin v) s
def execVlog (v : VOp) (s : State) : Out := enqueue (.vlog v) s
def execVsh (v : VOp) (s : State) : Out := enqueue (.vsh v) s
def execVcmp (v : VOp) (s : State) : Out := enqueue (.vcmp v) s
def execVsel (v : VOp) (s : State) : Out := enqueue (.vsel v) s
def execVsfu (v : VOp) (s : State) : Out := enqueue (.vsfu v) s
def execVcvt (v : VOp) (s : State) : Out := enqueue (.vcvt v) s
def execVred (v : VOp) (s : State) : Out := enqueue (.vred v) s
def execVbcast (v : VOp) (s : State) : Out := enqueue (.vbcast v) s
def execVtrn (v : VOp) (s : State) : Out := enqueue (.vtrn v) s
def execVpart (v : VOp) (s : State) : Out := enqueue (.vpart v) s
def execVgath (v : VOp) (s : State) : Out := enqueue (.vgath v) s
def execVscat (v : VOp) (s : State) : Out := enqueue (.vscat v) s
def execVgathm (v : VOp) (s : State) : Out := enqueue (.vgathm v) s
def execVscan (v : VOp) (s : State) : Out := enqueue (.vscan v) s
def execViota (v : VOp) (s : State) : Out := enqueue (.viota v) s
def execVtopk (v : VOp) (s : State) : Out := enqueue (.vtopk v) s
def execVnorm (v : VOp) (s : State) : Out := enqueue (.vnorm v) s
def execVrng (v : VOp) (s : State) : Out := enqueue (.vrng v) s
def execVquant (v : VOp) (s : State) : Out := enqueue (.vquant v) s
def execVdeq (v : VOp) (s : State) : Out := enqueue (.vdeq v) s
def execVsample (v : VOp) (s : State) : Out := enqueue (.vsample v) s
def execVmovg (v : VOp) (s : State) : Out := enqueue (.vmovg v) s
def execVcopy (v : VOp) (s : State) : Out := enqueue (.vcopy v) s

end Sys2Proof.Machine
end

