-- ==== Sys2Proof/Machine/Matrix.lean ====
section
/-! DEFINITION. The matrix engine: format words, products, drains and the other accumulator commands (R208 to R225). -/

namespace Sys2Proof.Machine

/-! ## The format queue (R211) -/

def execFmtq (a : Reg) (s : State) : Out :=
  if s.me.fmtq.length < 16 then .next (s.modMe fun k => { k with fmtq := k.fmtq ++ [s.rd a] }) else .next (s.hold .queue)

/-! ## Format words (R212, R213) -/

def fwA (w : Nat) : Nat := w % 16
def fwB (w : Nat) : Nat := w / 16 % 16
def fwAsm (w : Nat) : Nat := w / 2 ^ 8 % 4
def fwBsm (w : Nat) : Nat := w / 2 ^ 10 % 4
def fwInt (w : Nat) : Bool := w.testBit 12
def fwCompat (w : Nat) : Bool := w.testBit 13
def fwSat (w : Nat) : Bool := w.testBit 14
def fwAsca (w : Nat) : Nat := w / 2 ^ 16 % 2 ^ 17 * 16
def fwBsca (w : Nat) : Nat := w / 2 ^ 33 % 2 ^ 17 * 16

/-- The first failing condition of R213. -/
def wordFault (w : Nat) (acc : AccKind) : Option Nat :=
  let is8 (f : Nat) : Bool := f == 9 || f == 10
  let ok (f : Nat) : Bool := 1 ≤ f && f ≤ 10
  let half (f : Nat) : Bool := f == 1 || f == 2
  if w / 2 ^ 50 ≠ 0 ∨ w.testBit 15 then some 1
  else if !ok (fwA w) || !ok (fwB w) then some 2
  else if fwAsm w = 3 ∨ fwBsm w = 3 ∨ (fwAsm w = 1 ∧ half (fwA w)) ∨ (fwBsm w = 1 ∧ half (fwB w)) then some 3
  else if fwInt w ∧ (!is8 (fwA w) ∨ !is8 (fwB w) ∨ fwAsm w ≠ 0 ∨ fwBsm w ≠ 0) then some 4
  else if (acc = .fp32 ∧ fwInt w) ∨ (acc = .int32 ∧ ¬ fwInt w) then some 5
  else none

/-- K steps a cell takes per clock (R73, R214). -/
def stepsOf (f : Nat) : Nat := if f = 1 ∨ f = 2 then 1 else if f = 6 ∨ f = 8 ∨ f = 10 then 4 else 2

/-- An element decoded as a matrix operand: in compatibility mode a subnormal becomes a zero (R69, R214). -/
def elemDecode (fmt : Nat) (compat : Bool) (pat : Nat) : FVal × Flags :=
  let (v, f) := decodeFmt fmt pat
  match binOf fmt with
  | some b => if compat && b.isSub pat then (.num v.neg 0, f ||| Flag.daz) else (v, f)
  | none => (v, f)

/-- An element under its scale (R66, R214): mode, scale byte or FP32 pattern. -/
def elemScaled (mode sc : Nat) (v : FVal) : FVal × Flags :=
  match mode with
  | 1 => (blockScaled sc v, 0)
  | 2 => rowScaled sc v
  | _ => (v, 0)

/-! ## Accumulators (R215) -/

/-- The 32 bits of a cell. -/
def Acc.cell (a : Acc) (i : Nat) : BitVec 32 := a.cells.get 0 i

/-- An accumulator of a kind with the cells of a function. -/
def Acc.build (kind : AccKind) (f : Nat → BitVec 32) : Acc :=
  ⟨kind, (List.range 4096).filterMap fun i => let v := f i; if v = 0 then none else some (i, v)⟩

/-- Replaces an accumulator. -/
def eSetAcc (n : Fin 4) (a : Acc) : EM Unit := eModCore fun k => { k with acc := k.acc.set n a }

/-- A machine check while a command executes leaves its accumulator and the streams of its banks undefined (R219). -/
def ruin (n : Fin 4) (banks : List Nat) : EM Unit := do
  let x ← get
  let (t, s) := x.s.draw
  set { x with s := s }
  let kind : AccKind := match Config.freeNat t % 3 with | 0 => .clear | 1 => .fp32 | _ => .int32
  eSetAcc n (Acc.build kind (Config.freeCell t))
  eModCore fun k => banks.foldl (fun k b => { k with rings := Tab.set [] k.rings b ((k.ring b).drop (Config.freeNat (t + 1 + b))) }) k

/-- Runs step 6 of R218, ruining the accumulator where a machine check meets it. -/
def guardAcc (n : Fin 4) (banks : List Nat) (m : EM Unit) : EM Unit :=
  tryCatch m fun t => do
    if t.cause = Cause.sramUncorrectable ∨ t.cause = Cause.engineInternal then ruin n banks else pure ()
    throw t

/-! ## Products (R221, R222) -/

/-- The format word of the command: the one it kept, or the head of the queue (R218). -/
def takeWord : EM Nat := do
  let x ← get
  match x.cmd.word with
  | some w => pure w.toNat
  | none =>
    let k ← eCore
    match k.fmtq with
    | [] => efault Cause.formatQueueEmpty 0 0
    | w :: ws =>
      eModCore fun k => { k with fmtq := ws }
      modify fun y => { y with cmd := { y.cmd with word := some w } }
      pure w.toNat

/-- Bytes of a scale list (R214). -/
def scaleLen (mode k : Nat) : Nat := match mode with | 1 => 2 * k | 2 => 256 | _ => 0

/-- The scales of a list: for mode 1 the byte of (k, i), for mode 2 the word of i. -/
def scaleAt (mode : Nat) (bs : List Byte) (k i : Nat) : Nat :=
  match mode with
  | 1 => (bs.getD (64 * (k / 32) + i) 0).toNat
  | 2 => le ((bs.drop (4 * i)).take 4)
  | _ => 0

/-- A matrix operand with its scales: element (k, i) for k below `kk` and i below `n`, in K-step order. Elements are decoded, with their
flags, before a scale makes them NaN (R66; log 94). -/
def operandVals (fmt mode : Nat) (compat : Bool) (kk n : Nat) (bs sc : List Byte) : EM (List (List FVal)) :=
  let w := fmtWidth fmt
  (List.range kk).mapM fun k =>
    let row := unpackEls w 64 ((bs.drop (k * 8 * w)).take (8 * w))
    (List.range n).mapM fun i => do
      let v ← eVal (elemDecode fmt compat (row.getD i 0))
      eVal (elemScaled mode (scaleAt mode sc k i) v)

/-- The exact sum of the products of one clock (R73). -/
def clockSum (ps : List FVal) : EM FVal :=
  match ps with
  | [a, b] => eVal (a.add .rne b)
  | [a, b, c, d] => do
    let x ← eVal (a.add .rne b)
    let y ← eVal (c.add .rne d)
    eVal (x.add .rne y)
  | [a] => pure a
  | _ => pure (.num false 0)

/-- One FP32 cell over all K steps (R73). -/
def cellFp (s : Nat) (ps : List FVal) (acc : FVal) : Nat → EM FVal
  | 0 => pure acc
  | fuel + 1 =>
    if ps = [] then pure acc
    else do
      let c := ps.take s
      let t ← clockSum (c ++ List.replicate (s - c.length) (.num false 0))
      let v ← eVal (acc.add .rne t)
      let v ← eVal (round32 v)
      cellFp s (ps.drop s) v fuel

/-- The exact integer of a value decoded from an integer format. -/
def FVal.toInt : FVal → Int
  | .num n m => if n then -m.num else m.num
  | _ => 0

/-- Updates rows `r0` to `r0 + n` of an accumulator by one product (R73, R74). -/
def productRows (acc : Acc) (int : Bool) (s kk r0 n : Nat) (av bv : List (List FVal)) : EM Acc := do
  let upd ← (List.range n).mapM fun di => (List.range 64).mapM fun j => do
    let i := r0 + di
    let old := acc.cell (64 * i + j)
    let ps ← (List.range kk).mapM fun k => eVal (((av.getD k []).getD i (.num false 0)).mul ((bv.getD k []).getD j (.num false 0)))
    if kk = 0 then pure (64 * i + j, old)
    else if int then
      pure (64 * i + j, BitVec.ofInt 32 (old.toInt + ps.foldl (fun t p => t + p.toInt) 0))
    else
      let v ← cellFp s ps (fp32.decode old.toNat) (kk + 1)
      pure (64 * i + j, BitVec.ofNat 32 (fp32.encode .rne false v).1)
  pure (upd.flatten.foldl (fun a u => { a with cells := Tab.set 0 a.cells u.1 u.2 }) acc)

/-- mma, mmaz and mgma: `groups` the row counts, one entry 64 for a plain product. The command takes what the rings hold of its two
streams and waits for the rest, which may be more than a ring holds (R210, R221, R222; log 17). -/
def runProduct (zero : Bool) (n : Fin 4) (groups : List Nat) : EM Unit := do
  let x ← get
  let p := x.cmd.a.toNat
  let ba := p % 32
  let bb := p / 256 % 32
  let kk := x.cmd.b.toNat
  let k ← eCore
  let (ha, hb) : List Byte × List Byte := match x.cmd.prog with | .stream a b => (a, b) | _ => ([], [])
  echeck (k.budget.getLsbD ba) Cause.scratchpadRange 0 ba
  echeck (k.budget.getLsbD bb) Cause.scratchpadRange 0 bb
  echeck (ba != bb) Cause.bankConflict (opNo 0) ba
  echeck (k.mode ba == .fifo) Cause.fifoBankMode 0 ba
  echeck (k.mode bb == .fifo) Cause.fifoBankMode 0 bb
  echeck (decide (kk ≤ 65535)) Cause.tileSpan (opNo 1) kk
  let w ← takeWord
  let k ← eCore
  let acc0 := if zero then Acc.zero else k.acc.get n
  match wordFault w acc0.kind with
    | some c => efault Cause.formatWordInvalid c w
    | none =>
      echeck (!((fwAsm w == 1 || fwBsm w == 1) && kk % 32 != 0)) Cause.tileSpan (opNo 1) kk
      extentChecks ((if fwAsm w = 0 then [] else [lst 0 (fwAsca w) (scaleLen (fwAsm w) kk) false])
        ++ (if fwBsm w = 0 then [] else [lst 1 (fwBsca w) (groups.length * scaleLen (fwBsm w) kk) false]))
  let la := kk * 8 * fmtWidth (fwA w)
  let lb := kk * 8 * fmtWidth (fwB w)
  guardAcc n [ba, bb] (do
    let sa ← eRead (fwAsca w) (scaleLen (fwAsm w) kk)
    let sb ← eRead (fwBsca w) (groups.length * scaleLen (fwBsm w) kk)
    let na := la - ha.length
    let nb := groups.length * lb - hb.length
    let abytes := ha ++ (k.ring ba).take na
    let bbytes := hb ++ (k.ring bb).take nb
    eModCore fun k => (k.ringTake ba na).ringTake bb nb
    if abytes.length < la ∨ bbytes.length < groups.length * lb then
      modify fun y => { y with cmd := { y.cmd with prog := .stream abytes bbytes } }
    else
      modify fun y => { y with cmd := { y.cmd with prog := .none } }
      let total := groups.foldl (· + ·) 0
      let int := fwInt w
      let s := Min.min (stepsOf (fwA w)) (stepsOf (fwB w))
      let av ← operandVals (fwA w) (fwAsm w) (fwCompat w) kk total abytes sa
      let start : Acc := if acc0.kind = .clear then ⟨if int then .int32 else .fp32, []⟩ else acc0
      let r ← groups.zipIdx.foldlM (fun (st : Acc × Nat) g => do
        if g.1 = 0 then pure st
        else
          let bv ← operandVals (fwB w) (fwBsm w) (fwCompat w) kk 64 (bbytes.drop (g.2 * lb))
            (sb.drop (g.2 * scaleLen (fwBsm w) kk))
          let a ← productRows st.1 int s kk st.2 g.1 av bv
          pure (a, st.2 + g.1)) (start, 0)
      eSetAcc n r.1)

/-- Row counts of mgma (R222). -/
def rowCounts (c : Word) (gm1 : BitVec 3) : List Nat := (List.range (gm1.toNat + 1)).map fun g => c.toNat / 256 ^ g % 256

/-! ## Draining, loading and clearing (R223, R224) -/

/-- A cell's value. -/
def Acc.val (a : Acc) (i : Nat) : FVal :=
  match a.kind with
  | .int32 => FVal.ofInt (a.cell i).toInt
  | _ => fp32.decode (a.cell i).toNat

/-- Checks 1 to 5 of R223 on a pitched operand of 64 rows. -/
def drainChecks (a pitch rb : Nat) (dst : Bool) (c : Option (Nat × Extent)) : EM Unit := do
  echeck (a % 16 == 0) Cause.misalignedAccess 0 a
  match c with
  | some (v, _) => echeck (v % 16 == 0) Cause.misalignedAccess 0 v
  | none => pure ()
  echeck (pitch % 16 == 0 && decide (rb ≤ pitch)) Cause.tileSpan (opNo 1) pitch
  let d : Extent := ⟨0, a, 64, pitch, rb, dst⟩
  extentChecks (d :: (match c with | some (_, x) => [x] | none => []))
  match c with
  | some (_, x) => echeck (!d.meets x) Cause.bankConflict (opNo 0) a
  | none => pure ()

/-- The AMAX update of a drained accumulator (R77): largest magnitude and whether a NaN was met. -/
def drainMax (a : Acc) : Nat × Bool :=
  (List.range 4096).foldl (fun r i =>
    let p := (a.cell i).toNat % 2 ^ 31
    if 0x7F800000 < p then (r.1, true) else (Max.max r.1 p, r.2)) (0, false)

/-- mdrain (R223). -/
def runDrain (n : Fin 4) (fmt sm : Nat) (sat clr : Bool) (scale : BitVec 4) : EM Unit := do
  let x ← get
  let a := x.cmd.a.toNat
  let pitch := x.cmd.b.toNat
  let c := x.cmd.c.toNat
  let w := fmtWidth fmt
  drainChecks a pitch (8 * w) true
    (match sm with
      | 1 => some (c, lst 2 c 128 true)
      | 2 => some (c, lst 2 c 256 false)
      | _ => if c % 16 = 0 then none else some (c, lst 2 0 0 false))
  guardAcc n [] (do
    let k ← eCore
    let acc := k.acc.get n
    let ss ← eRead c (if sm = 2 then 256 else 0)
    (List.range 64).forM fun i => do
      let vs := (List.range 64).map fun j => (acc.val (64 * i + j)).scale (scaleOf scale)
      match sm with
      | 1 => (List.range 2).forM fun b => do
        let (sc, es, fl) := blockEncode fmt false ((vs.drop (32 * b)).take 32)
        eFlags fl
        eWrite (a + i * pitch + 4 * w * b) (packEls w es)
        eWrite (c + 2 * i + b) (toLe 1 sc)
      | 2 => do
        let es ← vs.mapM fun v => eVal (encodeFmt fmt sat (rowQuot (le ((ss.drop (4 * i)).take 4)) v))
        eWrite (a + i * pitch) (packEls w es)
      | _ => do
        let es ← vs.mapM fun v => eVal (encodeFmt fmt sat v)
        eWrite (a + i * pitch) (packEls w es)
    if acc.kind = .int32 then pure ()
    else modify fun y => { y with com := { y.com with amax := some (n, drainMax acc) } }
    if clr then eSetAcc n Acc.zero else pure ())

/-- mldacc (R224). -/
def runLdacc (n : Fin 4) (int : Bool) : EM Unit := do
  let x ← get
  let a := x.cmd.a.toNat
  let pitch := x.cmd.b.toNat
  drainChecks a pitch 256 false none
  guardAcc n [] (do
    let rows ← (List.range 64).mapM fun i => eRead (a + i * pitch) 256
    let ws := (rows.map fun r => unpackEls 32 64 r).flatten
    eSetAcc n ⟨if int then .int32 else .fp32,
      ws.zipIdx.filterMap fun e => if e.1 = 0 then none else some (e.2, BitVec.ofNat 32 e.1)⟩)

/-- mzero (R224). -/
def runZero (mask : BitVec 4) : EM Unit :=
  eModCore fun k =>
    { k with acc := ⟨if mask.getLsbD 0 then Acc.zero else k.acc.e0, if mask.getLsbD 1 then Acc.zero else k.acc.e1,
        if mask.getLsbD 2 then Acc.zero else k.acc.e2, if mask.getLsbD 3 then Acc.zero else k.acc.e3⟩ }

/-- mamax (R78, R224). -/
def runMamax (n : Fin 4) : EM Unit := do
  let x ← get
  let a := x.cmd.a.toNat
  echeck (a % 8 == 0) Cause.misalignedAccess 0 a
  extentChecks [lst 0 a 8 true]
  let k ← eCore
  eWrite a (toLe 8 (k.amax.get n).toNat)
  eModCore fun k => { k with amax := k.amax.set n 0 }

/-- The commit of a drain (R77). -/
def Core.amaxCommit (k : Core) (u : Fin 4 × Nat × Bool) : Core :=
  let o := (k.amax.get u.1).toNat
  let v := Max.max (o % 2 ^ 32) u.2.1
  { k with amax := k.amax.set u.1 (BitVec.ofNat 64 (v + (if u.2.2 || o.testBit 32 then 2 ^ 32 else 0))) }

/-! ## Issue -/

def execMma (t : Tok) (a b : Reg) (n : Fin 4) (s : State) : Out := enqueue (.mma t a b n) s
def execMmaz (t : Tok) (a b : Reg) (n : Fin 4) (s : State) : Out := enqueue (.mmaz t a b n) s

/-- mgma: the strand checks the row counts when the bundle issues (R222). -/
def execMgma (t : Tok) (a b c : Reg) (n : Fin 4) (gm1 : BitVec 3) (s : State) : Out :=
  let gs := rowCounts (s.rd c) gm1
  if (s.engine s.iss.core 0).hasRoom && (gs.any (fun g => decide (64 < g)) || decide (64 < gs.foldl (· + ·) 0)) then
    .next (s.takeTrap ⟨Cause.groupedBounds, 0, s.rd c⟩)
  else enqueue (.mgma t a b c n gm1) s

def execMdrain (t : Tok) (a b c : Reg) (n : Fin 4) (fmt : BitVec 4) (sm : BitVec 2) (sat clr : Bool) (scale : BitVec 4)
    (s : State) : Out := enqueue (.mdrain t a b c n fmt sm sat clr scale) s
def execMldacc (t : Tok) (a b : Reg) (n : Fin 4) (int : Bool) (s : State) : Out := enqueue (.mldacc t a b n int) s
def execMzero (t : Tok) (mask : BitVec 4) (s : State) : Out := enqueue (.mzero t mask) s
def execMamax (t : Tok) (a : Reg) (n : Fin 4) (s : State) : Out := enqueue (.mamax t a n) s

end Sys2Proof.Machine
end

