-- ==== Sys2Proof/Machine/Copy.lean ====
section
/-! DEFINITION. The copy engine: shape objects, the element path, copies, deliveries, transforms (R255 to R271). -/

namespace Sys2Proof.Machine

/-! ## Control words and shape objects (R257, R263, R264) -/

def ccLwa (c : Word) : Nat := c.toNat / 2 ^ 47 * 16
def ccHandle (c : Word) : Nat := c.toNat / 2 ^ 32 % 4096
def ccLen (c : Word) : Nat := c.toNat % 2 ^ 32
def ccZero (c : Word) : Bool := c.toNat / 2 ^ 44 % 4 == 0

/-- Little-endian field of `n` bytes at an offset. -/
def fld (bs : List Byte) (off n : Nat) : Nat := le ((bs.drop off).take n)

/-- Signed little-endian field. -/
def sfld (bs : List Byte) (off n : Nat) : Int := sintOf (8 * n) (fld bs off n)

/-- A shape object (R263). -/
structure Shape where
  ver : Nat
  dims : Nat
  sfmt : Nat
  dfmt : Nat
  ext : Quad Nat
  sstr : Quad Int
  dstr : Quad Int
  flags : Nat
  pad : Nat
  sscoff : Int
  dscoff : Int
  srep : Int
  drep : Int
  deriving DecidableEq, Repr

/-- The fields of 96 bytes. -/
def Shape.ofBytes (b : List Byte) : Shape :=
  { ver := fld b 0 1, dims := fld b 1 1, sfmt := fld b 2 1, dfmt := fld b 3 1,
    ext := ⟨fld b 4 4, fld b 8 4, fld b 12 4, fld b 16 4⟩,
    sstr := ⟨0, sfld b 0x14 8, sfld b 0x1C 8, sfld b 0x24 8⟩,
    dstr := ⟨0, sfld b 0x2C 8, sfld b 0x34 8, sfld b 0x3C 8⟩,
    flags := fld b 0x44 2, pad := fld b 0x46 2, sscoff := sfld b 0x48 8, dscoff := sfld b 0x50 8,
    srep := sfld b 0x58 4, drep := sfld b 0x5C 4 }

def Shape.trn (o : Shape) : Nat := o.flags % 4
def Shape.sq (o : Shape) : Nat := o.flags / 4 % 4
def Shape.dq (o : Shape) : Nat := o.flags / 16 % 4
def Shape.sat (o : Shape) : Bool := o.flags.testBit 6
def Shape.sct (o : Shape) : Bool := o.flags.testBit 8

/-- Extent of dimension `d`, 1 where unused (R265). -/
def Shape.e (o : Shape) (d : Fin 4) : Nat := if d.val < o.dims then o.ext.get d else 1

def Shape.sw (o : Shape) : Nat := fmtWidth o.sfmt
def Shape.dw (o : Shape) : Nat := fmtWidth o.dfmt
/-- Source row bytes, destination row elements and bytes, destination rows of a plane, source rows. -/
def Shape.srb (o : Shape) : Nat := rowLen (o.e 0) o.sw
def Shape.drn (o : Shape) : Nat := if o.trn = 1 then o.e 1 else o.e 0
def Shape.drb (o : Shape) : Nat := rowLen o.drn o.dw
def Shape.ndr (o : Shape) : Nat := if o.trn = 1 then o.e 0 else o.e 1
def Shape.nrows (o : Shape) : Nat := o.e 1 * o.e 2 * o.e 3

/-- The first failing condition of R264. -/
def Shape.invalid (o : Shape) : Option Nat :=
  let ds : List (Fin 4) := [0, 1, 2, 3]
  let used (d : Fin 4) : Bool := decide (d.val < o.dims)
  if o.ver ≠ 1 ∨ 13 < o.sfmt ∨ 13 < o.dfmt ∨ o.flags.testBit 7 ∨ o.flags / 2 ^ 9 ≠ 0 ∨ o.pad ≠ 0 then some 1
  else if o.dims < 1 ∨ 4 < o.dims ∨ ds.any (fun d => if used d then !(decide (1 ≤ o.ext.get d ∧ o.ext.get d ≤ 65536)) else o.ext.get d != 0)
      ∨ ds.any (fun d => !used d && (o.sstr.get d != 0 || o.dstr.get d != 0)) then some 2
  else if 2 ^ 24 < o.e 0 * o.nrows then some 3
  else if ds.any (fun d => o.sstr.get d % 16 != 0 || o.dstr.get d % 16 != 0) ∨ o.srep % 16 ≠ 0 ∨ o.drep % 16 ≠ 0 then some 4
  else if (o.trn = 1 ∧ o.dims = 1) ∨ 1 < o.trn ∨ o.sq = 3 ∨ o.dq = 3 then some 5
  else if (o.sq ≠ 0 ∧ !isBlkFmt o.sfmt) ∨ (o.dq ≠ 0 ∧ !isBlkFmt o.dfmt) then some 6
  else if (o.sq = 1 ∨ o.dq = 1) ∧ o.e 0 % 32 ≠ 0 then some 7
  else if o.e 0 * o.sw % 8 ≠ 0 ∨ o.drn * o.dw % 8 ≠ 0 then some 8
  else none

/-- Resolves a handle (R262): the job is checked in both modes (R23; log 94). -/
def resolveShape (h : Nat) : EM (List Byte) := do
  let x ← get
  let k ← eCore
  match (x.s.die (dieOf x.c)).shapes.find h with
  | some (job, o) => if job = k.jobId.toNat then pure o else efault Cause.shapeHandleInvalid 0 h
  | none => efault Cause.shapeHandleInvalid 0 h

/-- The handle checks of tsobj and tsdrop (R264). -/
def slotCheck (h : Nat) : EM Unit := do
  let x ← get
  let k ← eCore
  echeck (decide (1 ≤ h ∧ h ≤ 4095)) Cause.shapeHandleInvalid 0 h
  match (x.s.die (dieOf x.c)).shapes.find h with
  | some (job, _) => echeck (job == k.jobId.toNat) Cause.shapeHandleInvalid 0 h
  | none => pure ()

/-- tsobj: its operands, its slot, then the object it reads (R259, R264). -/
def runTsobj : EM Unit := do
  let x ← get
  let a := x.cmd.a
  echeck (a.toNat % 16 == 0) Cause.misalignedAccess 0 a.toNat
  let h := x.cmd.b.toNat
  slotCheck h
  let sp ← eSpace
  let b ← eLift fun s => s.vget x.c sp a 96
  match (Shape.ofBytes b).invalid with
  | some n => efault Cause.shapeInvalid n a.toNat
  | none => do
    let k ← eCore
    eMod fun s => s.modDie (dieOf x.c) fun d => { d with shapes := d.shapes.put h (k.jobId.toNat, b) }

/-- tsdrop (R264). -/
def runTsdrop : EM Unit := do
  let x ← get
  let h := x.cmd.b.toNat
  slotCheck h
  eMod fun s => s.modDie (dieOf x.c) fun d => { d with shapes := d.shapes.del h }

/-! ## Access to the two spaces -/

/-- Reads bytes of an operand's space. -/
def cRead (sp : Bool) (a : Int) (n : Nat) : EM (List Byte) := do
  if n = 0 then pure []
  else if sp then eRead a.toNat n
  else
    let x ← get
    let space ← eSpace
    eLift fun s => s.vget x.c space (BitVec.ofInt 64 a) n

/-- Lines of memory below which the bytes of a virtual range lie. -/
def State.linesOf (s : State) (c : Nat) (sp : Space3) (va n : Nat) : List Nat :=
  (List.range ((va + n + 127) / 128 - va / 128)).filterMap fun i =>
    match s.translate c (dieOf c) sp (BitVec.ofNat 64 (128 * (va / 128 + i))) with
    | .ok (l, _) => some (l.pa (128 * (va / 128 + i)) / 128)
    | .error _ => none

/-- The command has written to global memory: writes and lines it holds, and its deliveries release (R301). -/
def eWrote (va n : Nat) (ids : List Nat) : EM Unit := do
  let space ← eSpace
  modify fun y => if ids = [] then y else
    let hit (b : Nat) : Bool := decide (va / 128 ≤ b ∧ 128 * b < va + n)
    { y with
      com := { y.com with ids := uni y.com.ids ids, lines := uni y.com.lines (y.s.linesOf y.c space va n) },
      cmd := { y.cmd with blk := y.cmd.blk.map fun e => if hit e.1 then (e.1, e.2.1, uni e.2.2 ids) else e } }

/-- Writes consecutive bytes of global memory; answers the writes. -/
def eGlobal (va : Nat) (bs : List Byte) : EM (List Nat) := do
  let x ← get
  let space ← eSpace
  eLift fun s => s.vput x.c space (BitVec.ofNat 64 va) bs (x.s.engine x.c x.e).hb []

/-- Checks of a write of bytes of one line when a command reaches it; the bytes are still to be written (R259 step 6, R362). -/
def eGlobalCheck (va : Nat) : EM Unit := do
  let x ← get
  let space ← eSpace
  let l ← eLift fun s => s.gcheck x.c (dieOf x.c) space (BitVec.ofNat 64 va) 1 .wr
  match x.s.homeKey (l.pa va / 128) (pteKid l.e) (BitVec.ofNat 64 va) with
  | some t => throw t
  | none => pure ()

/-- The mask of `n` bytes from offset `o` of a block. -/
def bytesMask (o n : Nat) : Nat := (2 ^ n - 1) * 2 ^ o

/-- The parts of bytes at an address in each aligned 128-byte block. -/
def cutBlocks (addr : Nat) (bs : List Byte) : List (Nat × List Byte) :=
  if bs = [] then []
  else (List.range ((addr + bs.length - 1) / 128 + 1 - addr / 128)).map fun i =>
    let lo := Max.max addr (128 * (addr / 128 + i))
    let hi := Min.min (addr + bs.length) (128 * (addr / 128 + i) + 128)
    (lo, (bs.drop (lo - addr)).take (hi - lo))

/-- Forms whose deliveries follow the order of their entries (R269). -/
def byEntry : Instr → Bool
  | .cpys _ _ => true
  | .cpyg _ dsp _ fifo _ => dsp == .g && !fifo
  | _ => false

/-- Adds bytes to those a block still has to deliver: in ascending address, or where the latest entry puts it (R269; log 94). -/
def blockTouch (late : Bool) (t : List (Nat × Nat × List Nat)) (b m : Nat) : List (Nat × Nat × List Nat) :=
  let (m0, ids) := Tab.get t (0, []) b
  if late then t.filter (fun e => e.1 != b) ++ [(b, m0 ||| m, ids)] else Tab.put t b (m0 ||| m, ids)

/-- Destination bytes within one block are to be delivered. -/
def eTouch (addr n : Nat) : EM Unit :=
  modify fun y => { y with cmd := { y.cmd with
    blk := blockTouch (byEntry y.cmd.instr) y.cmd.blk (addr / 128) (bytesMask (addr % 128) n) } }

/-- Writes bytes of an operand's space at once, block by block; they are destination data to be delivered. -/
def cWrite (sp : Bool) (addr : Nat) (bs : List Byte) : EM Unit :=
  (cutBlocks addr bs).forM fun p => do
    let ids ← (if sp then do
        eWrite p.1 p.2
        pure []
      else eGlobal p.1 p.2)
    eTouch p.1 p.2.length
    eWrote p.1 p.2.length ids

/-- Writes bytes of one block of an operand's space; `count` says that they are destination data to be delivered. Those for global
memory wait until the command has all it writes to the line (R362). -/
def putPiece (sp count : Bool) (addr : Nat) (bs : List Byte) : EM Unit := do
  if sp then eWrite addr bs
  else
    eGlobalCheck addr
    modify fun y =>
      let (m, old) := y.buf.get (0, List.replicate 128 0) (addr / 128)
      let new := old.take (addr % 128) ++ bs ++ old.drop (addr % 128 + bs.length)
      { y with buf := y.buf.put (addr / 128) (m ||| bytesMask (addr % 128) bs.length, new) }
  if count then eTouch addr bs.length else pure ()

/-- What waits for global memory goes to the home slices, each line in one write (R362). -/
def flushBuf : EM Unit := do
  let x ← get
  set { x with buf := [] }
  let space ← eSpace
  x.buf.forM fun e => do
    let va := 128 * e.1
    let l ← eLift fun s => s.gcheck x.c (dieOf x.c) space (BitVec.ofNat 64 va) 1 .wr
    let y ← get
    let bytes := (List.range 128).filterMap fun i => if e.2.1.testBit i then some (l.pa va + i, e.2.2.getD i 0) else none
    let (id, s) := y.s.homeGo y.c (l.pa va / 128) bytes (pteKid l.e) (pteCh l.e) (y.s.engine y.c y.e).hb []
    set { y with s := s }
    eWrote va 128 [id]

/-- One delivery to the landing word of the command, of `n` bytes that writes `ids` wrote (R269, R301). -/
def eDeliver (c : Word) (n : Nat) (ids : List Nat) : EM Unit := do
  let x ← get
  if ccLwe c then
    match x.s.deliver x.c (ccLwa c) n ids (x.s.core x.c).stamp.toNat (4 + x.e.val) with
    | .ok s => set { x with s := s }
    | .error t => throw t
  else pure ()

/-- Delivers a block, which releases the writes of the command to it (R269, R301). -/
def deliverBlock (c : Word) (b : Nat × Nat × List Nat) : EM Unit := do
  let x ← get
  eDeliver c ((List.range 128).countP fun i => b.2.1.testBit i) (b.2.2 ++ (x.com.sids.find (b.1 + 1)).toList)
  modify fun y => { y with cmd := { y.cmd with blk := y.cmd.blk.filter fun e => e.1 != b.1 } }

/-- Delivers the blocks that nothing more is written into, one after the other (R269). -/
def deliverBlocks (c : Word) (later : Nat → Bool) : EM Unit := do
  let x ← get
  x.cmd.blk.forM fun b => if later b.1 then pure () else deliverBlock c b

/-! ## Units of a copy (R260) -/

/-- Where a copy writes. -/
inductive CDst where
  | g
  | sp
  | fifo
  deriving DecidableEq, Repr

/-- A copy command taken apart: control word, shape, destination, source space, bases, kind of source. -/
inductive CSrc where
  | mem (sp : Bool)
  | gather (z : Bool)
  | scatter
  | zero
  deriving DecidableEq, Repr

/-- A descriptor of a gather or scatter with its indices (R268). -/
structure GDesc where
  base : Nat
  nrows : Nat
  idx : List Int
  deriving DecidableEq, Repr

/-- The descriptor in its bytes, with `n` indices. -/
def GDesc.ofBytes (n : Nat) (b : List Byte) : GDesc := ⟨fld b 0 8, fld b 8 4, (unpackEls 32 n (b.drop 16)).map (sintOf 32)⟩

/-- The descriptor of the instance under way, which lies at operand `ix`: read and checked once, as the instance starts (R268). -/
def readDesc (ix : Nat) (a : Int) (n : Nat) : EM GDesc := do
  let x ← get
  if x.cmd.desc ≠ [] then pure (GDesc.ofBytes n x.cmd.desc)
  else
    let b ← eRead a.toNat (16 + 4 * n)
    echeck (fld b 0 8 % 16 == 0) Cause.misalignedAccess 0 (fld b 0 8)
    echeck (fld b 0xC 4 == 0) Cause.tileSpan (opNo ix) a.toNat
    modify fun y => { y with cmd := { y.cmd with desc := b } }
    pure (GDesc.ofBytes n b)

/-- A block's slot in a scale list: list row number, list rows (R265). -/
def Shape.slot (o : Shape) (row nr b : Nat) : Nat := if o.sct then b * nr + row else row * (o.e 0 / 32) + b

/-- The element path of one source row (R265): destination patterns and block scale bytes. `sl` and `dl` are the source and
destination lists as (space, address, row, rows); no source list for a zero row. -/
def convRow (o : Shape) (raw : List Nat) (sl : Option (Bool × Int × Nat × Nat)) (dl : Bool × Int × Nat × Nat) :
    EM (List Nat × List (Int × Nat)) := do
  if o.sfmt = o.dfmt ∧ o.sq = 0 ∧ o.dq = 0 then pure (raw, [])
  else
    let nb := o.e 0 / 32
    let vs ← raw.mapM fun p => eVal (decodeFmt o.sfmt p)
    let vs ← (match sl with
      | none => pure vs
      | some (sp, a, row, nr) =>
        match o.sq with
        | 1 => do
          let ss ← (List.range nb).mapM fun b => do
            let x ← cRead sp (a + o.slot row nr b) 1
            pure (le x)
          pure (vs.zipIdx.map fun v => blockScaled (ss.getD (v.2 / 32) 0) v.1)
        | 2 => do
          let x ← cRead sp (a + 4 * row) 4
          vs.mapM fun v => eVal (rowScaled (le x) v)
        | _ => pure vs)
    let (dsp, da, drow, dnr) := dl
    match o.dq with
    | 1 => do
      let bl ← (List.range nb).mapM fun b => do
        let (sc, es, f) := blockEncode o.dfmt false ((vs.drop (32 * b)).take 32)
        eFlags f
        pure (es, (da + o.slot drow dnr b, sc))
      pure ((bl.map (·.1)).flatten, bl.map (·.2))
    | 2 => do
      let x ← cRead dsp (da + 4 * drow) 4
      let es ← vs.mapM fun v => eVal (encodeFmt o.dfmt false (rowQuot (le x) v))
      pure (es, [])
    | _ => do
      let es ← vs.mapM fun v => eVal (encodeFmt o.dfmt o.sat v)
      pure (es, [])

/-- A copy command in parts. -/
structure CCtx where
  a : Nat
  b : Nat
  c : Word
  o : Shape
  dst : CDst
  src : CSrc
  deriving DecidableEq, Repr

/-- Space and address of the destination scale list of an instance (R263). -/
def CCtx.dlist (x : CCtx) (t : Nat) : Bool × Int :=
  match x.dst with
  | .fifo => (true, x.o.dscoff)
  | .sp => (true, (x.a : Int) + t * x.o.drep + x.o.dscoff)
  | .g => (false, (x.a : Int) + t * x.o.drep + x.o.dscoff)

/-- Source row i1 of plane (i2, i3) of instance `t`, encoded; `log` records a replaced row (R265, R268). -/
def CCtx.row (x : CCtx) (t i1 i2 i3 : Nat) (log : Bool) : EM (List Nat × List (Int × Nat)) := do
  let o := x.o
  let n := i1 + o.e 1 * (i2 + o.e 2 * i3)
  let (dsp, da) := x.dlist t
  let dl := (dsp, da, n, o.nrows)
  match x.src with
  | .zero => pure (List.replicate (o.e 0) 0, [])
  | .mem sp => do
    let base : Int := (x.b : Int) + t * o.srep
    let bs ← cRead sp (base + i1 * o.sstr.e1 + i2 * o.sstr.e2 + i3 * o.sstr.e3) o.srb
    convRow o (unpackEls o.sw (o.e 0) bs) (some (sp, base + o.sscoff, n, o.nrows)) dl
  | .scatter => do
    let base : Int := (x.b : Int) + t * o.srep
    let bs ← cRead true (base + i1 * o.sstr.e1) o.srb
    let d ← readDesc 0 ((x.a : Int) + t * o.drep) (o.e 1)
    let ix := (d.idx.getD i1 0).toNat
    convRow o (unpackEls o.sw (o.e 0) bs) (some (true, base + o.sscoff, i1, o.e 1)) (false, (d.base : Int) + o.dscoff, ix, d.nrows)
  | .gather z => do
    let d ← readDesc 1 ((x.b : Int) + t * o.srep) (o.e 1)
    let ix := d.idx.getD i1 0
    let y ← get
    let zero := convRow o (List.replicate (o.e 0) 0) none dl
    if ix = -1 then zero
    else if ix < 0 ∨ (d.nrows : Int) ≤ ix then efault Cause.tileSpan (opNo 1) (intBits 64 ix)
    else
      let addr : Int := (d.base : Int) + ix * o.sstr.e1
      let body : EM (List Nat × List (Int × Nat)) := do
        let bs ← cRead false addr o.srb
        convRow o (unpackEls o.sw (o.e 0) bs) (some (false, (d.base : Int) + o.sscoff, ix.toNat, d.nrows)) dl
      tryCatch body fun tr =>
        if z && isPoison tr then do
          let space ← eSpace
          eMod fun s => s.poisonSeen y.c space tr
          if log then modify fun y => { y with com := { y.com with repl := y.com.repl ++ [(i1, intBits 32 ix, (BitVec.ofInt 64 addr).toNat)] } }
          else pure ()
          zero
        else throw tr

/-- Appends one unit to the FIFO bank named by A and delivers it; with no landing word to take it, nothing is appended (R210, R260, R266). -/
def appendUnit (bank : Nat) (c : Word) (bs : List Byte) : EM Unit := do
  eDeliver c bs.length []
  eModCore fun k => k.ringPut bank bs

/-- Source rows of one unit where TRN makes them columns: those whose elements fill whole bytes of a destination row (R56, R265). -/
def Shape.group (o : Shape) : Nat := 8 / Nat.gcd o.dw 8

/-- Whether the units are groups of source rows, which TRN makes columns of scratchpad or global memory (R265). -/
def CCtx.byColumns (x : CCtx) : Bool := x.o.trn == 1 && x.dst != .fifo

/-- Units of one plane, and of one instance. -/
def CCtx.planeUnits (x : CCtx) : Nat := if x.byColumns then x.o.e 1 / x.o.group else x.o.ndr
def CCtx.instUnits (x : CCtx) : Nat := match x.src with | .scatter => x.o.e 1 | _ => x.planeUnits * x.o.e 2 * x.o.e 3

/-- Address of byte `off` of destination row (j1, i2, i3) of instance `t`. -/
def CCtx.dstRow (x : CCtx) (t j1 i2 i3 off : Nat) : Int :=
  (x.a : Int) + t * x.o.drep + j1 * x.o.dstr.e1 + i2 * x.o.dstr.e2 + i3 * x.o.dstr.e3 + off

/-- Ranges of destination bytes that unit `u` writes, as far as the machine shows them now (R268, R269). -/
def CCtx.unitSpans (x : CCtx) (k : Core) (cmd : Cmd) (u0 u : Nat) : List (Int × Nat) :=
  let o := x.o
  let t := u / x.instUnits
  let q := u % x.instUnits
  match x.src with
  | .scatter =>
    let b := if t = u0 / x.instUnits ∧ cmd.desc ≠ [] then cmd.desc else k.spRead ((x.a : Int) + t * o.drep).toNat (16 + 4 * o.e 1)
    let d := GDesc.ofBytes (o.e 1) b
    let ix := d.idx.getD q 0
    if ix < 0 ∨ (d.nrows : Int) ≤ ix then [] else [((d.base : Int) + ix * o.dstr.e1, o.drb)]
  | _ =>
    let j := q % x.planeUnits
    let i2 := q / x.planeUnits % o.e 2
    let i3 := q / (x.planeUnits * o.e 2)
    if x.byColumns then
      let n := o.group * o.dw / 8
      (List.range (o.e 0)).map fun i0 => (x.dstRow t i0 i2 i3 (j * n), n)
    else [(x.dstRow t j i2 i3 0, o.drb)]

/-- The pieces a unit writes, one after the other from piece `p` on, with the progress kept at each (R260). -/
def putPieces (u : Nat) (ws : List (Bool × Bool × Nat × List Byte)) (p : Nat) : EM Unit :=
  (ws.zipIdx.drop p).forM fun w => do
    putPiece w.1.1 w.1.2.1 w.1.2.2.1 w.1.2.2.2
    modify fun y => { y with cmd := { y.cmd with prog := .rows u (w.2 + 1) } }

/-- The pieces of bytes at an address of an operand's space. -/
def piecesOf (sp count : Bool) (a : Int) (bs : List Byte) : List (Bool × Bool × Nat × List Byte) :=
  (cutBlocks (BitVec.ofInt 64 a).toNat bs).map fun p => (sp, count, p.1, p.2)

/-- Block scale bytes as pieces. -/
def scalePieces (sp : Bool) (scs : List (Int × Nat)) : List (Bool × Bool × Nat × List Byte) :=
  scs.flatMap fun s => piecesOf sp false s.1 (toLe 1 s.2)

/-- Unit `u` of a shaped copy from its piece `p` on (R265, R266, R268); false where a FIFO bank has no room for it yet. -/
def CCtx.shapedUnit (x : CCtx) (u p : Nat) : EM Bool := do
  let o := x.o
  let t := u / x.instUnits
  let q := u % x.instUnits
  let j := q % x.planeUnits
  let i2 := q / x.planeUnits % o.e 2
  let i3 := q / (x.planeUnits * o.e 2)
  let bank := x.a % 32
  let k ← eCore
  if x.dst = .fifo ∧ ringSize < (k.ring bank).length + o.drb then pure false
  else
    (match x.src with
    | .scatter => do
      let d ← readDesc 0 ((x.a : Int) + t * o.drep) (o.e 1)
      let ix := d.idx.getD q 0
      if ix = -1 then pure ()
      else if ix < 0 ∨ (d.nrows : Int) ≤ ix then efault Cause.tileSpan (opNo 0) (intBits 64 ix)
      else
        let (pats, scs) ← x.row t q 0 0 false
        putPieces u (scalePieces false scs ++ piecesOf false true ((d.base : Int) + ix * o.dstr.e1) (packEls o.dw pats)) p
    | _ => do
      let dsp := (x.dlist t).1
      if x.dst = .fifo then
        let (pats, scs) ← (if o.trn = 1 then do
            let rs ← (List.range (o.e 1)).mapM fun i => x.row t i i2 i3 (j == 0)
            pure (rs.map fun r => r.1.getD j 0,
              if j % 32 = 0 then rs.filterMap (fun r => r.2[j / 32]?) else [])
          else x.row t j i2 i3 true)
        putPieces u (scalePieces dsp scs) p
        appendUnit bank x.c (packEls o.dw pats)
      else if x.byColumns then
        let g := o.group
        let rs ← (List.range g).mapM fun i => x.row t (j * g + i) i2 i3 true
        let cols := (List.range (o.e 0)).flatMap fun i0 =>
          piecesOf (x.dst == .sp) true (x.dstRow t i0 i2 i3 (j * (g * o.dw / 8))) (packEls o.dw (rs.map fun r => r.1.getD i0 0))
        putPieces u (scalePieces dsp (rs.flatMap (·.2)) ++ cols) p
      else
        let (pats, scs) ← x.row t j i2 i3 true
        putPieces u (scalePieces dsp scs ++ piecesOf (x.dst == .sp) true (x.dstRow t j i2 i3 0) (packEls o.dw pats)) p)
    if q + 1 = x.instUnits then modify fun y => { y with cmd := { y.cmd with desc := [] } } else pure ()
    pure true

/-- Unit `u` of a linear copy: the part of one aligned 128-byte block, of the source for a FIFO bank and else of the destination. -/
def CCtx.linearUnit (x : CCtx) (len u _p : Nat) : EM Bool := do
  let base := if x.dst = .fifo then x.b else x.a
  let lo := Max.max base (128 * (base / 128 + u))
  let hi := Min.min (base + len) (128 * (base / 128 + u) + 128)
  let n := hi - lo
  let off : Nat := lo - base
  let bank := x.a % 32
  let k ← eCore
  if x.dst = .fifo ∧ ringSize < (k.ring bank).length + n then pure false
  else
    let bs ← (match x.src with
      | .mem sp => cRead sp ((x.b : Int) + off) n
      | _ => pure (List.replicate n 0))
    match x.dst with
    | .fifo => appendUnit bank x.c bs
    | d => cWrite (d == .sp) lo bs
    pure true

/-- Runs `n` units from unit `u`, piece `p` on; keeps progress at each, stops where one has to wait, answers whether none is left. A unit
that faults has logged no replaced row: it is gone through again from the piece that faulted (R260). -/
def runUnits (f : Nat → Nat → EM Bool) : Nat → Nat → Nat → EM Bool
  | 0, u, _ => do
    modify fun y => { y with cmd := { y.cmd with prog := .rows u 0 } }
    pure true
  | n + 1, u, p => do
    modify fun y => { y with cmd := { y.cmd with prog := .rows u p } }
    let y ← get
    let go ← tryCatch (f u p) fun t => do
      modify fun z => { z with com := { z.com with repl := y.com.repl } }
      throw t
    if go then runUnits f n (u + 1) 0 else pure false

/-- Runs the units of a command from the one it stopped at; what has been written reaches memory and, but for blocks that later units
write into, is delivered: block by block, between which deliveries of other commands may come (R301), or where a unit faults
(R260, R269, R362). A write of no bytes counts zero bytes (R38, R151, R261). -/
def runAll (c : Word) (f : Nat → Nat → EM Bool) (spans : Core → Cmd → Nat → Nat → List (Int × Nat)) (total u p : Nat) : EM Unit := do
  let done ← tryCatch (runUnits f (total - u) u p) fun t => do
    flushBuf
    let y ← get
    let k ← eCore
    let u1 := match y.cmd.prog with | .rows n _ => n | _ => u
    deliverBlocks c fun b => (List.range (total - u1)).any fun i => (spans k y.cmd u1 (u1 + i)).any fun r =>
      decide (r.1 < 128 * b + 128 ∧ (128 * b : Int) < r.1 + r.2)
    throw t
  flushBuf
  if done then do
    let y ← get
    match y.cmd.blk with
    | [] => if total = 0 then eDeliver c 0 [] else pure ()
    | b :: _ => if ccLwe c then deliverBlock c b else pure ()
    modify fun y =>
      let rest := if ccLwe c then y.cmd.blk else []
      { y with cmd := { y.cmd with blk := rest, prog := if rest = [] then .none else y.cmd.prog, out := [] } }
  else pure ()

/-! ## Checks at start (R259, R267) -/

/-- Byte ranges of an operand: number, base, in scratchpad, ranges, destination, a row pitch smaller than the row. -/
structure CRange where
  ix : Nat
  base : Nat
  sp : Bool
  rs : List (Int × Nat)
  dst : Bool
  tight : Bool
  deriving DecidableEq, Repr

/-- Banks a scratchpad operand touches. -/
def CRange.banks (r : CRange) : List Nat :=
  (r.rs.flatMap fun p => (List.range (((p.1.toNat + p.2 - 1) / 65536 + 1) - p.1.toNat / 65536)).map fun i => p.1.toNat / 65536 + i).dedup

/-- Whether two operands share a byte of one space. -/
def CRange.meets (x y : CRange) : Bool :=
  x.sp == y.sp && x.rs.any fun a => y.rs.any fun b => decide (a.1 < b.1 + b.2 ∧ b.1 < a.1 + a.2)

/-- Steps 1 to 6 of R176 on the operands of a copy (R259 step 5), and the overlap rule of R267. -/
def copyChecks (fifo : Option Nat) (rs : List CRange) : EM Unit := do
  let k ← eCore
  let sps := rs.filter fun r => r.sp
  sps.forM fun r => echeck (r.base % 16 == 0) Cause.misalignedAccess r.ix r.base
  sps.forM fun r => echeck (!r.tight) Cause.tileSpan (opNo r.ix) r.base
  sps.forM fun r => echeck (r.rs.all fun p => decide (0 ≤ p.1 ∧ p.1 + p.2 ≤ 2 ^ 21)) Cause.tileSpan (opNo r.ix) r.base
  match fifo with
  | some b => echeck (k.budget.getLsbD b) Cause.scratchpadRange 0 b
  | none => pure ()
  sps.forM fun r => echeck (r.banks.all fun b => k.budget.getLsbD b) Cause.scratchpadRange 0 r.base
  match fifo with
  | some b => echeck (k.mode b == .fifo) Cause.fifoBankMode 0 b
  | none => pure ()
  sps.forM fun r => echeck (r.banks.all fun b => k.mode b == .scratch) Cause.bankModeViolation 0 r.base
  rs.forM fun d => if d.dst then
      rs.forM fun y => if y.dst && (!d.sp || y == d) then pure () else echeck (!d.meets y) Cause.bankConflict (opNo d.ix) d.base
    else pure ()

/-- Row addresses of a tile's instances: base, strides, counts. -/
def tileRows (base : Int) (rep : Int) (s1 s2 s3 : Int) (n1 n2 n3 len bytes : Nat) : List (Int × Nat) :=
  if bytes = 0 then []
  else (List.range len).flatMap fun t => (List.range n3).flatMap fun k => (List.range n2).flatMap fun j => (List.range n1).map fun i =>
    (base + t * rep + i * s1 + j * s2 + k * s3, bytes)

/-- Bytes of a scale list of mode `m`. -/
def Shape.listLen (o : Shape) (m : Nat) : Nat := match m with | 1 => o.nrows * (o.e 0 / 32) | 2 => 4 * o.nrows | _ => 0

/-- Scale lists of the instances of a side. -/
def listRows (base rep off : Int) (len bytes : Nat) : List (Int × Nat) :=
  if bytes = 0 then [] else (List.range len).map fun t => (base + t * rep + off, bytes)

/-- The table rows a cpyg to global memory gathers, as its descriptors name them at its start (R267, R268). -/
def CCtx.gathered (x : CCtx) (k : Core) (len : Nat) : List (Int × Nat) :=
  (List.range len).flatMap fun t =>
    let d := GDesc.ofBytes (x.o.e 1) (k.spRead ((x.b : Int) + t * x.o.srep).toNat (16 + 4 * x.o.e 1))
    d.idx.filterMap fun ix => if ix < 0 ∨ (d.nrows : Int) ≤ ix then none else some ((d.base : Int) + ix * x.o.sstr.e1, x.o.srb)

/-- The operands of a shaped copy of `len` instances whose extents do not depend on data, and the table rows of a cpyg to global
memory. -/
def CCtx.shapedRanges (x : CCtx) (k : Core) (len : Nat) : List CRange :=
  let o := x.o
  let dsp := x.dst == .sp
  let a : Int := x.a
  let b : Int := x.b
  let dn1 := o.ndr
  let ranges (rs : List (Int × Nat)) (ix base : Nat) (sp d : Bool) : List CRange := if rs = [] then [] else [⟨ix, base, sp, rs, d, false⟩]
  let tile (rs : List (Int × Nat)) (ix base : Nat) (sp d : Bool) : List CRange :=
    [⟨ix, base, sp, rs, d, d && decide (1 < o.ndr ∧ o.dstr.e1.natAbs < o.drb)⟩]
  let src : List CRange := match x.src with
    | .zero => []
    | .mem sp =>
      tile (tileRows b o.srep o.sstr.e1 o.sstr.e2 o.sstr.e3 (o.e 1) (o.e 2) (o.e 3) len o.srb) 1 x.b sp false
        ++ ranges (listRows b o.srep o.sscoff len (o.listLen o.sq)) 1 x.b sp false
    | .gather _ => tile (listRows b o.srep 0 len (16 + 4 * o.e 1)) 1 x.b true false
        ++ (if x.dst = .g then ranges (x.gathered k len) 1 x.b false false else [])
    | .scatter =>
      tile (tileRows b o.srep o.sstr.e1 0 0 (o.e 1) 1 1 len o.srb) 1 x.b true false
        ++ ranges (listRows b o.srep o.sscoff len (o.listLen o.sq)) 1 x.b true false
        ++ tile (listRows a o.drep 0 len (16 + 4 * o.e 1)) 0 x.a true false
  let dst : List CRange := match x.src, x.dst with
    | .scatter, _ => []
    | _, .fifo => ranges (if len = 0 ∨ o.listLen o.dq = 0 then [] else [(o.dscoff, o.listLen o.dq)]) 0 (16 * (o.dscoff.toNat / 16)) true (o.dq == 1)
    | .zero, _ => tile (tileRows a o.drep o.dstr.e1 o.dstr.e2 o.dstr.e3 dn1 (o.e 2) (o.e 3) len o.drb) 0 x.a dsp true
    | _, _ =>
      tile (tileRows a o.drep o.dstr.e1 o.dstr.e2 o.dstr.e3 dn1 (o.e 2) (o.e 3) len o.drb) 0 x.a dsp true
        ++ ranges (listRows a o.drep o.dscoff len (o.listLen o.dq)) 0 x.a dsp (o.dq == 1)
  src ++ dst

/-- The operands of a linear copy. -/
def CCtx.linearRanges (x : CCtx) (len : Nat) : List CRange :=
  if len = 0 then
    (match x.src with | .mem true => [⟨1, x.b, true, [], false, false⟩] | _ => []) ++ (if x.dst = .sp then [⟨0, x.a, true, [], true, false⟩] else [])
  else
    (match x.src with | .mem sp => [⟨1, x.b, sp, [((x.b : Int), len)], false, false⟩] | _ => [])
      ++ (match x.dst with | .fifo => [] | d => [⟨0, x.a, d == .sp, [((x.a : Int), len)], true, false⟩])

/-- Step 4 of R259: the landing word. -/
def landingCheck (c : Word) : EM Unit := do
  if ccLwe c then
    let k ← eCore
    match k.spCheck (BitVec.ofNat 64 (ccLwa c)) 16 false with
    | some t => throw t
    | none => pure ()
  else pure ()

/-- The rows of scratchpad that a command will write are pending from its start (R185). -/
def markRanges (rs : List CRange) : EM Unit :=
  rs.forM fun r => if r.dst && r.sp then r.rs.forM fun p => eMark p.1.toNat p.2 else pure ()

/-- A copy command from its start or from the unit it stopped at (R259, R260, R267). -/
def runCopy (dst : CDst) (src : CSrc) : EM Unit := do
  let y ← get
  let c := y.cmd.c
  let a := y.cmd.a.toNat
  let b := y.cmd.b.toNat
  let h := ccHandle c
  let len := ccLen c
  let needShape := match src with | .gather _ | .scatter => true | _ => false
  let start ← (match y.cmd.prog with
    | .rows u p => pure (u, p)
    | _ => do
      echeck (ccZero c) Cause.tileSpan (opNo 2) c.toNat
      echeck (h = 0 && !needShape || decide (len ≤ 65535)) Cause.tileSpan (opNo 2) c.toNat
      echeck (dst != .fifo || a / 32 == 0) Cause.scratchpadRange 0 a
      echeck (!(h == 0 && needShape)) Cause.shapeHandleInvalid 0 h
      let obj ← (if h = 0 then pure [] else resolveShape h)
      modify fun z => { z with cmd := { z.cmd with obj := obj } }
      let o := Shape.ofBytes obj
      let x : CCtx := ⟨a, b, c, o, dst, src⟩
      landingCheck c
      echeck (!needShape || o.dims == 2) Cause.tileSpan (opNo 2) o.dims
      echeck (!(src == .scatter && o.trn == 1)) Cause.tileSpan (opNo 2) o.flags
      echeck (!(h != 0 && dst == .fifo) || decide (o.drb ≤ 16384)) Cause.tileSpan (opNo 2) o.drb
      let k ← eCore
      let rs := if h = 0 then x.linearRanges len else x.shapedRanges k len
      copyChecks (if dst = .fifo then some (a % 32) else none) rs
      markRanges rs
      pure (0, 0))
  let z ← get
  let o := Shape.ofBytes z.cmd.obj
  let x : CCtx := ⟨a, b, c, o, dst, src⟩
  let base := if dst = .fifo then b else a
  if h = 0 then
    runAll c (x.linearUnit len) (fun _ _ _ u => [((128 * (base / 128 + u) : Nat), 128)])
      (if len = 0 then 0 else (base + len - 1) / 128 + 1 - base / 128) start.1 start.2
  else runAll c x.shapedUnit x.unitSpans (len * x.instUnits) start.1 start.2

/-! ## xform (R271) -/

/-- Source rows of an instance, gathered. -/
def CCtx.gatherRaw (x : CCtx) (sp : Bool) (t : Nat) : EM (List Byte) := do
  let o := x.o
  let base : Int := (x.b : Int) + t * o.srep
  let rows ← (tileRows base 0 o.sstr.e1 o.sstr.e2 o.sstr.e3 (o.e 1) (o.e 2) (o.e 3) 1 o.srb).mapM fun r => cRead sp r.1 r.2
  pure rows.flatten

/-- What the routine makes of an instance, run once (R271). -/
def CCtx.xformOut (x : CCtx) (sp : Bool) (r : Nat) (image : List Byte) (t : Nat) : EM (List Byte) := do
  let y ← get
  if y.cmd.out ≠ [] then pure y.cmd.out
  else
    let input ← x.gatherRaw sp t
    match Config.transformFault r image input t with
    | some 0 => do efault Cause.transformFault 3 (← eFree)
    | some 1 => do efault Cause.transformFault 4 (← eFree)
    | some v => efault Cause.transformFault 2 (v - 1)
    | none => do
      let out := Config.transform r image input t (x.o.drb * x.o.nrows)
      modify fun z => { z with cmd := { z.cmd with out := out } }
      pure out

/-- Unit `u` of an xform from its piece `p` on: one destination row of an instance. -/
def CCtx.xformUnit (x : CCtx) (sp : Bool) (r : Nat) (image : List Byte) (u p : Nat) : EM Bool := do
  let n := x.instUnits
  let out ← x.xformOut sp r image (u / n)
  let q := u % n
  let row := x.dstRow (u / n) (q % x.o.e 1) (q / x.o.e 1 % x.o.e 2) (q / (x.o.e 1 * x.o.e 2)) 0
  putPieces u (piecesOf (x.dst == .sp) true row ((List.range x.o.drb).map fun i => out.getD (q * x.o.drb + i) 0)) p
  if q + 1 = n then modify fun y => { y with cmd := { y.cmd with out := [] } } else pure ()
  pure true

/-- xform; a command that has started keeps its routine (R431). -/
def runXform (dsp ssp : Bool) (r : Nat) : EM Unit := do
  let y ← get
  let c := y.cmd.c
  let h := ccHandle c
  let len := ccLen c
  let dst : CDst := if dsp then .sp else .g
  let start ← (match y.cmd.prog with
    | .rows u p => pure (u, p)
    | _ => do
      echeck (ccZero c) Cause.tileSpan (opNo 2) c.toNat
      echeck (decide (len ≤ 65535)) Cause.tileSpan (opNo 2) c.toNat
      echeck (h != 0) Cause.shapeHandleInvalid 0 h
      let obj ← resolveShape h
      modify fun z => { z with cmd := { z.cmd with obj := obj } }
      let o := { Shape.ofBytes obj with flags := 0 }
      landingCheck c
      let k ← eCore
      let rs := (⟨y.cmd.a.toNat, y.cmd.b.toNat, c, o, dst, .mem ssp⟩ : CCtx).shapedRanges k len
      copyChecks none rs
      let z ← get
      echeck (z.s.iod.routines.find r).isSome Cause.transformFault 0 r
      echeck (decide (o.srb * o.nrows ≤ 16384)) Cause.transformFault 1 (o.srb * o.nrows)
      echeck (decide (rowLen (o.e 0) o.dw * o.nrows ≤ 16384)) Cause.transformFault 1 (rowLen (o.e 0) o.dw * o.nrows)
      markRanges rs
      modify fun z => { z with cmd := { z.cmd with routine := z.s.iod.routines.find r } }
      pure (0, 0))
  let z ← get
  let o := { Shape.ofBytes z.cmd.obj with flags := 0 }
  let x : CCtx := ⟨y.cmd.a.toNat, y.cmd.b.toNat, c, o, dst, .mem ssp⟩
  runAll c (x.xformUnit ssp r (z.cmd.routine.getD [])) x.unitSpans (len * x.instUnits) start.1 start.2

/-! ## Issue -/

def execCpy (e : EOp) (dsp ssp : Space) (scp : Scope) (s : State) : Out := enqueue (.cpy e dsp ssp scp) s
def execCpyf (e : EOp) (ssp : Space) (s : State) : Out := enqueue (.cpyf e ssp) s
def execCpyg (e : EOp) (dsp : Space) (scp : Scope) (fifo z : Bool) (s : State) : Out := enqueue (.cpyg e dsp scp fifo z) s
def execCpys (e : EOp) (scp : Scope) (s : State) : Out := enqueue (.cpys e scp) s
def execCpyz (e : EOp) (dsp : Space) (scp : Scope) (s : State) : Out := enqueue (.cpyz e dsp scp) s
def execTsobj (t : Tok) (a b : Reg) (s : State) : Out := enqueue (.tsobj t a b) s
def execTsdrop (t : Tok) (b : Reg) (s : State) : Out := enqueue (.tsdrop t b) s
def execXform (e : EOp) (dsp ssp : Space) (scp : Scope) (r : BitVec 8) (s : State) : Out := enqueue (.xform e dsp ssp scp r) s
def execCard (e : EOp) (s : State) : Out := enqueue (.card e) s
def execCardwt (e : EOp) (s : State) : Out := enqueue (.cardwt e) s
def execFld (e : EOp) (sz : Fin 7) (ord : Ord) (s : State) : Out := enqueue (.fld e sz ord) s
def execFst (e : EOp) (sz : Fin 7) (ord : Ord) (s : State) : Out := enqueue (.fst e sz ord) s
def execFamo (e : EOp) (op : Aop) (dbl : Bool) (ord : Ord) (s : State) : Out := enqueue (.famo e op dbl ord) s
def execFput (e : EOp) (ssp : Space) (ord : Ord) (s : State) : Out := enqueue (.fput e ssp ord) s
def execFget (e : EOp) (dsp : Space) (ord : Ord) (s : State) : Out := enqueue (.fget e dsp ord) s
def execFsig (e : EOp) (s : State) : Out := enqueue (.fsig e) s
def execFfence (e : EOp) (s : State) : Out := enqueue (.ffence e) s
def execAttn (t : Tok) (a : Reg) (s : State) : Out := enqueue (.attn t a) s
def execKvapp (t : Tok) (a b c : Reg) (nm1 : BitVec 6) (adv : Bool) (s : State) : Out := enqueue (.kvapp t a b c nm1 adv) s

end Sys2Proof.Machine
end

