-- ==== Sys2Proof/Machine/Banks.lean ====
section
/-! DEFINITION. Switching the mode of a core SRAM bank (R170 to R172). -/

namespace Sys2Proof.Machine

/-- The FIFO banks a command names (R170): operand streams of M, the streams of attn, the rings V and C append to. -/
def Core.fifoBanks (k : Core) (x : Cmd) : List Nat :=
  let a := x.a.toNat
  match x.instr with
  | .mma _ _ _ _ | .mmaz _ _ _ _ | .mgma _ _ _ _ _ _ => [a % 32, a / 256 % 32]
  | .attn _ _ => [le (k.spRead (a + 0x24) 1) % 32, le (k.spRead (a + 0x25) 1) % 32]
  | .cpyf _ _ => [a % 32]
  | .cpyg _ _ _ fifo _ => if fifo then [a % 32] else []
  | .vcopy v => if v.sub.getLsbD 0 then [a % 32] else []
  | _ => []

/-- Whether a queued or running M, V or C command names a bank as a FIFO bank (R170). -/
def Core.fifoBusy (k : Core) (b : Nat) : Bool :=
  !(k.ring b).isEmpty || (k.eng.e0.q ++ k.eng.e1.q ++ k.eng.e2.q).any fun x => (k.fifoBanks x).contains b

/-- The contents of a bank become undefined: a new generation of free bytes (R171; log 3). -/
def Core.wipeBank (k : Core) (b : Nat) : Core :=
  let inB (a : Nat) : Bool := a / 65536 == b
  { k with scratch := k.scratch.filter fun e => !inB e.1, scrMeta := k.scrMeta.filter fun e => !inB e.1,
           torn := k.torn.filter fun e => !inB (8 * e.1),
           ueWords := k.ueWords.filter fun w => !inB (8 * w), landRels := k.landRels.filter fun e => !inB e.1,
           landOpen := k.landOpen.filter fun e => !inB e.1,
           bankEpoch := k.bankEpoch.put b (k.bankEpoch.get 0 b + 1) }

/-- What leaving a mode does (R170). -/
def State.leaveMode (s : State) (c b : Nat) (old : BankMode) : State :=
  match old with
  | .scratch => s.modCore c fun k => { k with pendRows := k.pendRows.filter fun r => r.1 / 512 != b }
  | .cache =>
    let lines := ((s.core c).dc.filter fun l => l.way == b).map (·.line)
    (s.flushLines c (fun l => lines.contains l)).modCore c fun k => { k with dc := k.dc.filter fun l => l.way != b }
  | _ => s

/-- Sets the mode of a bank that meets the preconditions (R171). Locks held on its words stay held (log 94). -/
def State.setMode (s : State) (c b : Nat) (m : BankMode) : State :=
  let s := s.leaveMode c b ((s.core c).mode b)
  s.modCore c fun k =>
    let k := { k with bankMode := Tab.set .scratch k.bankMode b m, rings := Tab.set [] k.rings b [] }
    match m with
    | .scratch => k.wipeBank b
    | .dark => k.wipeBank b
    | _ => k

/-- Whether a pending spamo of the strand works in a bank. -/
def Strand.spamoIn (t : Strand) (b : Nat) : Bool :=
  t.sb.any fun x => match x.work with | .spamo q _ _ _ _ => q / 65536 == b | _ => false

def execMapb (a : Reg) (m : BankMode) (s : State) : Out :=
  let v := s.rd a
  let b := v.toNat
  if 32 ≤ b ∨ ¬ s.me.budget.getLsbD b then .next (s.takeTrap ⟨Cause.scratchpadRange, 0, v⟩)
  else if s.me.mode b = m then .next s
  else if s.me.mode b = .fifo ∧ s.me.fifoBusy b then .next (s.takeTrap ⟨Cause.bankModeBusy, 0, v⟩)
  else if s.str.spamoIn b then .next (s.hold .lock)
  else .next (s.setMode s.iss.core b m)

end Sys2Proof.Machine
end

