-- ==== Sys2Proof/Machine/Link.lean ====
section
/-! DEFINITION. Links, routes and the sending of fabric requests and responses (R415 to R422). -/

namespace Sys2Proof.Machine

/-- Link `l`. -/
def Iod.link (i : Iod) (l : Nat) : Link := i.links.get Link.zero l

/-- Changes link `l`. -/
def State.modLink (s : State) (l : Nat) (f : Link → Link) : State :=
  s.modIod fun i => { i with links := i.links.put l (f (i.link l)) }

/-- A link works when its readiness bit is set and it is keyed (R417, R420 UP). -/
def State.linkUp (s : State) (l : Nat) : Bool := s.isReady .link l && (s.iod.link l).key.isSome

/-- The links a flit for device `t` may take (R416, R417). -/
def State.ports (s : State) (t : Nat) : List Nat :=
  let e := s.iod.route.get 0 t
  if !e.getLsbD 31 then []
  else
    let up (lo : Nat) : List Nat := (List.range 12).filter fun l => e.getLsbD (lo + l) && s.linkUp l
    let m := up 0
    if m = [] then up 12 else m

/-- Source device, source core, destination and whether any link may be taken, of a flit (R417). -/
def flitFlow : FlitBody → Nat × Nat × Nat × Bool
  | .req r => (r.src, r.core, r.dst, match r.body with | .chunkWr _ _ _ | .chunkRd _ _ _ => true | _ => false)
  | .resp r => (r.src, r.core, r.dst, decide (128 < r.data.length))

/-- Flits of 128 bytes that carry a body: one for each 128 bytes of its data, and at least one (R419; log 94). -/
def flitsOf (b : FlitBody) : Nat :=
  let n := match b with
    | .req r => (match r.body with
      | .wr _ bs | .chunkWr _ _ bs | .caskWr _ _ bs | .lend _ _ _ bs => bs.length
      | _ => 0)
    | .resp r => r.data.length
  Max.max 1 ((n + 127) / 128)

/-- The latest flits of a replay buffer, as many as its 1,024 places hold (R419). -/
def replayKeep (fs : List Flit) : List Flit :=
  (fs.reverse.foldl (fun (a : Nat × List Flit) f =>
    if a.1 + flitsOf f.body ≤ 1024 then (a.1 + flitsOf f.body, f :: a.2) else (1025, a.2)) (0, [])).2

/-- The flits of a replay buffer after one that has been acknowledged (R419). -/
def replayAfter (fs : List Flit) (n : Nat) : List Flit :=
  if fs.any fun f => f.lseq == n then (fs.dropWhile fun f => f.lseq != n).drop 1 else fs

/-- Sends a flit that has made `hop` traversals towards its destination; none where it is discarded (R417). -/
def State.emit (s : State) (hop : Nat) (b : FlitBody) : Option State :=
  let (src, core, dst, any) := flitFlow b
  let ps := s.ports dst
  if ps = [] ∨ 16 ≤ hop then none
  else
    let (ix, s) := if any then (let (t, s) := s.draw; (Config.freeNat t, s)) else (Config.linkHash src core dst, s)
    let l := ps.getD (ix % ps.length) 0
    some (s.modLink l fun k =>
      let f : Flit := ⟨hop + 1, k.epoch, k.lseq % 2 ^ 16, true, true, k.rxGood, b⟩
      { k with lseq := k.lseq + flitsOf b, txCount := k.txCount + BitVec.ofNat 64 (flitsOf b), replay := replayKeep (k.replay ++ [f]) })

/-- Number of this device's next request from a core to a device, and the state after taking it (R418). -/
def State.takeSeq (s : State) (core dst : Nat) : Nat × State :=
  let k := core * 4096 + dst
  let n := s.iod.seqNext.get 0 k
  (n, s.modIod fun i => { i with seqNext := i.seqNext.put k ((n + 1) % 2 ^ 16) })

/-- Puts a request on its way: to this device itself, over a link, or nowhere; answers whether it was discarded (R415, R417). -/
def State.dispatchReq (s : State) (r : FabReq) : Bool × State :=
  if s.iod.devnum = 0xFFF then (true, s)
  else if r.dst = s.iod.devnum then (false, s.modIod fun i => { i with inbound := i.inbound ++ [r] })
  else match s.emit 0 (.req r) with
    | some s => (false, s)
    | none => (true, s)

/-- Sends a request and waits for its response (R418); answers its sequence number. -/
def State.sendReq (s : State) (core dst key : Nat) (rel : Bool) (body : FabBody) (fly : Option Nat) : Nat × State :=
  let (n, s) := s.takeSeq core dst
  let r : FabReq := ⟨s.iod.devnum, core, dst, n, key, rel, body⟩
  let (dead, s) := s.dispatchReq r
  (n, s.modIod fun i => { i with outReqs := i.outReqs ++ [⟨r, fly, 0, dead⟩] })

end Sys2Proof.Machine
end

