-- ==== Sys2Proof/Machine/Kv.lean ====
section
/-! DEFINITION. The key-value store: entries, racks, casks and pools, and the strand KV instructions (R227 to R234, R248 to R254, R426). -/

namespace Sys2Proof.Machine

/-! ## Access to the store (kept at the home slices, performed at .pkg) -/

/-- Reads bytes at a physical address. -/
def kvGet (kid pa n : Nat) : Op (List Byte) := liftE fun s => s.pget kid pa n

/-- The writes of a range of bytes are performed on every die. -/
def State.spread (s : State) (pa n : Nat) : State :=
  [(0 : Fin 4), 1, 2, 3].foldl (fun s d =>
    s.forceUpds d (((s.die d).upds.filter fun u => u.bytes.any fun b => decide (pa ≤ b.1 ∧ b.1 < pa + n)).map (·.wid))) s

/-- Writes bytes at a physical address, performed at .pkg (R247, R248). -/
def State.pkgPut (s : State) (kid pa : Nat) (bs : List Byte) : Except Trap State :=
  match s.pput kid pa bs with
  | .error t => .error t
  | .ok s => .ok (s.spread pa bs.length)

/-- Writes bytes at a physical address. -/
def kvPut (kid pa : Nat) (bs : List Byte) : Op Unit :=
  liftE fun s => match s.pkgPut kid pa bs with | .ok s => .ok ((), s) | .error t => .error t

/-- A Cellarer register by offset (R425). -/
def Die.cellReg (d : Die) (off : Nat) : Nat := (d.cell.get 0 off).toNat

/-- A Cellarer register of a die. -/
def cellOf (d off : Nat) : Op Nat := do
  let s ← get
  pure ((s.die (Fin.ofNat 4 d)).cellReg off)

/-! ## Sequence-table entries (R227, R229, R230) -/

/-- A sequence-table entry with its place. -/
structure SeqEnt where
  pa : Nat
  len : Nat
  layers : Nat
  ppc : Nat
  ngrp : Nat
  hpg : Nat
  dh : Nat
  state : Nat
  home : Nat
  keyid : Nat
  rack : Nat
  ncask : Nat
  job : Nat
  csize : Nat
  raw : List Byte
  deriving DecidableEq, Repr

/-- The fields of 64 bytes at a physical address. -/
def SeqEnt.ofBytes (pa : Nat) (b : List Byte) : SeqEnt :=
  { pa := pa, len := fld b 0 4, layers := fld b 4 2, ppc := fld b 6 2, ngrp := fld b 8 2, hpg := fld b 0xA 1,
    dh := 32 * fld b 0xB 1, state := fld b 0xC 1, home := fld b 0xD 1, keyid := fld b 0xE 2, rack := fld b 0x10 8,
    ncask := fld b 0x18 4, job := fld b 0x1C 4, csize := fld b 0x20 1, raw := b }

/-- Bytes of a cask. -/
def caskBytes (csize : Nat) : Nat := if csize = 0 then 2 ^ 14 else 2 ^ 16

/-- Sub-cause 4 of R230. -/
def SeqEnt.bad (e : SeqEnt) : Bool :=
  decide (2 ^ 24 < e.len) || decide (e.layers < 1 ∨ 1024 < e.layers)
    || !((List.range 11).any fun k => e.ppc == 2 ^ k) || decide (e.ngrp < 1 ∨ 256 < e.ngrp)
    || decide (e.hpg < 1 ∨ 16 < e.hpg) || decide (e.dh < 32 ∨ 256 < e.dh) || decide (1024 ≤ e.keyid)
    || e.rack % 64 != 0 || decide (2 ^ 52 ≤ e.rack) || decide (e.ncask < 1 ∨ 2 ^ 20 < e.ncask) || decide (1 < e.csize)
    || !((e.raw.drop 0x21).all (· == 0)) || decide (caskBytes e.csize < 4 * e.ppc * e.hpg * e.dh)

/-- Positions a sequence can hold (R229). -/
def SeqEnt.capacity (e : SeqEnt) : Nat := e.ncask * e.ppc

/-- Resolves a handle for a context (R227, R230). -/
def resolveHandle (h keyid job : Nat) (sup : Bool) : Op SeqEnt := do
  let d := h / 2 ^ 30 % 4
  let ix := h % 2 ^ 30
  let bad (n : Nat) : Trap := ⟨Cause.kvBadHandle, n, BitVec.ofNat 64 h⟩
  let cnt ← cellOf d 8
  let base ← cellOf d 0
  if cnt ≤ ix then raiseT (bad 0)
  else
    let e := SeqEnt.ofBytes (base + 64 * ix) (← kvGet 0 (base + 64 * ix) 64)
    if e.state ≠ 1 then raiseT (bad 1)
    else if e.home ≠ d then raiseT (bad 2)
    else if e.keyid % 1024 ≠ keyid ∨ (¬ sup ∧ e.job ≠ job) then raiseT (bad 3)
    else if e.bad then raiseT (bad 4)
    else pure e

/-- Physical address of the rack entry of cask number `i` of a layer and group (R231). -/
def SeqEnt.rackAt (e : SeqEnt) (y g i : Nat) : Nat := e.rack + 4 * ((y * e.ngrp + g) * e.ncask + i)

/-- The empty cask id (R228). -/
def emptyId : Nat := 0xFFFFFFFF

/-- Reads a rack entry. -/
def rackGet (e : SeqEnt) (y g i : Nat) : Op Nat := do
  let b ← kvGet 0 (e.rackAt y g i) 4
  pure (le b)

/-- Writes a rack entry. -/
def rackPut (e : SeqEnt) (y g i id : Nat) : Op Unit := kvPut 0 (e.rackAt y g i) (toLe 4 id)

/-! ## Cask descriptors (R232) -/

/-- A cask descriptor with its place. -/
structure Desc where
  pa : Nat
  addr : Nat
  refcnt : Nat
  tierB : Nat
  fmtB : Nat
  clsB : Nat
  stateB : Nat
  lent : Nat
  ver : Nat
  z : Nat
  soft : Nat
  deriving DecidableEq, Repr

def Desc.ofBytes (pa : Nat) (b : List Byte) : Desc :=
  ⟨pa, fld b 0 8, fld b 8 2, fld b 0xA 1, fld b 0xB 1, fld b 0xC 1, fld b 0xD 1, fld b 0xE 2, fld b 0x10 4, fld b 0x14 4, fld b 0x18 8⟩

def Desc.toBytes (d : Desc) : List Byte :=
  toLe 8 d.addr ++ toLe 2 d.refcnt ++ toLe 1 d.tierB ++ toLe 1 d.fmtB ++ toLe 1 d.clsB ++ toLe 1 d.stateB ++ toLe 2 d.lent
    ++ toLe 4 d.ver ++ toLe 4 d.z ++ toLe 8 d.soft

def Desc.tier (d : Desc) : Nat := d.tierB % 4
def Desc.size (d : Desc) : Nat := d.tierB / 4 % 2
def Desc.present (d : Desc) : Bool := d.stateB.testBit 0
def Desc.transit (d : Desc) : Bool := d.stateB.testBit 1
/-- Absent: tier 3, or not present (R232). -/
def Desc.absent (d : Desc) : Bool := d.tier == 3 || !d.present

/-- The descriptor's address is in its coding for its tier (R232). -/
def Desc.addrOk (d : Desc) : Bool :=
  match d.tier with
  | 1 => decide (d.addr < 2 ^ 44)
  | 3 => d.addr == 0
  | _ => d.addr % caskBytes d.size == 0

/-- A valid descriptor for a sequence's cask size; one in transit is not judged on addr or fmt (R232). -/
def Desc.ok (d : Desc) (csize : Nat) : Bool :=
  decide (d.tierB < 8) && decide (d.clsB < 4) && decide (d.stateB < 8) && d.lent / 2 ^ 12 % 8 == 0 && d.z == 0
    && d.size == csize && decide (1 ≤ d.refcnt)
    && (d.transit || ([1, 3, 6].contains d.fmtB && d.addrOk))

/-- With a reference count, the cow bit kept (R232). -/
def Desc.withRef (d : Desc) (n : Nat) : Desc :=
  { d with refcnt := n, stateB := d.stateB % 4 + (if 1 < n then 4 else 0) }

/-- Place of a cask's descriptor, if its id lies within its die's table (R228). -/
def descAt (id : Nat) : Op (Option Nat) := do
  let cnt ← cellOf (id / 2 ^ 30 % 4) 0x18
  let base ← cellOf (id / 2 ^ 30 % 4) 0x10
  pure (if id % 2 ^ 30 < cnt then some (base + 32 * (id % 2 ^ 30)) else none)

/-- Reads a descriptor; an id beyond its table raises kv_rack_invalid with `val` (R228). -/
def descGet (id : Nat) (val : Word) : Op Desc := do
  match ← descAt id with
  | none => raise Cause.kvRackInvalid 0 val
  | some pa =>
    let b ← kvGet 0 pa 32
    pure (Desc.ofBytes pa b)

/-- Writes a descriptor in one update. -/
def descPut (d : Desc) : Op Unit := kvPut 0 d.pa d.toBytes

/-- Reads and checks a descriptor (R232). -/
def descChecked (id csize : Nat) (val : Word) : Op Desc := do
  let d ← descGet id val
  check (d.ok csize) Cause.kvRackInvalid 0 val
  pure d

/-! ## Pools (R426) -/

/-- A pool's header: place, enq, deq, ring, slots. -/
structure Pool where
  pa : Nat
  enq : Nat
  deq : Nat
  ring : Nat
  n : Nat
  deriving DecidableEq, Repr

/-- Pool `p` of a die; none where its header register holds 0. -/
def poolOf (d p : Nat) : Op (Option Pool) := do
  let h ← cellOf d (0x20 + 8 * p)
  if h = 0 then pure none
  else
    let b ← kvGet 0 h 64
    pure (some ⟨h, fld b 0 8, fld b 8 8, fld b 0x10 8, 2 ^ (fld b 0x18 8 % 25)⟩)

/-- Values free in a pool. -/
def poolFree (d p : Nat) : Op Nat := do
  match ← poolOf d p with
  | none => pure 0
  | some q => pure (q.enq - q.deq)

/-- Takes a value, if there is one. -/
def poolTake (d p : Nat) : Op (Option Nat) := do
  match ← poolOf d p with
  | none => pure none
  | some q =>
    let slot := q.ring + 16 * (q.deq % q.n)
    let b ← kvGet 0 slot 16
    if fld b 8 8 = q.deq + 1 then do
      kvPut 0 (q.pa + 8) (toLe 8 (q.deq + 1))
      kvPut 0 (slot + 8) (toLe 8 (q.deq + q.n))
      pure (some (fld b 0 8))
    else pure none

/-- Gives a value back; a pool without a header loses it; false where its ring is full (R426). -/
def poolGive (d p v : Nat) : Op Bool := do
  match ← poolOf d p with
  | none => pure true
  | some q =>
    let slot := q.ring + 16 * (q.enq % q.n)
    let b ← kvGet 0 slot 16
    if fld b 8 8 = q.enq then do
      kvPut 0 q.pa (toLe 8 (q.enq + 1))
      kvPut 0 slot (toLe 8 v ++ toLe 8 (q.enq + 1))
      pure true
    else pure false

/-! ## Releases (R250) -/

/-- Whether an M command waits for a cask of a lender: a walker reads it (R234, R250). -/
def State.walked (s : State) (cask : Nat) : Bool := s.cores.any fun e => e.2.kvRem.any fun r => r.cask == cask

/-- Makes a release of a die; none where it has to wait: for a walker, for room in the ring, for memory it cannot reach. -/
def State.makeGive (s : State) (die : Fin 4) (g : Give) : Option State :=
  if (match g.cask with | some c => s.walked c | none => false) then none
  else match g.dest with
    | .lender dev cask => some (s.sendReq (256 + die.val) dev 0 true (.caskDrop cask) none).2
    | .pool d p v =>
      match poolGive d p v s with
      | .ok (true, s') => some s'
      | _ => none

/-- Makes a release, or leaves it for later. -/
def State.give (s : State) (die : Fin 4) (g : Give) : State :=
  match s.makeGive die g with
  | some s' => s'
  | none => s.modDie die fun k => { k with gives := k.gives ++ [g] }

/-- Tries the releases that wait, oldest first (R250). -/
def State.settleGives (s : State) : State :=
  [(0 : Fin 4), 1, 2, 3].foldl (fun s d => (s.die d).gives.foldl (fun s g => s.give d g) (s.modDie d fun k => { k with gives := [] })) s

/-- A release; one that an instruction or a command of a core makes is of that core's iteration (R250). -/
def release (core : Option Nat) (die : Nat) (cask : Option Nat) (dest : GiveTo) : Op Unit :=
  modify fun s => s.give (Fin.ofNat 4 die) ⟨core, cask, dest⟩

/-! ## Lending agreements (R429) -/

/-- Words of agreement `a` of a die. -/
def Die.agree0 (d : Die) (a : Nat) : Nat := d.cellReg (0x100 + 16 * a)
def Die.agree1 (d : Die) (a : Nat) : Nat := d.cellReg (0x108 + 16 * a)
def agValid (w : Nat) : Bool := w.testBit 63
def agLends (w : Nat) : Bool := w.testBit 62
def agPeerDie (w : Nat) : Nat := w / 2 ^ 60 % 4
def agPeer (w : Nat) : Nat := w / 2 ^ 48 % 4096
def agQuota (w : Nat) : Nat := w % 2 ^ 32
def agUsed (w : Nat) : Nat := w / 2 ^ 32
def agKey (w : Nat) : Nat := w % 1024

/-- Adds to USED of an agreement, or takes from it. -/
def State.agUse (s : State) (d : Fin 4) (a : Nat) (i : Int) : State :=
  s.modDie d fun k =>
    let w := k.agree1 a
    { k with cell := k.cell.put (0x108 + 16 * a) (BitVec.ofNat 64 (w % 2 ^ 32 + ((agUsed w : Int) + i).toNat * 2 ^ 32)) }

/-- The valid agreement of a die with a peer, device and die, in a role. -/
def Die.findAgree (d : Die) (lends : Bool) (dev die : Nat) : Option Nat :=
  (List.range 8).find? fun a =>
    let w := d.agree0 a
    agValid w && agLends w == lends && agPeer w == dev && agPeerDie w == die

/-- Lender of a tier-1 cask: device, cask id there, and die, which the id names (R228, R232). -/
def Desc.lender (d : Desc) : Nat × Nat × Nat := (d.addr / 2 ^ 32 % 4096, d.addr % 2 ^ 32, d.addr / 2 ^ 30 % 4)

/-- USED of a borrower's agreement with the lender of a cask changes. -/
def State.borrowed (s : State) (die : Nat) (d : Desc) (i : Int) : State :=
  let (dev, _, pd) := d.lender
  match (s.die (Fin.ofNat 4 die)).findAgree false dev pd with
  | some a => s.agUse (Fin.ofNat 4 die) a i
  | none => s

/-! ## Reference counts (R250, R427) -/

/-- Pool of the storage of a cask of a die. -/
def Desc.pool (d : Desc) : Nat := (if d.tier = 0 then 3 else 5) + d.size

/-- Returns the storage and the id of a cask that nothing refers to any more (R250). -/
def freeCask (core : Option Nat) (id : Nat) (d : Desc) : Op Unit := do
  let die := id / 2 ^ 30 % 4
  if d.tier = 1 then do
    modify fun s => s.borrowed die d (-1)
    release core die (some id) (.lender d.lender.1 d.lender.2.1)
  else if d.tier = 3 then pure ()
  else release core die (some id) (.pool die d.pool d.addr)
  release core die (some id) (.pool die 2 id)

/-- Lowers the count of a cask of a sequence; at 0 it is returned, but for one in transit, which its restorer returns (R250, R427).
An id or a descriptor that is not valid raises kv_rack_invalid (R228, R232). -/
def releaseCask (core id csize : Nat) (val : Word) : Op Unit := do
  let d ← descChecked id csize val
  let d' := d.withRef (d.refcnt - 1)
  descPut d'
  if d'.refcnt = 0 ∧ ¬ d.transit then freeCask (some core) id d' else pure ()

/-! ## Rows (R233, R234) -/

/-- Bytes of a stored row. -/
def caskRowBytes (fmt dh : Nat) : Nat := if fmt = 1 then 2 * dh else if fmt = 3 then dh else dh / 2

/-- Format of a stored element in the coding of R54. -/
def caskFmt (fmt : Nat) : Nat := if fmt = 1 then 1 else if fmt = 3 then 3 else 6

/-- Row `r` of 2P (K rows, then V rows) of a cask's bytes, as exact scaled values (R233). -/
def caskRow (fmt dh p : Nat) (compat : Bool) (bs : List Byte) (r : Nat) : List FVal × Flags :=
  let b := caskRowBytes fmt dh
  let els := unpackEls (fmtWidth (caskFmt fmt)) dh (bs.drop (r * b))
  let sc := 2 * p * b
  els.zipIdx.foldl (fun (acc : List FVal × Flags) e =>
    let (v, f) := elemDecode (caskFmt fmt) compat e.1
    let (v, g) := match fmt with
      | 3 => rowScaled (fld bs (sc + 4 * r) 4) v
      | 6 => (blockScaled (fld bs (sc + r * (dh / 32) + e.2 / 32) 1) v, 0)
      | _ => (v, 0)
    (acc.1 ++ [v], acc.2 ||| f ||| g)) ([], 0)

/-- The BF16 to FP8 E4M3 step on a row: scale and elements (R234). -/
def rowToFp8 (vs : List FVal) : Nat × List Nat × Flags :=
  let special := vs.any fun v => match v with | .num _ _ => false | _ => true
  let amax := vs.foldl (fun m v => Max.max m v.mag) (0 : Rat)
  let s : Nat :=
    if special then 0x7FC00000
    else if amax = 0 then 0x3F800000
    else (fp32.encode .rne false (.num false (pow2 (flog2 amax - 8)))).1
  let es := vs.map fun v => encodeFmt 3 true (rowQuot s v)
  (s, es.map (·.1), es.foldl (fun f e => f ||| e.2) 0)

/-- The FP8 E4M3 to MXFP4 step on a row of exact values: block scales and elements (R234). -/
def rowToFp4 (vs : List FVal) : List Nat × List Nat × Flags :=
  (List.range (vs.length / 32)).foldl (fun (acc : List Nat × List Nat × Flags) b =>
    let (sc, es, f) := blockEncode 6 false ((vs.drop (32 * b)).take 32)
    (acc.1 ++ [sc], acc.2.1 ++ es, acc.2.2 ||| f)) ([], [], 0)

/-- The stored bytes of a row and of its scales in a format, from BF16 values (R234, R246). -/
def rowStore (fmt : Nat) (vs : List FVal) : List Byte × List Byte × Flags :=
  match fmt with
  | 3 => let (s, es, f) := rowToFp8 vs; (packEls 8 es, toLe 4 s, f)
  | 6 =>
    let (s, es, f) := rowToFp8 vs
    let back := es.map fun e => rowScaled s (decodeFmt 3 e).1
    let (ss, es', f') := rowToFp4 (back.map (·.1))
    (packEls 4 es', ss.flatMap (toLe 1), f ||| back.foldl (fun f b => f ||| b.2) 0 ||| f')
  | _ => (packEls 16 (vs.map fun v => (encodeFmt 1 false v).1), [], 0)

/-- Replaces bytes of a list at an offset. -/
def patch (bs : List Byte) (off : Nat) (new : List Byte) : List Byte :=
  bs.take off ++ new ++ bs.drop (off + new.length)

/-- A cask's bytes with row `r` stored anew. -/
def putRow (fmt dh p : Nat) (bs : List Byte) (r : Nat) (vs : List FVal) : List Byte × Flags :=
  let b := caskRowBytes fmt dh
  let (row, sc, f) := rowStore fmt vs
  (patch (patch bs (r * b) row) (2 * p * b + r * sc.length) sc, f)

/-- A cask's rows brought from one stored format to another one step or two down the ladder (R234); flags are discarded. -/
def convertCask (src dst dh p : Nat) (bs : List Byte) : List Byte :=
  if src = dst then bs
  else
    (List.range (2 * p)).foldl (fun out r =>
      let vs := (caskRow src dh p false bs r).1
      if src = 3 ∧ dst = 6 then
        let (ss, es, _) := rowToFp4 vs
        patch (patch out (r * (dh / 2)) (packEls 4 es)) (p * dh + r * (dh / 32)) (ss.flatMap (toLe 1))
      else (putRow dst dh p out r vs).1) (List.replicate bs.length 0)

/-! ## Strand KV instructions (R248 to R253) -/

/-- The handle of the issuing strand's operand, resolved. -/
def myHandle (h : Nat) : Op SeqEnt := do
  let s ← get
  resolveHandle h (s.me.keyid.toNat % 1024) s.me.jobId.toNat s.str.sup

/-- Every (layer, group) of a sequence. -/
def SeqEnt.planes (e : SeqEnt) : List (Nat × Nat) :=
  (List.range e.layers).flatMap fun y => (List.range e.ngrp).map fun g => (y, g)

/-- Number of casks that hold `n` positions. -/
def SeqEnt.casks (e : SeqEnt) (n : Nat) : Nat := (n + e.ppc - 1) / e.ppc

/-- The effect of kvfork on a resolved parent (R249): the new handle. -/
def forkSeq (h : Nat) (e : SeqEnt) (b : Nat) : Op Nat := do
  let d := h / 2 ^ 30 % 4
  let hv := BitVec.ofNat 64 h
  check (decide (b ≤ e.len)) Cause.kvPositionRange 0 hv
  let ix ← (do
    match ← poolTake d 0 with
    | some v => pure v
    | none => raise Cause.kvPoolEmpty 0 hv)
  let frame ← cellOf d 0x58
  let rack ← (do
    check (decide (4 * e.layers * e.ngrp * e.ncask ≤ frame)) Cause.kvPoolEmpty 1 hv
    match ← poolTake d 1 with
    | some v => pure v
    | none => raise Cause.kvPoolEmpty 1 hv)
  let base ← cellOf d 0
  let child := { e with rack := rack }
  e.planes.forM fun yg => (List.range e.ncask).forM fun i =>
    if i < e.casks b then do
      let id ← rackGet e yg.1 yg.2 i
      if id = emptyId then pure ()
      else do
        let x ← descChecked id e.csize hv
        check (decide (x.refcnt < 65535)) Cause.kvPoolEmpty 3 hv
        descPut (x.withRef (x.refcnt + 1))
      rackPut child yg.1 yg.2 i id
    else rackPut child yg.1 yg.2 i emptyId
  kvPut 0 (base + 64 * ix) (patch (patch e.raw 0 (toLe 4 b)) 0x10 (toLe 8 rack))
  pure (d * 2 ^ 30 + ix % 2 ^ 30)

def execKvfork (d a b : Reg) (s : State) : Out :=
  let h := (s.rd a).toNat % 2 ^ 32
  run (do
    let e ← myHandle h
    let n ← forkSeq h e (s.rd b).toNat
    modify fun s => s.scoreboard [d] [BitVec.ofNat 64 n] 0 .done) s

/-- The effect of kvdrop on a resolved sequence (R250). -/
def dropSeq (h : Nat) (e : SeqEnt) : Op Unit := do
  let d := h / 2 ^ 30 % 4
  let s ← get
  let core := s.iss.core
  kvPut 0 (e.pa + 0xC) [0]
  e.planes.forM fun yg => (List.range e.ncask).forM fun i => do
    let id ← rackGet e yg.1 yg.2 i
    if id = emptyId then pure () else releaseCask core id e.csize (BitVec.ofNat 64 h)
  release (some core) d none (.pool d 1 e.rack)
  release (some core) d none (.pool d 0 (h % 2 ^ 30))

def execKvdrop (a : Reg) (s : State) : Out :=
  let h := (s.rd a).toNat % 2 ^ 32
  run (do
    let e ← myHandle h
    dropSeq h e) s

def execKvclass (a b : Reg) (cls : BitVec 2) (s : State) : Out :=
  let h := (s.rd a).toNat % 2 ^ 32
  let lo := (s.rd b).toNat % 2 ^ 32
  let n := (s.rd b).toNat / 2 ^ 32
  let hv := BitVec.ofNat 64 h
  run (do
    let e ← myHandle h
    if n = 0 then pure ()
    else
      check (decide (lo + n ≤ e.capacity)) Cause.kvPositionRange 0 hv
      e.planes.forM fun yg => (List.range ((lo + n - 1) / e.ppc + 1 - lo / e.ppc)).forM fun i => do
        let id ← rackGet e yg.1 yg.2 (lo / e.ppc + i)
        if id = emptyId then pure ()
        else do
          let x ← descChecked id e.csize hv
          descPut { x with clsB := cls.toNat }) s

/-- The word kvquery gives (R252). -/
def queryWord (id : Nat) (x : Desc) : Word :=
  BitVec.ofNat 64 (id * 2 ^ 32 + x.refcnt % 65536 * 2 ^ 16 + x.fmtB % 16 * 2 ^ 12 + x.clsB % 4 * 2 ^ 10 + x.tier * 2 ^ 8
    + x.size * 2 ^ 7 + x.stateB % 8)

def execKvquery (d a b : Reg) (s : State) : Out :=
  let h := (s.rd a).toNat % 2 ^ 32
  let q := (s.rd b).toNat % 2 ^ 32
  let y := (s.rd b).toNat / 2 ^ 32 % 2 ^ 16
  let g := (s.rd b).toNat / 2 ^ 48
  let hv := BitVec.ofNat 64 h
  run (do
    let e ← myHandle h
    check (decide (q < e.capacity) && decide (y < e.layers) && decide (g < e.ngrp)) Cause.kvPositionRange 0 hv
    let id ← rackGet e y g (q / e.ppc)
    if id = emptyId then modify fun s => s.scoreboard [d] [0xFFFFFFFF00000000] 0 .done
    else do
      let x ← descChecked id e.csize hv
      modify fun s => s.scoreboard [d] [queryWord id x] 0 .done) s

def execKvtrim (a b : Reg) (s : State) : Out :=
  let h := (s.rd a).toNat % 2 ^ 32
  let n := (s.rd b).toNat
  run (do
    let e ← myHandle h
    check (decide (n ≤ e.len)) Cause.kvPositionRange 0 (BitVec.ofNat 64 h)
    kvPut 0 e.pa (toLe 4 n)
    e.planes.forM fun yg => (List.range (e.ncask - e.casks n)).forM fun i => do
      let id ← rackGet e yg.1 yg.2 (e.casks n + i)
      if id = emptyId then pure ()
      else do
        rackPut e yg.1 yg.2 (e.casks n + i) emptyId
        releaseCask s.iss.core id e.csize (BitVec.ofNat 64 h)) s

end Sys2Proof.Machine
end

