-- ==== Sys2Proof/Machine/Attn.lean ====
section
/-! DEFINITION. attn with its boundaries and stops, and kvapp (R235 to R247). -/

namespace Sys2Proof.Machine

/-- An operation over the machine inside a command. -/
def eOp {α : Type} (m : Op α) : EM α := eLift m

/-- The walker is done with what it read at lenders: releases that waited for it are made (R250). -/
def eWalked : EM Unit := do
  eModCore fun k => { k with kvRem := [] }
  eMod State.settleGives

/-! ## The attention control block (R235) -/

/-- The fields of 64 bytes. -/
structure Block where
  handle : Nat
  layer : Nat
  group : Nat
  pos0 : Nat
  npos : Nat
  qaddr : Nat
  qpitch : Nat
  nq : Nat
  oaddr : Nat
  opitch : Nat
  ofmt : Nat
  scale : Nat
  kbank : Nat
  vbank : Nat
  raddr : Nat
  tag : Nat
  zeros : Bool
  deriving DecidableEq, Repr

def Block.ofBytes (b : List Byte) : Block :=
  { handle := fld b 0 4, layer := fld b 4 2, group := fld b 6 2, pos0 := fld b 8 4, npos := fld b 0xC 4, qaddr := fld b 0x10 4,
    qpitch := fld b 0x14 2, nq := fld b 0x16 2, oaddr := fld b 0x18 4, opitch := fld b 0x1C 2, ofmt := fld b 0x1E 1,
    scale := fld b 0x20 4, kbank := fld b 0x24 1 % 32, vbank := fld b 0x25 1 % 32, raddr := fld b 0x28 4, tag := fld b 0x2C 4,
    zeros := fld b 0x1F 1 == 0 && fld b 0x24 1 / 32 == 0 && fld b 0x25 1 / 32 == 0 && fld b 0x26 2 == 0 && fld b 0x30 16 == 0 }

/-- Offset of O in the resume record, and the record's length (R236). -/
def recO (nq : Nat) : Nat := 0x40 + 16 * ((nq + 1) / 2)
def recLen (nq dh : Nat) : Nat := recO nq + 4 * nq * dh

/-- The entry of the command's handle, under its captured mode (R23, R230). -/
def eHandle (h : Nat) : EM SeqEnt := do
  let x ← get
  let k ← eCore
  eOp (resolveHandle h (k.keyid.toNat % 1024) k.jobId.toNat x.cmd.sup)

/-- Number of casks of the range and positions in its first `n` (R239). -/
def Block.ncask (b : Block) (ppc : Nat) : Nat := if b.npos = 0 then 0 else (b.pos0 + b.npos - 1) / ppc + 1 - b.pos0 / ppc
def Block.inFirst (b : Block) (ppc n : Nat) : Nat :=
  if n = 0 then 0 else Min.min (b.pos0 + b.npos) ((b.pos0 / ppc + n) * ppc) - b.pos0

/-- Steps 1 and 2 of R238: the block, its entry. -/
def attnBlock : EM (Block × SeqEnt) := do
  let x ← get
  let a := x.cmd.a.toNat
  echeck (a % 16 == 0) Cause.misalignedAccess 0 a
  extentChecks [lst 0 a 64 false]
  let bs ← eRead a 64
  let b := Block.ofBytes bs
  echeck (b.zeros && decide (1 ≤ b.nq ∧ b.nq ≤ 64 ∧ b.npos ≤ 2 ^ 24 ∧ b.ofmt ≤ 2) && b.qpitch % 16 == 0 && b.opitch % 16 == 0)
    Cause.tileSpan (opNo 0) a
  let k ← eCore
  echeck (k.budget.getLsbD b.kbank) Cause.scratchpadRange 0 b.kbank
  echeck (k.budget.getLsbD b.vbank) Cause.scratchpadRange 0 b.vbank
  echeck (b.kbank != b.vbank) Cause.bankConflict (opNo 0) b.vbank
  echeck (k.mode b.kbank == .fifo && (k.ring b.kbank).isEmpty) Cause.fifoBankMode 0 b.kbank
  echeck (k.mode b.vbank == .fifo && (k.ring b.vbank).isEmpty) Cause.fifoBankMode 0 b.vbank
  let e ← eHandle b.handle
  echeck (decide (b.layer < e.layers) && decide (b.group < e.ngrp)) Cause.kvPositionRange 0 b.handle
  echeck (b.nq % e.hpg == 0) Cause.tileSpan (opNo 0) b.nq
  echeck (decide (b.pos0 + b.npos ≤ e.capacity)) Cause.kvPositionRange 0 b.handle
  modify fun y => { y with cmd := { y.cmd with obj := bs } }
  pure (b, e)

/-- The first failing condition on attn's format word (R238). -/
def attnWordFault (w : Nat) : Option Nat :=
  if w / 2 ^ 50 ≠ 0 ∨ w.testBit 15 then some 1
  else if fwA w < 1 ∨ 4 < fwA w then some 2
  else if fwAsm w = 1 ∨ fwAsm w = 3 then some 3
  else if fwB w ≠ 0 ∨ fwBsm w ≠ 0 ∨ fwBsca w ≠ 0 then some 4
  else if fwInt w then some 5
  else none

/-- Bytes of an output element. -/
def Block.ow (b : Block) : Nat := if b.ofmt = 0 then 4 else 2

/-- Step 5 of R238: operands Q, its scale list, the output rows, the record. -/
def attnOperands (b : Block) (e : SeqEnt) (w : Nat) : EM Unit := do
  let rq := e.dh * fmtWidth (fwA w) / 8
  let ro := e.dh * b.ow
  echeck (b.qaddr % 16 == 0) Cause.misalignedAccess 0 b.qaddr
  echeck (b.oaddr % 16 == 0) Cause.misalignedAccess 0 b.oaddr
  echeck (b.raddr % 16 == 0) Cause.misalignedAccess 0 b.raddr
  echeck (decide (rq ≤ b.qpitch)) Cause.tileSpan (opNo 0) b.qpitch
  echeck (decide (ro ≤ b.opitch)) Cause.tileSpan (opNo 0) b.opitch
  let q : Extent := ⟨0, b.qaddr, b.nq, b.qpitch, rq, false⟩
  let sc : Extent := lst 0 (fwAsca w) (if fwAsm w = 2 then 4 * b.nq else 0) false
  let o : Extent := ⟨0, b.oaddr, b.nq, b.opitch, ro, true⟩
  let r : Extent := lst 0 b.raddr (recLen b.nq e.dh) true
  extentChecks [q, sc, o, r]
  echeck (!(o.meets q || o.meets sc || o.meets r)) Cause.bankConflict (opNo 0) b.oaddr
  echeck (!r.meets q) Cause.bankConflict (opNo 0) b.raddr

/-- FP32 patterns of negative infinity and canonical zero. -/
def negInf32 : Nat := 0xFF800000

/-- The state attn starts from: the record's, or fresh (R239). -/
def attnTakeUp (b : Block) (e : SeqEnt) : EM AttnProg := do
  let r ← eRead b.raddr 8
  if fld r 0 4 = 1 ∧ fld r 4 4 = b.tag then
    let r ← eRead b.raddr 0x40
    let next := fld r 0x1C 4
    let done := fld r 0x20 4
    let same := fld r 8 4 == b.handle && fld r 0xC 2 == b.layer && fld r 0xE 2 == b.group && fld r 0x10 4 == b.pos0
      && fld r 0x14 4 == b.npos && fld r 0x18 2 == b.nq && fld r 0x1A 2 == e.dh
    echeck (same && decide (next ≤ b.ncask e.ppc) && done == b.inFirst e.ppc next) Cause.kvResumeInvalid 0 b.handle
    let r ← eRead b.raddr (recLen b.nq e.dh)
    pure ⟨true, next, done, unpackEls 32 b.nq (r.drop 0x40), unpackEls 32 b.nq (r.drop (0x40 + 4 * b.nq)),
      unpackEls 32 (b.nq * e.dh) (r.drop (recO b.nq))⟩
  else pure ⟨true, 0, 0, List.replicate b.nq negInf32, List.replicate b.nq 0, List.replicate (b.nq * e.dh) 0⟩

/-- FP32 value of a pattern held in the state. -/
def f32 (p : Nat) : FVal := fp32.decode p

/-- Pattern of an FP32 value. -/
def pat32 (v : FVal) : Nat := (fp32.encode .rne false v).1

/-- One rounding to FP32 with its flags. -/
def eRound (r : FVal × Flags) : EM FVal := do
  let v ← eVal r
  eVal (round32 v)

/-- The end of an attention: the output rows, then record.valid := 0 (R239). -/
def attnFinish (b : Block) (e : SeqEnt) (w : Nat) (p : AttnProg) : EM Unit := do
  (List.range b.nq).forM fun i => do
    let es ← (List.range e.dh).mapM fun d => do
      let v ← (if b.npos = 0 then pure (.num false 0) else eVal (FVal.div (f32 (p.o.getD (i * e.dh + d) 0)) (f32 (p.l.getD i 0))))
      eVal (encodeFmt b.ofmt (fwSat w) v)
    eWrite (b.oaddr + i * b.opitch) (packEls (8 * b.ow) es)
  eWrite b.raddr (toLe 4 0)
  modify fun y => { y with cmd := { y.cmd with prog := .none } }

/-- attn from its start to its first boundary (R238, R239). -/
def runAttn : EM Unit := do
  let (b, e) ← attnBlock
  let w ← takeWord
  match attnWordFault w with
  | some n => efault Cause.formatWordInvalid n w
  | none =>
    attnOperands b e w
    (List.range b.nq).forM fun i => eMark (b.oaddr + i * b.opitch) (e.dh * b.ow)
    eMark b.raddr (recLen b.nq e.dh)
    let p ← attnTakeUp b e
    modify fun y => { y with cmd := { y.cmd with prog := .attn p } }
    eWalked
    if b.ncask e.ppc ≤ p.next then attnFinish b e w p else pure ()

/-! ## Stops (R241) -/

/-- The bytes of a resume record; what stands between l and O where nq is odd is not stated: `gap` (log 4). -/
def recBytes (b : Block) (dh : Nat) (p : AttnProg) (gap : Nat) : List Byte :=
  let head := toLe 4 1 ++ toLe 4 b.tag ++ toLe 4 b.handle ++ toLe 2 b.layer ++ toLe 2 b.group ++ toLe 4 b.pos0 ++ toLe 4 b.npos
    ++ toLe 2 b.nq ++ toLe 2 dh ++ toLe 4 p.next ++ toLe 4 p.done ++ List.replicate 28 0
  let ml := p.m.flatMap (toLe 4) ++ p.l.flatMap (toLe 4)
  head ++ ml ++ toLe (recO b.nq - 0x40 - ml.length) gap ++ p.o.flatMap (toLe 4)

/-- Flags of a command merge into its group of the issuing strand (R81). -/
def eCommitFlags : EM Unit := do
  let x ← get
  set { x with s := x.s.modStrand x.c x.cmd.strand fun t => t.mergeFlags (engGroup x.e) x.com.flags, com := { x.com with flags := 0 } }

/-- attn stops: the record, both rings emptied, the flags of the completed casks (R241). -/
def attnStop (b : Block) (dh : Nat) (p : AttnProg) : EM Unit := do
  let gap ← eFree
  eWrite b.raddr (recBytes b dh p gap)
  eModCore fun k => { k with rings := Tab.del (Tab.del k.rings b.kbank) b.vbank }
  eWalked
  eCommitFlags
  modify fun y => { y with cmd := { y.cmd with prog := .none } }

/-! ## Lent casks (R240) -/

/-- What a lender has answered: nothing yet, lost, or the bytes. -/
inductive Answer where
  | wait
  | lost
  | data (bs : List Byte)
  deriving DecidableEq, Repr

/-- Asks the lender of a tier-1 cask, once for each part, and answers what has come back (R240, R429). -/
def askLender (wr : Bool) (part id : Nat) (e : SeqEnt) (d : Desc) (body : FabBody) : EM Answer := do
  let x ← get
  let k ← eCore
  match k.kvRem.find? (fun r => r.wr == wr && r.part == part && r.cask == id) with
  | some r =>
    if r.lost then pure .lost
    else match r.data with
      | some bs => pure (.data bs)
      | none => pure .wait
  | none =>
    let die := id / 2 ^ 30 % 4
    let (n, s) := x.s.sendReq (256 + die) (d.addr / 2 ^ 32 % 4096) 0 false body (some x.c)
    set { x with s := s.modCore x.c fun k => { k with kvRem := ⟨wr, part, id, die, n, false, none, (e.pa, e.raw), (d.pa, d.toBytes)⟩ :: k.kvRem } }
    pure .wait

/-- The bytes of a cask where it lies: here, or at its lender (none: still waited for). -/
def caskData (e : SeqEnt) (id : Nat) (d : Desc) : EM (Option (List Byte)) := do
  if d.tier = 1 then
    match ← askLender false 0 id e d (.caskRd (d.addr % 2 ^ 32) (caskBytes d.size)) with
    | .wait => pure none
    | .lost => efault Cause.kvLenderLost 0 id
    | .data bs => pure (some bs)
  else
    let bs ← eOp (kvGet e.keyid d.addr (caskBytes d.size))
    pure (some bs)

/-! ## One cask (R239) -/

/-- Exact sum of products. -/
def dot (xs ys : List FVal) : EM FVal :=
  (List.zip xs ys).foldlM (fun (s : FVal) xy => do
    let p ← eVal (FVal.mul xy.1 xy.2)
    eVal (s.add .rne p)) (.num false 0)

/-- exp2 of an FP32 value, rounded once. -/
def exp2r (v : FVal) : EM FVal := eRound (sfu .exp2 v)

/-- Rounded difference. -/
def diffr (x y : FVal) : EM FVal := eRound (x.add .rne y.negate)

/-- Row `i` over the positions of a cask: new m, l and O (R239). -/
def attnRow (scale : FVal) (q : List FVal) (ks vs : List (List FVal)) (m l : FVal) (o : List FVal) : EM (FVal × FVal × List FVal) := do
  let ts ← ks.mapM fun k => do
    let s ← eRound (← dot q k, 0)
    eRound (scale.mul s)
  let mn := ts.foldl (fun (a : FVal) t => a.max t) m
  let low := mn == .inf true
  let a ← (if low then pure (.num false 1) else do exp2r (← diffr m mn))
  let es ← ts.mapM fun t => if low then pure (.num false 0) else do exp2r (← diffr t mn)
  let s ← es.foldlM (fun (s : FVal) x => eRound (s.add .rne x)) (.num false 0)
  let la ← eRound (l.mul a)
  let l' ← eRound (la.add .rne s)
  let o' ← o.zipIdx.mapM fun od => do
    let x ← eRound (od.1.mul a)
    let y ← eRound (← dot es (vs.map fun v => v.getD od.2 (.num false 0)), 0)
    eRound (x.add .rne y)
  pure (mn, l', o')

/-- The query rows as exact scaled values (R214, R235). -/
def queryRows (b : Block) (dh w : Nat) : EM (List (List FVal)) :=
  (List.range b.nq).mapM fun i => do
    let bs ← eRead (b.qaddr + i * b.qpitch) (dh * fmtWidth (fwA w) / 8)
    let sc ← (if fwAsm w = 2 then eRead (fwAsca w + 4 * i) 4 else pure [])
    (unpackEls (fmtWidth (fwA w)) dh bs).mapM fun p => do
      let v ← eVal (elemDecode (fwA w) (fwCompat w) p)
      eVal (elemScaled (fwAsm w) (le sc) v)

/-- The whole of one cask: positions of the range in it, every row (R239, R240 check 4). -/
def attnCask (b : Block) (e : SeqEnt) (w : Nat) (d : Desc) (bs : List Byte) (p : AttnProg) : EM AttnProg := do
  let c := b.pos0 / e.ppc + p.next
  let lo := Max.max b.pos0 (c * e.ppc)
  let hi := Min.min (b.pos0 + b.npos) ((c + 1) * e.ppc)
  let ps := (List.range (hi - lo)).map fun i => lo + i - c * e.ppc
  let big := e.ppc * e.hpg
  let qs ← queryRows b e.dh w
  let heads ← (List.range e.hpg).mapM fun h => do
    let ks ← ps.mapM fun j => eVal (caskRow d.fmtB e.dh big (fwCompat w) bs (j * e.hpg + h))
    let vs ← ps.mapM fun j => eVal (caskRow d.fmtB e.dh big (fwCompat w) bs (big + j * e.hpg + h))
    pure (ks, vs)
  let rows ← qs.zipIdx.mapM fun qi => do
    let i := qi.2
    let (ks, vs) := heads.getD (i / (b.nq / e.hpg)) ([], [])
    attnRow (f32 b.scale) qi.1 ks vs (f32 (p.m.getD i 0)) (f32 (p.l.getD i 0)) (((p.o.drop (i * e.dh)).take e.dh).map f32)
  pure ⟨false, p.next + 1, p.done + ps.length, rows.map fun r => pat32 r.1, rows.map fun r => pat32 r.2.1,
    (rows.map fun r => r.2.2.map pat32).flatten⟩

/-- The launch of the core's context is PREEMPTIBLE and a request is pending (R240). -/
def eYreq : EM Bool := do
  let x ← get
  pure ((x.s.core x.c).yreq && x.s.preemptible x.c)

/-- The checks of boundary(c) that resolve its cask: entry, id and descriptor; none while it is in transit (R240). -/
def boundaryCask (b : Block) (p : AttnProg) : EM (Option (SeqEnt × Nat × Desc)) := do
  let e ← eHandle b.handle
  let id ← eOp (rackGet e b.layer b.group (b.pos0 / e.ppc + p.next))
  echeck (id != emptyId) Cause.kvRackInvalid 0 emptyId
  let d ← eOp (descChecked id e.csize (BitVec.ofNat 64 id))
  if d.transit then pure none
  else
    echeck (!d.absent) Cause.kvAbsent 0 id
    pure (some (e, id, d))

/-- Checks 3 and 4 of boundary(c); none while its cask has to be waited for. A cask that its lender is sending is taken in the
descriptor state that was read (R240, R254). -/
def boundaryRead (b : Block) (p : AttnProg) : EM (Option (SeqEnt × Desc × List Byte)) := do
  let k ← eCore
  let found ← (match k.kvRem.find? fun r => !r.wr with
    | some r => pure (some (SeqEnt.ofBytes r.ent.1 r.ent.2, r.cask, Desc.ofBytes r.desc.1 r.desc.2))
    | none => boundaryCask b p)
  match found with
  | none => pure none
  | some (e, id, d) =>
    match ← caskData e id d with
    | none => pure none
    | some bs => pure (some (e, d, bs))

/-- boundary(c), the cask and, after the last one, the end (R239 to R241). A stop for pre-emption leaves progress `wait 9`. -/
def attnBoundary : EM Unit := do
  let x ← get
  match x.cmd.prog with
  | .attn p => do
    let b := Block.ofBytes x.cmd.obj
    let k ← eCore
    let ended := match k.run with | some r => r.cancelled || r.fatal | none => true
    if ended then do
      eWalked
      modify fun y => { y with cmd := { y.cmd with prog := .none } }
    else
      let dh := p.o.length / Max.max 1 b.nq
      if (← eYreq) && !p.first then do
        attnStop b dh p
        modify fun y => { y with cmd := { y.cmd with prog := .wait 9 } }
      else do
        let r ← tryCatch (boundaryRead b p) fun t => do
          attnStop b dh p
          throw t
        match r with
        | none => pure ()
        | some (e, d, bs) => do
          let w := (x.cmd.word.getD 0).toNat
          eWalked
          let p' ← attnCask b e w d bs p
          modify fun y => { y with cmd := { y.cmd with prog := .attn p' } }
          if b.ncask e.ppc ≤ p'.next then attnFinish b e w p' else pure ()
  | _ => pure ()

/-! ## kvapp (R245 to R247) -/

/-- A cask kvapp touches: its number in the rack, id, descriptor (none: an empty entry). -/
structure AppCask where
  ci : Nat
  id : Nat
  d : Option Desc
  deriving DecidableEq, Repr

/-- The positions of a kvapp within cask `ci`, as offsets u. -/
def appPositions (p n ppc ci : Nat) : List Nat :=
  (List.range n).filter fun u => (p + u) / ppc == ci

/-- Resolves one cask of a kvapp; none where it has to be waited for. -/
def appResolve (e : SeqEnt) (y g ci : Nat) : EM (Option AppCask) := do
  let id ← eOp (rackGet e y g ci)
  if id = emptyId then pure (some ⟨ci, id, none⟩)
  else
    let d ← eOp (descChecked id e.csize (BitVec.ofNat 64 id))
    if d.transit then pure none
    else
      echeck (!d.absent) Cause.kvAbsent 0 id
      if d.tier = 1 then
        match ← caskData e id d with
        | none => pure none
        | some _ => pure (some ⟨ci, id, some d⟩)
      else pure (some ⟨ci, id, some d⟩)

/-- Writes bytes at a physical address for kvapp; the core's cached copies of their lines go (R247, R300). -/
def appPut (kid pa : Nat) (bs : List Byte) : EM Unit := do
  let x ← get
  eMod fun s => (List.range ((pa + bs.length + 127) / 128 - pa / 128)).foldl (fun s i => s.dropCopy x.c (pa / 128 + i)) s
  eOp (kvPut kid pa bs)

/-- A new cask of the home die for an entry (R246): a copy of `old`, or BF16. -/
def appNew (e : SeqEnt) (h y g : Nat) (x : AppCask) : EM (Nat × Desc) := do
  let die := h / 2 ^ 30 % 4
  let hv := BitVec.ofNat 64 h
  let short : EM Nat := throw ⟨Cause.kvPoolEmpty, 2, hv⟩
  let old ← (match x.d with
    | none => pure none
    | some d => caskData e x.id d)
  let id ← (do match ← eOp (poolTake die 2) with | some v => pure v | none => short)
  let st ← (do match ← eOp (poolTake die (3 + e.csize)) with | some v => pure v | none => short)
  let fresh ← eOp (descGet id hv)
  let d : Desc := { fresh with addr := st, refcnt := 1, tierB := 4 * e.csize, stateB := 1, lent := 0,
                               fmtB := (match x.d with | some o => o.fmtB | none => 1),
                               clsB := (match x.d with | some o => o.clsB | none => 1), z := 0 }
  (match old with
    | some bs => appPut e.keyid st bs
    | none => pure ())
  appPut 0 d.pa d.toBytes
  appPut 0 (e.rackAt y g x.ci) (toLe 4 id)
  let z ← get
  (match x.d with
    | some o => do
      eMod fun s => s.dropCopy z.c (o.pa / 128)
      eOp (releaseCask z.c x.id e.csize hv)
    | none => pure ())
  pure (id, d)

/-- The bytes a BF16 row takes in a cask: offset and bytes of the row and of its scales (R233, R234, R246). -/
def rowParts (fmt dh big rho : Nat) (row : List Byte) : EM (List (Nat × List Byte)) := do
  if fmt = 1 then pure [(rho * (2 * dh), row)]
  else
    let (els, sc, f) := rowStore fmt ((unpackEls 16 dh row).map fun v => (decodeFmt 1 v).1)
    eFlags f
    pure [(rho * caskRowBytes fmt dh, els), (2 * big * caskRowBytes fmt dh + rho * sc.length, sc)]

/-- Writes parts of a cask at its lender, one after the other; false while an answer is awaited (R246, R429). -/
def appLent (e : SeqEnt) (id : Nat) (d : Desc) : Nat → List (Nat × List Byte) → EM Bool
  | _, [] => pure true
  | n, p :: ps => do
    match ← askLender true n id e d (.caskWr (d.addr % 2 ^ 32) p.1 p.2) with
    | .wait => pure false
    | .lost => efault Cause.kvLenderLost 0 id
    | .data _ => appLent e id d (n + 1) ps

/-- Writes the rows of a kvapp into one cask and nothing else of it; false while a lender has to be waited for (R246). -/
def appWrite (e : SeqEnt) (h y g p n b : Nat) (x : AppCask) : EM Bool := do
  let hpg := e.hpg
  let rb := 2 * e.dh
  let big := e.ppc * hpg
  let us := appPositions p n e.ppc x.ci
  let shared := match x.d with | some d => decide (1 < d.refcnt) | none => true
  let (id, d) ← (if shared then appNew e h y g x else pure (x.id, x.d.getD (Desc.ofBytes 0 [])))
  let parts ← us.mapM fun u => (List.range hpg).mapM fun hh => do
    let kb ← eRead (b + (u * hpg + hh) * rb) rb
    let vb ← eRead (b + n * hpg * rb + (u * hpg + hh) * rb) rb
    let rho := (p + u) % e.ppc * hpg + hh
    let ks ← rowParts d.fmtB e.dh big rho kb
    let vs ← rowParts d.fmtB e.dh big (big + rho) vb
    pure (ks ++ vs)
  if d.tier = 1 then appLent e id d 0 parts.flatten.flatten
  else
    parts.flatten.flatten.forM fun w => appPut e.keyid (d.addr + w.1) w.2
    pure true

/-- Writes the casks of a kvapp from cask `i` on, keeping progress. -/
def appWrites (e : SeqEnt) (h y g p n b : Nat) : List AppCask → Nat → EM Bool
  | [], _ => pure true
  | x :: xs, i => do
    if ← appWrite e h y g p n b x then do
      modify fun z => { z with cmd := { z.cmd with prog := .rows (i + 1) 0 } }
      appWrites e h y g p n b xs (i + 1)
    else pure false

/-- kvapp from its start, or from the cask it waits at (R245 to R247). -/
def runKvapp (nm1 : BitVec 6) (adv : Bool) : EM Unit := do
  let x ← get
  let h := x.cmd.a.toNat % 2 ^ 32
  let b := x.cmd.b.toNat
  let c := x.cmd.c.toNat
  let n := nm1.toNat + 1
  let p := c % 2 ^ 32
  let y := c / 2 ^ 32 % 2 ^ 16
  let g := c / 2 ^ 48
  let hv := BitVec.ofNat 64 h
  let e ← eHandle h
  let begun := match x.cmd.prog with | .rows i _ => some i | _ => none
  let waiting := match x.cmd.prog with | .none => false | _ => true
  (if waiting then pure ()
    else do
      echeck (decide (y < e.layers) && decide (g < e.ngrp) && decide (p ≤ e.len) && decide (p + n ≤ e.capacity)) Cause.kvPositionRange 0 h
      echeck (b % 16 == 0) Cause.misalignedAccess 0 b
      extentChecks [lst 1 b (4 * n * e.hpg * e.dh) false]
      eWalked
      modify fun z => { z with cmd := { z.cmd with prog := .wait 1 } })
  let c0 := p / e.ppc
  let found ← (List.range ((p + n - 1) / e.ppc + 1 - c0)).mapM fun i => appResolve e y g (c0 + i)
  if found.any Option.isNone then pure ()
  else
    let cs := found.filterMap id
    let need := (cs.filter fun a => match a.d with | some d => decide (1 < d.refcnt) | none => true).length
    let die := h / 2 ^ 30 % 4
    (match begun with
      | some _ => pure ()
      | none => do
        let f2 ← eOp (poolFree die 2)
        let f3 ← eOp (poolFree die (3 + e.csize))
        if need = 0 ∨ (need ≤ f2 ∧ need ≤ f3) then pure () else throw ⟨Cause.kvPoolEmpty, 2, hv⟩)
    let i0 := begun.getD 0
    if ← appWrites e h y g p n b (cs.drop i0) i0 then do
      (if adv then do
          let e2 ← eHandle h
          appPut 0 e2.pa (toLe 4 (Max.max e2.len (p + n)))
        else pure ())
      eWalked
      modify fun z => { z with cmd := { z.cmd with prog := .none } }
    else pure ()

end Sys2Proof.Machine
end

