-- ==== Sys2Proof/Machine/WaitLog.lean ====
section
/-! DEFINITION. What a strand or an engine waits for, and the record of a wait that is cut short (R454, R455). -/

namespace Sys2Proof.Machine

/-- Whether a syllable's guard lets it execute (R85). -/
def guardHolds (g : Guard) (u : Strand) : Bool :=
  match g with
  | .always => true
  | .never => false
  | .pred p neg => u.rp p != neg

/-- Number of a level in a WAIT record. -/
def levelCode : Level → Nat
  | .launch => 0
  | .graph => 1
  | .phase => 2
  | .job => 3

/-- Kind and detail of the wait an instruction makes (R455). -/
def waitKind (u : Strand) (w : Wait) (i : Instr) : Option (Nat × Nat) :=
  match w, i with
  | .cue, .cuewait n _ _ => some (1, n.toNat)
  | .token, .tkpop m => some (2, ((maskEnds m).map fun e => fifoIx e 0).headD 0)
  | .land, .lwwait a _ => some (3, (u.rd a).toNat / 16)
  | .waitc, .waitc _ a _ lvl => some (5, levelCode lvl * 2 ^ 26 + (u.rd a).toNat % 2 ^ 26)
  | .fifoFull, .tkpush m => some (7, ((maskEnds m).map (fifoIx 0)).headD 0)
  | .sbar m, .sbar _ => some (10, m)
  | _, _ => none

/-- The bundle at a strand's PC as memory shows it, with no change of the machine. -/
def State.peekBundle (s : State) (c : Nat) (t : Fin 4) : Option RawBundle :=
  let u := s.strand c t
  match s.gcheck c (dieOf c) ((s.core c).space u.sup) u.pc 16 .ex with
  | .error _ => none
  | .ok (l, s) =>
    match s.dieRead (dieOf c) (l.pa u.pc.toNat) 16 (pteKid l.e) (pteCh l.e) u.pc with
    | .error _ => none
    | .ok (bs, _) => some (splitBundle (le bs))

/-- What a strand waits for, if the wait is one of R454. -/
def State.waitObj (s : State) (c : Nat) (t : Fin 4) : Option (Nat × Nat) :=
  let u := s.strand c t
  match u.cond with
  | .waiting w =>
    (match s.peekBundle c t with
    | none => none
    | some b =>
      [b.slot0, b.slot1].findSome? fun x =>
        match decodeSyllable x with
        | .ok y => if guardHolds y.guard u then waitKind u w y.instr else none
        | .error _ => none)
  | _ => none

/-- What the head command of an engine waits for: its tokens, a card, room in a FIFO, stream bytes (R454). -/
def Core.engWait (k : Core) (e : Eng) : Option (Nat × Nat) :=
  let g := k.eng.get e
  match g.q with
  | [] => none
  | x :: _ =>
    let me := engEnd e
    let pops := (maskEnds (tokOf x.instr).pop).map fun a => fifoIx a me
    let pushes := (maskEnds (tokOf x.instr).push).map fun a => fifoIx me a
    match g.phase with
    | .idle =>
      if x.popped then none
      else (pops.find? fun p => (k.fifo.get [] p).isEmpty).map fun p => (6, p)
    | .running _ =>
      (match x.prog, x.instr with
      | .none, _ => (pushes.find? fun p => decide (15 ≤ (k.fifo.get [] p).length)).map fun p => (7, p)
      | .wait _, .cardwt _ => some (4, x.a.toNat / 2 ^ 6 % 2 ^ 28)
      | _, .mma _ _ _ _ => some (8, x.a.toNat % 32)
      | _, .mmaz _ _ _ _ => some (8, x.a.toNat % 32)
      | _, .mgma _ _ _ _ _ _ => some (8, x.a.toNat % 32)
      | _, _ => none)
    | _ => none

/-- The waits of a core's strands and engines end with no satisfier: a cancellation or a stop cuts them short (R454). -/
def State.cutWaits (s : State) (c : Nat) : State :=
  let s := ([0, 1, 2, 3] : List (Fin 4)).foldl (fun s t => match s.waitObj c t with
    | some (k, d) => s.waitRec c t.val k d 0 0 15
    | none => s) s
  ([0, 1, 2, 3] : List Eng).foldl (fun s e => match (s.core c).engWait e with
    | some (k, d) => s.waitRec c (4 + e.val) k d 0 0 15
    | none => s) s

end Sys2Proof.Machine
end

