-- ==== Sys2Proof/Machine/Sched.lean ====
section
/-! DEFINITION. The Stage Manager: launches, nodes, dependences, placement, choice, cancellation and waiting (R44 to R47, R134 to R137,
R367 to R381). -/

namespace Sys2Proof.Machine

/-! ## Jobs and nodes -/

/-- The valid slot of a job (R368). -/
def State.jobSlot (s : State) (job : Nat) : Option (Nat × JobSlot) := s.jobs.find? fun e => e.2.jobid == job

/-- The index of a triple among sequence counters. -/
def graphKey (job phase graph : Nat) : Nat := (job * 2 ^ 32 + phase) * 2 ^ 32 + graph

/-- Two nodes of one graph. -/
def Node.inGraph (n : Node) (job phase graph : Nat) : Bool := n.job == job && n.phase == phase && n.graph == graph

/-- Regions that share a byte, at least one written; one of length 0 shares none (R370). -/
def Region.conflicts (a b : Region) : Bool :=
  (a.w || b.w) && decide (0 < a.len ∧ 0 < b.len ∧ a.base < b.base + b.len ∧ b.base < a.base + a.len)

/-- Whether graph, phase or job has been cancelled (R134, R274). -/
def State.isCancelled (s : State) (job phase graph : Nat) : Bool :=
  s.cancelledGraphs.contains (job, phase, graph) || s.cancelledPhases.contains (job, phase)
    || (match s.jobSlot job with | some (_, j) => j.cancelled | none => false)

/-- The first node id in turn that no live node has and that was given in no live graph (R134). -/
def State.freshId (s : State) : Nat :=
  let used := s.nodes.map (·.id) ++ s.graphs.flatMap (·.ids)
  let f (k : Nat) : Nat := (s.nodeNext + k) % (2 ^ 32 - 1) + 1
  f (((List.range (used.length + 1)).find? fun k => !used.contains (f k)).getD 0)

/-- The group of a graph, or of a phase as graph 0. -/
def Group.named (g : Group) (job phase graph : Nat) : Bool := g.job == job && g.phase == phase && g.graph == graph

/-- Changes the group of a graph or phase, new if no node has named it. -/
def modGroup (gs : List Group) (job phase graph : Nat) (f : Group → Group) : List Group :=
  if gs.any (·.named job phase graph) then gs.map fun g => if g.named job phase graph then f g else g
  else f ⟨job, phase, graph, 0, [], false, []⟩ :: gs

/-- Enters a node into the table of a die: id (R134), sequence number and dependences (R370); its graph and phase are live, with what
they remember of nodes that ended in them (R372). -/
def State.enterNode (s : State) (n : Node) : Nat × State :=
  let id := s.freshId
  let key := graphKey n.job n.phase n.graph
  let q := s.seqs.get 0 key
  let deps := (s.nodes.filter fun m => m.inGraph n.job n.phase n.graph
    && m.regions.any fun a => n.regions.any fun b => a.conflicts b).map (·.id)
  (id, { s with
    nodes := s.nodes ++ [{ n with id := id, seq := q, deps := deps }],
    nodeNext := id, seqs := s.seqs.put key (q + 1),
    graphs := modGroup s.graphs n.job n.phase n.graph fun g => { g with ids := id :: g.ids },
    phases := modGroup s.phases n.job n.phase 0 fun g => g })

/-! ## The loop-nest record (R45, R46, R272, R369, R374, R382) -/

/-- A footprint list of `n` regions from its bytes; none where a region is invalid (R369). -/
def readRegions (n : Nat) (bs : List Byte) : Option (List Region) :=
  (List.range n).mapM fun i =>
    let b := bs.drop (16 * i)
    let m := fld b 0xC 1
    if (m = 1 ∨ m = 2) ∧ fld b 0xD 3 = 0 then some ⟨fld b 0 8, fld b 8 4, m == 2⟩ else none

/-- The product of the used bounds. -/
def Launch.total (l : Launch) : Nat := (List.range 4).foldl (fun p d => if d < l.dims then p * l.bound.get (Fin.ofNat 4 d) else p) 1

/-- The fields of 128 bytes that a node keeps. -/
def Launch.ofBytes (b : List Byte) : Launch :=
  let fl := fld b 0x32 2
  let w (o : Nat) : Word := BitVec.ofNat 64 (fld b o 8)
  { entry := ⟨w 0, w 8, w 0x10, w 0x18⟩, bound := ⟨fld b 0x20 4, fld b 0x24 4, fld b 0x28 4, fld b 0x2C 4⟩, dims := fld b 0x30 1,
    order := fld b 0x31 1, cohort := fl.testBit 0, preempt := fl.testBit 1, encore := fl.testBit 2, prio := fld b 0x34 1,
    budget := BitVec.ofNat 32 (fld b 0x38 4), cachemask := BitVec.ofNat 32 (fld b 0x3C 4), argptr := w 0x40,
    placekind := fld b 0x36 1, placeptr := w 0x48, saveptr := w 0x68, nslot := 0, prologue := [] }

/-- Conditions 2 to 10 of launch_record_invalid in their order (R46). -/
def recordFault (b : List Byte) (l : Launch) (sup : Bool) (job : Nat) : Option Nat :=
  let es := l.entry.toList.map (·.toNat)
  let ds : List (Fin 4) := [0, 1, 2, 3]
  if fld b 0x32 2 / 8 ≠ 0 ∨ fld b 0x37 1 ≠ 0 ∨ fld b 0x66 2 ≠ 0 ∨ fld b 0x78 8 ≠ 0 ∨ l.prio / 8 ≠ 0 then some 2
  else if l.dims < 1 ∨ 4 < l.dims ∨ 3 < l.order ∨ 8 < fld b 0x35 1 ∨ 2 < l.placekind ∨ 16 < fld b 0x64 2 then some 3
  else if es.any (fun e => e % 16 != 0) then some 4
  else if es.all (· == 0) then some 5
  else if ds.any (fun d => decide (l.dims ≤ d.val) && l.bound.get d != 0) then some 6
  else if l.cachemask &&& ~~~l.budget ≠ 0 then some 7
  else if (l.preempt ∧ l.saveptr = 0) ∨ (l.saveptr ≠ 0 ∧ l.saveptr.toNat % 256 ≠ 0) then some 8
  else if 2 ^ 48 - 1 < l.total then some 9
  else if fld b 0x58 4 ≠ job ∧ ¬ sup then some 10
  else none

/-- The instruction a prologue copy command stands for, if it is well formed (R272). -/
def prologueInstr (b : List Byte) : Option Instr :=
  let opx := fld b 0 2
  let push := fld b 3 1
  let e : EOp := ⟨⟨0, BitVec.ofNat 5 push⟩, none, 0, 0, 0⟩
  let sp (i : Nat) : Space := if opx.testBit i then .sp else .g
  let scp : Scope := match opx / 4 % 4 with | 0 => .cr | 1 => .die | 2 => .pkg | _ => .sys
  let bare := opx / 4 % 4 == 0 || sp 0 == .g
  if fld b 4 4 ≠ 0 ∨ 32 ≤ push ∨ push.testBit 1 then none
  else match fld b 2 1 with
    | 0xE0 => if opx < 16 ∧ bare then some (.cpy e (sp 0) (sp 1) scp) else none
    | 0xE1 => if opx = 0 ∨ opx = 2 then some (.cpyf e (sp 1)) else none
    | 0xE4 => if opx < 16 ∧ ¬ opx.testBit 1 ∧ bare then some (.cpyz e (sp 0) scp) else none
    | _ => none

/-- The command of a prologue entry: S0's, in user mode (R272). -/
def prologueCmd (b : List Byte) : Option Cmd :=
  (prologueInstr b).map fun i =>
    let w (o : Nat) : Word := BitVec.ofNat 64 (fld b o 8)
    { instr := i, strand := 0, a := w 8, b := w 0x10, c := w 0x18, tshape := 0, sup := false,
      syl := (encodeSyllable ⟨false, .always, i⟩).getD 0, popped := false, word := none, prog := .none, prologue := true, obj := [],
      num := 0, desc := [], routine := none, out := [], blk := [] }

/-- Reads memory for a launch or a card: through translation and key of a context, at the home slices. -/
def smRead (c : Nat) (sp : Space3) (a : Word) (n : Nat) : Op (List Byte) := liftE fun s => s.vget c sp a n

/-! ## Enumeration (R375) -/

/-- The row-major tuple of a number. -/
def Launch.rowTuple (l : Launch) (n : Nat) : Quad Nat :=
  ⟨n % Max.max 1 l.bound.e0, n / l.bound.e0 % Max.max 1 l.bound.e1, n / (l.bound.e0 * l.bound.e1) % Max.max 1 l.bound.e2,
    n / (l.bound.e0 * l.bound.e1 * l.bound.e2)⟩

/-- Bounds of the used dimensions, 1 for the others. -/
def Launch.used (l : Launch) : Launch :=
  let b (d : Fin 4) : Nat := if d.val < l.dims then l.bound.get d else 1
  { l with bound := ⟨b 0, b 1, b 2, b 3⟩ }

/-- The column-major tuple of a number: the last used dimension varies fastest. -/
def Launch.colTuple (l : Launch) (n : Nat) : Quad Nat :=
  let b := l.bound
  match l.dims with
  | 1 => ⟨n, 0, 0, 0⟩
  | 2 => ⟨n / b.e1, n % b.e1, 0, 0⟩
  | 3 => ⟨n / (b.e1 * b.e2), n / b.e2 % b.e1, n % b.e2, 0⟩
  | _ => ⟨n / (b.e1 * b.e2 * b.e3), n / (b.e2 * b.e3) % b.e1, n / b.e3 % b.e2, n % b.e3⟩

/-- The tuple whose interleaved bits are `z`. -/
def Launch.mortonTuple (l : Launch) (k z : Nat) : Quad Nat :=
  let f (d : Nat) : Nat :=
    if d < l.dims then (List.range k).foldl (fun m j => if z.testBit (j * l.dims + d) then m + 2 ^ j else m) 0 else 0
  ⟨f 0, f 1, f 2, f 3⟩

/-- Whether a tuple lies within the bounds. -/
def Launch.inside (l : Launch) (t : Quad Nat) : Bool :=
  decide (t.e0 < l.bound.e0 ∧ t.e1 < l.bound.e1 ∧ t.e2 < l.bound.e2 ∧ t.e3 < l.bound.e3)

/-- The `n`th Morton tuple inside the bounds from `z` on. -/
def Launch.mortonFrom (l : Launch) (k : Nat) : Nat → Nat → Nat → Quad Nat
  | 0, z, _ => l.mortonTuple k z
  | fuel + 1, z, n =>
    if l.inside (l.mortonTuple k z) then
      if n = 0 then l.mortonTuple k z else l.mortonFrom k fuel (z + 1) (n - 1)
    else l.mortonFrom k fuel (z + 1) n

/-- The serpentine tuple of a number. -/
def Launch.serpTuple (l : Launch) (n : Nat) : Quad Nat :=
  let j := l.rowTuple n
  let f (x b up : Nat) : Nat := if up % 2 = 0 then x else b - 1 - x
  ⟨f j.e0 l.bound.e0 (j.e1 + j.e2 + j.e3), f j.e1 l.bound.e1 (j.e2 + j.e3), f j.e2 l.bound.e2 j.e3, j.e3⟩

/-- The tuple the walker visits as its `n`th. -/
def Launch.tuple (l : Launch) (n : Nat) : Quad Nat :=
  let l := l.used
  match l.order with
  | 0 => l.rowTuple n
  | 1 => l.colTuple n
  | 2 =>
    let big := Max.max (Max.max l.bound.e0 l.bound.e1) (Max.max l.bound.e2 l.bound.e3)
    let k := if big ≤ 1 then 0 else Nat.log2 (big - 1) + 1
    l.mortonFrom k (2 ^ (k * l.dims)) 0 n
  | _ => l.serpTuple n

/-- Linear iteration number of a tuple (R47). -/
def Launch.linear (l : Launch) (t : Quad Nat) : Nat :=
  let b := l.used.bound
  t.e0 + b.e0 * (t.e1 + b.e1 * (t.e2 + b.e2 * t.e3))

/-! ## Placement (R373, R374) -/

/-- Ready cores of a die. -/
def State.readyCores (s : State) (d : Fin 4) : List Nat :=
  ((List.range 64).map fun i => 64 * d.val + i).filter fun c => s.isReady .core c

/-- The lowest die that has a ready core, in an order of dies. -/
def State.firstDie (s : State) (ds : List (Fin 4)) : Option (Fin 4) := ds.find? fun d => !(s.readyCores d).isEmpty

/-- The four dies in order. -/
def allDies : List (Fin 4) := [0, 1, 2, 3]

/-- The die of a vote (R374): none for a remote, cue-window or counter page, or a failed translation. -/
def State.vote (s : State) (c : Nat) (sp : Space3) (va : Word) : Option (Fin 4) × State :=
  if va.toNat / 2 ^ 58 ≠ 0 then (none, s)
  else match s.translate c (dieOf c) sp va with
    | .error _ => (none, s)
    | .ok (l, s) => (if pteRmt l.e || pteCp l.e == 2 || pteCp l.e == 3 then none else homeDie (l.pa va.toNat), s)

/-- The votes of a list of addresses, in their order. -/
def State.votes (s : State) (c : Nat) (sp : Space3) : List Word → List (Fin 4) × State
  | [] => ([], s)
  | a :: as =>
    let (v, s) := s.vote c sp a
    let (vs, s) := s.votes c sp as
    (v.toList ++ vs, s)

/-- The dies in falling number of votes, ties to the lower number. -/
def rankDies (vs : List (Fin 4)) : List (Fin 4) :=
  sortBy (fun a b => decide (vs.count b < vs.count a) || (vs.count a == vs.count b && decide (a ≤ b))) allDies

/-- The die of iteration `n` (R373, R374), with the event its map logs; none where no die has a ready core. What its reads and
translations leave at the home slices stays (R312). -/
def State.placeOf (s : State) (c : Nat) (sp : Space3) (l : Launch) (n : Nat) : (Option (Fin 4) × Option Nat) × State :=
  let low := s.firstDie allDies
  match l.placekind with
  | 1 =>
    match s.vget c sp (l.placeptr + BitVec.ofNat 64 n) 1 with
    | .error t => ((low, some 0x11), s.poisonSeen c sp t)
    | .ok (b, s) =>
      let v := le b
      if v < 4 then ((s.firstDie (Fin.ofNat 4 v :: allDies), none), s) else ((low, if v = 0xFF then none else some 0x10), s)
  | 2 =>
    match s.vget c sp l.placeptr 80 with
    | .error t => ((s.firstDie (rankDies []), none), s.poisonSeen c sp t)
    | .ok (b, s) =>
      let (vs, s) := s.votes c sp ((List.range (fld b 0 1 % 5)).map fun e =>
        BitVec.ofNat 64 (fld b (0x10 + 16 * e) 8 + fld b (0x18 + 16 * e) 8 * n))
      ((s.firstDie (rankDies vs), none), s)
  | _ => ((low, none), s)

/-- The places of a COHORT launch's iterations from the `k`th the walker visits on, each with its event; none where no die has a
ready core (R378). -/
def State.cohortPlaces (s : State) (c : Nat) (sp : Space3) (l : Launch) (k : Nat) : Nat → Option (List (Fin 4 × Option Nat)) × State
  | 0 => (some [], s)
  | fuel + 1 =>
    match s.placeOf c sp l (l.linear (l.tuple k)) with
    | ((none, _), s) => (none, s)
    | ((some d, ev), s) =>
      let (ps, s) := s.cohortPlaces c sp l (k + 1) fuel
      (ps.map ((d, ev) :: ·), s)

/-- Whether places name no more iterations of a die than it has ready cores (R378). -/
def State.placesFit (s : State) (ps : List (Fin 4 × Option Nat)) : Bool :=
  allDies.all fun d => decide ((ps.filter fun p => p.1 == d).length ≤ (s.readyCores d).length)

/-! ## Reading a record (R46, R134, R378) -/

/-- launch_record_invalid with its condition (R401). -/
def badRecord {α : Type} (n : Nat) (a : Word) : Op α := raise Cause.launchRecordInvalid n a

/-- A loop-nest record as it was read: the launch, its regions, job, phase and graph, the places of a COHORT launch's iterations. -/
structure Record where
  l : Launch
  rs : List Region
  job : Nat
  phase : Nat
  graph : Nat
  places : List (Fin 4 × Option Nat)

/-- Reads and checks a loop-nest record with all it names (R46, R134, R378, R401). -/
def readLaunch (c : Nat) (sp : Space3) (job : Nat) (a : Word) : Op Record := do
  check (a.toNat % 128 == 0) Cause.launchRecordInvalid 1 a
  let b ← smRead c sp a 128
  let l := Launch.ofBytes b
  match recordFault b l sp.sup job with
  | some n => badRecord n a
  | none => do
    let np := fld b 0x35 1
    let pb ← (if np = 0 then pure [] else smRead c sp (BitVec.ofNat 64 (fld b 0x70 8)) (32 * np))
    match (List.range np).mapM fun i => prologueCmd ((pb.drop (32 * i)).take 32) with
    | none => badRecord 11 a
    | some pro => do
      let j := fld b 0x58 4
      let s ← get
      let slot := s.jobSlot j
      check (sp.sup || (match slot with | some (_, x) => decide (l.prio ≤ x.maxprio) | none => true)) Cause.launchRecordInvalid 12 a
      let hdr ← (if l.preempt then smRead c sp l.saveptr 256 else pure [])
      let ns := fld hdr 0 4
      check (!l.preempt || (decide (1 ≤ ns ∧ ns ≤ 65535) && (hdr.drop 4).all (· == 0))) Cause.launchRecordInvalid 13 a
      let map ← (if l.placekind = 2 then smRead c sp l.placeptr 16 else pure [])
      check (l.placekind != 2 || (l.placeptr.toNat % 16 == 0 && decide (1 ≤ fld map 0 1 ∧ fld map 0 1 ≤ 4) && (map.drop 1).all (· == 0)))
        Cause.launchRecordInvalid 14 a
      check (!l.cohort || decide (l.total ≤ 256)) Cause.launchRecordInvalid 15 a
      let ps ← (fun s => .ok (if l.cohort then s.cohortPlaces c sp l 0 l.total else (some [], s)) : Op (Option (List (Fin 4 × Option Nat))))
      let s ← get
      check (match ps with | some ps => s.placesFit ps | none => false) Cause.launchRecordInvalid 15 a
      check slot.isSome Cause.launchRecordInvalid 16 a
      let nf := fld b 0x64 2
      let fb ← (if nf = 0 then pure [] else smRead c sp (BitVec.ofNat 64 (fld b 0x50 8)) (16 * nf))
      match readRegions nf fb with
      | none => badRecord 17 a
      | some rs => do
        check (nf == 0 || fld b 0x50 8 % 16 == 0) Cause.launchRecordInvalid 17 a
        pure ⟨{ l with nslot := ns, prologue := pro }, rs, j, fld b 0x5C 4, fld b 0x60 4, ps.getD []⟩

/-! ## The walker (R373) -/

/-- Adds a job at the tail of a die's list of a level (R376). -/
def State.joinList (s : State) (d : Fin 4) (lvl job : Nat) : State :=
  s.modDie d fun k =>
    let l := k.drr.get [] lvl
    if l.contains job then k else { k with drr := k.drr.put lvl (l ++ [job]) }

/-- The walker takes its next iteration to a die, with the event its map logs. -/
def State.placeOn (s : State) (n : Node) (l : Launch) (p : Fin 4 × Option Nat) : State :=
  let t := l.tuple n.walker
  let s := match p.2 with | some e => s.logEvent (Fin.ofNat 4 n.die) e 0 n.id | none => s
  let s := s.modNode n.id fun x =>
    { x with walker := x.walker + 1, iters := x.iters ++ [⟨l.linear t, t, p.1.val, .eligible, none, none, none, none⟩] }
  if n.started then s.joinList p.1 l.prio n.job else s

/-- The walker places the next iteration of a launch; none while no die has a ready core. -/
def State.placeNext (s : State) (n : Node) (l : Launch) : Option State :=
  match s.placeOf (256 + 64 * n.die) n.space l (l.linear (l.tuple n.walker)) with
  | ((none, _), _) => none
  | ((some d, ev), s) => some (s.placeOn n l (d, ev))

/-- The walker takes every iteration of a COHORT launch to its place (R378). -/
def State.placeAll (s : State) (id : Nat) (l : Launch) (ps : List (Fin 4 × Option Nat)) : State :=
  ps.foldl (fun s p => match s.node id with | some n => s.placeOn n l p | none => s) s

/-! ## launch (R134) -/

/-- Live nodes in a die's table (R371). -/
def State.tableFull (s : State) (d : Nat) : Bool := decide (4096 ≤ (s.nodes.filter fun n => n.die == d).length)

/-- Submits a record: reads it, checks it, enters its node; none while the node table is full (R134, R370, R378). A cancelled graph,
phase or job is looked for once every condition of the record holds and before the table's room (DESIGN CHOICE, log 94: R134 lists
the outcomes without an order). -/
def submitLaunch (c : Nat) (sp : Space3) (job : Nat) (nb : Bool) (hb : List Nat) (agent : Nat) (a : Word) : Op (Option Nat) := do
  let r ← readLaunch c sp job a
  let s ← get
  check (!s.isCancelled r.job r.phase r.graph) Cause.cancelled 0 a
  let d := (dieOf c).val
  if s.tableFull d then
    if nb then raise Cause.footprintTableFull 0 a else pure none
  else
    let n : Node :=
      { id := 0, die := d, job := r.job, phase := r.phase, graph := r.graph, seq := 0, kind := .launch r.l, space := sp, regions := r.rs,
        deps := [], started := false, startOrder := 0, cancelled := false, badIter := false, hb := hb, walker := 0, iters := [],
        complete := 0, usedSlots := [], engine := none, rel := [] }
    match s.encNode c agent r.job r.phase r.graph (s.seqs.get 0 (graphKey r.job r.phase r.graph)) with
    | none => pure none
    | some s =>
      let (id, s) := s.enterNode n
      set (s.placeAll id r.l r.places)
      pure (some id)

def execLaunch (d a : Reg) (nb : Bool) (s : State) : Out :=
  let go (s : State) : Out :=
    let c := s.iss.core
    let t := s.iss.strand
    let ea := s.rd a
    run (do
      modify fun s => (s.release c t .pkg).2
      let s ← get
      match ← submitLaunch c s.mySpace s.me.jobId.toNat nb (s.relSet c t) t.val ea with
      | none => fun s' => .ok ((), s'.hold .launch)
      | some id => modify fun s => s.fixed 1 (.reg d) (BitVec.ofNat 64 id) 0) s
  if nb then needSup s go else go s

/-! ## Cancellation (R135, R136, R381) -/

/-- What a cancel or waitc names. -/
structure Named where
  lvl : Level
  a : Nat
  b : Nat
  job : Nat
  deriving DecidableEq, Repr

/-- The object an operand pair names (R135). -/
def namedBy (lvl : Level) (a b : Word) : Named :=
  match lvl with
  | .graph => ⟨lvl, a.toNat / 2 ^ 32, a.toNat % 2 ^ 32, b.toNat % 2 ^ 32⟩
  | _ => ⟨lvl, a.toNat % 2 ^ 32, 0, b.toNat % 2 ^ 32⟩

/-- Whether a node is part of an object. -/
def Named.has (o : Named) (n : Node) : Bool :=
  n.job == o.job && (match o.lvl with
    | .launch => n.id == o.a && n.launch?.isSome
    | .graph => n.phase == o.a && n.graph == o.b
    | .phase => n.phase == o.a
    | .job => true)

/-- Whether the object has been marked cancelled. -/
def State.marked (s : State) (o : Named) : Bool :=
  match o.lvl with
  | .launch => match s.node o.a with | some n => n.cancelled | none => false
  | .graph => s.isCancelled o.job o.a o.b
  | .phase => s.cancelledPhases.contains (o.job, o.a) || (match s.jobSlot o.job with | some (_, j) => j.cancelled | none => false)
  | .job => match s.jobSlot o.job with | some (_, j) => j.cancelled | none => false

/-- An iteration that has not ended leaves its node. -/
def State.dropIter (s : State) (id num : Nat) (cancelled : Bool) : State :=
  s.modNode id fun n =>
    let gone := n.iters.find? fun i => i.n == num
    { n with iters := n.iters.filter fun i => i.n != num, complete := if cancelled then n.complete else n.complete + 1,
             badIter := n.badIter || cancelled,
             usedSlots := match gone with | some i => (match i.slot with | some k => n.usedSlots.erase k | none => n.usedSlots) | none => n.usedSlots }

/-- A cancel reaches one core's running iteration (R136, R381). -/
def State.cancelRun (s : State) (c : Nat) : State :=
  match (s.core c).run with
  | none => s
  | some r =>
    if r.draining then s.modCore c fun k => { k with run := some { r with cancelled := true } }
    else ((s.cutWaits c).startDrain c).modCore c fun k =>
      { k.halted with run := k.run.map fun r => { r with cancelled := true, prologue := [] }, stopped := false, dbgHit := none }

/-- A cancel reaches one core's understudy: it ends CANCELLED (R381). -/
def State.cancelUnder (s : State) (c : Nat) : State :=
  match (s.core c).under with
  | none => s
  | some u => (s.modCore c fun k => { k with under := none }).dropIter u.ctx.launch u.ctx.iter true

/-- Cancels one node's parts (R381). -/
def State.cancelNode (s : State) (id : Nat) : State :=
  let s := s.modNode id fun n => { n with cancelled := true }
  let free (d : Die) : Die := { d with resv := d.resv.filter fun r => r.2 != id }
  let s := { s with dies := ⟨free s.dies.e0, free s.dies.e1, free s.dies.e2, free s.dies.e3⟩ }
  let s := (s.cores.map (·.1)).foldl (fun s c =>
    let s := if (match (s.core c).run with | some r => r.launch == id | none => false) then s.cancelRun c else s
    if (match (s.core c).under with | some u => u.ctx.launch == id | none => false) then s.cancelUnder c else s) s
  match s.node id with
  | none => s
  | some n => (n.iters.filter fun i => i.st == .eligible || i.st == .yielded).foldl (fun s i => s.dropIter id i.n true) s

/-- Records a cancel (R136, R381): whether it found the object live and not yet cancelled. A graph, phase or job without a live node is
not marked, so that later nodes may name it (DESIGN CHOICE, log 94: R381 does not say so of an object that is not live). -/
def State.cancelObj (s : State) (o : Named) : Bool × State :=
  let ns := s.nodes.filter o.has
  if ns = [] ∨ s.marked o then (false, s)
  else
    let s := match o.lvl with
      | .launch => s
      | .graph => { s with cancelledGraphs := (o.job, o.a, o.b) :: s.cancelledGraphs }
      | .phase => { s with cancelledPhases := (o.job, o.a) :: s.cancelledPhases }
      | .job => match s.jobSlot o.job with
        | some (i, j) => { s with jobs := s.jobs.put i { j with cancelled := true } }
        | none => s
    (true, ns.foldl (fun s n => if n.cancelled then s else s.cancelNode n.id) s)

/-- Whether a context may name objects of a job (R135). -/
def State.mayName (s : State) (job : Nat) : Bool := s.str.sup || job == s.me.jobId.toNat % 2 ^ 32

def execCancel (d a b : Reg) (lvl : Level) (s : State) : Out :=
  let o := namedBy lvl (s.rd a) (s.rd b)
  let (found, s1) := if s.mayName o.job then s.cancelObj o else (false, s)
  .next (s1.fixed 1 (.reg d) (if found then 1 else 0) 0)

/-! ## waitc (R137, R372) -/

/-- Whether the object contains the context a core runs. -/
def State.contains (s : State) (o : Named) (c : Nat) : Bool :=
  let k := s.core c
  k.jobId.toNat == o.job && (match o.lvl with
    | .launch => k.launchId.toNat == o.a
    | .graph => k.phaseId.toNat == o.a && k.graphId.toNat == o.b
    | .phase => k.phaseId.toNat == o.a
    | .job => true)

/-- The outcome of an ended object with the writes its completion releases: 0 completed, 1 cancelled, 2 unknown (R137, R372). R372
states the outcome of a graph; that of a phase or a job is taken from its graphs in the same way: cancelled if it has been cancelled
or any node of it ended cancelled, unknown if no node has named it (DESIGN CHOICE, log 94). -/
def State.outcome (s : State) (o : Named) : Nat × List Nat :=
  let rate (bad : Bool) (rel : List Nat) : Nat × List Nat := if bad then (1, []) else (0, rel)
  let group (l : List Group) (g : Nat) : Nat × List Nat :=
    match l.find? (·.named o.job o.a g) with
    | some x => rate (s.marked o || x.cancelled) x.rel
    | none => (2, [])
  match o.lvl with
  | .launch =>
    match s.endedNodes.find? fun e => e.job == o.job && e.a == o.a with
    | some e => rate e.cancelled e.rel
    | none => (2, [])
  | .graph => group s.graphs o.b
  | .phase => group s.phases 0
  | .job =>
    let gs := s.phases.filter fun g => g.job == o.job
    if gs = [] then (2, []) else rate (s.marked o || gs.any (·.cancelled)) (gs.foldl (fun l g => uni l g.rel) [])

def execWaitc (d a b : Reg) (lvl : Level) (s : State) : Out :=
  let o := namedBy lvl (s.rd a) (s.rd b)
  let c := s.iss.core
  let put (v : Nat) (s : State) : State := s.fixed 1 (.reg d) (BitVec.ofNat 64 v) 0
  if !s.mayName o.job then .next (put 2 s)
  else if s.contains o c then .next (put 3 s)
  else if s.nodes.any o.has then .next (s.hold .waitc)
  else
    let (v, rel) := s.outcome o
    let s1 := if v = 0 then s.acquire c s.iss.strand rel else s
    let id := match lvl with | .graph => o.b | _ => o.a
    .next (put v (if s.wasWaiting .waitc then
      s1.waitRec c s.iss.strand.val 5 (levelCode lvl * 2 ^ 26 + id % 2 ^ 26) s.iod.devnum c 8 else s1))

/-! ## The ends of nodes (R371, R372) -/

/-- The launch node has ended: every iteration complete, or cancelled with none under way (R371). -/
def Node.over? (n : Node) : Option Bool :=
  match n.kind with
  | .card _ => none
  | .launch l =>
    let busy := n.iters.any fun i => i.st != .eligible
    if (n.cancelled ∨ (n.badIter ∧ l.total ≤ n.walker ∧ n.iters = [])) ∧ ¬ busy then some true
    else if n.started ∧ n.iters = [] ∧ l.total ≤ n.walker ∧ ¬ n.badIter then some false
    else none

/-- A node that has ended is counted by its graph, phase and job (R44); they keep whether it ended cancelled, which a phase's and a
job's outcome answer for too (DESIGN CHOICE, log 94), and what it released (R372). A graph that is no longer live gives its ids free. -/
def State.closeGraph (s : State) (n : Node) (cancelled : Bool) (rel : List Nat) : State :=
  let live := s.nodes.any fun m => m.inGraph n.job n.phase n.graph
  let f (g : Group) : Group := { g with count := g.count + 1, cancelled := g.cancelled || cancelled, rel := uni g.rel rel }
  let g (x : Group) : Group := if live then f x else { f x with ids := [] }
  { s with
    graphs := modGroup s.graphs n.job n.phase n.graph g,
    phases := modGroup s.phases n.job n.phase 0 f,
    jobs := s.jobs.map fun e => if e.2.jobid == n.job then (e.1, { e.2 with count := e.2.count + 1 }) else e }

/-- Ends a node: its dependants lose it and, where it completed, acquire its writes (R293, R371). The end of a launch is recorded for
waitc, with those of its die's 65,536 latest (R137). -/
def State.endNode (s : State) (id : Nat) (cancelled : Bool) : State :=
  match s.node id with
  | none => s
  | some n =>
    let rel := if cancelled then [] else s.prune n.rel
    let s := { s with nodes := (s.nodes.filter fun (m : Node) => m.id != id).map fun (m : Node) =>
      if m.deps.contains id then { m with deps := m.deps.filter (· != id), hb := uni m.hb rel } else m }
    let x : Ended := ⟨n.job, id, n.die, cancelled, rel⟩
    let s := if n.launch?.isNone then s
      else { s with endedNodes :=
        (x :: s.endedNodes.filter (fun (e : Ended) => e.b == n.die)).take 65536
          ++ s.endedNodes.filter (fun (e : Ended) => e.b != n.die) }
    s.closeGraph n cancelled rel

def execNodeStart (id : Nat) (s : State) : Out :=
  match s.node id with
  | none => .next s
  | some n =>
    if n.started ∨ n.cancelled ∨ n.deps ≠ [] ∨ ¬ s.smOn (Fin.ofNat 4 n.die) then .next s
    else
      let s1 := { s.modNode id (fun x => { x with started := true, startOrder := s.orderNext }) with orderNext := s.orderNext + 1 }
      match n.kind with
      | .card _ => .next s1
      | .launch l =>
        let s2 := n.iters.foldl (fun s i => s.joinList (Fin.ofNat 4 i.die) l.prio n.job) s1
        .next (if l.total = 0 then s2.endNode id false else s2)

def execNodeEnd (id : Nat) (s : State) : Out :=
  match s.node id with
  | none => .next s
  | some n => match n.over? with
    | some c => .next (s.endNode id c)
    | none => .next s

def execIterationPlace (id : Nat) (s : State) : Out :=
  match s.node id with
  | none => .next s
  | some n => match n.kind with
    | .card _ => .next s
    | .launch l =>
      if n.cancelled ∨ ¬ n.started ∨ l.total ≤ n.walker ∨ ¬ s.smOn (Fin.ofNat 4 n.die) then .next s
      else match s.placeNext n l with
        | some s' => .next s'
        | none => .next s

/-! ## Choosing an iteration (R376) -/

/-- The eligible iterations of a die: yielded ones first, then by start of their launch, in walker order. -/
def State.eligible (s : State) (d : Fin 4) : List (Node × Launch × Iter) :=
  let ns := sortBy (fun a b => decide (a.startOrder ≤ b.startOrder)) (s.nodes.filter fun n => n.started && !n.cancelled)
  let all := ns.flatMap fun n => match n.kind with
    | .card _ => []
    | .launch l => (n.iters.filter fun i => i.die == d.val && (i.st == .eligible || i.st == .yielded)).map fun i => (n, l, i)
  (all.filter fun x => x.2.2.st == .yielded) ++ all.filter fun x => x.2.2.st == .eligible

/-- The highest level of a list of iterations. -/
def topLevel (xs : List (Node × Launch × Iter)) : Nat := xs.foldl (fun m x => Max.max m x.2.1.prio) 0

/-- The deficit round robin of R376 over the candidates of level `lvl`. -/
def State.drrPick (s : State) (d : Fin 4) (lvl : Nat) (xs : List (Node × Launch × Iter)) : Nat → Option ((Node × Launch × Iter) × State)
  | 0 => none
  | fuel + 1 =>
    match (s.die d).drr.get [] lvl with
    | [] => none
    | j :: js =>
      let dj := (s.die d).deficit.get 0 j
      match xs.find? fun x => x.1.job == j with
      | none => (s.modDie d fun k => { k with drr := k.drr.put lvl js, deficit := k.deficit.put j 0 }).drrPick d lvl xs fuel
      | some x =>
        if 0 < dj then some (x, s)
        else
          let w : Int := 1024 * (match s.jobSlot j with | some (_, t) => t.weight | none => 1)
          (s.modDie d fun k => { k with drr := k.drr.put lvl (js ++ [j]), deficit := k.deficit.put j (Min.min (dj + w) w) }).drrPick d lvl xs fuel

/-- Chooses the next iteration of a die among candidates (R376). -/
def State.choose (s : State) (d : Fin 4) (xs : List (Node × Launch × Iter)) : Option ((Node × Launch × Iter) × State) :=
  if xs = [] then none
  else
    let lvl := topLevel xs
    let s := xs.foldl (fun s x => if x.2.1.prio = lvl then s.joinList d lvl x.1.job else s) s
    let debt := (s.die d).deficit.foldl (fun n e => n + e.2.natAbs) 0
    s.drrPick d lvl (xs.filter fun x => x.2.1.prio == lvl) ((debt / 1024 + 3) * (((s.die d).drr.get [] lvl).length + 2))

/-- Puts a chosen iteration into a core's understudy place: STAGED (R379, R380). -/
def State.stageOn (s : State) (c : Nat) (x : Node × Launch × Iter) : State :=
  let (n, l, i) := x
  let ctx : Ctx :=
    { iter := i.n, launch := n.id, cancelled := false, fatal := false, yreq := false, slot := i.slot, draining := false,
      preDrain := false, prologue := if i.st = .yielded then [] else l.prologue, order := 0, noReq := false,
      restored := i.st == .yielded, wrote := [], lines := [] }
  let s := s.modNode n.id fun m => { m with iters := m.iters.map fun k =>
    if k.n = i.n then { k with st := .staged, core := if l.cohort then (match k.core with | some c' => some c' | none => some c) else some c } else k }
  s.modCore c fun k => { k with under := some ⟨ctx, false, [], 0, none, Commit.zero⟩ }

/-- A core with neither a running nor a staged iteration. -/
def State.freeCore (s : State) (c : Nat) : Bool := (s.core c).run.isNone && (s.core c).under.isNone

/-- Whether an iteration waits to be chosen. -/
def Iter.waits (i : Iter) : Bool := i.st == .eligible || i.st == .yielded

/-- The COHORT node that collects slots on a die: of those with iterations there that wait, the oldest started of the highest level (R378). -/
def State.cohortWaiting (s : State) (d : Fin 4) : Option (Node × Launch) :=
  let ns := s.nodes.filterMap fun n => match n.kind with
    | .launch l => if l.cohort && n.started && !n.cancelled && n.iters.any (fun i => i.die == d.val && i.waits) then some (n, l) else none
    | .card _ => none
  (sortBy (fun a b => decide (b.2.prio < a.2.prio) || (a.2.prio == b.2.prio && decide (a.1.startOrder ≤ b.1.startOrder))) ns).head?

/-- Iterations of a COHORT node on a die not yet provided with a slot. -/
def State.cohortNeeds (s : State) (d : Fin 4) (n : Node) : Nat :=
  (n.iters.filter fun i => i.die == d.val).length - ((s.die d).resv.filter fun r => r.2 == n.id).length

/-- Whether an iteration of level `lvl` may take slot `c` of a die: it is not reserved, or for a node of a lower level (R378). -/
def State.slotFor (s : State) (d : Fin 4) (lvl c : Nat) : Bool :=
  (s.die d).resv.all fun r => r.1 != c || (match s.node r.2 with
    | some n => (match n.kind with | .launch l => decide (l.prio < lvl) | .card _ => true)
    | none => true)

/-- The level of a core's understudy; none where it has none. -/
def State.underLevel (s : State) (c : Nat) : Option Nat :=
  match (s.core c).under with
  | none => none
  | some u => some (match s.node u.ctx.launch with
    | some n => (match n.kind with | .launch l => l.prio | .card _ => 0)
    | none => 0)

/-- Whether a core's running slot is free for a COHORT node of level `lvl` to reserve: no understudy of a higher level is to take it (R378). -/
def State.slotFree (s : State) (lvl c : Nat) : Bool :=
  (s.core c).run.isNone && (match s.underLevel c with | some u => decide (u ≤ lvl) | none => true)

/-- Whether a COHORT node that collects slots keeps the running slot of core `c` from an iteration of level `lvl` (R378). -/
def State.slotKept (s : State) (lvl c : Nat) : Bool :=
  !s.slotFor (dieOf c) lvl c
    || (match s.cohortWaiting (dieOf c) with
      | some (n, l) => decide (lvl ≤ l.prio) && allDies.any fun e => s.cohortNeeds e n != 0
      | none => false)

/-- A slot of a die is reserved no longer. -/
def State.unreserve (s : State) (d : Fin 4) (c : Nat) : State := s.modDie d fun k => { k with resv := k.resv.filter fun r => r.1 != c }

def execSlotFill (d : Fin 4) (s : State) : Out :=
  if (s.die d).owed ≠ [] ∨ ¬ s.smOn d then .next s
  else
    let free := (s.readyCores d).filter s.freeCore
    let xs := (s.eligible d).filter fun x => !x.2.1.cohort
    let put (c : Nat) : Out :=
      match s.choose d xs with
      | some (x, s') => .next (s'.stageOn c x)
      | none => .next s
    match s.cohortWaiting d with
    | some (n, l) =>
      let above := xs.filter fun x => decide (l.prio < x.2.1.prio)
      match (if above = [] then none else (free.filter (s.slotFor d (topLevel above))).head?) with
      | some c => (match s.choose d above with
          | some (x, s') => .next ((s'.unreserve d c).stageOn c x)
          | none => .next s)
      | none =>
        let mine := ((s.readyCores d).filter (s.slotFree l.prio)).filter fun c => s.slotFor d l.prio c && (!n.iters.any (·.core.isSome) || n.iters.any fun i => i.core == some c)
        if 0 < s.cohortNeeds d n then
          match mine.head? with
          | some c => .next ((s.unreserve d c).modDie d fun k => { k with resv := k.resv ++ [(c, n.id)] })
          | none => .next s
        else if allDies.all fun e => s.cohortNeeds e n == 0 then
          match (free.filter fun c => (s.die d).resv.all fun r => r.1 != c).head? with
          | some c => put c
          | none => .next s
        else .next s
    | none =>
      match (free.filter fun c => (s.die d).resv.all fun r => r.1 != c).head? with
      | some c => put c
      | none => .next s

def execUnderstudyStage (c : Nat) (s : State) : Out :=
  let k := s.core c
  if k.run.isNone ∨ k.under.isSome ∨ ¬ s.isReady .core c ∨ (s.die (dieOf c)).owed ≠ [] ∨ ¬ s.smOn (dieOf c) then .next s
  else
    match s.choose (dieOf c) ((s.eligible (dieOf c)).filter fun x => !x.2.1.cohort) with
    | some (x, s') => .next (s'.stageOn c x)
    | none => .next s

/-- An iteration that left RUNNING is charged the clocks it spent there (R376). -/
def execDeficitCharge (d : Fin 4) (job clocks : Nat) (s : State) : Out :=
  if (s.die d).owed.contains job then
    .next (s.modDie d fun k => { k with owed := k.owed.erase job, deficit := k.deficit.put job (k.deficit.get 0 job - clocks) })
  else .next s

/-! ## Pre-emption requests (R377, R378) -/

/-- Cores whose running slot holds a RUNNING iteration of a launch (R377, R380). -/
def State.runningOf (s : State) (id : Nat) : List Nat :=
  (s.cores.filter fun e => match e.2.run with | some r => r.launch == id && !r.draining | none => false).map (·.1)

/-- Live nodes of a job in the package, and its iterations that are RUNNING (R368). -/
def State.jobLive (s : State) (job : Nat) : Nat := (s.nodes.filter fun n => n.job == job).length

def State.jobRunning (s : State) (job : Nat) : Nat :=
  ((s.nodes.filter fun n => n.job == job).map fun n => (s.runningOf n.id).length).sum

/-- SM_LIVE and SM_FREE of a die (R368). -/
def State.smLive (s : State) (d : Fin 4) : Nat := (s.nodes.filter fun n => n.die == d.val).length

def State.smFree (s : State) (d : Fin 4) : Nat :=
  ((s.readyCores d).filter fun c => match (s.core c).run with | some r => r.draining | none => true).length

/-- Free save slots of a node. -/
def Node.freeSlots (n : Node) (l : Launch) (k : Nat) : List Nat :=
  (((List.range (Min.min l.nslot (n.usedSlots.length + k))).filter fun i => !n.usedSlots.contains i)).take k

/-- A context of a die that may be asked to stop for level `lvl`. -/
def State.mayAsk (s : State) (lvl c : Nat) : Option (Nat × Nat × Node × Launch) :=
  match (s.core c).run with
  | none => none
  | some r => match s.node r.launch with
    | none => none
    | some n => match n.kind with
      | .card _ => none
      | .launch l =>
        let need := if l.cohort then (s.runningOf n.id).length else 1
        if l.prio < lvl ∧ l.preempt ∧ ¬ r.yreq ∧ ¬ r.noReq ∧ ¬ r.draining ∧ need ≤ (n.freeSlots l need).length then some (l.prio, r.order, n, l) else none

/-- Sets YREQ on a core's context with a save slot (R377). -/
def State.askYield (s : State) (c slot id : Nat) : State :=
  let s := s.modCore c fun k => { k with run := k.run.map fun r => { r with yreq := true, slot := some slot } }
  s.modNode id fun n => { n with usedSlots := slot :: n.usedSlots }

def execPreemptionRequest (d : Fin 4) (s : State) : Out :=
  let waiting := (s.eligible d).filter fun x => !((s.die d).reqs.any fun r => r.2 == x.2.1.prio) && (!x.2.1.cohort || s.cohortNeeds d x.1 != 0)
  let lvl := topLevel waiting
  if waiting = [] ∨ ¬ s.smOn d ∨ (s.readyCores d).any (fun c => s.freeCore c && s.slotFor d lvl c) then .next s
  else
    let cs := (s.readyCores d).filterMap fun c => (s.mayAsk lvl c).map fun x => (c, x)
    match (sortBy (fun (a b : Nat × Nat × Nat × Node × Launch) =>
        decide (a.2.1 < b.2.1) || (a.2.1 == b.2.1 && decide (a.2.2.1 ≤ b.2.2.1))) cs).head? with
    | none => .next s
    | some (c, _, _, n, l) =>
      let targets := if l.cohort then s.runningOf n.id else [c]
      let s1 := (List.zip targets (n.freeSlots l targets.length)).foldl (fun s e => s.askYield e.1 e.2 n.id) s
      .next (s1.modDie d fun k => { k with reqs := (c, lvl) :: k.reqs })

end Sys2Proof.Machine
end

