-- ==== Sys2Proof/Machine/Issue.lean ====
section
/-! DEFINITION. The issue of a bundle: fetch, decode, checks, both syllables, loops, yield points, lockstep (R14 to R22, R82 to R89, R128 to R133). -/

namespace Sys2Proof.Machine

/-! ## What a syllable names -/

/-- General registers a syllable reads. -/
def srcRegs : Instr → List Reg
  | .add _ a b | .sub _ a b | .mul _ a b | .mulh _ a b _ | .div _ a b _ | .rem _ a b _ | .and _ a b | .or _ a b => [a, b]
  | .xor _ a b | .shl _ a b | .shr _ a b _ | .rotl _ a b | .min _ a b _ | .max _ a b _ | .ins _ a b _ _ => [a, b]
  | .sel _ a b _ | .addsh _ a b _ | .gtop a b | .tlbi a b _ _ | .icinv a b _ | .lwarm a b | .lwwait a b => [a, b]
  | .fadd _ a b _ | .fsub _ a b _ | .fmul _ a b _ | .fdiv _ a b _ | .fmin _ a b _ | .fmax _ a b _ | .fsgn _ a b _ _ => [a, b]
  | .cmp _ _ a b _ | .fcmp _ _ a b _ _ | .cancel _ a b _ | .waitc _ a b _ | .cueinc _ _ a b _ | .cflush a b _ _ => [a, b]
  | .kvfork _ a b | .kvclass a b _ | .kvquery _ a b | .kvtrim a b => [a, b]
  | .addi _ a _ | .andi _ a _ | .ori _ a _ | .xori _ a _ | .shli _ a _ | .shri _ a _ _ | .clz _ a | .popc _ a => [a]
  | .bswap _ a | .ext _ a _ _ _ | .lih _ a _ | .mov _ a | .fsqrt _ a _ | .fcvt _ a _ _ _ | .fclass _ a _ => [a]
  | .cmpi _ a _ _ | .tbit _ a _ _ | .brr a _ | .ret a | .loop _ a _ _ _ _ | .launch _ a _ | .mts _ a => [a]
  | .cuerd _ _ _ a | .mapb a _ | .fmtq a | .kvdrop a => [a]
  | .cuewait _ b _ => [b]
  | .madd _ a b c | .fma _ a b c _ | .vshape _ a b c => [a, b, c]
  | .ld _ m _ _ | .ldq _ _ m | .ldt _ m _ _ | .ldl _ _ m _ | .pref m _ => [m.a, m.b]
  | .st c m _ | .stu c m _ => [m.a, m.b, c]
  | .stq dm b c _ m => [dm, b, c, m.a]
  | .spamo _ a b c _ _ _ | .amo _ a b c _ _ _ _ _ | .amosc _ a b c _ _ _ => [a, b, c]
  | i => let (a, b, c) := regsOf i; [a, b, c]

/-- General registers a syllable writes. -/
def dstRegs : Instr → List Reg
  | .add d _ _ | .sub d _ _ | .addi d _ _ | .mul d _ _ | .mulh d _ _ _ | .div d _ _ _ | .rem d _ _ _ | .and d _ _ | .or d _ _ => [d]
  | .xor d _ _ | .andi d _ _ | .ori d _ _ | .xori d _ _ | .shl d _ _ | .shr d _ _ _ | .shli d _ _ | .shri d _ _ _ => [d]
  | .rotl d _ _ | .min d _ _ _ | .max d _ _ _ | .clz d _ | .popc d _ | .bswap d _ | .ext d _ _ _ _ | .ins d _ _ _ _ => [d]
  | .li d _ | .lih d _ _ | .mov d _ | .sel d _ _ _ | .addsh d _ _ _ | .madd d _ _ _ => [d]
  | .fadd d _ _ _ | .fsub d _ _ _ | .fmul d _ _ _ | .fma d _ _ _ _ | .fdiv d _ _ _ | .fsqrt d _ _ | .fmin d _ _ _ => [d]
  | .fmax d _ _ _ | .fcvt d _ _ _ _ | .fsgn d _ _ _ _ | .fclass d _ _ | .ptog d | .launch d _ _ | .cancel d _ _ _ => [d]
  | .waitc d _ _ _ | .mfs d _ | .ld d _ _ _ | .ldt d _ _ _ | .ldl d _ _ _ | .spamo d _ _ _ _ _ _ | .amo d _ _ _ _ _ _ _ _ => [d]
  | .amosc d _ _ _ _ _ _ | .cuerd d _ _ _ | .vshape d _ _ _ | .kvfork d _ _ | .kvquery d _ _ => [d]
  | .ldq d c _ => [d, c]
  | .call _ | .brr _ true => [63]
  | _ => []

/-- Predicates a syllable writes (R87): gtop's by its mask, a loop's whole stage block. -/
def dstPreds (u : Strand) (i : Instr) : List Nat :=
  match i with
  | .cmp p pc _ _ _ | .fcmp p pc _ _ _ _ => p.val :: (match pc with | some q => [q.val] | none => [])
  | .cmpi p _ _ _ | .plog p _ _ _ | .tbit p _ _ _ | .ldl _ p _ _ => [p.val]
  | .gtop _ b => (gtopMask (u.rd b)).map (·.val)
  | .loop _ _ _ sm1 _ pb => if sm1 = 0 then [] else (List.range (sm1.toNat + 1)).map (pb.toNat + ·)
  | i => match tryOf i with | some p => [p.val] | none => []

/-- Syllables that wait for every earlier access of their strand: releases, and fences that acquire (R148, R161, R165). -/
def waitsAll : Instr → Bool
  | .fence _ _ | .tfence _ | .tkpush _ | .cueinc _ _ _ _ _ | .sbar _ | .launch _ _ _ | .amosc _ _ _ _ _ _ _ | .stu _ _ _ => true
  | .amo _ _ _ _ _ _ _ ord _ => Ord.releases ord
  | .st _ m _ | .stq _ _ _ _ m => Ord.releases m.ord
  | _ => false

/-- The control syllables (R88). -/
def isControl : Instr → Bool
  | .br _ | .brr _ _ | .call _ | .ret _ | .loop _ _ _ _ _ _ | .lbrk _ | .yield | .exit | .trap _ | .brk _ | .rft => true
  | _ => false

/-- Instructions and forms that user mode may not use (R49, R86). -/
def isPriv : Instr → Bool
  | .rft | .tlbi _ _ _ _ | .cflush _ _ .discard _ | .launch _ _ true => true
  | .mfs _ ix | .mts ix _ => sysPriv.contains ix.toNat
  | _ => false

/-- The lowest destination two syllables share, as TSUB names it (R87, R401). -/
def conflict (u : Strand) (i j : Instr) : Option Nat :=
  let lowest (l : List Nat) : Option Nat := (sortBy (fun a b => decide (a ≤ b)) l).head?
  match lowest (((dstRegs i).filter fun r => r != 0 && (dstRegs j).contains r).map (·.toNat)) with
  | some r => some r
  | none => (lowest ((dstPreds u i).filter fun p => (dstPreds u j).contains p)).map (256 + ·)

/-! ## Fetch (R83, R142) -/

/-- Bundles of 16 bytes that the 128 KiB of a core's instruction cache hold (R12). -/
def icBundles : Nat := 8192

/-- The bundle at a strand's PC: from memory, or the bundle its instruction cache still holds (log 11). -/
def State.fetch (s : State) (c : Nat) (t : Fin 4) : Except Trap (Nat × State) :=
  let u := s.strand c t
  match s.gcheck c (dieOf c) ((s.core c).space u.sup) u.pc 16 .ex with
  | .error tr => .error tr
  | .ok (l, s) =>
    let va := u.pc.toNat
    let pa := l.pa va
    let mem (s : State) : Except Trap (Nat × State) :=
      match s.dieRead (dieOf c) pa 16 (pteKid l.e) (pteCh l.e) u.pc with
      | .error tr => .error tr
      | .ok (bs, s) =>
        .ok (le bs, s.modCore c fun k => { k with ic := (⟨va, pa, le bs⟩ :: k.ic.filter fun e => e.va != va).take icBundles })
    match (s.core c).ic.find? fun e => e.va == va && e.pa == pa with
    | none => mem s
    | some e =>
      if (s.peekLine (dieOf c) (pa / 128) (pteKid l.e)).map (fun d => le ((d.drop (pa % 128)).take 16)) = some e.w then .ok (e.w, s)
      else
        let (b, s) := s.drawBit
        if b then .ok (e.w, s) else mem s

/-! ## Decode with the mode (R86, R89, R101) -/

/-- The syllable of a slot, or the first cause its decoding raises. -/
def slotDecode (sup : Bool) (slot w : Nat) : Except Trap Syllable :=
  match decodeSyllable w with
  | .error .illegalGuard => .error ⟨Cause.illegalGuard, slot, 0⟩
  | .error .illegalInstruction => .error ⟨Cause.illegalInstruction, slot, 0⟩
  | .error (.unlistedSysreg ix) =>
    .error (if sup then ⟨Cause.reservedSysreg, ix, 0⟩ else ⟨Cause.illegalInstruction, slot, 0⟩)
  | .error .reservedField => .error ⟨Cause.reservedField, slot, 0⟩
  | .ok y => if isPriv y.instr && !sup && y.guard != .never then .error ⟨Cause.privilegedInstruction, slot, 0⟩ else .ok y

/-- Both syllables of a bundle under steps 2 to 4 of R89. -/
def bundleDecode (sup : Bool) (b : RawBundle) : Except Trap (Syllable × Syllable) :=
  if b.hdr ≠ 0 then .error ⟨Cause.illegalBundleHeader, 0, 0⟩
  else
    match slotDecode sup 0 b.slot0 with
    | .error t => .error t
    | .ok y0 =>
      match slotDecode sup 1 b.slot1 with
      | .error t => .error t
      | .ok y1 =>
        if isControl y0.instr && isControl y1.instr && y0.guard != .never && y1.guard != .never then .error ⟨Cause.illegalInstruction, 1, 0⟩
        else .ok (y0, y1)

/-! ## The end of a bundle (R20, R21, R129 to R132, R452, R456, R457) -/

/-- The issue context is put away. -/
def State.closed (s : State) : State := { s with iss := Issue.zero }

/-- The loops that end at this bundle step, latest first (R129): the next PC, and the back edge's iteration and Y, if one is taken. -/
def State.stepLoops (s : State) (sup : Bool) : List (Fin 4 × LoopC) → Word × Option (Nat × Bool) × State
  | [] => (s.iss.pc + 16, none, s)
  | (i, l) :: ls =>
    let k := l.i + 1
    if k < l.n.toNat + l.s - 1 then
      let s := s.modStr fun t => { t with lc := t.lc.set i (some { l with i := k }) }
      let s := if 2 ≤ l.s then s.stage l k else s
      (l.start, some (k, l.y), s.loopTrace 2 0x02 i l k)
    else
      let s := s.modStr fun t => { t with lc := t.lc.set i none }
      (s.loopTrace 1 0x03 i l k).stepLoops sup ls

/-- The system register writes of a bundle take effect, slot 0's first: of two to one register slot 1's remains (R101; log 94). -/
def State.applySys (s : State) (ws : List (Nat × Word)) : State :=
  ws.foldl (fun s w => match SysReg.ofIndex w.1 with | some r => s.sysWrite s.iss.core s.iss.strand r w.2 | none => s) s

/-- A strand reaches the point of a debug stop (R457). -/
def State.dbgAt (s : State) (i : Nat) : State :=
  s.modMe fun k => match k.dbgHit with | none => { k with dbgHit := some (s.iss.strand, i) } | some _ => k

/-- The strand ends (R132, R156); when it is the last, the iteration drains (R48). -/
def State.exitStrand (s : State) : State :=
  let t := s.iss.strand
  let s := s.modStr fun u => { u.landAll with cond := .exited, lkstep := false }
  let s := s.modMe fun k => { k with locks := k.locks.filter fun l => l.2 != t }
  let s := if s.me.stopReq then s.dbgAt 0xFFFFFFFF else s
  if s.me.st.toList.all (fun u => u.cond == .exited) then (s.startDrain s.iss.core).modMe fun k => { k with dbgHit := none }
  else s

/-- What an rft leaves at its bundle's end (R140): the mode of PMODE, TIP clear whatever an mts of the bundle wrote there (log 94), and
what earlier bundles had in flight written. -/
def Strand.returned (u : Strand) (pmode : Bool) : Strand :=
  ({ u with sup := pmode, tstatus := u.tstatus &&& ~~~2#64 }).landEarlier

/-- The next PC of a bundle that completes: where it redirects control, or where its loops lead (R129); the back edge taken. -/
def State.nextPc (s : State) (sup : Bool) : Word × Option (Nat × Bool) × State :=
  match s.iss.redirect with
  | some pc => (pc, none, s)
  | none =>
    if s.iss.noStep then (s.iss.pc + 16, none, s)
    else s.stepLoops sup (s.str.liveLoops.filter fun e => e.2.stop == s.iss.pc && e.2.sup == sup)

/-- The sbar a strand has left counts until its bundle completes; a return from a trap keeps it only for that bundle (R133). -/
def Strand.keepPassed (u : Strand) (i : Issue) (pc : Word) : Option Word :=
  if i.ret.isSome then (if u.passed = some pc then u.passed else none) else if u.passed = some i.pc then none else u.passed

/-- A bundle that issued completes: `sup` is the mode and `step` the SSTEP bit it issued under. Its loops step before its system
register writes take effect (R101). -/
def State.finish (s : State) (sup step sync : Bool) : State :=
  if s.str.cond = .exited then (s.modMe fun k => if (match k.run with | some r => r.draining | none => false) then k.discarded else k).closed
  else
    let i := s.iss
    let (pc, back, s) := s.nextPc sup
    let s := s.applySys i.sysw
    let s := match i.ret with | some m => s.modStr fun u => u.returned m | none => s
    let s := if i.taken then s.modStr Strand.kill else s
    let user := !sup || (match i.ret with | some m => !m | none => false)
    let s := s.modStr fun u =>
      { u with pc := pc, n := u.n + 1, cond := .ready, lkstep := sync, stepPend := step && user && !i.exits,
               passed := u.keepPassed i pc }
    if i.exits then s.exitStrand.closed
    else
      let park := i.parks || (match back with | some (_, y) => y && s.yieldHonoured | none => false)
      let hit : Option Nat := match back with
        | some (k, _) => if s.me.stopReq then some k else none
        | none => if i.parks && s.me.stopReq then some 0xFFFFFFFF else none
      let s := if park then s.modStr fun u => { u with cond := .parked } else s
      (match hit with | some k => s.dbgAt k | none => s).closed

/-! ## One attempt to issue -/

/-- The bundle waits. -/
def State.waits (s : State) (w : Wait) : State :=
  let s := s.modStr fun u => { u with cond := .waiting w }
  (if w = .debug then s.dbgAt 0xFFFFFFFF else s).closed

/-- Runs the syllable of a slot if its guard holds. -/
def runSlot (ex : Instr → State → Out) (slot w : Nat) (y : Syllable) (go : Bool) (s : State) : Out :=
  if go then ex y.instr (s.modIss fun i => { i with slot := slot, k := y.k, syl := w }) else .next s

/-- Whether the strand has already passed its SYNC bit and waits further on in the bundle. -/
def Strand.pastSync (u : Strand) : Bool :=
  match u.cond with
  | .waiting .sync => false
  | .waiting _ => true
  | _ => false

/-- A trap of the issuing strand ends the wait it was in, with no satisfier (R454). -/
def State.cut (s : State) (obj : Option (Nat × Nat)) : State :=
  match obj with
  | some (k, d) => s.waitRec s.iss.core s.iss.strand.val k d 0 0 15
  | none => s

/-- Both syllables take effect, or the bundle traps or waits with none of its effect (R85, R89). Each syllable is checked alone; where
one traps only after the other's effect, the other order is tried, and where both orders trap, so does the bundle (R14). A release in
slot 1 waits until a spamo in slot 0 can work at once (R148). -/
def runBundle (ex : Instr → State → Out) (obj : Option (Nat × Nat)) (b : RawBundle) (y0 y1 : Syllable) (sync : Bool) (s : State) :
    Option Wait × Out :=
  let u := s.str
  let g0 := guardHolds y0.guard u
  let g1 := guardHolds y1.guard u
  let step := s.me.brkctl.getLsbD 2
  let stop (s : State) : Option Wait × Out := (none, .next (s.cut obj).closed)
  let wait (w : Wait) : Option Wait × Out := (some w, .next (s.waits w))
  match (if g0 && g1 then conflict u y0.instr y1.instr else none) with
  | some n => stop (s.takeTrap ⟨Cause.writeConflict, n, 0⟩)
  | none =>
    let i0 := runSlot ex 0 b.slot0 y0 g0
    let i1 := runSlot ex 1 b.slot1 y1 g1
    match i0 s with
    | .next a =>
      if a.iss.trapped.isSome then stop a
      else
        match i1 s with
        | .next d =>
          if d.iss.trapped.isSome then stop d
          else
            match a.iss.held, d.iss.held with
            | some w, _ => wait w
            | none, some w => wait w
            | none, none =>
              if g1 && waitsAll y1.instr && a.str.sb.any (fun x => !x.free) then wait .lock
              else
                match i1 a with
                | .next e =>
                  match e.iss.trapped, e.iss.held with
                  | some tr, _ =>
                    match i0 d with
                    | .next f => if f.iss.trapped.isSome then stop (s.takeTrap tr) else (none, .next (f.finish u.sup step sync))
                    | o => (none, o)
                  | none, some w => wait w
                  | none, none => (none, .next (e.finish u.sup step sync))
                | o => (none, o)
        | o => (none, o)
    | o => (none, o)

/-- A strand tries to issue the bundle at its PC; `sync` says that its core's strands do so together (R15). -/
def tryIssue (ex : Instr → State → Out) (c : Nat) (t : Fin 4) (sync : Bool) (s : State) : Option Wait × Out :=
  let obj := s.waitObj c t
  let s := { s.modStrand c t (fun u => u.landDue u.n) with
    iss := { Issue.zero with core := c, strand := t, pc := (s.strand c t).pc } }
  let stop (s : State) : Option Wait × Out := (none, .next (s.cut obj).closed)
  match s.fetch c t with
  | .error tr => stop (s.takeTrap tr)
  | .ok (w, s) =>
    let b := splitBundle w
    let u := s.str
    if b.sync && !u.sup && !sync && !u.pastSync then (some .sync, .next (s.waits .sync))
    else
      match bundleDecode u.sup b with
      | .error tr => stop (s.takeTrap tr)
      | .ok (y0, y1) =>
        let regs (y : Syllable) : List Reg := if guardHolds y.guard u then srcRegs y.instr ++ dstRegs y.instr else []
        let rs := (regs y0 ++ regs y1).filter (· != 0)
        let all := (guardHolds y0.guard u && waitsAll y0.instr) || (guardHolds y1.guard u && waitsAll y1.instr)
        let busy (x : Sb) : Bool := u.drain || all || x.dst.any fun r => rs.contains r
        let s := s.sbForce c t busy
        if s.str.sb.any busy then (some .lock, .next (s.waits .lock))
        else runBundle ex obj b y0 y1 sync (s.modStr fun u => { u with drain := false })

/-! ## Who may issue -/

/-- The strand that takes an engine's fault: the lowest that has not exited (R396). -/
def Core.taker (k : Core) : Option (Fin 4) := [(0 : Fin 4), 1, 2, 3].find? fun t => (k.st.get t).cond != .exited

/-- The engine whose fault is to be delivered next (R396). -/
def Core.raised (k : Core) : Option Eng := [(0 : Fin 4), 1, 2, 3].find? fun e => (k.eng.get e).phase == .raised

/-- Prologue commands of the iteration are left (R272). -/
def Core.inPrologue (k : Core) : Bool :=
  (match k.run with | some r => !r.prologue.isEmpty | none => false) || k.eng.e2.q.any (·.prologue)

/-- The context runs: it is neither draining, nor stopping, nor stopped. -/
def Core.live (k : Core) : Bool :=
  match k.run with
  | none => false
  | some r => !r.draining && !r.preDrain && !k.stopped && k.dbgHit.isNone

/-- A strand that has left its sbar and is ready completes that bundle before a fault is delivered to it (R133, R339). -/
def Strand.goesOn (u : Strand) : Bool := u.passed == some u.pc && u.cond == .ready

/-- Whether a strand may issue: its context runs, it has work, no prologue holds it back and no fault is to be taken first. -/
def Core.mayIssue (k : Core) (t : Fin 4) : Bool :=
  let u := k.st.get t
  k.live && (match u.cond with | .ready => true | .waiting _ => true | _ => false)
    && (u.sup || !k.inPrologue)
    && !(k.raised.isSome && k.taker == some t && !u.tip && !u.goesOn)

/-- single_step before the next bundle (R456). -/
def State.stepTrap (s : State) (c : Nat) (t : Fin 4) : State :=
  (s.modStrand c t fun u => { u with stepPend := false }).enterTrap c t ⟨Cause.singleStep, 0, 0⟩ (s.strand c t).pc false

/-- A strand's turn: it tries to issue its next bundle (R14), or takes single_step. -/
def issueStrand (ex : Instr → State → Out) (c : Nat) (t : Fin 4) (s : State) : Out :=
  if !(s.core c).mayIssue t then .next s
  else if (s.strand c t).stepPend then .next (s.stepTrap c t)
  else (tryIssue ex c t false s).2

/-- Waits that hold back every strand of a lockstep group (R15). -/
def Wait.stalls : Wait → Bool
  | .queue | .fifoFull | .launch | .lock | .encore => true
  | _ => false

/-- The strands of a lockstep group issue in ascending number; none does where one stalls (R15, R24). -/
def lockstep (ex : Instr → State → Out) (c : Nat) (s0 : State) : List (Fin 4) → State → Out
  | [], s => .next s
  | t :: ts, s =>
    if (s.strand c t).cond = .exited then lockstep ex c s0 ts s
    else
      match tryIssue ex c t true s with
      | (some w, .next s') => if w.stalls then .next s0 else lockstep ex c s0 ts s'
      | (none, .next s') => lockstep ex c s0 ts s'
      | (_, o) => o

end Sys2Proof.Machine
end

