-- ==== Sys2Proof/Machine/StrandExec.lean ====
section
/-! DEFINITION. The instructions a strand issues, for the steps of the machine that issue a bundle; the other steps have no effect here. -/

namespace Sys2Proof.Machine

/-- What a strand's instruction does; the machine's own steps are never issued by a strand. -/
def strandExec (i : Instr) (s : State) : Out :=
  match i with
  | .add d a b => Sys2Proof.Machine.execAdd d a b s
  | .sub d a b => Sys2Proof.Machine.execSub d a b s
  | .addi d a imm => Sys2Proof.Machine.execAddi d a imm s
  | .mul d a b => Sys2Proof.Machine.execMul d a b s
  | .mulh d a b k => Sys2Proof.Machine.execMulh d a b k s
  | .div d a b u => Sys2Proof.Machine.execDiv d a b u s
  | .rem d a b u => Sys2Proof.Machine.execRem d a b u s
  | .and d a b => Sys2Proof.Machine.execAnd d a b s
  | .or d a b => Sys2Proof.Machine.execOr d a b s
  | .xor d a b => Sys2Proof.Machine.execXor d a b s
  | .andi d a imm => Sys2Proof.Machine.execAndi d a imm s
  | .ori d a imm => Sys2Proof.Machine.execOri d a imm s
  | .xori d a imm => Sys2Proof.Machine.execXori d a imm s
  | .shl d a b => Sys2Proof.Machine.execShl d a b s
  | .shr d a b ar => Sys2Proof.Machine.execShr d a b ar s
  | .shli d a n => Sys2Proof.Machine.execShli d a n s
  | .shri d a n ar => Sys2Proof.Machine.execShri d a n ar s
  | .rotl d a b => Sys2Proof.Machine.execRotl d a b s
  | .min d a b u => Sys2Proof.Machine.execMin d a b u s
  | .max d a b u => Sys2Proof.Machine.execMax d a b u s
  | .clz d a => Sys2Proof.Machine.execClz d a s
  | .popc d a => Sys2Proof.Machine.execPopc d a s
  | .bswap d a => Sys2Proof.Machine.execBswap d a s
  | .ext d a lsb wm1 sx => Sys2Proof.Machine.execExt d a lsb wm1 sx s
  | .ins d a b lsb wm1 => Sys2Proof.Machine.execIns d a b lsb wm1 s
  | .li d imm => Sys2Proof.Machine.execLi d imm s
  | .lih d a imm => Sys2Proof.Machine.execLih d a imm s
  | .mov d a => Sys2Proof.Machine.execMov d a s
  | .sel d a b p => Sys2Proof.Machine.execSel d a b p s
  | .addsh d a b sh => Sys2Proof.Machine.execAddsh d a b sh s
  | .madd d a b c => Sys2Proof.Machine.execMadd d a b c s
  | .fadd d a b dbl => Sys2Proof.Machine.execFadd d a b dbl s
  | .fsub d a b dbl => Sys2Proof.Machine.execFsub d a b dbl s
  | .fmul d a b dbl => Sys2Proof.Machine.execFmul d a b dbl s
  | .fma d a b c dbl => Sys2Proof.Machine.execFma d a b c dbl s
  | .fdiv d a b dbl => Sys2Proof.Machine.execFdiv d a b dbl s
  | .fsqrt d a dbl => Sys2Proof.Machine.execFsqrt d a dbl s
  | .fmin d a b dbl => Sys2Proof.Machine.execFmin d a b dbl s
  | .fmax d a b dbl => Sys2Proof.Machine.execFmax d a b dbl s
  | .fcvt d a dst src rtz => Sys2Proof.Machine.execFcvt d a dst src rtz s
  | .fsgn d a b k dbl => Sys2Proof.Machine.execFsgn d a b k dbl s
  | .fclass d a dbl => Sys2Proof.Machine.execFclass d a dbl s
  | .cmp p pc a b cc => Sys2Proof.Machine.execCmp p pc a b cc s
  | .cmpi p a imm cc => Sys2Proof.Machine.execCmpi p a imm cc s
  | .fcmp p pc a b cc dbl => Sys2Proof.Machine.execFcmp p pc a b cc dbl s
  | .plog p pa pb table => Sys2Proof.Machine.execPlog p pa pb table s
  | .ptog d => Sys2Proof.Machine.execPtog d s
  | .gtop a b => Sys2Proof.Machine.execGtop a b s
  | .tbit p a n inv => Sys2Proof.Machine.execTbit p a n inv s
  | .br off => Sys2Proof.Machine.execBr off s
  | .brr a link => Sys2Proof.Machine.execBrr a link s
  | .call off => Sys2Proof.Machine.execCall off s
  | .ret a => Sys2Proof.Machine.execRet a s
  | .loop lc a lm1 sm1 y pb => Sys2Proof.Machine.execLoop lc a lm1 sm1 y pb s
  | .lbrk lc => Sys2Proof.Machine.execLbrk lc s
  | .yield => Sys2Proof.Machine.execYield s
  | .exit => Sys2Proof.Machine.execExit s
  | .launch d a nb => Sys2Proof.Machine.execLaunch d a nb s
  | .cancel d a b lvl => Sys2Proof.Machine.execCancel d a b lvl s
  | .waitc d a b lvl => Sys2Proof.Machine.execWaitc d a b lvl s
  | .sbar mask => Sys2Proof.Machine.execSbar mask s
  | .trap code => Sys2Proof.Machine.execTrap code s
  | .brk code => Sys2Proof.Machine.execBrk code s
  | .mfs d sys => Sys2Proof.Machine.execMfs d sys s
  | .mts sys a => Sys2Proof.Machine.execMts sys a s
  | .rft => Sys2Proof.Machine.execRft s
  | .tlbi a b kind scp => Sys2Proof.Machine.execTlbi a b kind scp s
  | .icinv a b scp => Sys2Proof.Machine.execIcinv a b scp s
  | .nop => Sys2Proof.Machine.execNop s
  | .ld d m sx sz => Sys2Proof.Machine.execLd d m sx sz s
  | .st c m sz => Sys2Proof.Machine.execSt c m sz s
  | .ldq d c m => Sys2Proof.Machine.execLdq d c m s
  | .stq dm b c masked m => Sys2Proof.Machine.execStq dm b c masked m s
  | .ldt d m sx sz => Sys2Proof.Machine.execLdt d m sx sz s
  | .ldl d pc m sz => Sys2Proof.Machine.execLdl d pc m sz s
  | .stu c m sz => Sys2Proof.Machine.execStu c m sz s
  | .spamo d a b c off op dbl => Sys2Proof.Machine.execSpamo d a b c off op dbl s
  | .amo d a b c off op dbl ord scp => Sys2Proof.Machine.execAmo d a b c off op dbl ord scp s
  | .amosc d a b c off op dbl => Sys2Proof.Machine.execAmosc d a b c off op dbl s
  | .fence ord scp => Sys2Proof.Machine.execFence ord scp s
  | .tfence scp => Sys2Proof.Machine.execTfence scp s
  | .cueinc win n a b scp => Sys2Proof.Machine.execCueinc win n a b scp s
  | .cuewait n b scp => Sys2Proof.Machine.execCuewait n b scp s
  | .cuerd d win n a => Sys2Proof.Machine.execCuerd d win n a s
  | .tkpush mask => Sys2Proof.Machine.execTkpush mask s
  | .tkpop mask => Sys2Proof.Machine.execTkpop mask s
  | .lwarm a b => Sys2Proof.Machine.execLwarm a b s
  | .lwwait a b => Sys2Proof.Machine.execLwwait a b s
  | .pref m llc => Sys2Proof.Machine.execPref m llc s
  | .cflush a b kind scp => Sys2Proof.Machine.execCflush a b kind scp s
  | .mapb a mode => Sys2Proof.Machine.execMapb a mode s
  | .vshape d a b c => Sys2Proof.Machine.execVshape d a b c s
  | .vadd v => Sys2Proof.Machine.execVadd v s
  | .vsub v => Sys2Proof.Machine.execVsub v s
  | .vmul v => Sys2Proof.Machine.execVmul v s
  | .vfma v => Sys2Proof.Machine.execVfma v s
  | .vmax v => Sys2Proof.Machine.execVmax v s
  | .vmin v => Sys2Proof.Machine.execVmin v s
  | .vlog v => Sys2Proof.Machine.execVlog v s
  | .vsh v => Sys2Proof.Machine.execVsh v s
  | .vcmp v => Sys2Proof.Machine.execVcmp v s
  | .vsel v => Sys2Proof.Machine.execVsel v s
  | .vsfu v => Sys2Proof.Machine.execVsfu v s
  | .vcvt v => Sys2Proof.Machine.execVcvt v s
  | .vred v => Sys2Proof.Machine.execVred v s
  | .vbcast v => Sys2Proof.Machine.execVbcast v s
  | .vtrn v => Sys2Proof.Machine.execVtrn v s
  | .vpart v => Sys2Proof.Machine.execVpart v s
  | .vgath v => Sys2Proof.Machine.execVgath v s
  | .vscat v => Sys2Proof.Machine.execVscat v s
  | .vgathm v => Sys2Proof.Machine.execVgathm v s
  | .vscan v => Sys2Proof.Machine.execVscan v s
  | .viota v => Sys2Proof.Machine.execViota v s
  | .vtopk v => Sys2Proof.Machine.execVtopk v s
  | .vnorm v => Sys2Proof.Machine.execVnorm v s
  | .vrng v => Sys2Proof.Machine.execVrng v s
  | .vquant v => Sys2Proof.Machine.execVquant v s
  | .vdeq v => Sys2Proof.Machine.execVdeq v s
  | .vsample v => Sys2Proof.Machine.execVsample v s
  | .vmovg v => Sys2Proof.Machine.execVmovg v s
  | .vcopy v => Sys2Proof.Machine.execVcopy v s
  | .mma t a b n => Sys2Proof.Machine.execMma t a b n s
  | .mmaz t a b n => Sys2Proof.Machine.execMmaz t a b n s
  | .mgma t a b c n gm1 => Sys2Proof.Machine.execMgma t a b c n gm1 s
  | .mdrain t a b c n fmt sm sat clr scale => Sys2Proof.Machine.execMdrain t a b c n fmt sm sat clr scale s
  | .mldacc t a b n int => Sys2Proof.Machine.execMldacc t a b n int s
  | .mzero t mask => Sys2Proof.Machine.execMzero t mask s
  | .mamax t a n => Sys2Proof.Machine.execMamax t a n s
  | .fmtq a => Sys2Proof.Machine.execFmtq a s
  | .attn t a => Sys2Proof.Machine.execAttn t a s
  | .kvapp t a b c nm1 adv => Sys2Proof.Machine.execKvapp t a b c nm1 adv s
  | .kvfork d a b => Sys2Proof.Machine.execKvfork d a b s
  | .kvdrop a => Sys2Proof.Machine.execKvdrop a s
  | .kvclass a b cls => Sys2Proof.Machine.execKvclass a b cls s
  | .kvquery d a b => Sys2Proof.Machine.execKvquery d a b s
  | .kvtrim a b => Sys2Proof.Machine.execKvtrim a b s
  | .cpy e dsp ssp scp => Sys2Proof.Machine.execCpy e dsp ssp scp s
  | .cpyf e ssp => Sys2Proof.Machine.execCpyf e ssp s
  | .cpyg e dsp scp fifo z => Sys2Proof.Machine.execCpyg e dsp scp fifo z s
  | .cpys e scp => Sys2Proof.Machine.execCpys e scp s
  | .cpyz e dsp scp => Sys2Proof.Machine.execCpyz e dsp scp s
  | .tsobj t a b => Sys2Proof.Machine.execTsobj t a b s
  | .tsdrop t b => Sys2Proof.Machine.execTsdrop t b s
  | .xform e dsp ssp scp routine => Sys2Proof.Machine.execXform e dsp ssp scp routine s
  | .card e => Sys2Proof.Machine.execCard e s
  | .cardwt e => Sys2Proof.Machine.execCardwt e s
  | .fld e sz ord => Sys2Proof.Machine.execFld e sz ord s
  | .fst e sz ord => Sys2Proof.Machine.execFst e sz ord s
  | .famo e op dbl ord => Sys2Proof.Machine.execFamo e op dbl ord s
  | .fput e ssp ord => Sys2Proof.Machine.execFput e ssp ord s
  | .fget e dsp ord => Sys2Proof.Machine.execFget e dsp ord s
  | .fsig e => Sys2Proof.Machine.execFsig e s
  | .ffence e => Sys2Proof.Machine.execFfence e s
  | _ => .next s

end Sys2Proof.Machine
end

