-- ==== Sys2Proof/Machine/Waits.lean ====
section
/-! DEFINITION. Steps that let a waiting bundle issue, write a pending result, or perform a write of the memory system (R15, R19,
R25, R39, R133, R137, R157, R164, R166, R288, R297, R312, R456). -/

namespace Sys2Proof.Machine

/-- One outcome after another. -/
def andThen (o : Out) (f : State → Out) : Out :=
  match o with
  | .next s => f s
  | o => o

/-- Every strand, in ascending number. -/
def allStrands : List (Fin 4) := [0, 1, 2, 3]

/-- The bundle of a strand that waits in `w` is tried again. -/
def retryWait (w : Wait) (c : Nat) (t : Fin 4) (s : State) : Out :=
  if (s.strand c t).cond = .waiting w then issueStrand strandExec c t s else .next s

def execQueueStallRelease (c : Nat) (t : Fin 4) (s : State) : Out := retryWait .queue c t s
def execCuewaitSatisfied (c : Nat) (t : Fin 4) (s : State) : Out := retryWait .cue c t s
def execTkpopSatisfied (c : Nat) (t : Fin 4) (s : State) : Out := retryWait .token c t s
def execLwwaitSatisfied (c : Nat) (t : Fin 4) (s : State) : Out := retryWait .land c t s
def execWaitcSatisfied (c : Nat) (t : Fin 4) (s : State) : Out := retryWait .waitc c t s

/-- Every strand that has not exited waits at a SYNC bundle it may issue (R15). -/
def State.lockReady (s : State) (c : Nat) : Bool :=
  let k := s.core c
  allStrands.any (fun t => (k.st.get t).cond != .exited)
    && allStrands.all fun t => let u := k.st.get t
      u.cond == .exited || (u.cond == .waiting .sync && k.mayIssue t && !u.stepPend)

def execLockstepIssue (c : Nat) (s : State) : Out :=
  if s.lockReady c then lockstep strandExec c s allStrands s else .next s

/-- Whether a strand may leave the sbar it waits at: every strand it names is there or has exited (R133). -/
def State.sbarFree (s : State) (c : Nat) (t : Fin 4) : Bool :=
  match (s.strand c t).cond with
  | .waiting (.sbar m) => allStrands.all fun u => !sbarNames m t u || sbarThere (s.core c) m u
  | _ => false

/-- Whether a strand has left its sbar and its bundle is still to complete. -/
def State.sbarLeft (s : State) (c : Nat) (t : Fin 4) : Bool := (s.strand c t).passed == some (s.strand c t).pc

/-- Issues the bundles of strands whose sbar may go, in ascending strand number. -/
def sbarPass (c : Nat) (ts : List (Fin 4)) (s : State) : Out :=
  ts.foldl (fun o t => andThen o fun s => if s.sbarFree c t || s.sbarLeft c t then issueStrand strandExec c t s else .next s) (.next s)

def execSbarRelease (c : Nat) (s : State) : Out :=
  let ts := allStrands.filter fun t => s.sbarFree c t || s.sbarLeft c t
  andThen (sbarPass c ts s) (sbarPass c (allStrands.filter fun t => !ts.contains t))

/-- The lock a pending spamo retries. -/
def Sb.lock? (b : Sb) : Option Nat := match b.work with | .spamo a _ _ _ _ => some (lockOf a) | _ => none

/-- Whether a pending spamo of strand `t` may work now: its lock is the strand's own, or free and it is the strand's turn (R157). -/
def Core.mayTake (k : Core) (t : Fin 4) (b : Sb) : Bool :=
  match b.lock? with
  | none => false
  | some lk => match k.locks.find lk with
    | some u => u == t
    | none => (k.spamoTurn lk).map (fun x => (x.1, x.2.id)) == some (t, b.id)

def execSpamoRetry (c : Nat) (t : Fin 4) (s : State) : Out :=
  match (s.strand c t).sb.find? fun b => (s.core c).mayTake t b with
  | none => .next s
  | some b =>
    let s1 := s.spamoTake c t b
    match (s1.strand c t).sb.find? fun x => x.id == b.id with
    | some x => .next (s1.sbComplete c t x)
    | none => .next s1

/-- The `k`th pending operation of a strand that can complete does so (R19). -/
def execScoreboardedResult (c : Nat) (t : Fin 4) (k : Nat) (s : State) : Out :=
  match ((s.strand c t).sb.filter Sb.free)[k]? with
  | some b => .next (s.sbComplete c t b)
  | none => .next s

/-- The `k`th posted store of a core is performed, after those it must follow (R288). -/
def execGlobalWritePerform (c k : Nat) (s : State) : Out :=
  match (s.core c).wbuf[k]? with
  | some e => .next (s.flushIds c [e.id])
  | none => .next s

/-- The `k`th update on its way to a die is applied, after those that precede it (R297). -/
def execDieUpdateApply (d : Fin 4) (k : Nat) (s : State) : Out :=
  match (s.die d).upds[k]? with
  | some u => .next (s.forceUpds d [u.wid])
  | none => .next s

/-- A read miss at the home slice installs the line under a key ID (R312, R318). -/
def execLlcFill (d : Fin 4) (line key : Nat) (cmp : Bool) (s : State) : Out :=
  if homeDie (128 * line) = some d ∧ s.populated (128 * line) ∧ (s.resident d line).isNone then
    let s1 := s.poisonFill line key cmp
    match s1.homeLine line key cmp 0 with
    | .ok (_, s2) => .next s2
    | .error _ => .next s1
  else .next s

/-- A write is performed at a home slice that holds the line (R312). -/
def execLlcWrite (d : Fin 4) (line off : Nat) (data : List Byte) (s : State) : Out :=
  match s.resident d line with
  | none => .next s
  | some l =>
    if homeDie (128 * line) = some d ∧ off + data.length ≤ 128 then
      match s.homeWrite 256 (128 * line + off) data l.kid l.cmp [] [] 0 with
      | .ok (_, s1) => .next s1
      | .error _ => .next s
    else .next s

/-- single_step before a strand's next bundle (R456). -/
def execSingleStep (c : Nat) (t : Fin 4) (s : State) : Out :=
  if (s.core c).mayIssue t && (s.strand c t).stepPend then .next (s.stepTrap c t) else .next s

end Sys2Proof.Machine
end

