-- ==== Sys2Proof/Machine/Cards.lean ====
section
/-! DEFINITION. Job cards: card and cardwt as C executes them, the start and the end of a card (R273 to R276). -/

namespace Sys2Proof.Machine

/-! ## card (R274) -/

/-- The detail of the first condition of R274 that a card header breaks, its footprint list read or not. -/
def cardFault (s : State) (b : List Byte) (a : Nat) (sup : Bool) (job : Nat) (regions : Option (List Region)) : Option Nat :=
  let kind := fld b 0 1
  let eng := fld b 1 1
  let f := if kind = 1 then Func.prom else Func.narr
  if a % 64 ≠ 0 ∨ kind < 1 ∨ 2 < kind ∨ (7 < eng ∧ eng ≠ 0xFF) ∨ fld b 2 2 ≠ 0 ∨ fld b 0x16 2 ≠ 0 ∨ fld b 0x2B 1 ≠ 0
      ∨ fld b 0x30 16 ≠ 0 then some 1
  else if fld b 4 4 % 16 ≠ 0 ∨ fld b 4 4 < 16 ∨ 4096 < fld b 4 4 then some 2
  else if 16 < fld b 0x14 2 ∨ (fld b 0x14 2 ≠ 0 ∧ fld b 0x18 8 % 16 ≠ 0) ∨ regions = none then some 3
  else if ¬ sup ∧ fld b 8 4 ≠ job then some 4
  else if fld b 0x20 1 ≠ 0 then some 5
  else if fld b 0x28 2 ≠ 0xFFFF ∧ (255 < fld b 0x28 2 ∨ ¬ s.isReady .core (fld b 0x28 2)) ∨ 63 < fld b 0x2A 1 ∨ 2 ^ 31 ≤ fld b 0x2C 4 then some 6
  else if eng ≠ 0xFF ∧ ¬ s.isReady f eng then some 7
  else none

/-- The status word of a card (R273). -/
def cardStatus (state detail engine id : Nat) : List Byte := toLe 1 state ++ toLe 1 detail ++ toLe 2 engine ++ toLe 4 id

/-- The command waits at the head of its queue. -/
def eWaitHere : EM Unit := modify fun x => { x with cmd := { x.cmd with prog := .wait 1 } }

/-- The command has nothing left to wait for. -/
def eGoOn : EM Unit := modify fun x => { x with cmd := { x.cmd with prog := .none } }

/-- card as C executes it (R274). -/
def runCard : EM Unit := do
  let x ← get
  let k ← eCore
  let sp ← eSpace
  let a := x.cmd.a
  let b ← eLift fun s => s.vget x.c sp a 64
  let early := cardFault x.s b a.toNat x.cmd.sup k.jobId.toNat (some [])
  let nf := fld b 0x14 2
  let rs ← (if nf = 0 ∨ early = some 1 ∨ early = some 2 ∨ early = some 3 then pure (some [])
    else do
      let fb ← eLift fun s => s.vget x.c sp (BitVec.ofNat 64 (fld b 0x18 8)) (16 * nf)
      pure (readRegions nf fb))
  match cardFault x.s b a.toNat x.cmd.sup k.jobId.toNat rs with
  | some d => efault Cause.cardRejected d a.toNat
  | none => do
    let (j, ph, gr) := (fld b 8 4, fld b 0xC 4, fld b 0x10 4)
    echeck (!x.s.isCancelled j ph gr) Cause.cancelled 0 a.toNat
    let x ← get
    let d := (dieOf x.c).val
    let card : Card :=
      { addr := a, kind := fld b 0 1, eng := fld b 1 1, cueCore := fld b 0x28 2, cueNum := fld b 0x2A 1, cueAmt := fld b 0x2C 4,
        core := x.c, stamp := k.stamp.toNat, vslot := none, vocab := [], out := none }
    let n : Node :=
      { id := 0, die := d, job := j, phase := ph, graph := gr, seq := 0, kind := .card card, space := sp, regions := rs.getD [], deps := [],
        started := false, startOrder := 0, cancelled := false, badIter := false,
        hb := uni (x.s.engine x.c x.e).hb x.com.ids, walker := 0, iters := [], complete := 0, usedSlots := [], engine := none, rel := [] }
    if x.s.tableFull d then eWaitHere
    else
      match x.s.encNode x.c (4 + x.e.val) j ph gr (x.s.seqs.get 0 (graphKey j ph gr)) with
      | none => eWaitHere
      | some s =>
        let (id, s) := s.enterNode n
        let (w, s) := s.drawWord
        match s.vput x.c sp (a + 0x20) (cardStatus 1 0 (w.toNat % 2 ^ 16) id) n.hb [] with
        | .error t => throw t
        | .ok (ids, s) => do
          set { x with s := s, com := { x.com with ids := uni x.com.ids ids } }
          eGoOn

/-! ## cardwt (R276) -/

/-- cardwt as C executes it: waits for state 2, 3 or 4, then acquires the card's writes. -/
def runCardwt : EM Unit := do
  let x ← get
  let sp ← eSpace
  let a := x.cmd.a + 0x20
  let waited := match x.cmd.prog with | .wait _ => true | _ => false
  let (l, _) ← eLift fun s => match s.gcheck x.c (dieOf x.c) sp a 8 .rd with | .ok (l, s) => .ok ((l, ()), s) | .error t => .error t
  let b ← eLift fun s => s.vget x.c sp a 8
  let st := fld b 0 1
  if 2 ≤ st ∧ st ≤ 4 then do
    let pa := l.pa a.toNat
    let x ← get
    let ms := (List.range 8).map fun i => x.s.gmeta.get Meta.zero (pa + i)
    let ids := relIds .pkg x.c (ms.flatMap (·.rels)).dedup
    modify fun y => { y with com := { y.com with ids := uni y.com.ids ids } }
    (match x.s.iod.cardStamp.find (fld b 4 4) with
      | some v => eMod fun s => s.stampIn x.c v
      | none => pure ())
    (if waited then eMod fun s => s.waitRec x.c (4 + x.e.val) 4 (x.cmd.a.toNat / 2 ^ 6 % 2 ^ 28) s.iod.devnum x.c 10 else pure ())
    eGoOn
  else eWaitHere

/-! ## The engines of cards (R275, R336) -/

/-- Number of a Prompter (0 to 7) or a Narrator (8 to 15) among the text engines. -/
def textEngine (kind e : Nat) : Nat := if kind = 1 then e else 8 + e

/-- Whether a text engine is ready. -/
def State.textReady (s : State) (e : Nat) : Bool := if e < 8 then s.isReady .prom e else s.isReady .narr (e - 8)

/-- The engines a card may use. -/
def Card.engines (k : Card) : List Nat := if k.eng = 0xFF then (List.range 8).map (textEngine k.kind) else [textEngine k.kind k.eng]

/-- The card of a node. -/
def Node.card? (n : Node) : Option Card := match n.kind with | .card k => some k | .launch _ => none

/-- Changes the card of a node. -/
def State.modCard (s : State) (id : Nat) (f : Card → Card) : State :=
  s.modNode id fun n => match n.kind with | .card k => { n with kind := .card (f k) } | .launch _ => n

/-- The node a text engine runs. -/
def State.onEngine (s : State) (e : Nat) : Option Node := s.nodes.find? fun n => n.engine == some e

/-- The agent number under which the IOD works for a node. -/
def Node.agent (n : Node) : Nat := 256 + 64 * n.die

/-- A started card that waits for an engine finds none it may use ready (R275). -/
def State.noEngine (s : State) (n : Node) (k : Card) : Bool :=
  n.started && !n.cancelled && n.engine.isNone && k.out.isNone && k.engines.all fun e => !s.textReady e

/-- Address of the state record a Narrator card names. -/
def State.stateRec (s : State) (n : Node) (k : Card) : Option Nat :=
  match s.vget n.agent n.space (k.addr + 0x40) 64 with
  | .ok (b, _) => some (fld b 0x28 8)
  | .error _ => none

/-- An earlier Narrator card that names the same state record has still to run (R334). -/
def State.narrAhead (s : State) (n : Node) (k : Card) : Bool :=
  k.kind == 2 && (s.nodes.takeWhile fun m => m.id != n.id).any fun m => match m.card? with
    | some c => c.kind == 2 && c.out.isNone && !m.cancelled && m.space.ptbase == n.space.ptbase && s.stateRec m c == s.stateRec n k
        && (s.stateRec n k).isSome
    | none => false

/-- A card ends with a state and a detail: status, cue, node (R275, R371). One that ends CANCELLED releases nothing (R293). -/
def State.endCard (s : State) (n : Node) (k : Card) (state detail : Nat) : State :=
  let (w, s) := s.drawWord
  let eng := match n.engine with | some e => e % 8 | none => if k.eng = 0xFF then w.toNat % 2 ^ 16 else k.eng
  let ids := if state = 4 then [] else uni n.hb n.rel
  let (ids, s) :=
    match s.vput n.agent n.space (k.addr + 0x20) (cardStatus state detail eng n.id) ids [⟨.pkg, 256, ids⟩] with
    | .ok (ws, s) => (if state = 4 then [] else uni ids ws, s)
    | .error _ => (ids, s.logEvent (Fin.ofNat 4 n.die) 0x12 0 n.id)
  let s := s.modIod fun i => { i with cardStamp := i.cardStamp.put n.id k.stamp }
  let s :=
    if k.cueCore = 0xFFFF then s
    else s.cueAdd k.cueCore k.cueNum (BitVec.ofNat 32 k.cueAmt) ⟨.pkg, 256, ids⟩ (some k.stamp) (s.iod.devnum, k.cueCore, 10)
  (s.modNode n.id fun m => { m with rel := ids }).endNode n.id (state == 4)

/-- A card starts on an engine; one that finds no engine of its own ready ends FAILED with detail 13 (R275). -/
def execCardStart (id e : Nat) (s : State) : Out :=
  match s.node id with
  | none => .next s
  | some n => match n.card? with
    | none => .next s
    | some k =>
      if s.noEngine n k then .next (s.endCard n k 3 13)
      else if n.started ∧ ¬ n.cancelled ∧ n.engine = none ∧ k.out = none ∧ k.engines.contains e ∧ s.textReady e ∧ (s.onEngine e).isNone
          ∧ ¬ s.narrAhead n k then
        let (slot, s) : Option Nat × State := match s.vget n.agent n.space (k.addr + 0x40) 1 with
          | .ok (b, s) => (if le b < 16 then some (le b) else none, s)
          | .error t => (none, s.poisonSeen n.agent n.space t)
        let v : List Byte := match slot with | some i => s.iod.vocab.get [] i | none => []
        .next ((s.modNode id fun m => { m with engine := some e }).modCard id fun c => { c with vslot := slot, vocab := v })
      else .next s

/-- A card whose outcome is settled ends with it; before that a cancel ends it CANCELLED, the loss of its engine FAILED with
detail 13 (R275, R336). -/
def execCardEnd (id : Nat) (s : State) : Out :=
  match s.node id with
  | none => .next s
  | some n => match n.card? with
    | none => .next s
    | some k =>
      match k.out with
      | some (st, d) => .next (s.endCard n k st d)
      | none =>
        if n.cancelled then .next (s.endCard n k 4 0)
        else match n.engine with
          | some e => if s.textReady e then .next s else .next (s.endCard n k 3 13)
          | none => .next s

def execEngineNotReadyCardFail (id : Nat) (s : State) : Out :=
  match s.node id with
  | none => .next s
  | some n => match n.card? with
    | none => .next s
    | some k => if s.noEngine n k then .next (s.endCard n k 3 13) else .next s

end Sys2Proof.Machine
end

