-- ==== Sys2Proof/Machine/Text.lean ====
section
/-! DEFINITION. The text engines: UTF-8, the vocabulary, tokenisation, Prompter and Narrator cards, messages at the ports (R320 to R336, R413, R414). -/

namespace Sys2Proof.Machine

/-! ## UTF-8 (R327) -/

/-- A continuation byte. -/
def isCont (b : Nat) : Bool := decide (0x80 ≤ b ∧ b < 0xC0)

/-- Range of the second byte after a lead byte of a shortest-form sequence that is neither a surrogate nor above U+10FFFF. -/
def secondRange (b0 : Nat) : Nat × Nat :=
  match b0 with
  | 0xE0 => (0xA0, 0xBF)
  | 0xED => (0x80, 0x9F)
  | 0xF0 => (0x90, 0xBF)
  | 0xF4 => (0x80, 0x8F)
  | _ => (0x80, 0xBF)

/-- Bytes of the sequence a lead byte starts: 0 where it starts none. -/
def leadLen (b0 : Nat) : Nat :=
  if b0 < 0x80 then 1
  else if b0 < 0xC2 then 0
  else if b0 < 0xE0 then 2
  else if b0 < 0xF0 then 3
  else if b0 < 0xF5 then 4
  else 0

/-- Whether a second byte, if there is one, fits a lead byte. -/
def secondOk (b0 : Nat) : List Nat → Bool
  | [] => true
  | b1 :: _ => decide ((secondRange b0).1 ≤ b1 ∧ b1 ≤ (secondRange b0).2)

/-- Length of the complete sequence at the head of a text; 0 if there is none. -/
def utf8Len (bs : List Byte) : Nat :=
  match bs.map (·.toNat) with
  | [] => 0
  | b0 :: rest =>
    let n := leadLen b0
    let tl := rest.take (n - 1)
    if n = 0 ∨ tl.length + 1 < n then 0
    else if secondOk b0 tl && tl.all isCont then n else 0

/-- Whether bytes are a valid but incomplete sequence. -/
def utf8Partial (bs : List Byte) : Bool :=
  match bs.map (·.toNat) with
  | [] => false
  | b0 :: rest => decide (2 ≤ leadLen b0 ∧ rest.length + 1 < leadLen b0) && secondOk b0 rest && rest.all isCont

/-- Scalar value of a complete sequence. -/
def scalar (bs : List Byte) : Nat :=
  match bs.map (·.toNat) with
  | [] => 0
  | b0 :: rest =>
    let top := if rest = [] then b0 else b0 % 2 ^ (6 - rest.length)
    rest.foldl (fun v b => 64 * v + b % 64) top

/-- Whether a text is valid UTF-8. -/
def validUtf8 : Nat → List Byte → Bool
  | 0, bs => bs.isEmpty
  | fuel + 1, bs =>
    match bs with
    | [] => true
    | _ => if utf8Len bs = 0 then false else validUtf8 fuel (bs.drop (utf8Len bs))

/-- A text with each invalid byte replaced by EF BF BD (R333). -/
def cleanFrom : Nat → List Byte → List Byte
  | 0, _ => []
  | fuel + 1, bs =>
    match bs with
    | [] => []
    | _ :: rest =>
      if utf8Len bs = 0 then [0xEF, 0xBF, 0xBD] ++ cleanFrom fuel rest
      else bs.take (utf8Len bs) ++ cleanFrom fuel (bs.drop (utf8Len bs))

def clean (bs : List Byte) : List Byte := cleanFrom bs.length bs

/-! ## The vocabulary (R323, R324) -/

abbrev Vocab := List Byte

def vNtok (v : Vocab) : Nat := fld v 0x08 4
def vNmerge (v : Vocab) : Nat := fld v 0x0C 4
def vNspec (v : Vocab) : Nat := fld v 0x10 2
def vNstate (v : Vocab) : Nat := fld v 0x12 1
def vNclass (v : Vocab) : Nat := fld v 0x13 1
def vHbits (v : Vocab) : Nat := fld v 0x14 1
def vNrange (v : Vocab) : Nat := fld v 0x18 4
def vFbbase (v : Vocab) : Nat := fld v 0x1C 4
def vBytetab (v : Vocab) : Nat := fld v 0x20 4
def vToktab (v : Vocab) : Nat := fld v 0x24 4
def vStrs (v : Vocab) : Nat := fld v 0x28 4
def vStrlen (v : Vocab) : Nat := fld v 0x2C 4
def vMtab (v : Vocab) : Nat := fld v 0x30 4
def vStab (v : Vocab) : Nat := fld v 0x34 4
def vCtab (v : Vocab) : Nat := fld v 0x38 4
def vPtab (v : Vocab) : Nat := fld v 0x3C 4
def vLength (v : Vocab) : Nat := fld v 0x40 4

/-- Id of the initial token of a byte. -/
def vByte (v : Vocab) (b : Nat) : Nat := fld v (vBytetab v + 4 * b) 4

/-- Kind and string of a token. -/
def vKind (v : Vocab) (t : Nat) : Nat := fld v (vToktab v + 8 * t + 6) 1
def vStr (v : Vocab) (t : Nat) : List Byte :=
  (v.drop (vStrs v + fld v (vToktab v + 8 * t) 4)).take (fld v (vToktab v + 8 * t + 4) 2)

/-- A merge slot: left, right, result, rank. -/
def vSlot (v : Vocab) (i : Nat) : Nat × Nat × Nat × Nat :=
  let o := vMtab v + 16 * i
  (fld v o 4, fld v (o + 4) 4, fld v (o + 8) 4, fld v (o + 12) 4)

/-- Home slot of a pair. -/
def vHash (v : Vocab) (a b : Nat) : Nat :=
  ((a * 0x9E3779B1) ^^^ (b * 0x85EBCA77)) % 2 ^ 32 / 2 ^ (32 - vHbits v)

/-- Probes for a pair from a slot on: result and rank. -/
def vProbe (v : Vocab) (a b : Nat) : Nat → Nat → Option (Nat × Nat)
  | 0, _ => none
  | fuel + 1, h =>
    match vSlot v (h % 2 ^ vHbits v) with
    | (l, r, x, k) =>
      if l = 0xFFFFFFFF then none
      else if l = a ∧ r = b then some (x, k)
      else vProbe v a b fuel (h + 1)

/-- The merge of a pair of ids (R324). -/
def vMerge (v : Vocab) (a b : Nat) : Option (Nat × Nat) := vProbe v a b (2 ^ vHbits v) (vHash v a b)

/-- Ids of the special tokens. -/
def vSpecials (v : Vocab) : List Nat := (List.range (vNspec v)).map fun i => fld v (vStab v + 4 * i) 4

/-- Class of a code point: 0 where no range covers it. -/
def vClass (v : Vocab) (cp : Nat) : Nat :=
  match (List.range (vNrange v)).find? fun i => decide (fld v (vCtab v + 12 * i) 4 ≤ cp ∧ cp ≤ fld v (vCtab v + 12 * i + 4) 4) with
  | some i => fld v (vCtab v + 12 * i + 8) 1
  | none => 0

/-- NEXT and BREAK of a state and a class. -/
def vState (v : Vocab) (st k : Nat) : Nat × Bool :=
  let e := fld v (vPtab v + 2 * (st * vNclass v + k)) 2
  (e % 64, e.testBit 6)

/-! ## Tokenisation (R327) -/

/-- The leftmost pair of lowest rank of a list: its place, result and rank. -/
def bestPair (v : Vocab) : Nat → List Nat → Option (Nat × Nat × Nat) → Option (Nat × Nat × Nat)
  | j, a :: b :: ws, best =>
    let best := match vMerge v a b with
      | some (r, k) => (match best with
          | none => some (j, r, k)
          | some (_, _, k') => if k < k' then some (j, r, k) else best)
      | none => best
    bestPair v (j + 1) (b :: ws) best
  | _, _, best => best

/-- Merges until no pair merges. -/
def mergeLoop (v : Vocab) : Nat → List Nat → List Nat
  | 0, ws => ws
  | fuel + 1, ws =>
    match bestPair v 0 ws none with
    | none => ws
    | some (j, r, _) => mergeLoop v fuel (ws.take j ++ r :: ws.drop (j + 2))

/-- The ids of one piece. -/
def mergePiece (v : Vocab) (piece : List Byte) : List Nat := mergeLoop v piece.length (piece.map fun b => vByte v b.toNat)

/-- Pre-splits a segment of characters and merges each piece. -/
def flushSeg (v : Vocab) : List (List Byte) → Nat → List Byte → List Nat
  | [], _, piece => if piece = [] then [] else mergePiece v piece
  | c :: cs, st, piece =>
    let (next, brk) := vState v st (vClass v (scalar c))
    if brk && !piece.isEmpty then mergePiece v piece ++ flushSeg v cs next c
    else flushSeg v cs next (piece ++ c)

/-- The longest special string at the head of a text: its id and length. -/
def specialAt (v : Vocab) (bs : List Byte) : Option (Nat × Nat) :=
  (vSpecials v).foldl (fun best t =>
    let x := vStr v t
    if x.isPrefixOf bs && (match best with | some (_, n) => decide (n < x.length) | none => true) then some (t, x.length) else best) none

/-- tokenise: the ids and the number of invalid bytes; an unfinished text (`fin` false) leaves its last segment out. -/
def tokFrom (v : Vocab) (spec fin : Bool) : Nat → List Byte → List (List Byte) → List Nat × Nat
  | 0, _, seg => if fin then (flushSeg v seg 0 [], 0) else ([], 0)
  | fuel + 1, bs, seg =>
    match bs with
    | [] => if fin then (flushSeg v seg 0 [], 0) else ([], 0)
    | b :: rest =>
      let n := utf8Len bs
      if n = 0 then
        let (ids, bad) := tokFrom v spec fin fuel rest []
        (flushSeg v seg 0 [] ++ (vFbbase v + b.toNat) :: ids, bad + 1)
      else
        match (if spec then specialAt v bs else none) with
        | some (t, len) =>
          let (ids, bad) := tokFrom v spec fin fuel (bs.drop len) []
          (flushSeg v seg 0 [] ++ t :: ids, bad)
        | none => tokFrom v spec fin fuel (bs.drop n) (seg ++ [bs.take n])

def tokenise (v : Vocab) (spec fin : Bool) (text : List Byte) : List Nat × Nat := tokFrom v spec fin text.length text []

/-! ## Memory accesses of a card -/

/-- Reads as much of a range as can be read: the bytes before the first access that faults, and whether one did. -/
def State.readUpto (s : State) (n : Node) : Nat → Word → Nat → List Byte × Bool × State
  | 0, _, _ => ([], false, s)
  | fuel + 1, va, len =>
    if len = 0 then ([], false, s)
    else
      let m := Min.min len (128 - va.toNat % 128)
      match s.vget n.agent n.space va m with
      | .error t => ([], true, s.poisonSeen n.agent n.space t)
      | .ok (bs, s) =>
        let (rest, bad, s) := s.readUpto n fuel (va + BitVec.ofNat 64 m) (len - m)
        (bs ++ rest, bad, s)

/-- Whether every page of a range translates with write permission under its key (R330 step 1). -/
def State.canWrite (s : State) (n : Node) : Nat → Word → Nat → Bool
  | 0, _, _ => true
  | fuel + 1, va, len =>
    if len = 0 then true
    else
      let m := Min.min len (2 ^ 14 - va.toNat % 2 ^ 14)
      match s.gcheck n.agent (Fin.ofNat 4 n.die) n.space va 1 .wr with
      | .error _ => false
      | .ok (l, s') =>
        (s'.keyAt (l.pa va.toNat / 128) (pteKid l.e)).isSome && s.canWrite n fuel (va + BitVec.ofNat 64 m) (len - m)

/-- What a running card does, or the detail of its failure; what it leaves at the home slices stays (R312). -/
abbrev CardM := ExceptT Nat (StateM State)

/-- Writes of a running card; detail 2 where one faults. -/
def cardWrite (n : Node) (va : Word) (bs : List Byte) : CardM Unit := do
  let s ← get
  match s.vput n.agent n.space va bs n.hb [] with
  | .error _ => throw 2
  | .ok (ids, s) => set (s.modNode n.id fun m => { m with rel := uni m.rel ids })

/-- Reads of a running card; detail 2 where one faults. -/
def cardRead (n : Node) (va : Word) (len : Nat) : CardM (List Byte) := do
  let s ← get
  match s.vget n.agent n.space va len with
  | .error t => do
    set (s.poisonSeen n.agent n.space t)
    throw 2
  | .ok (bs, s) => do
    set s
    pure bs

/-- Fails a card with a detail unless `p` holds. -/
def need (p : Bool) (d : Nat) : CardM Unit := if p then pure () else throw d

/-- Runs what a card does. -/
def CardM.go {α : Type} (m : CardM α) (s : State) : Except Nat α × State := Id.run ((ExceptT.run m).run s)

/-- A field of bytes as a virtual address. -/
def addrAt (b : List Byte) (o : Nat) : Word := BitVec.ofNat 64 (fld b o 8)

/-! ## Messages (R320) -/

/-- A message the G7 sends. -/
def message (kind reqid chunk status : Nat) (text : List Byte) : List Byte :=
  toLe 4 0x31585447 ++ [1, BitVec.ofNat 8 kind, 0, 0] ++ toLe 8 reqid ++ toLe 4 0 ++ toLe 4 text.length ++ toLe 2 chunk ++ [0, 0] ++ toLe 4 status ++ text

/-- A well-formed REQUEST or CANCEL, as its header alone shows (R321). -/
def headerOk (m : List Byte) : Bool :=
  let kind := fld m 5 1
  fld m 0 4 == 0x31585447 && fld m 4 1 == 1 && (kind == 1 || kind == 5) && fld m 6 2 == 0 && fld m 0x18 8 == 0
    && decide (fld m 0x14 4 ≤ 2 ^ 20) && (kind == 1 || fld m 0x14 4 == 0)

/-! ## Prompter cards (R329, R330, R335) -/

/-- What a text has of whole sequences: without an incomplete one at its end. -/
def wholeSeqs (bs : List Byte) : List Byte :=
  let u := (List.range (Min.min bs.length 3 + 1)).foldl (fun m k => if utf8Partial (bs.drop (bs.length - k)) then k else m) 0
  bs.take (bs.length - u)

/-- Steps 1 and 2: the checks and the text's ids. Where a read of the text faults, the ids before it may still exceed `cap` first (R335). -/
def prompterIds (n : Node) (k : Card) (b : List Byte) : CardM (List Nat × Nat) := do
  let flags := fld b 1 1
  let inbox := flags.testBit 1
  let src := addrAt b 8
  need (decide (fld b 0 1 < 16) && decide (flags < 8) && fld b 2 6 == 0 && (b.drop 0x30).all (· == 0) && fld b 0x18 8 % 4 == 0
    && fld b 0x28 8 % 16 == 0 && (!inbox || fld b 0x10 4 == 0)) 6
  need (decide (fld b 0x10 4 ≤ 2 ^ 20)) 3
  let h ← (if inbox then cardRead n (src + 0x20) 32 else pure [])
  need (!inbox || decide (fld h 0x14 4 ≤ 2 ^ 20)) 3
  need (!k.vocab.isEmpty) 1
  need (!inbox || (headerOk h && fld h 5 1 == 1)) 5
  let (src, len) := if inbox then (src + 0x40, fld h 0x14 4) else (src, fld b 0x10 4)
  let cap := fld b 0x14 4
  let s ← get
  need (s.canWrite n (4 * cap / 2 ^ 14 + 2) (addrAt b 0x18) (4 * cap) && s.canWrite n 3 (addrAt b 0x28) 16) 2
  let (text, bad, s) := s.readUpto n (len / 128 + 2) src len
  set s
  let (ids, inv) := tokenise k.vocab (flags.testBit 0) (!bad) (if bad then wholeSeqs text else text)
  need (decide (ids.length ≤ cap)) 4
  need (!bad) 2
  pure (ids, inv)

/-- A failure of the store as a card's detail (R335). -/
def kvDetail (t : Trap) : Nat := if 0x60 ≤ t.cause ∧ t.cause ≤ 0x66 then t.cause else 2

/-- A Prompter card runs: how it ends, and the machine after it; none while the key-value store makes it wait. -/
def prompterRun (s : State) (n : Node) (k : Card) : Option (Nat × Nat × State) :=
  let first : CardM (List Byte × List Nat × Nat) := do
    let b ← cardRead n (k.addr + 0x40) 64
    let (ids, inv) ← prompterIds n k b
    cardWrite n (addrAt b 0x18) (ids.flatMap (toLe 4))
    pure (b, ids, inv)
  match first.go s with
  | (.error d, s1) => some (3, d, s1)
  | (.ok (b, ids, inv), s1) =>
    let parent := fld b 0x20 4
    let who : Op SeqEnt := resolveHandle parent (n.space.keyid.toNat % 1024) n.job n.space.sup
    let fork : Op Nat := do
      let e ← who
      forkSeq parent e (fld b 0x24 4)
    match (if (fld b 1 1).testBit 2 then fork s1 else .ok (emptyId, s1)) with
    | .error t => if t.cause = 0 then none else some (3, kvDetail t, s1)
    | .ok (h, s2) =>
      match (cardWrite n (addrAt b 0x28) (toLe 4 ids.length ++ toLe 4 h ++ toLe 4 inv ++ toLe 4 0)).go s2 with
      | (.ok _, s3) => some (2, 0, s3)
      | (.error d, _) =>
        if (fld b 1 1).testBit 2 then
          let drop : Op Unit := do
            let e ← resolveHandle h (n.space.keyid.toNat % 1024) n.job n.space.sup
            dropSeq h e
          match drop s2 with
          | .ok (_, s3) => some (3, d, s3)
          | .error _ => none
        else some (3, d, s2)

/-- The outcome of a card is settled (R336). -/
def State.settle (s : State) (id st d : Nat) : State := s.modCard id fun k => { k with out := some (st, d) }

/-- The card a text engine may run now. -/
def State.runnable (s : State) (e : Nat) : Option (Node × Card) :=
  match s.onEngine e with
  | none => none
  | some n => match n.card? with
    | none => none
    | some k => if s.textReady e ∧ ¬ n.cancelled ∧ k.out = none then some (n, k) else none

def execPrompterCardRun (e : Nat) (s : State) : Out :=
  match s.runnable e with
  | none => .next s
  | some (n, k) =>
    if k.kind ≠ 1 then .next s
    else match prompterRun s n k with
      | none => .next s
      | some (st, d, s1) => .next (s1.settle n.id st d)

/-! ## Narrator cards (R331 to R335) -/

/-- What the algorithm of R333 carries along. -/
structure Narr where
  out : List Byte
  held : List Byte
  ended : Bool
  stopped : Bool
  deriving DecidableEq, Repr

/-- The smallest place at which some stop string occurs. -/
def stopAt (stops : List (List Byte)) (p : List Byte) : Option Nat :=
  (List.range p.length).find? fun m => stops.any fun x => x.isPrefixOf (p.drop m)

/-- Bytes to hold back at the end of a text: a proper prefix of a stop string, or an incomplete sequence. -/
def holdBack (stops : List (List Byte)) (p : List Byte) : Nat :=
  let suff (k : Nat) : List Byte := p.drop (p.length - k)
  let h := (List.range (Min.min p.length 31 + 1)).foldl (fun m k =>
    if stops.any (fun x => decide (k < x.length) && (suff k).isPrefixOf x) then k else m) 0
  let u := (List.range (Min.min p.length 3 + 1)).foldl (fun m k => if utf8Partial (suff k) then k else m) 0
  Max.max h u

/-- One token's bytes (R333). -/
def narrToken (stops : List (List Byte)) (x : Narr) (b : List Byte) : Narr :=
  let p := x.held ++ b
  match stopAt stops p with
  | some m => ⟨x.out ++ clean (p.take m), [], true, true⟩
  | none =>
    let k := holdBack stops p
    ⟨x.out ++ clean (p.take (p.length - k)), p.drop (p.length - k), x.ended, x.stopped⟩

/-- The ids of a card, in order, up to a stop string (R333). -/
def narrIds (n : Node) (v : Vocab) (skip : Bool) (stops : List (List Byte)) (base : Word) : Nat → Nat → Narr → CardM Narr
  | 0, _, x => pure x
  | left + 1, i, x => do
    let bs ← cardRead n (base + BitVec.ofNat 64 (4 * i)) 4
    let t := le bs
    need (decide (t < vNtok v)) 8
    let y := narrToken stops x (if vKind v t = 1 ∧ skip then [] else vStr v t)
    if y.ended then pure y else narrIds n v skip stops base left (i + 1) y

/-- The stop table (R332): its strings, or detail 11. -/
def readStops (n : Node) (a : Word) : CardM (List (List Byte)) := do
  if a = 0 then pure []
  else
    let h ← cardRead n a 16
    let c := fld h 0 1
    need (decide (c ≤ 8) && (h.drop (1 + c)).all (· == 0)) 11
    let lens := (List.range c).map fun i => fld h (1 + i) 1
    need (lens.all fun l => decide (1 ≤ l ∧ l ≤ 32)) 11
    let b ← cardRead n (a + 0x10) (32 * c)
    let xs := (List.range c).map fun i => (b.drop (32 * i)).take (lens.getD i 0)
    need (xs.all fun x => validUtf8 x.length x) 11
    pure xs

/-- A Narrator card up to its commit (R333): its body, its state record, whether it had ended, what the algorithm leaves. -/
def narrPlan (n : Node) (k : Card) : CardM (List Byte × List Byte × Bool × Narr) := do
  let b ← cardRead n (k.addr + 0x40) 64
  let flags := fld b 1 1
  need (decide (fld b 0 1 < 16) && decide (flags < 8) && fld b 3 1 == 0 && decide (fld b 4 4 ≤ 65535) && (b.drop 0x38).all (· == 0)
    && fld b 8 8 % 4 == 0 && fld b 0x28 8 % 64 == 0 && fld b 0x30 8 % 16 == 0) 6
  need (!k.vocab.isEmpty) 1
  let st ← cardRead n (addrAt b 0x28) 64
  need (decide (fld st 0 1 < 4) && decide (fld st 1 1 ≤ 31)) 12
  let stops ← readStops n (addrAt b 0x30)
  let was := (fld st 0 1).testBit 0
  let x0 : Narr := ⟨[], (st.drop 0x10).take (fld st 1 1), was, (fld st 0 1).testBit 1⟩
  let x ← (if was then pure x0
    else do
      let y ← narrIds n k.vocab (flags.testBit 0) stops (addrAt b 8) (fld b 4 4) 0 x0
      pure (if flags.testBit 1 && !y.ended then (⟨y.out ++ clean y.held, [], true, y.stopped⟩ : Narr) else y))
  pure (b, st, was, x)

/-- The commit of a Narrator card (R333). -/
def narrCommit (n : Node) (b st : List Byte) (was : Bool) (x : Narr) : CardM Unit := do
  let outaddr := addrAt b 0x20
  need (outaddr == 0 || decide (x.out.length ≤ fld b 0x1C 4)) 9
  (if outaddr = 0 then pure () else cardWrite n outaddr x.out)
  let changed := x.ended && !was
  let sends := (fld b 1 1).testBit 2 && (!x.out.isEmpty || changed)
  let flow := fld b 0x18 4
  let s ← get
  need (!sends || s.iod.flows.contains (flow / 2 ^ 30, flow % 2 ^ 30)) 10
  let chunk := fld st 2 2
  let msg := message (if changed then 3 else 2) (fld b 0x10 8) chunk
    (if !changed then 0 else if x.stopped then 1 else fld b 2 1) x.out
  (if sends then set (s.modIod fun i => { i with sentMsgs := i.sentMsgs ++ [(flow / 2 ^ 30, flow % 2 ^ 30, msg)] }) else pure ())
  let new := toLe 1 (x.ended.toNat + 2 * x.stopped.toNat) ++ toLe 1 x.held.length ++ toLe 2 (if sends then chunk + 1 else chunk)
    ++ toLe 4 x.out.length ++ toLe 8 (fld st 8 8 + x.out.length) ++ x.held ++ List.replicate (48 - x.held.length) 0
  cardWrite n (addrAt b 0x28) new

/-- A Narrator card runs: how it ends and the machine after it; a failure writes and sends nothing (R333). -/
def narratorRun (s : State) (n : Node) (k : Card) : Nat × Nat × State :=
  match (narrPlan n k).go s with
  | (.error d, s1) => (3, d, s1)
  | (.ok (b, st, was, x), s1) =>
    match (narrCommit n b st was x).go s1 with
    | (.ok _, s2) => (2, 0, s2)
    | (.error d, _) => (3, d, s1)

def execNarratorCardRun (e : Nat) (s : State) : Out :=
  match s.runnable e with
  | none => .next s
  | some (n, k) =>
    if k.kind ≠ 2 ∨ s.narrAhead n k then .next s
    else
      let (st, d, s1) := narratorRun s n k
      .next (s1.settle n.id st d)

/-! ## Messages at a port (R320 to R322, R413, R414, R462) -/

/-- The answer ERROR to a message. -/
def State.answerError (s : State) (port flow : Nat) (m : List Byte) (code : Nat) : State :=
  s.modIod fun i => { i with sentMsgs := i.sentMsgs ++ [(port, flow, message 4 (fld m 8 8) 0 code [])] }

/-- The space of a job's slot, as a port uses it. -/
def JobSlot.space (j : JobSlot) (sup : Bool) : Space3 := ⟨j.ptbase, BitVec.ofNat 64 j.asid, BitVec.ofNat 64 j.keyid, sup⟩

/-- The capture records that a replay has still to deliver to the job's inboxes, first one first (R462). -/
def State.encMsgs (s : State) : List (Nat × Nat × List Byte) :=
  (s.encRecords 4096 0).filter fun r => r.1 == 1 && !s.iod.encDone.contains r.2.1

/-- A well-formed message goes to the inbox of its service (R322, R414). -/
def State.toInbox (s : State) (port flow svc : Nat) (m : List Byte) (live : Bool) : State :=
  let e := s.iod.svc.get [] svc
  let err (c : Nat) (s : State) : State := if live then s.answerError port flow m c else s
  let log40 (s : State) : State := s.modIod fun i => { i with mgmtLog := i.mgmtLog ++ [0x40] }
  let job := fld e 4 4
  if 255 < svc ∨ ¬ (fld e 0 4).testBit 0 then err 3 s
  else match s.jobSlot job with
    | none => err 3 s
    | some (_, j) =>
      if live && s.iod.encMode == 2 && s.iod.encJob == job then err 2 s
      else
        let sp := j.space false
        let q := s.iod.svcSeq.get 0 svc
        match s.vget 256 sp (addrAt e 0x18) 8 with
        | .error _ => log40 (err 5 s)
        | .ok (cb, s) =>
          if le cb + fld e 0x10 4 ≤ q then err 2 s
          else if fld e 0x14 4 < fld m 0x14 4 + 64 then err 4 s
          else
            let at' := addrAt e 8 + BitVec.ofNat 64 (fld e 0x14 4 * (q % Max.max 1 (fld e 0x10 4)))
            let slot := toLe 4 (port * 2 ^ 30 + flow) ++ toLe 4 q ++ List.replicate 24 0 ++ m
            match s.vput 256 sp at' slot [] [] with
            | .error _ => log40 (err 5 s)
            | .ok (ids, s) =>
              let s := s.cueAdd (fld e 0x20 2) (fld e 0x22 1) 1 ⟨.pkg, 256, ids⟩ none (s.iod.devnum, 0, 11)
              let s := s.modIod fun i => { i with svcSeq := i.svcSeq.put svc ((q + 1) % 2 ^ 32) }
              if s.iod.encMode = 1 ∧ s.iod.encJob = job then
                s.encAppend 1 (toLe 1 port ++ toLe 3 0 ++ toLe 4 svc ++ toLe 4 q ++ toLe 4 0 ++ m)
              else s

/-- A message arrives at a port on an open flow (R321). -/
def State.arrive (s : State) (port : Fin 4) (flow : Nat) (m : List Byte) : State :=
  let kind := fld m 5 1
  if !s.isReady .port port.val then s
  else if kind = 2 ∨ kind = 3 ∨ kind = 4 then s
  else if !headerOk m || m.length != 32 + fld m 0x14 4 then s.answerError port.val flow m 1
  else s.toInbox port.val flow (fld m 0x10 4) m true

/-- A replay delivers the next captured message to its inbox, if that has room (R462). -/
def State.replayMsg (s : State) : State :=
  match s.encMsgs with
  | [] => s
  | (_, n, p) :: _ =>
    let m := p.drop 0x10
    let s1 := s.toInbox (fld p 0 1) 0 (fld p 4 4) (m.take (32 + fld m 0x14 4)) false
    if s.iod.encMode ≠ 2 ∨ s1.iod.svcSeq = s.iod.svcSeq then s
    else s1.modIod fun i => { i with encDone := n :: i.encDone, encHead := i.encHead + 16 + p.length }

/-- An arriving REQUEST (R321, R414). -/
def execRequest (port : Fin 4) (flow : Nat) (m : List Byte) (s : State) : Out := .next (s.arrive port flow m)
/-- An arriving CANCEL (R321, R414). -/
def execCancelMessage (port : Fin 4) (flow : Nat) (m : List Byte) (s : State) : Out := .next (s.arrive port flow m)
/-- An arriving REPLY, REPLY_END or ERROR is discarded (R321). -/
def execReplyReceived (port : Fin 4) (flow : Nat) (m : List Byte) (s : State) : Out := .next (s.arrive port flow m)

/-- A flow becomes known to a port (R334), which holds at most 65,536 open (R412). -/
def execFlowOpen (port : Fin 4) (flow : Nat) (s : State) : Out :=
  if s.iod.flows.contains (port.val, flow) ∨ 65536 ≤ (s.iod.flows.filter fun f => f.1 == port.val).length then .next s
  else .next (s.modIod fun i => { i with flows := (port.val, flow) :: i.flows })

/-- The peer closes a flow (R334). -/
def execFlowClose (port : Fin 4) (flow : Nat) (s : State) : Out :=
  .next (s.modIod fun i => { i with flows := i.flows.filter fun f => f != (port.val, flow) })

end Sys2Proof.Machine
end

