-- ==== Sys2Proof/Machine/Cellarer.lean ====
section
/-! DEFINITION. The Cellarer: its registers, moves down the ladder, lending, recall, loss (R234, R425 to R430). -/

namespace Sys2Proof.Machine

/-! ## Registers (R425) -/

/-- Fields software writes at an offset of a Cellarer page; none where it has no register. -/
def cellMask (off : Nat) : Word :=
  if off % 8 ≠ 0 ∨ 0x180 ≤ off then 0
  else if off < 0x60 then BitVec.allOnes 64
  else if off = 0x60 then BitVec.allOnes 64
  else if off = 0x88 ∨ off = 0x90 ∨ off = 0x98 then 0x3FFFFFFFF
  else if off = 0xB8 ∨ off = 0xC0 ∨ off = 0xC8 ∨ off = 0xD0 then BitVec.allOnes 64
  else if off = 0xF8 then 1
  else if 0x100 ≤ off then (if off % 16 = 0 then 0xFFFF0000FFFFFFFF else 0x3FF)
  else 0

/-- The Cellarer of a die runs (R425 KVCTL.EN). -/
def Die.kvOn (d : Die) : Bool := (d.cell.get 0 0xF8).getLsbD 0

/-- A register's value after a write of its fields. -/
def Die.cellSet (d : Die) (off : Nat) (v : Word) : Die :=
  let m := cellMask off
  { d with cell := d.cell.put off ((d.cell.get 0 off &&& ~~~m) ||| (v &&& m)) }

/-! ## Casks and the sequences that hold them -/

/-- A sequence of die `h` that holds a cask, among entries `i` of its table. -/
def holderOn (cask h base : Nat) : Nat → Op (Option SeqEnt)
  | 0 => pure none
  | i + 1 => do
    let e := SeqEnt.ofBytes (base + 64 * i) (← kvGet 0 (base + 64 * i) 64)
    if e.state ≠ 1 ∨ e.bad then holderOn cask h base i
    else do
      let hits ← e.planes.mapM fun yg => (List.range e.ncask).mapM fun k => rackGet e yg.1 yg.2 k
      if hits.flatten.contains cask then pure (some e) else holderOn cask h base i

/-- A live sequence whose rack holds a cask: its geometry and key are the cask's (R229, R231). -/
def holderOf (cask : Nat) : Op (Option SeqEnt) := do
  let r ← [0, 1, 2, 3].mapM fun h => do
    let base ← cellOf h 0
    let n ← cellOf h 8
    holderOn cask h base n
  pure (r.findSome? id)

/-- Rows of each kind in a cask (R233). -/
def SeqEnt.rows (e : SeqEnt) : Nat := e.ppc * e.hpg

/-- A descriptor's class control word. -/
def classCtl (die cls : Nat) : Op Nat := cellOf die (0x80 + 8 * cls)

/-- Moves a cask to new storage and format: the new copy, then the descriptor in one update, then the old storage returns
(R234, R250). -/
def moveTo (id : Nat) (d : Desc) (e : SeqEnt) (bs : List Byte) (tier fmt addr : Nat) : Op Unit := do
  kvPut e.keyid addr bs
  descPut { d with addr := addr, tierB := tier + 4 * d.size, fmtB := fmt, stateB := d.stateB % 2 + d.stateB / 4 * 4, ver := (d.ver + 1) % 2 ^ 32 }
  if d.tier ≠ 1 ∧ d.addr ≠ addr then release none (id / 2 ^ 30 % 4) none (.pool (id / 2 ^ 30 % 4) d.pool d.addr) else pure ()

/-- A cask becomes ABSENT; storage of its own die returns (R428, R430). -/
def makeAbsent (id : Nat) (d : Desc) : Op Unit := do
  descPut { d with addr := 0, tierB := 3 + 4 * d.size, stateB := d.stateB / 4 * 4, ver := (d.ver + 1) % 2 ^ 32 }
  if d.tier = 1 then modify fun s => s.borrowed (id / 2 ^ 30 % 4) d (-1)
  else release none (id / 2 ^ 30 % 4) none (.pool (id / 2 ^ 30 % 4) d.pool d.addr)

/-- Nothing happens: a condition of a step does not hold. -/
def noStep {α : Type} : Op α := raise 0 0 0

/-- Goes on only if `p` holds. -/
def only (p : Bool) : Op Unit := check p 0 0 0

/-- Runs a step of the Cellarer: where a condition fails, nothing happens. -/
def runStep (m : Op Unit) (s : State) : Out :=
  match m s with
  | .ok (_, s') => .next s'
  | .error _ => .next s

/-- The descriptor of a cask that may be moved, with its sequence (R234). -/
def movable (die : Fin 4) (cask : Nat) : Op (Desc × SeqEnt) := do
  let s ← get
  only (s.isReady .cell die.val && (s.die die).kvOn && cask / 2 ^ 30 % 4 == die.val && !s.walked cask)
  match ← holderOf cask with
  | none => noStep
  | some e => do
    let d ← descChecked cask e.csize 0
    only (!d.transit && d.clsB != 0 && !d.absent)
    pure (d, e)

/-! ## Demotion steps (R428) -/

/-- Whether a pool is being refilled: below LOW, or begun below it and not yet at HIGH. -/
def refilling (die : Fin 4) (p : Nat) : Op Bool := do
  let w ← cellOf die.val (0xA0 + 8 * p)
  let free ← poolFree die.val p
  let s ← get
  let on := decide (free < w % 2 ^ 32) || ((s.die die).demoting.contains p && decide (free < w / 2 ^ 32))
  modify fun s => s.modDie die fun k =>
    { k with demoting := if on then p :: k.demoting.filter (· != p) else k.demoting.filter (· != p) }
  pure on

/-- The FP8 step: a BF16 cask in HBM becomes FP8 E4M3 in place. -/
def fp8Step (die : Fin 4) (cask : Nat) : Op Unit := do
  let (d, e) ← movable die cask
  let ctl ← classCtl die.val d.clsB
  only (ctl % 2 ^ 16 != 0 && d.tier == 0 && d.fmtB == 1)
  let bs ← kvGet e.keyid d.addr (caskBytes d.size)
  moveTo cask d e (convertCask 1 3 e.dh e.rows bs) 0 3 d.addr

/-- Casks of a die that may be moved and satisfy `p`, among the first `n` ids. -/
def candidates (die : Fin 4) (p : Desc → Op Bool) : Nat → Op (List Nat)
  | 0 => pure []
  | i + 1 => do
    let id := die.val * 2 ^ 30 + i
    let d ← descGet id 0
    let s ← get
    let l ← candidates die p i
    if !s.walked id && !d.transit && d.clsB != 0 && !d.absent && decide (1 ≤ d.refcnt) && (← p d) then pure (l ++ [id]) else pure l

/-- No cask that satisfies `p` is of a colder class: COLD goes before WARM, and that before HOT (R428). -/
def coldestFirst (die : Fin 4) (cls : Nat) (p : Desc → Op Bool) : Op Unit := do
  let n ← cellOf die.val 0x18
  let l ← candidates die (fun d => if cls < d.clsB then p d else pure false) n
  only l.isEmpty

/-- Whether a cask of a colder class goes before one of a size in the CXL step: how long it has been idle is free (R428; log 4). -/
def cxlWaits (die : Fin 4) (size : Nat) (x : Desc) : Op Bool := do
  let c ← classCtl die.val x.clsB
  if c / 2 ^ 16 % 2 ^ 16 ≠ 0 ∧ x.tier = 0 ∧ x.fmtB ≠ 1 ∧ x.size = size then (fun s => .ok s.drawBit) else pure false

/-- Whether a cask of a colder class goes before one of a size in the ABSENT step (R428). -/
def absWaits (die : Fin 4) (size : Nat) (x : Desc) : Op Bool := do
  let c ← classCtl die.val x.clsB
  pure (c.testBit 32 && x.tier == 2 && x.size == size)

/-- An agreement under which a die may lend one cask more (R429). -/
def Die.lendsTo (k : Die) : Option Nat :=
  (List.range 8).find? fun a => agValid (k.agree0 a) && !agLends (k.agree0 a) && decide (agUsed (k.agree1 a) < agQuota (k.agree0 a))

/-- A cask moves to the CXL pool of its size as MXFP4. -/
def toCxl (die : Fin 4) (cask : Nat) (d : Desc) (e : SeqEnt) (bs : List Byte) : Op Unit := do
  match ← poolTake die.val (5 + d.size) with
  | none => noStep
  | some a => moveTo cask d e (convertCask d.fmtB 6 e.dh e.rows bs) 2 6 a

/-- The CXL step, after the FP8 step of the same cask: a lender takes the cask where the class and an agreement allow it (R429), else the
CXL pool (R428). -/
def cxlStep (die : Fin 4) (cask : Nat) : Op Unit := do
  let (d, e) ← movable die cask
  let ctl ← classCtl die.val d.clsB
  only (ctl / 2 ^ 16 % 2 ^ 16 != 0 && d.tier == 0 && d.fmtB != 1)
  if ← refilling die (3 + d.size) then do
    coldestFirst die d.clsB (cxlWaits die d.size)
    let bs ← kvGet e.keyid d.addr (caskBytes d.size)
    let s ← get
    let k := s.die die
    (match (if ctl.testBit 33 then k.lendsTo else none) with
    | none => toCxl die cask d e bs
    | some a => do
      descPut { d with stateB := d.stateB ||| 2 }
      modify fun s => (s.sendReq (256 + die.val) (agPeer (k.agree0 a)) 0 false
        (.lend (agPeerDie (k.agree0 a)) (d.size == 1) d.fmtB bs) (some cask)).2)
    let _ ← refilling die (3 + d.size)
    pure ()
  else pure ()

/-- The ABSENT step: a CXL cask of a class with ABS loses its storage. -/
def absentStep (die : Fin 4) (cask : Nat) : Op Unit := do
  let (d, _) ← movable die cask
  let ctl ← classCtl die.val d.clsB
  let w ← cellOf die.val (0xA0 + 8 * (5 + d.size))
  let free ← poolFree die.val (5 + d.size)
  only (ctl.testBit 32 && d.tier == 2 && decide (free < w % 2 ^ 32))
  coldestFirst die d.clsB (absWaits die d.size)
  makeAbsent cask d

def execFp8Step (die : Fin 4) (cask : Nat) (s : State) : Out := runStep (fp8Step die cask) s
def execCxlStep (die : Fin 4) (cask : Nat) (s : State) : Out := runStep (cxlStep die cask) s
def execAbsentStep (die : Fin 4) (cask : Nat) (s : State) : Out := runStep (absentStep die cask) s

/-- A move down the ladder, named by the place it leads to (R234): the step whose place it is. -/
def execCaskMove (die : Fin 4) (cask tier fmt addr : Nat) (s : State) : Out :=
  let there (s' : State) : Bool := match descGet cask 0 s' with
    | .ok (d, _) => d.tier == tier && d.fmtB == fmt && d.addr == addr
    | .error _ => false
  let go (m : Op Unit) : Out := match m s with
    | .ok (_, s') => if there s' then .next s' else .next s
    | .error _ => .next s
  match tier with
  | 0 => go (fp8Step die cask)
  | 2 => go (cxlStep die cask)
  | 3 => go (absentStep die cask)
  | _ => .next s

/-! ## Lending (R429, R430) -/

/-- A lender takes a cask of `dev`: its cask id, or a cause. -/
def lendIn (die : Fin 4) (dev peerDie : Nat) (large : Bool) (fmt : Nat) (bs : List Byte) : Op Nat := do
  let s ← get
  let short {α : Type} : Op α := raise Cause.kvPoolEmpty 2 0
  match (s.die die).findAgree true dev peerDie with
  | none => short
  | some a => do
    let k := s.die die
    check (decide (agUsed (k.agree1 a) < agQuota (k.agree0 a))) Cause.kvPoolEmpty 2 0
    let size := large.toNat
    let id ← (do match ← poolTake die.val 2 with | some v => pure v | none => short)
    let st ← (do match ← poolTake die.val (3 + size) with | some v => pure v | none => short)
    kvPut (agKey (k.agree1 a)) st bs
    let d ← descGet id 0
    descPut { d with addr := st, refcnt := 1, tierB := 4 * size, fmtB := fmt, clsB := 0, stateB := 1, lent := 2 ^ 15 + dev, z := 0 }
    modify fun s => s.agUse die a 1
    pure id

/-- The key a lent cask is stored under. -/
def lentKey (die : Fin 4) (dev : Nat) (peerDie : Nat) : Op Nat := do
  let s ← get
  match (s.die die).findAgree true dev peerDie with
  | none => raise Cause.kvRackInvalid 0 0
  | some a => pure (agKey ((s.die die).agree1 a))

/-- The descriptor of a cask lent to `dev`. -/
def lentDesc (cask dev : Nat) : Op Desc := do
  let d ← descGet cask 0
  check (d.lent == 2 ^ 15 + dev) Cause.kvRackInvalid 0 0
  pure d

/-- A borrower reads a lent cask. -/
def lentRead (dev peerDie cask len : Nat) : Op (List Byte) := do
  let d ← lentDesc cask dev
  let key ← lentKey (Fin.ofNat 4 (cask / 2 ^ 30)) dev peerDie
  kvGet key d.addr len

/-- A borrower writes a lent cask. -/
def lentWrite (dev peerDie cask off : Nat) (bs : List Byte) : Op Unit := do
  let d ← lentDesc cask dev
  let key ← lentKey (Fin.ofNat 4 (cask / 2 ^ 30)) dev peerDie
  kvPut key (d.addr + off) bs

/-- A borrower drops a lent cask: id and storage return, USED falls. -/
def lentDrop (dev peerDie cask : Nat) : Op Unit := do
  let d ← lentDesc cask dev
  let die := cask / 2 ^ 30 % 4
  descPut { d with refcnt := 0, lent := 0 }
  release none die none (.pool die (3 + d.size) d.addr)
  release none die none (.pool die 2 cask)
  modify fun s => match (s.die (Fin.ofNat 4 die)).findAgree true dev peerDie with
    | some a => s.agUse (Fin.ofNat 4 die) a (-1)
    | none => s

/-- The lender has taken the cask: the borrower's descriptor becomes tier 1 in one update (R429). -/
def lentOut (cask dev theirs : Nat) : Op Unit := do
  let die : Fin 4 := Fin.ofNat 4 (cask / 2 ^ 30)
  let d ← descGet cask 0
  let out := { d with addr := theirs + dev * 2 ^ 32, tierB := 1 + 4 * d.size, stateB := d.stateB &&& 5, ver := (d.ver + 1) % 2 ^ 32 }
  descPut out
  modify fun s => s.borrowed die.val out 1
  release none die.val none (.pool die.val d.pool d.addr)
  if d.refcnt = 0 then freeCask none cask out else pure ()

/-- The lender could not take it: it moves to the CXL pool as usual, or stays (R429). -/
def lendFailed (cask : Nat) : Op Unit := do
  let die : Fin 4 := Fin.ofNat 4 (cask / 2 ^ 30)
  let d ← descGet cask 0
  let back := { d with stateB := d.stateB &&& 5 }
  descPut back
  if d.refcnt = 0 then freeCask none cask back
  else match ← holderOf cask with
    | none => pure ()
    | some e => do
      let free ← poolFree die.val (5 + d.size)
      if free = 0 then pure ()
      else do
        let bs ← kvGet e.keyid d.addr (caskBytes d.size)
        toCxl die cask back e bs

/-- Casks of a die lent to a die of a device, with their descriptors, among the first `n` ids. -/
def lentTo (die dev peerDie : Nat) : Nat → Op (List (Nat × Desc))
  | 0 => pure []
  | i + 1 => do
    let id := die * 2 ^ 30 + i
    let d ← descGet id 0
    let l ← lentTo die dev peerDie i
    pure (if d.tier = 1 ∧ 1 ≤ d.refcnt ∧ d.lender.1 = dev ∧ d.lender.2.2 = peerDie then l ++ [(id, d)] else l)

/-- The borrower is asked to take back `count` casks: it reads each from its lender (R430). -/
def takeBack (die dev peerDie count : Nat) : Op Unit := do
  let n ← cellOf die 0x18
  let l ← lentTo die dev peerDie n
  (l.take count).forM fun x => modify fun s =>
    (s.sendReq (264 + die) dev 0 false (.caskRd (x.2.addr % 2 ^ 32) (caskBytes x.2.size)) (some x.1)).2

/-- A recalled cask's bytes have come: it goes to the borrower's own CXL pool, or becomes ABSENT where its class allows (R430);
a PIN cask never moves, and one that a walker reads stays for now (R234). -/
def takenBack (cask dev theirs : Nat) (bs : List Byte) : Op Unit := do
  let die : Fin 4 := Fin.ofNat 4 (cask / 2 ^ 30)
  let d ← descGet cask 0
  only (d.tier == 1 && d.addr == theirs + dev * 2 ^ 32 && !d.transit && d.clsB != 0)
  let s ← get
  only (!s.walked cask)
  let gone : Op Unit := release none die.val none (.lender dev theirs)
  let ctl ← classCtl die.val d.clsB
  let free ← poolFree die.val (5 + d.size)
  if free = 0 then
    if ctl.testBit 32 then do
      makeAbsent cask d
      gone
    else pure ()
  else match ← holderOf cask with
    | none => pure ()
    | some e => do
      toCxl die cask d e bs
      modify fun s => s.borrowed die.val d (-1)
      gone

/-- A lender whose quota has fallen below its use asks the borrower to take casks back (R430). -/
def execRecall (die : Fin 4) (ag : Fin 8) (s : State) : Out :=
  let k := s.die die
  let w := k.agree0 ag.val
  let used := agUsed (k.agree1 ag.val)
  if agValid w && agLends w && decide (agQuota w < used) then
    .next (s.sendReq (256 + die.val) (agPeer w) 0 false (.takeBack (agPeerDie w) (used - agQuota w)) none).2
  else .next s

/-- The lender of the M command of a core has not answered in time (R240, R430). -/
def execLenderTimeout (c : Nat) (s : State) : Out :=
  .next (s.modCore c fun k => { k with kvRem := k.kvRem.map fun (r : KvRem) => if r.data.isNone then { r with lost := true } else r })

/-- The casks a borrower has lent under an agreement become ABSENT (R430). -/
def loseLent (die : Fin 4) (dev peerDie : Nat) : Op Unit := do
  let n ← cellOf die.val 0x18
  let l ← lentTo die.val dev peerDie n
  l.forM fun x => makeAbsent x.1 x.2

/-- VALID of an agreement of a die is cleared. -/
def State.dropAgree (s : State) (die : Fin 4) (a : Nat) : State :=
  let w := (s.die die).agree0 a
  let clear (s : State) : State := s.modDie die fun k => { k with cell := k.cell.put (0x100 + 16 * a) (k.cell.get 0 (0x100 + 16 * a) &&& 0x7FFFFFFFFFFFFFFF) }
  if !agValid w then s
  else if agLends w then clear s
  else match loseLent die (agPeer w) (agPeerDie w) s with
    | .ok (_, s') => clear s'
    | .error _ => clear s

def execAgreementInvalidate (die : Fin 4) (a : Fin 8) (s : State) : Out := .next (s.dropAgree die a.val)

/-- A write of 8 or 4 bytes to the Cellarer page of a die (R404, R425, R430). -/
def execCellarerRegisterWrite (die : Fin 4) (off : Nat) (x : HostVal) (s : State) : Out :=
  let r := off / 8 * 8
  let w := hostMerge ((s.die die).cell.get 0 r) off x.dbl x.v
  if off % (if x.dbl then 8 else 4) ≠ 0 ∨ cellMask r = 0 ∨ (r < 0x60 ∧ (s.die die).kvOn) then .next s
  else
    let s := if 0x100 ≤ r ∧ r < 0x180 ∧ r % 16 = 0 ∧ ¬ w.getLsbD 63 then s.dropAgree die ((r - 0x100) / 16) else s
    .next (s.modDie die fun k => k.cellSet r w)

end Sys2Proof.Machine
end

