-- ==== Sys2Proof/Machine/Fabric.lean ====
section
/-! DEFINITION. The fabric: F commands, requests performed here, responses, chunks and grants, links and keys (R277 to R284, R415 to R422). -/

namespace Sys2Proof.Machine

/-! ## Commands of F -/

/-- Bytes of an access of fld and fst. -/
def fBytes (sz : Fin 7) : Nat := 2 ^ sz.val

/-- Ordering of an F command (R283). -/
def fOrd : Instr → Ord
  | .fld _ _ o | .fst _ _ o | .famo _ _ _ o | .fput _ _ o | .fget _ _ o => o
  | _ => .rlx

/-- Whether a command holds the later ones until its data has returned. -/
def fAcq (i : Instr) : Bool := Ord.acquires (fOrd i)

/-- Whether a command waits for the earlier ones to be performed at their targets: .rel, and every fsig (R283). -/
def fRel : Instr → Bool
  | .fsig _ => true
  | i => Ord.releases (fOrd i)

/-- Bytes of an fput or fget command. -/
def Cmd.len (x : Cmd) : Nat := ccLen x.c

/-- Offset and length of the parts of a range that lie in one aligned 4 KiB block each. -/
def blocksOf (base len : Nat) : List (Nat × Nat) :=
  if len = 0 then []
  else (List.range ((base + len - 1) / 4096 + 1 - base / 4096)).map fun i =>
    let lo := Max.max base (4096 * (base / 4096 + i))
    let hi := Min.min (base + len) (4096 * (base / 4096 + i) + 4096)
    (lo - base, hi - lo)

/-- Chunks of a command: one for each aligned 4 KiB block of the receiving side (R281); an fget's is cut where its remote page ends. -/
def Cmd.chunks (x : Cmd) : List (Nat × Nat) :=
  match x.instr with
  | .fput _ _ _ => blocksOf x.b.toNat x.len
  | .fget _ _ _ =>
    (blocksOf x.a.toNat x.len).flatMap fun p =>
      let r := x.b.toNat + p.1
      let m := 2 ^ 14 - r % 2 ^ 14
      if p.2 ≤ m then [p] else [(p.1, m), (p.1 + m, p.2 - m)]
  | _ => []

/-- The remote range of a command. -/
def Cmd.remote (x : Cmd) : Nat × Nat :=
  match x.instr with
  | .fld _ sz _ | .fst _ sz _ => (x.b.toNat, fBytes sz)
  | .famo _ _ dbl _ => (x.b.toNat, aopBytes dbl)
  | .fput _ _ _ | .fget _ _ _ => (x.b.toNat, x.len)
  | _ => (0, 0)

/-- Where a range on other devices lies: device, address there and length of the part in each page; a page that does not translate has
none (R277). -/
def State.remoteParts (s : State) (c : Nat) (sp : Space3) (va n : Nat) : List (Nat × Nat × Nat) :=
  if n = 0 then []
  else (List.range ((va + n - 1) / 2 ^ 14 + 1 - va / 2 ^ 14)).filterMap fun i =>
    let lo := Max.max va (2 ^ 14 * (va / 2 ^ 14 + i))
    let hi := Min.min (va + n) (2 ^ 14 * (va / 2 ^ 14 + i) + 2 ^ 14)
    match s.translate c (dieOf c) sp (BitVec.ofNat 64 lo) with
    | .error _ => none
    | .ok (l, _) => some (l.e / 2 ^ 48 % 4096, l.e / 2 ^ 22 % 2 ^ 26 * 2 ^ 14 + lo % leafSpan l.lvl, hi - lo)

/-- Whether two commands of a core have a remote location in common, under whatever address (R283). -/
def State.sameRemote (s : State) (c : Nat) (x y : Cmd) : Bool :=
  let parts (z : Cmd) : List (Nat × Nat × Nat) := s.remoteParts c ((s.core c).space z.sup) z.remote.1 z.remote.2
  let ys := parts y
  (parts x).any fun a => ys.any fun b => a.1 == b.1 && decide (a.2.1 < b.2.1 + b.2.2 ∧ b.2.1 < a.2.1 + a.2.2)

/-- Everything a command under way asked for has come back. -/
def Fly.complete (f : Fly) : Bool := f.out.isEmpty && f.left.isEmpty

/-- Whether the command at the head of F's queue may start beside those under way; one that has met a fault is not performed (R283). -/
def State.mayFly (s : State) (c : Nat) (x : Cmd) (fs : List Fly) : Bool :=
  (match x.instr with | .ffence _ => fs.isEmpty | _ => true)
    && fs.all fun f => (f.complete && f.fault.isNone)
      || (!fAcq f.cmd.instr && !fRel x.instr && (f.cmd.chunks.isEmpty || !s.sameRemote c x f.cmd))

/-- A remote address translated here: device, address there, key ID (R277). -/
def remoteAt (va : Word) (size : Nat) (k : Acc3) : EM (Nat × Nat × Nat) := do
  let x ← get
  let sp ← eSpace
  let l ← eLift fun s => s.gcheck x.c (dieOf x.c) sp va size k
  pure (l.e / 2 ^ 48 % 4096, l.e / 2 ^ 22 % 2 ^ 26 * 2 ^ 14 + va.toNat % leafSpan l.lvl, pteKid l.e)

/-- What a started command sends. -/
inductive Plan where
  | nothing
  | one (dev key : Nat) (body : FabBody)
  | chunks (l : List (Nat × Nat × Nat)) (fault : Option Trap)
  deriving DecidableEq, Repr

/-- The scratchpad operand A of fld, fst and famo: aligned, in range, in SCRATCH banks (R176, R277). -/
def fLocal (n al : Nat) (dst : Bool) : EM Unit := do
  let x ← get
  let a := x.cmd.a.toNat
  echeck (a % al == 0) Cause.misalignedAccess 0 a
  extentChecks [lst 0 a n dst]

/-- Devices, dies and numbers of the chunks to move, up to the first that does not translate (R260). -/
def planChunks (k : Acc3) : List (Nat × Nat × Nat) → EM (List (Nat × Nat × Nat) × Option Trap)
  | [] => pure ([], none)
  | (i, off, _) :: ps => do
    let x ← get
    match ← tryCatch (do let r ← remoteAt (x.cmd.b + BitVec.ofNat 64 off) 1 k; pure (Except.ok (ε := Trap) r)) (fun t => pure (.error t)) with
    | .error t => pure ([], some t)
    | .ok (dev, pa, _) => do
      let (l, f) ← planChunks k ps
      pure ((dev, ((homeDie pa).getD 0).val, i) :: l, f)

/-- The chunks a command has still to move, with their numbers, offsets and lengths. -/
def Cmd.todo (x : Cmd) : List (Nat × Nat × Nat) :=
  let all := x.chunks.zipIdx.map fun p => (p.2, p.1.1, p.1.2)
  match x.prog with
  | .chunks l => all.filter fun p => l.contains p.1
  | _ => all

/-- The local operand of an fput or fget (R259 steps 2, 4 and 5); its rows of scratchpad are pending from the start (R185). -/
def fCopyChecks (dst sp : Bool) : EM Unit := do
  let x ← get
  let c := x.cmd.c
  echeck (c.toNat / 2 ^ 44 % 4 == 0 && c.toNat / 2 ^ 32 % 16 == 0 && (!dst || c.toNat / 2 ^ 36 % 256 == 0)) Cause.tileSpan (opNo 2) c.toNat
  (if dst then landingCheck c else pure ())
  let a := x.cmd.a.toNat
  let rs : List CRange := [⟨0, a, true, if x.cmd.len = 0 then [] else [((a : Int), x.cmd.len)], dst, false⟩]
  if sp then do
    copyChecks none rs
    markRanges rs
  else pure ()

/-- The checks of a command and what it sends (R259, R277 to R282). -/
def planF : EM Plan := do
  let x ← get
  let cmd := x.cmd
  match cmd.instr with
  | .fld _ sz _ => do
    let n := fBytes sz
    fLocal n n true
    let (dev, pa, key) ← remoteAt cmd.b n .remoteRd
    eMark cmd.a.toNat n
    pure (.one dev key (.rd pa n))
  | .fst _ sz _ => do
    let n := fBytes sz
    fLocal n n false
    let (dev, pa, key) ← remoteAt cmd.b n .remoteWr
    let bs ← eRead cmd.a.toNat n
    pure (.one dev key (.wr pa bs))
  | .famo _ op dbl _ => do
    fLocal 8 8 true
    let (dev, pa, key) ← remoteAt cmd.b (aopBytes dbl) .remoteRw
    let b ← (if op = .cas then eRead cmd.a.toNat 8 else pure [])
    eMark cmd.a.toNat 8
    pure (.one dev key (.amo op dbl pa cmd.c (BitVec.ofNat 64 (le b))))
  | .fput _ ssp _ => do
    (match cmd.prog with | .chunks _ => pure () | _ => fCopyChecks false (ssp == .sp))
    let (l, f) ← planChunks .remoteWr cmd.todo
    pure (.chunks l f)
  | .fget _ dsp _ => do
    (match cmd.prog with
      | .chunks _ => pure ()
      | _ => do
        fCopyChecks true (dsp == .sp)
        if cmd.len = 0 then eDeliver cmd.c 0 [] else pure ())
    let (l, f) ← planChunks .remoteRd cmd.todo
    pure (.chunks l f)
  | .fsig _ => do
    let a := cmd.a.toNat
    echeck (a / 2 ^ 26 == 0) Cause.fabricUnreachable 1 a
    echeck (!cmd.b.getLsbD 31) Cause.cueOverflow 0 cmd.b.toNat
    pure (.one (a % 4096) 0 (.sig (a / 2 ^ 12 % 256) (a / 2 ^ 20 % 64) (cmd.b.truncate 32)))
  | _ => pure .nothing

/-! ## Sending -/

/-- Whether a request to a device can leave (R415, R417). -/
def State.routable (s : State) (dst : Nat) : Bool :=
  s.iod.devnum != 0xFFF && (dst == s.iod.devnum || !(s.ports dst).isEmpty)

/-- fabric_unreachable without a route to a device (R278, R401). -/
def unreachable (dev : Nat) : Trap := ⟨Cause.fabricUnreachable, 0, BitVec.ofNat 64 dev⟩

/-- Changes a command under way. -/
def State.modFly (s : State) (c num : Nat) (f : Fly → Fly) : State :=
  s.modEngine c 3 fun g => { g with flight := g.flight.map fun (x : Fly) => if x.num = num then f x else x }

/-- A command under way. -/
def State.fly (s : State) (c num : Nat) : Option Fly := (s.engine c 3).flight.find? fun x => x.num == num

/-- The first fault a command meets is kept. -/
def Fly.fail (f : Fly) (t : Trap) : Fly := { f with fault := some (f.fault.getD t) }

/-- Sends a request of a command under way, or records that its device cannot be reached. -/
def State.flySend (s : State) (c num chunk dst key : Nat) (rel : Bool) (body : FabBody) : State :=
  if s.routable dst then
    let (n, s) := s.sendReq c dst key rel body (some num)
    s.modFly c num fun f => { f with out := f.out ++ [(dst, n, chunk)] }
  else s.modFly c num fun f => { f.fail (unreachable dst) with left := f.left.filter fun x => x.1 != dst }

/-- Numbers of requests of a command that carry none of its chunks: demands, and from `landNo` on the deliveries of its chunks. -/
def demandNo : Nat := 2 ^ 32
def landNo : Nat := 2 ^ 33

/-- A command under way as an execution. -/
def Fly.exe (f : Fly) (s : State) (c : Nat) : Exe := ⟨s, c, 3, f.cmd, f.com, [], 0⟩

/-- Runs an execution. -/
def runEM {α : Type} (m : EM α) (x : Exe) : Except Trap α × Exe := Id.run ((ExceptT.run m).run x)

/-- The landing word of an fput on the device of its first page: core and address. -/
def Cmd.lw (x : Cmd) : Option (Nat × Nat) := if ccLwe x.c then some (x.c.toNat / 2 ^ 36 % 256, ccLwa x.c) else none

/-- The deliveries of an fput's performed chunks that no earlier chunk is missing of are asked for at the device of its first page, in
ascending order (R269, R281). -/
def State.landChunks (s : State) (c num : Nat) : Nat → State
  | 0 => s
  | fuel + 1 =>
    match s.fly c num with
    | none => s
    | some f =>
      let rest := match f.cmd.prog with | .chunks l => l | _ => []
      let ready := f.cmd.blk.filter fun e => rest.all fun i => decide (e.1 < i)
      match (sortBy (fun a b => decide (a.1 ≤ b.1)) ready).head?, f.cmd.lw with
      | some e, some (k, a) =>
        match (runEM (remoteAt f.cmd.b 1 .remoteWr) (f.exe s c)).1 with
        | .error t => s.modFly c num fun f => f.fail t
        | .ok (first, pa, _) =>
          let (off, n) := f.cmd.chunks.getD e.1 (0, 0)
          let s := s.modFly c num fun f => { f with cmd := { f.cmd with blk := f.cmd.blk.filter fun x => x.1 != e.1 } }
          (s.flySend c num (landNo + e.1) first 0 true (.land k a ((pa + off) % 128) n)).landChunks c num fuel
      | _, _ => s

/-- The name under which a command's chunks are granted. -/
def grantName (c num : Nat) : Nat := c * 2 ^ 32 + num

/-- Changes what this device keeps of a source. -/
def State.modSrc (s : State) (key : Nat) (f : SrcSeq → SrcSeq) : State :=
  s.modIod fun i => { i with srcSeqs := i.srcSeqs.put key (f (i.srcSeqs.get ⟨0, [], []⟩ key)) }

/-- Puts a started command under way and sends what it begins with (R281, R422); one that releases does so for the tokens it has popped
as well (R293). -/
def State.launchF (s : State) (c : Nat) (cmd : Cmd) (com : Commit) (p : Plan) : State :=
  let num := (s.engine c 3).flyNext
  let s := if fRel cmd.instr then s.modSrc (s.iod.devnum * 1024 + c) fun q => { q with hb := s.prune (uni q.hb com.ids) } else s
  let put (cmd : Cmd) (left : List (Nat × Nat × Nat)) (fault : Option Trap) : State :=
    s.modEngine c 3 fun g =>
      { g with flight := g.flight ++ [⟨num, cmd, com, [], left, [], fault⟩], flyNext := g.flyNext + 1 }
  match p with
  | .nothing => put cmd [] none
  | .one dev key body => (put cmd [] none).flySend c num 0 dev key (fRel cmd.instr) body
  | .chunks l f =>
    let s := put { cmd with prog := .chunks (cmd.todo.map (·.1)) } l f
    match cmd.instr with
    | .fget _ _ _ =>
      if l = [] then s
      else s.modIod fun i => { i with demands := i.demands ++ [⟨i.devnum, c, grantName c num, List.replicate l.length (dieOf c).val, []⟩] }
    | _ =>
      (((l.map (·.1)).dedup).foldl (fun s dev =>
        s.flySend c num demandNo dev 0 false (.demand (grantName c num) ((l.filter fun x => x.1 == dev).map (·.2.1)))) s).landChunks c num
          cmd.chunks.length

/-- Takes back what an execution of a command under way has done; a fault is kept. -/
def flyDone (c num : Nat) (r : Except Trap Unit × Exe) : State :=
  r.2.s.modFly c num fun f =>
    let f := { f with cmd := r.2.cmd, com := r.2.com }
    match r.1 with
    | .ok _ => f
    | .error t => f.fail t

/-- One granted chunk of an fput goes out; one that can no longer be read sends nothing to write (R281, R422). -/
def State.putChunk (s : State) (c : Nat) (f : Fly) (dev i off n : Nat) (sp : Bool) : State :=
  let m : EM (List Byte × Nat × Nat) := do
    let (d, pa, key) ← remoteAt (f.cmd.b + BitVec.ofNat 64 off) 1 .remoteWr
    let bs ← cRead sp ((f.cmd.a.toNat : Int) + off) n
    if d = dev then pure (bs, pa, key) else throw (unreachable d)
  match runEM m (f.exe s c) with
  | (.ok (bs, pa, key), x) => x.s.flySend c f.num i dev key (fRel f.cmd.instr) (.chunkWr (grantName c f.num) pa bs)
  | (.error t, x) =>
    (x.s.modFly c f.num fun f => f.fail t).flySend c f.num demandNo dev 0 false (.chunkWr (grantName c f.num) 0 [])

/-- One granted chunk of an fget is asked for. -/
def State.getChunk (s : State) (c : Nat) (f : Fly) (i off n : Nat) : State :=
  match runEM (remoteAt (f.cmd.b + BitVec.ofNat 64 off) 1 .remoteRd) (f.exe s c) with
  | (.ok (dev, pa, key), x) =>
    x.s.flySend c f.num i dev key false (.chunkRd (grantName c f.num) pa n)
  | (.error t, x) => x.s.modFly c f.num fun f => f.fail t

/-- A chunk of a command of this device has been granted by a die of a device; the wait for it ends (R422, R454). -/
def State.onGrant (s : State) (name dev die : Nat) : State :=
  let c := name / 2 ^ 32
  let num := name % 2 ^ 32
  match s.fly c num with
  | none => s
  | some f =>
    let get := match f.cmd.instr with | .fget _ _ _ => true | _ => false
    match f.left.find? fun x => get || (x.1 == dev && x.2.1 == die) with
    | none => s
    | some x =>
      let s := s.modFly c num fun f => { f with left := f.left.erase x }
      let s := if f.out.all (fun o => demandNo ≤ o.2.2) then s.waitRec c 7 9 dev dev c 7 else s
      match (f.cmd.chunks)[x.2.2]? with
      | none => s
      | some (off, n) =>
        match f.cmd.instr with
        | .fput _ ssp _ => s.putChunk c f dev x.2.2 off n (ssp == .sp)
        | _ => s.getChunk c f x.2.2 off n

/-- An outstanding chunk of a demand for a die has been taken; any one where no die is given. -/
def State.chunkTaken (s : State) (src name : Nat) (die : Option Nat) : State :=
  let f (d : Demand) : Demand :=
    if d.src = src ∧ d.cmd = name then { d with outst := match die with | some k => d.outst.erase k | none => d.outst.drop 1 } else d
  s.modIod fun i => { i with demands := (i.demands.map f).filter fun d => !(d.left.isEmpty && d.outst.isEmpty) }

/-- A die grants the next chunk, round robin among the commands it has pending: at most 8 outstanding of a command, 256 of a die (R422). -/
def execChunkGrant (k : Nat) (s : State) : Out :=
  let ds := s.iod.demands
  match ds.find? fun d => d.left.contains k && decide (d.outst.length < 8) with
  | none => .next s
  | some d =>
    if 256 ≤ (ds.map fun d => d.outst.count k).sum then .next s
    else
      let s1 := s.modIod fun i => { i with demands := ds.erase d ++ [{ d with left := d.left.erase k, outst := d.outst ++ [k] }] }
      if d.src = s.iod.devnum then .next (s1.onGrant d.cmd d.src k)
      else .next (s1.sendReq (260 + k) d.src 0 false (.grant d.cmd 1) none).2

/-! ## Responses (R278, R283) -/

/-- Data of chunks that have come for an fget are written in ascending order; a block is delivered once no later chunk has bytes of it
(R269, R281). -/
def drainGet (sp : Bool) : Nat → Tab (List Byte) → EM (Tab (List Byte))
  | 0, got => pure got
  | fuel + 1, got => do
    let x ← get
    match x.cmd.prog with
    | .chunks (i :: is) =>
      (match got.find i, (x.cmd.chunks)[i]? with
        | some bs, some (off, _) => do
          let a := x.cmd.a.toNat
          cWrite sp (a + off) bs
          deliverBlocks x.cmd.c fun b => is.any fun j => match (x.cmd.chunks)[j]? with
            | some (o, n) => decide (a + o < 128 * b + 128 ∧ 128 * b < a + o + n)
            | none => false
          modify fun y => { y with cmd := { y.cmd with prog := .chunks is } }
          drainGet sp fuel (got.del i)
        | _, _ => pure got)
    | _ => pure got

/-- The cause a response reports (R278). -/
def respFault (r : FabResp) (va : Nat) : Option Trap :=
  if !r.auth then some ⟨Cause.linkAuthFail, 0, 0⟩
  else r.fault.map fun n => ⟨Cause.fabricRemoteFault, n, BitVec.ofNat 64 va⟩

/-- A chunk is done: it is no longer to be performed. -/
def Fly.chunkDone (f : Fly) (i : Nat) : Fly :=
  match f.cmd.prog with
  | .chunks l => { f with cmd := { f.cmd with prog := .chunks (l.filter (· != i)) } }
  | _ => f

/-- A chunk of an fput has been performed: its bytes are still to be delivered. -/
def Fly.chunkHeld (f : Fly) (i : Nat) : Fly :=
  let f := f.chunkDone i
  { f with cmd := { f.cmd with blk := f.cmd.blk ++ [(i, 0, [])] } }

/-- Writes that the part read by a command of this device at itself had been released with, which its acquire receives (R303). -/
def State.farAcq (s : State) (c : Nat) (x : Cmd) : List Nat :=
  if fAcq x.instr then
    (s.remoteParts c ((s.core c).space x.sup) x.remote.1 x.remote.2).foldl (fun l p =>
      if p.1 = s.iod.devnum then
        uni l (relIds .sys c ((List.range p.2.2).flatMap fun i => (s.gmeta.get Meta.zero (p.2.1 + i)).rels).dedup)
      else l) []
  else []

/-- A response to a request of an F command. -/
def State.flyResp (s : State) (c num : Nat) (r : FabResp) : State :=
  match s.fly c num with
  | none => s
  | some f0 =>
    match f0.out.find? fun o => o.1 == r.src && o.2.1 == r.seq with
    | none => s
    | some o =>
      let i := o.2.2
      let back (f : Fly) : Fly :=
        { f with out := f.out.erase o, com := { f.com with ids := uni f.com.ids (if r.src = s.iod.devnum then s.farAcq c f.cmd else []) } }
      let s := s.modFly c num back
      let f := back f0
      let off := match (f.cmd.chunks)[i]? with | some (a, _) => a | none => 0
      let isGet := match f.cmd.instr with | .fget _ _ _ => true | _ => false
      let s := if isGet then s.chunkTaken s.iod.devnum (grantName c num) (some (dieOf c).val) else s
      match respFault r (f.cmd.b.toNat + off) with
      | some t => s.modFly c num fun f =>
          { f.fail t with
            left := if i = demandNo then (f.left.filter fun x => x.1 != r.src) else f.left,
            cmd := if landNo ≤ i then { f.cmd with blk := f.cmd.blk ++ [(i - landNo, 0, [])] } else f.cmd }
      | none =>
        match f.cmd.instr with
        | .fld _ _ _ => flyDone c num (runEM (eWrite f.cmd.a.toNat r.data) (f.exe s c))
        | .famo _ _ _ _ => flyDone c num (runEM (eWrite f.cmd.a.toNat (r.data ++ List.replicate (8 - r.data.length) 0)) (f.exe s c))
        | .fput _ _ _ => if demandNo ≤ i then s else (s.modFly c num fun f => f.chunkHeld i).landChunks c num f.cmd.chunks.length
        | .fget _ dsp _ =>
          let got := f.got.put i r.data
          (match runEM (drainGet (dsp == .sp) (got.length + 1) got) (f.exe s c) with
            | (.ok g, x) => (flyDone c num (.ok (), x)).modFly c num fun f => { f with got := g }
            | (.error t, x) => flyDone c num (.error t, x))
        | _ => s

/-- A response to a Cellarer: a walker's cask, a cask lent, a cask taken back (R240, R429, R430). -/
def State.cellResp (s : State) (q : OutReq) (r : FabResp) : State :=
  let ok := r.auth && r.fault.isNone
  let settle (m : Op Unit) : State := match m s with | .ok (_, s') => s' | .error _ => s
  match q.req.body, q.fly with
  | .lend _ _ _ _, some cask => settle (if ok then lentOut cask r.src (le r.data) else lendFailed cask)
  | .caskRd theirs _, some n =>
    if 264 ≤ q.req.core then (if ok then settle (takenBack n r.src theirs r.data) else s)
    else s.modCore n fun k => { k with kvRem := k.kvRem.map fun (x : KvRem) =>
      if !x.wr && x.die + 256 == q.req.core && x.seq == r.seq then (if ok then { x with data := some r.data } else { x with lost := true }) else x }
  | .caskWr _ _ _, some n => s.modCore n fun k => { k with kvRem := k.kvRem.map fun (x : KvRem) =>
      if x.wr && x.die + 256 == q.req.core && x.seq == r.seq then (if ok then { x with data := some [] } else { x with lost := true }) else x }
  | _, _ => s

/-- A response arrives at its source (R418). -/
def State.onResp (s : State) (r : FabResp) : State :=
  match s.iod.outReqs.find? fun q => q.req.dst == r.src && q.req.core == r.core && q.req.seq == r.seq with
  | none => s
  | some q =>
    let s := s.modIod fun i => { i with outReqs := i.outReqs.erase q }
    if 256 ≤ r.core then s.cellResp q r
    else match q.fly with
      | some num => s.flyResp r.core num r
      | none => s

/-! ## Requests performed here (R279 to R283, R418, R422) -/

/-- The agent a request acts as: a core's own F, or another device outside the package (R285). -/
def State.farAgent (s : State) (r : FabReq) : Nat := if r.src = s.iod.devnum then r.core else 512 + r.src

/-- What a request releases at .sys: for an F engine of this device the writes of the earlier commands of its queue; another device's
are made here at .sys already (R303). -/
def State.farRel (s : State) (r : FabReq) : Rel :=
  ⟨.sys, s.farAgent r, if r.src = s.iod.devnum then s.prune (s.iod.srcSeqs.get ⟨0, [], []⟩ (r.src * 1024 + r.core)).hb else []⟩

/-- Writes a byte range at every die and below the LLC: performed at .sys (R283, R288). -/
def farPut (r : FabReq) (pa : Nat) (bs : List Byte) (keep : List Rel) : Op Unit := do
  let s ← get
  check (bs.isEmpty || (s.populated pa && s.populated (pa + bs.length - 1))) Cause.translationNotPresent 0x50 (BitVec.ofNat 64 pa)
  let rels := keep ++ if r.rel then [s.farRel r] else []
  liftE fun s => match s.physWrite (512 + r.src) r.key rels (bs.length / 128 + 2) pa bs with
    | .error t => .error t
    | .ok s => .ok ((), (s.spread pa bs.length).toSys ((List.range ((pa + bs.length + 127) / 128 - pa / 128)).map (pa / 128 + ·)))

/-- Reads a range of this device's memory for another. -/
def farGet (kid pa n : Nat) : Op (List Byte) := do
  let s ← get
  check (n == 0 || (s.populated pa && s.populated (pa + n - 1))) Cause.translationNotPresent 0x50 (BitVec.ofNat 64 pa)
  kvGet kid pa n

/-- Deliveries of a chunk to a landing word of this device, block by block (R269, R281). -/
def farLand (core addr : Nat) (pa n : Nat) : Op Unit := do
  let s ← get
  check ((s.core core).mode (addr / 65536) == .scratch) Cause.bankModeViolation 0 (BitVec.ofNat 64 addr)
  let stamp ← (fun s => let (t, s) := s.draw; .ok (Config.freeNat t % 2 ^ 32, s) : Op Nat)
  let cuts := if n = 0 then [] else (List.range ((pa + n - 1) / 128 + 1 - pa / 128)).map fun i =>
    Min.min (pa + n) (128 * (pa / 128 + i) + 128) - Max.max pa (128 * (pa / 128 + i))
  cuts.forM fun m => liftE fun s => match s.deliver core addr m [] stamp 7 with | .ok s => .ok ((), s) | .error t => .error t

/-- The effect of a request: the data it returns. -/
def performBody (r : FabReq) : Op (List Byte) := do
  match r.body with
  | .rd pa n => farGet r.key pa n
  | .wr pa bs => do
    farPut r pa bs []
    pure []
  | .amo op dbl pa c b => do
    let x ← farGet r.key pa (aopBytes dbl)
    let s ← get
    let keep := ((List.range (aopBytes dbl)).flatMap fun i => (s.gmeta.get Meta.zero (pa + i)).rels).dedup
    (match (aopApply op dbl (le x) (aopArg dbl b) (aopArg dbl c)).1 with
      | some v => farPut r pa (toLe (aopBytes dbl) v) keep
      | none => pure ())
    pure (x ++ List.replicate (8 - x.length) 0)
  | .sig core cue amt => do
    let s ← get
    check (s.isReady .core core) Cause.translationNotPresent 0x70 0
    let stamp ← (fun s => let (t, s) := s.draw; .ok (Config.freeNat t % 2 ^ 32, s) : Op Nat)
    modify fun s => s.cueAdd core cue amt (s.farRel r) (some stamp) (r.src, r.core, 7)
    pure []
  | .demand name dies => do
    modify fun s => s.modIod fun i => { i with demands := i.demands ++ [⟨r.src, r.core, name, dies, []⟩] }
    pure []
  | .chunkWr _ pa bs => do
    farPut r pa bs []
    pure []
  | .chunkRd _ pa n => farGet r.key pa n
  | .grant name n => do
    modify fun s => (List.range n).foldl (fun s _ => s.onGrant name r.src (r.core - 260)) s
    pure []
  | .land core addr pa n => do
    farLand core addr pa n
    pure []
  | .caskRd cask n => lentRead r.src (r.core % 4) cask n
  | .caskWr cask off bs => do
    lentWrite r.src (r.core % 4) cask off bs
    pure []
  | .caskDrop cask => do
    lentDrop r.src (r.core % 4) cask
    pure []
  | .lend die large fmt bs => do
    let id ← lendIn (Fin.ofNat 4 die) r.src (r.core % 4) large fmt bs
    pure (toLe 4 id)
  | .takeBack die n => do
    takeBack die r.src (r.core % 4) n
    pure []

/-- Sends a response to the source of a request, or takes it where the source is this device. -/
def State.respond (s : State) (r : FabReq) (data : List Byte) (fault : Option Nat) : State :=
  let p : FabResp := ⟨r.src, r.core, r.dst, r.seq, data, fault, true⟩
  if r.src = s.iod.devnum then s.onResp p
  else match s.emit 0 (.resp p) with
    | some s => s
    | none => s

/-- Number of a source under which this device counts its requests. -/
def srcKey (r : FabReq) : Nat := r.src * 1024 + r.core

/-- Performs a request, whose chunk is then taken whether it raised a cause or not. -/
def State.performReq (s : State) (r : FabReq) : State :=
  let taken (s : State) : State := match r.body with
    | .chunkWr name pa bs => s.chunkTaken r.src name (if bs = [] then none else some ((homeDie pa).getD 0).val)
    | _ => s
  match performBody r s with
  | .ok (data, s') => (taken s').respond r data none
  | .error t => (taken s).respond r [] (some t.cause)

/-- The `k`th waiting request is performed in the order of its source's sequence numbers; a duplicate is discarded (R418). -/
def execFabricRequestPerform (k : Nat) (s : State) : Out :=
  match s.iod.inbound[k]? with
  | none => .next s
  | some r =>
    let q := s.iod.srcSeqs.get ⟨0, [], []⟩ (srcKey r)
    let d := (r.seq + 2 ^ 16 - q.next % 2 ^ 16) % 2 ^ 16
    let s1 := s.modIod fun i => { i with inbound := i.inbound.eraseIdx k }
    if d = 0 then
      let s2 := s1.modIod fun i => { i with srcSeqs := i.srcSeqs.put (srcKey r) { q with next := (r.seq + 1) % 2 ^ 16 } }
      .next (s2.performReq r)
    else if 2 ^ 15 ≤ d then .next s1
    else .next s

/-- FAB_RETRY clocks have passed: the request is sent again, up to 4 times, and then its device is unreachable (R418). -/
def execFabRetryExpiry (c : Nat) (x : ReqNo) (s : State) : Out :=
  match s.iod.outReqs.find? fun q => q.req.core == c && q.req.dst == x.dst && q.req.seq == x.seq with
  | none => .next s
  | some q =>
    if q.tries < 4 ∧ ¬ q.dead then
      let (dead, s1) := s.dispatchReq q.req
      .next (s1.modIod fun i => { i with outReqs := i.outReqs.map fun (y : OutReq) => if y = q then { y with tries := y.tries + 1, dead := dead } else y })
    else
      let s1 := s.modIod fun i => { i with outReqs := i.outReqs.erase q }
      if 256 ≤ c then .next (s1.cellResp q ⟨s.iod.devnum, c, q.req.dst, x.seq, [], some Cause.fabricUnreachable, true⟩)
      else match q.fly with
        | none => .next s1
        | some num => .next (s1.modFly c num fun f =>
            { f.fail (unreachable q.req.dst) with out := f.out.filter (fun o => !(o.1 == q.req.dst && o.2.1 == x.seq)),
                                                      left := f.left.filter fun y => y.1 != q.req.dst })

/-! ## Links (R417, R419, R420) -/

/-- A readiness bit clears and the host is told (R434); the card that a text engine runs ends FAILED with detail 13 unless its outcome is
settled (R336). -/
def State.unready (s : State) (f : Func) (i : Nat) : State :=
  if s.isReady f i then
    let s := (s.modIod fun d => { d with ready := d.ready.filter (· != (f, i)) }).msix 2
    let e : Option Nat := match f with | .prom => some i | .narr => some (8 + i) | _ => none
    match e.bind s.onEngine with
    | some n => s.modCard n.id fun k => if k.out.isNone then { k with out := some (3, 13) } else k
    | none => s
  else s

/-- A link goes down after a flit has failed 8 times (R419). -/
def State.linkDown (s : State) (l : Nat) : State := (s.unready .link l).msix 3

/-- Whether the receiver holds a key for an epoch (R420). -/
def Link.holds (k : Link) (e : Nat) : Bool :=
  (e == k.epoch && k.key.isSome) || (e == k.epoch + 1 && k.nextKey.isSome) || (e + 1 == k.epoch && k.oldRx.isSome)

/-- A flit arrives over a link: delivered, forwarded or discarded (R417); one that fails its CRC or its authentication is asked for again,
and the eighth failure takes the link down (R419, R420). -/
def execFlitReceive (link : Fin 12) (f : Flit) (s : State) : Out :=
  let l := link.val
  if !s.linkUp l then .next s
  else if !f.crc || !f.auth || !(s.iod.link l).holds f.epoch then
    let n := (s.iod.link l).rxFails + 1
    let s1 := s.modLink l fun k => { k with authFail := if f.crc then k.authFail + 1 else k.authFail, rxFails := n % 8 }
    if n < 8 then .next s1
    else
      let s2 := s1.linkDown l
      match f.body with
      | .resp r => if r.dst = s.iod.devnum ∧ f.crc then .next (s2.onResp { r with auth := false }) else .next s2
      | .req _ => .next s2
  else
    let s1 := s.modLink l fun k =>
      { k with rxFails := 0, rxGood := some f.lseq, replay := match f.ack with | some n => replayAfter k.replay n | none => k.replay }
    let dst := match f.body with | .req r => r.dst | .resp r => r.dst
    if s.iod.devnum = 0xFFF then .next s1
    else if dst = s.iod.devnum then
      match f.body with
      | .req r => .next (s1.modIod fun i => { i with inbound := i.inbound ++ [r] })
      | .resp r => .next (s1.onResp r)
    else match s1.emit f.hop f.body with
      | some s2 => .next s2
      | none => .next s1

/-- The peer asks for a flit of the replay buffer and every later one again: they are resent byte for byte, those before it have arrived;
the eighth failure of one flit takes the link down (R419). -/
def execLinkReplay (link : Fin 12) (lseq : Nat) (_auth : Bool) (s : State) : Out :=
  let l := link.val
  let k := s.iod.link l
  if !s.linkUp l || !(k.replay.any fun f => f.lseq == lseq) then .next s
  else
    let n := (if k.txFail.1 = lseq then k.txFail.2 else 0) + 1
    let s1 := s.modLink l fun x => { x with txFail := (lseq, n % 8), replay := x.replay.dropWhile fun f => f.lseq != lseq }
    .next (if n < 8 then s1 else s1.linkDown l)

/-- The peer reports that it holds the next key: new flits go out under the next epoch (R420). -/
def execEpochSwitch (link : Fin 12) (s : State) : Out :=
  let k := s.iod.link link.val
  match k.nextKey with
  | none => .next s
  | some n => .next (s.modLink link.val fun x => { x with epoch := x.epoch + 1, oldTx := x.key, oldRx := x.key, key := some n, nextKey := none })

/-- The old key of a direction is destroyed: the transmitter's own once its replay buffer holds no flit of the old epoch, the receiver's
when the peer's transmitter says so (R420). -/
def execOldKeyDestroy (l : LinkDir) (s : State) : Out :=
  let k := s.iod.link l.link.val
  if l.rx then .next (s.modLink l.link.val fun x => { x with oldRx := none })
  else if k.replay.any fun f => f.epoch != k.epoch then .next s
  else .next (s.modLink l.link.val fun x => { x with oldTx := none })

/-- A write of DEV, without effect while an F command is queued or under way (R415). -/
def execFabDevnumWrite (v : Word) (s : State) : Out :=
  if s.cores.any fun e => !(e.2.eng.get 3).empty then .next s
  else .next (s.modIod fun i => { i with devnum := v.toNat % 4096 })

end Sys2Proof.Machine
end

