-- ==== Sys2Proof/Machine/Engines.lean ====
section
/-! DEFINITION. Engine commands from start to finish, engine faults, restart and abandonment (R27 to R30, R218, R241, R260, R396 to R400, R449). -/

namespace Sys2Proof.Machine

/-- What a command of M, V or C does when it executes. -/
def bodyOf (x : Cmd) : EM Unit :=
  match x.instr with
  | .mma _ _ _ n => runProduct false n [64]
  | .mmaz _ _ _ n => runProduct true n [64]
  | .mgma _ _ _ _ n gm1 => runProduct false n (rowCounts x.c gm1)
  | .mdrain _ _ _ _ n fmt sm sat clr scale => runDrain n fmt.toNat sm.toNat sat clr scale
  | .mldacc _ _ _ n int => runLdacc n int
  | .mzero _ mask => runZero mask
  | .mamax _ _ n => runMamax n
  | .attn _ _ => runAttn
  | .kvapp _ _ _ _ nm1 adv => runKvapp nm1 adv
  | .cpy _ dsp ssp _ => runCopy (if dsp = .sp then .sp else .g) (.mem (ssp == .sp))
  | .cpyf _ ssp => runCopy .fifo (.mem (ssp == .sp))
  | .cpyg _ dsp _ fifo z => runCopy (if fifo then .fifo else if dsp = .sp then .sp else .g) (.gather z)
  | .cpys _ _ => runCopy .g .scatter
  | .cpyz _ dsp _ => runCopy (if dsp = .sp then .sp else .g) .zero
  | .tsobj _ _ _ => runTsobj
  | .tsdrop _ _ => runTsdrop
  | .xform _ dsp ssp _ r => runXform (dsp == .sp) (ssp == .sp) r.toNat
  | .card _ => runCard
  | .cardwt _ => runCardwt
  | i => match vopOf i with | some v => runVector v | none => pure ()

/-- Scope at which a command's writes are performed when it finishes (R269). -/
def scopeOf : Instr → Scope
  | .cpy _ _ _ s | .cpyg _ _ s _ _ | .cpys _ s | .cpyz _ _ s | .xform _ _ _ s _ => s
  | .card _ | .cardwt _ => .pkg
  | _ => .cr

/-- FIFOs a command of an engine pops and pushes (R28, R94). -/
def popsOf (e : Eng) (i : Instr) : List Nat := (maskEnds (tokOf i).pop).map fun a => fifoIx a (engEnd e)
def pushesOf (e : Eng) (i : Instr) : List Nat := (maskEnds (tokOf i).push).map fun a => fifoIx (engEnd e) a

/-- The tokens the head command pops, if they are all there (R29); a command that has popped them before pops none. -/
def State.tokensFor (s : State) (c : Nat) (e : Eng) (x : Cmd) : Option (List Nat × State) :=
  let is := if x.popped then [] else popsOf e x.instr
  let k := s.core c
  if is.any fun i => (k.tokens i).isEmpty then none
  else if x.popped then some ((k.eng.get e).hb, s)
  else
    let p := is.headD 0
    let src := ((k.tokens p).head?.map (·.src)).getD 15
    let (ids, s) := s.popTok c is (4 + e.val)
    let s := s.modCore c fun k => k.sees (4 + e.val) ids
    some (ids, if is = [] then s else s.waitRec c (4 + e.val) 6 p s.iod.devnum c src)

/-- An engine may start its head command (R23, R29, R400). -/
def Core.mayStart (k : Core) (e : Eng) : Bool :=
  let g := k.eng.get e
  k.run.isSome && !k.stopped && g.phase == .idle && !g.halt

/-- What a faulting command keeps for its restart: one of C or F all it has done; one of M or V, which runs again, no flag, no
replaced row, and no progress but stream bytes consumed (R81, R176, R205, R218, R260). -/
def keepCom (e : Eng) (c : Commit) : Commit := if e ≤ 1 then { c with flags := 0, repl := [], amax := none } else c
def keepProg (e : Eng) (p : Prog) : Prog :=
  if e ≤ 1 then (match p with | .stream a b => .stream a b | _ => .none) else p

/-- Puts the result of an execution into the engine: still running, or faulting with what it keeps (R27). -/
def engPut (e : Eng) (r : Except Trap Unit × Exe) : State :=
  let x := r.2
  match r.1 with
  | .ok _ => x.s.modEngine x.c e fun g => { g with q := x.cmd :: g.q.drop 1, phase := .running x.com, kept := Commit.zero }
  | .error t =>
    let s := x.s.modEngine x.c e fun g =>
      { g with q := { x.cmd with prog := keepProg e x.cmd.prog } :: g.q.drop 1, phase := .faulting t, kept := keepCom e x.com }
    if e = 1 then s.modCore x.c Core.settleV
    else if e = 0 then (s.modCore x.c fun k => { k with kvRem := [] }).settleGives else s

/-- Starts the head command of M, V or C: it executes (R24, R29). -/
def State.startCmd (s : State) (c : Nat) (e : Eng) : State :=
  match (s.engine c e).q with
  | [] => s
  | x :: _ =>
    match s.tokensFor c e x with
    | none => s
    | some (ids, s) =>
      let s := s.modEngine c e fun g => { g with hb := ids }
      let x := { x with popped := true }
      engPut e (runEM (bodyOf x) ⟨s, c, e, x, (s.engine c e).kept, [], 0⟩)

/-- Starts the head command of F: it is checked and sent, and the queue goes on to the next (R283). -/
def State.startF (s : State) (c : Nat) : State :=
  match (s.engine c 3).q with
  | [] => s
  | x :: rest =>
    if !s.mayFly c x (s.engine c 3).flight then s
    else
      match s.tokensFor c 3 x with
      | none => s
      | some (ids, s) =>
        let kept := (s.engine c 3).kept
        let s := s.modEngine c 3 fun g => { g with hb := ids }
        let x := { x with popped := true, num := if x.num = 0 then (s.engine c 3).flyNext + 1 else x.num }
        let com : Commit := { kept with ids := uni kept.ids ids }
        match runEM planF ⟨s, c, 3, x, com, [], 0⟩ with
        | (.error t, y) => y.s.modEngine c 3 fun g => { g with q := y.cmd :: rest, phase := .faulting t, kept := y.com }
        | (.ok p, y) => (y.s.modEngine c 3 fun g => { g with q := rest, kept := Commit.zero }).launchF c y.cmd y.com p

def execEngineCommandStart (c : Nat) (e : Eng) (s : State) : Out :=
  if (s.core c).mayStart e then .next (if e = 3 then s.startF c else s.startCmd c e) else .next s

/-! ## The end of a command (R30, R77, R81, R205, R449) -/

/-- Writes the poison-log entries of a command's replaced rows (R449). -/
def Core.logRows (k : Core) (eng : Nat) : List (Nat × Nat × Nat) → Core
  | [] => k
  | (i, ix, a) :: rs =>
    let e : PlogEnt := ⟨a, ix, i, k.launchId.toNat, eng, k.cycle⟩
    { k with plog := k.plog.put (k.plogHead.toNat % 64) e, plogHead := k.plogHead + 1, poisonRepl := k.poisonRepl + 1 }.logRows eng rs

/-- Performs the writes of a finished command at its scope (R30, R270, R288). They are serialised at their homes and applied to the die
copy of the core already; other dies apply them in their own time, or when an acquire asks for them (R297). -/
def State.performAt (s : State) (sc : Scope) (lines : List Nat) : State :=
  match sc with
  | .cr | .die | .pkg => s
  | .sys => s.toSys lines

/-- The writes a command's tokens carry beyond the core: those of a copy command at SCP, where that is wider than the die, which holds
them by then, and of other commands all (R270, R293, R347). -/
def Commit.carried (x : Commit) (i : Instr) : List Nat :=
  if engineOf i = some 2 ∧ (scopeOf i = .cr ∨ scopeOf i = .die) then x.sids.map (·.2) else x.all

/-- What a finishing command leaves: flags, AMAX, poison log, writes performed at its scope; then its tokens (R30). -/
def State.commit (s : State) (c : Nat) (e : Eng) (x : Cmd) (com : Commit) : State :=
  let s := s.modStrand c x.strand fun u => u.mergeFlags (engGroup e) com.flags
  let s := s.modCore c fun k =>
    let k := match com.amax with | some u => k.amaxCommit u | none => k
    { k.logRows e.val com.repl with
      pendRows := k.pendRows.filter (fun r => r.2 != (e, x.num)),
      run := k.run.map fun r => { r with wrote := uni r.wrote com.ids, lines := uni r.lines com.lines } }
  let s := s.performAt (scopeOf x.instr) com.lines
  let is := pushesOf e x.instr
  if is = [] then s
  else
    let ids := s.prune (uni (s.engine c e).hb (com.carried x.instr))
    let p := is.headD 0
    (s.pushTok c is ⟨ids, (s.core c).stamp.toNat, 4 + e.val⟩).waitRec c (4 + e.val) 7 p s.iod.devnum c ((s.core c).fifoPop.get 15 p)

/-- Finishes the head command of M, V or C if nothing is left of it and its tokens find room. -/
def State.finishCmd (s : State) (c : Nat) (e : Eng) (x : Cmd) (com : Commit) : State :=
  if (s.core c).room (pushesOf e x.instr) then
    (s.commit c e x com).modEngine c e fun g => { g with q := g.q.drop 1, phase := .idle, kept := Commit.zero }
  else s

/-- Whether a command waits for stream bytes, which only their arrival lets go on (R210). -/
def isStream : Instr → Bool
  | .mma _ _ _ _ | .mmaz _ _ _ _ | .mgma _ _ _ _ _ _ => true
  | _ => false

/-- The head command of an engine goes on from where it waits, with what it holds. -/
def State.goOn (s : State) (c : Nat) (e : Eng) (x : Cmd) (com : Commit) : State :=
  engPut e (runEM (bodyOf x) ⟨s, c, e, x, com, [], 0⟩)

/-- The first command of F that has everything back ends, or faults once the queue is free of another fault (R30, R260, R283). -/
def State.finishF (s : State) (c : Nat) : State :=
  let g := s.engine c 3
  match g.flight.find? Fly.complete with
  | none => s
  | some f =>
    let gone (g : Engine) : Engine := { g with flight := g.flight.erase f }
    match f.fault with
    | some t =>
      if g.phase = .idle then
        s.modEngine c 3 fun g => { gone g with q := f.cmd :: g.q, phase := .faulting t, kept := f.com }
      else s
    | none =>
      if (s.core c).room (pushesOf 3 f.cmd.instr) then
        ((s.commit c 3 f.cmd f.com).modEngine c 3 gone).modSrc (s.iod.devnum * 1024 + c) fun q => { q with hb := s.prune (uni q.hb f.com.ids) }
      else s

def execEngineCommandFinish (c : Nat) (e : Eng) (s : State) : Out :=
  let g := s.engine c e
  if e = 3 then .next (s.finishF c)
  else
    match g.q, g.phase with
    | x :: _, .running com =>
      (match x.prog with
        | .none => .next (s.finishCmd c e x com)
        | .attn _ => .next s
        | _ => if isStream x.instr then .next s else .next (s.goOn c e x com))
    | _, _ => .next s

/-- An M command that waits for stream bytes goes on if they have come (R210). -/
def execStreamBytesReady (c : Nat) (s : State) : Out :=
  match (s.engine c 0).q, (s.engine c 0).phase with
  | x :: _, .running com =>
    if isStream x.instr && x.prog != .none then
      let s1 := s.goOn c 0 x com
      let went : Bool := match (s1.engine c 0).q with | y :: _ => y.prog == .none | [] => true
      let (b, s2) := s1.drawBit
      if went then .next (s2.waitRec c 4 8 (x.a.toNat % 32) s.iod.devnum c (if b then 5 else 6)) else .next s1
    else .next s
  | _, _ => .next s

/-- An attn at its next cask boundary (R239 to R241); a stop for pre-emption leaves the engine stopped without a fault. -/
def execAttnCaskBoundary (c : Nat) (s : State) : Out :=
  match (s.engine c 0).q, (s.engine c 0).phase with
  | x :: _, .running com =>
    (match x.prog with
      | .attn _ =>
        let s1 := engPut 0 (runEM attnBoundary ⟨s, c, 0, x, com, [], 0⟩)
        (match (s1.engine c 0).q with
          | y :: _ =>
            if y.prog = .wait 9 then .next (s1.modEngine c 0 fun g =>
              { g with q := { y with prog := .none } :: g.q.drop 1, phase := .stopped,
                       kept := match g.phase with | .running k => k | _ => g.kept })
            else .next s1
          | [] => .next s1)
      | _ => .next s)
  | _, _ => .next s

/-! ## Pre-emption drains that end early (R383) -/

/-- A drain of V has ended at a yield point: what V wrote is visible to its next command (R180). -/
def Core.drainedV (k : Core) : Core := if k.eng.e1.q.isEmpty then k.settleV else k

/-- A pre-emption drain is abandoned: parked strands go on, an attn that stopped for it starts again (R383). -/
def State.abandonDrain (s : State) (c event : Nat) : State :=
  let s := s.logEvent (dieOf c) event c (s.core c).launchId.toNat
  let up (u : Strand) : Strand := if u.cond = .parked then { u with cond := .ready } else u
  let go (g : Engine) : Engine := if g.phase = .stopped ∧ ¬ g.pend then { g with phase := .idle } else g
  s.modCore c fun k =>
    { k.drainedV with
      st := ⟨up k.st.e0, up k.st.e1, up k.st.e2, up k.st.e3⟩, eng := ⟨go k.eng.e0, k.eng.e1, k.eng.e2, k.eng.e3⟩,
      run := k.run.map fun r => { r with preDrain := false } }

/-- A strand that stands at a debug stop goes on (R457). -/
def Strand.undebug (u : Strand) : Strand :=
  match u.cond with
  | .parked => { u with cond := .ready }
  | .waiting .debug => { u with cond := .ready }
  | _ => u

/-- A debug stop under way is put off. -/
def State.putOffDebug (s : State) (c : Nat) : State :=
  if (s.core c).dbgHit.isNone then s
  else s.modCore c fun k => { k.drainedV with dbgHit := none, st := ⟨k.st.e0.undebug, k.st.e1.undebug, k.st.e2.undebug, k.st.e3.undebug⟩ }

/-- An engine fault, or a halt, ends a drain of the context early (R383, R397). -/
def State.interruptDrain (s : State) (c : Nat) : State :=
  let s := s.putOffDebug c
  if (match (s.core c).run with | some r => r.preDrain | none => false) then s.abandonDrain c 0x20 else s

/-! ## Engine faults (R27, R396 to R399) -/

/-- Address of an engine's fault record in a core's context (R398). -/
def State.faultRec (s : State) (c : Nat) (e : Eng) : Option Word :=
  (s.jobSlot (s.core c).jobId.toNat).map fun j => j.2.frbase + BitVec.ofNat 64 (c % 256 * 256 + e.val * 64)

/-- Whether a command holds progress over its fault: commands of C and F that stopped between units (R260), products that have
consumed stream bytes (R210). -/
def Cmd.holdsProgress (x : Cmd) : Bool := match x.prog with | .rows _ _ | .chunks _ | .stream _ _ => true | _ => false

/-- The 64 bytes of a fault record (R398); the progress word is the engine's own and free. -/
def recordBytes (e : Eng) (x : Cmd) (t : Trap) (progress : Word) : List Byte :=
  toLe 1 t.cause ++ toLe 1 e.val ++ toLe 2 t.sub ++ toLe 4 (1 + 2 * x.word.isSome.toNat + 4 * x.holdsProgress.toNat)
    ++ toLe 8 t.val.toNat ++ toLe 8 x.syl ++ toLe 8 x.a.toNat ++ toLe 8 x.b.toNat ++ toLe 8 x.c.toNat
    ++ toLe 8 ((x.word.getD 0).toNat) ++ toLe 8 progress.toNat

/-- A faulting command stops its queue and leaves its record; one that cannot be written is fatal (R396, R398). -/
def execEngineFault (c : Nat) (e : Eng) (s : State) : Out :=
  let g := s.engine c e
  match g.phase, g.q with
  | .faulting t, x :: _ =>
    let s0 := (s.poisonSeen c ((s.core c).space x.sup) t).interruptDrain c
    let s0 := if t.cause = Cause.sramUncorrectable then s0.sramError c t.val.toNat
      else if t.cause = Cause.engineInternal then
        (s0.modCore c fun k => { k with sramUe := k.sramUe + 1 }).machineCheck (dieOf c) Cause.engineInternal 3 (c % 64 * 4 + e.val) 0 0
      else s0
    let (p, s1) := s0.drawWord
    let wrote : Option State := match s1.faultRec c e with
      | none => none
      | some a => match s1.vput c ((s1.core c).space true) a (recordBytes e x t p) g.hb [] with
        | .ok (ids, s2) => some (s2.forceUpds (dieOf c) ids)
        | .error _ => none
    match wrote with
    | none => .next (s1.fatal c 0x30)
    | some s2 => .next (s2.modEngine c e fun g =>
        { g with phase := .raised, pend := true, cause := t.cause, detail := t.sub, tval := t.val, act := 0, actN := 0 })
  | _, _ => .next s

/-- The strand whose turn it is takes the trap of a recorded fault; with none left the iteration ends (R396). -/
def execEngineFaultDelivery (c : Nat) (s : State) : Out :=
  let k := s.core c
  match k.raised with
  | none => .next s
  | some e =>
    match k.taker with
    | none => .next (s.fatal c 0x31)
    | some t =>
      let u := k.st.get t
      if u.tip || !k.live || u.goesOn then .next s
      else
        let g := k.eng.get e
        let s1 := match s.waitObj c t with
          | some (kind, d) => s.waitRec c t.val kind d 0 0 15
          | none => s
        let s2 := s1.modEngine c e fun g => { g with phase := .stopped }
        .next (s2.enterTrap c t ⟨g.cause, 0x8000 + e.val, g.tval⟩ u.pc true)

/-- ACT 1: the kept format word is read back and the head command may start again (R399). -/
def execEngfaultRestart (c : Nat) (e : Eng) (s : State) : Out :=
  let g := s.engine c e
  if !g.pend || g.act != 1 then .next s
  else
    match (s.faultRec c e).map (fun a => s.vget c ((s.core c).space true) (a + 0x30) 8) with
    | some (.ok (bs, s1)) => .next (s1.modEngine c e fun g =>
        { g with phase := .idle, pend := false, act := 0, actN := 0,
                 q := match g.q with
                   | x :: xs => { x with word := if x.word.isSome then some (BitVec.ofNat 64 (le bs)) else none } :: xs
                   | [] => [] })
    | _ => .next (s.fatal c 0x30)

/-- ACT 2: the head command and all that was queued when ACT was written are discarded, with no token pushed (R272, R399). -/
def execEngfaultAbandon (c : Nat) (e : Eng) (s : State) : Out :=
  let g := s.engine c e
  if !g.pend || g.act != 2 then .next s
  else
    let gone := g.q.take g.actN
    .next ((s.modEngine c e fun g =>
        { g with q := g.q.drop g.actN, phase := .idle, pend := false, act := 0, actN := 0, kept := Commit.zero }).modCore c fun k =>
      { k with pendRows := k.pendRows.filter (fun r => r.2.1 != e || !gone.any fun x => x.num == r.2.2),
               run := if e = 2 then k.run.map (fun r => { r with prologue := [] }) else k.run })

/-- HALT keeps an engine from starting further commands (R400), and ends a pre-emption drain that still needs it (R383). -/
def execEngctlHalt (c : Nat) (mask : BitVec 4) (s : State) : Out :=
  let s1 := s.modCore c fun k => k.setHalt (mask.zeroExtend 64)
  if ([0, 1, 2, 3] : List Eng).any fun e => (s1.engine c e).halt && !(s1.engine c e).q.isEmpty then .next (s1.interruptDrain c) else .next s1

end Sys2Proof.Machine
end

