-- ==== Sys2Proof/Machine/Context.lean ====
section
/-! DEFINITION. Contexts: how an iteration enters RUNNING, drains, stops for pre-emption or a debugger, is saved in an image and taken up
again (R42, R47, R48, R51, R131, R243, R272, R378 to R387, R457). -/

namespace Sys2Proof.Machine

/-- The four strands and the four engines. -/
def four : List (Fin 4) := [0, 1, 2, 3]

/-! ## Starting values (R42, R47, R51) -/

/-- The banks of a budget take their starting modes (R42). -/
def State.prepareBanks (s : State) (c : Nat) (budget cachemask : BitVec 32) : State :=
  (List.range 32).foldl (fun s b =>
    if budget.getLsbD b then s.setMode c b (if cachemask.getLsbD b then .cache else .scratch) else s) s

/-- The trap registers of R51 at an iteration's start: undefined, TSTATUS 0 (R395; logs 4 and 8). -/
def State.freshTrapRegs (s : State) : Strand × State :=
  let (a, s) := s.drawWord
  let (b, s) := s.drawWord
  let (v, s) := s.drawWord
  let (w, s) := s.drawWord
  let (x, s) := s.drawWord
  ({ Strand.zero with tpc := a, tcause := b &&& 0xFF, tsub := v &&& 0xFFFF, tval := w, tscratch := x }, s)

/-- The ordering an iteration starts with: what its node's dependences released happens before it (R293). -/
def OrdSt.from (hb : List Nat) : OrdSt := { OrdSt.zero with hb := hb }

/-- A strand at the start of an iteration (R47). -/
def startStrand (u : Strand) (n : Node) (l : Launch) (i : Iter) (tvec : Word) (t : Fin 4) : Strand :=
  let w (x : Nat) : Word := BitVec.ofNat 64 x
  let e := l.entry.get t
  let u := ((((((u.wr 1 (w i.idx.e0)).wr 2 (w i.idx.e1)).wr 3 (w i.idx.e2)).wr 4 (w i.idx.e3)).wr 5 l.argptr).wr 6 (w i.n)).wr 7 (w n.id)
  { u with pc := e, tvec := tvec, cond := if e = 0 then .exited else .ready, ord := OrdSt.from n.hb }

/-- TRACECTL takes a value; setting EN anew starts the count again (R451). -/
def Core.putTracectl (k : Core) (v : Word) : Core :=
  { k with tracectl := v, traceN := if v.getLsbD 0 && !k.tracectl.getLsbD 0 then 0 else k.traceN }

/-- What a core drops when a context leaves or enters its running slot; no old word is left in its banks. -/
def Core.cleared (k : Core) : Core :=
  { k.settleV with torn := k.torn.filter (fun e => !k.budget.getLsbD (e.1 / 8192)), eng := Quad.all Engine.zero, fifo := [], acc := Quad.all Acc.zero, amax := Quad.all 0, fmtq := [], locks := [],
                   pendRows := [], kvRem := [], stopped := false, dbgHit := none, fifoPop := [] }

/-- The context registers a job slot gives (R51, R368). -/
def Core.ofJob (k : Core) (j : JobSlot) : Core :=
  let k := { k with keyid := BitVec.ofNat 64 j.keyid, ptbase := j.ptbase, asid := BitVec.ofNat 64 j.asid, brkctl := j.brkctl &&& SysReg.mask .brkctl,
                    pendchk := j.pendchk &&& SysReg.mask .pendchk }
  (k.putTracectl (j.tracectl &&& SysReg.mask .tracectl)).setHalt j.engctl

/-- The ids of a context (R51). -/
def Core.withIds (k : Core) (iter launch job phase graph : Nat) : Core :=
  let w (x : Nat) : Word := BitVec.ofNat 64 x
  { k with iterId := w iter, launchId := w launch, jobId := w job, phaseId := w phase, graphId := w graph }

/-- Engines carry what happens before the iteration. -/
def Core.withHb (k : Core) (hb : List Nat) : Core :=
  let f (g : Engine) : Engine := { g with hb := hb }
  { k with eng := ⟨f k.eng.e0, f k.eng.e1, f k.eng.e2, f k.eng.e3⟩ }

/-- Marks an iteration RUNNING on a core. -/
def State.markRunning (s : State) (id num c : Nat) : State :=
  s.modNode id fun m => { m with iters := m.iters.map fun k => if k.n = num then { k with st := .running, core := some c } else k }

/-- The context of an iteration that has no past. -/
def Ctx.fresh (iter launch order : Nat) : Ctx :=
  { iter := iter, launch := launch, cancelled := false, fatal := false, yreq := false, slot := none, draining := false, preDrain := false,
    prologue := [], order := order, noReq := false, restored := false, wrote := [], lines := [] }

/-- An iteration enters RUNNING (R47, R51, R379) with its context: `u` is what its prologue has come to, its commands left to C and the
fault that the first of them has met; `under` is the understudy that its core then has. -/
def State.enterRunning (s : State) (c : Nat) (n : Node) (l : Launch) (i : Iter) (j : JobSlot) (u : Under) (under : Option Under) : State :=
  let (u0, s) := s.freshTrapRegs
  let (u1, s) := s.freshTrapRegs
  let (u2, s) := s.freshTrapRegs
  let (u3, s) := s.freshTrapRegs
  let mk (u : Strand) (t : Fin 4) : Strand := startStrand u n l i j.tvec t
  let s := s.modCore c fun k =>
    let k := (((k.cleared.ofJob j).withIds i.n n.id n.job n.phase n.graph).withHb n.hb)
    { k with st := ⟨(mk u0 0).mergeFlags (engGroup 2) u.cflags, mk u1 1, mk u2 2, mk u3 3⟩, fifo := u.fifos, budget := l.budget, under := under,
             run := some { Ctx.fresh i.n n.id s.orderNext with wrote := u.ctx.wrote, lines := u.ctx.lines },
             eng := k.eng.set 2 { k.eng.e2 with q := u.ctx.prologue, kept := u.com,
                                                phase := match u.fault with | some t => .faulting t | none => .idle } }
  let s := { s.markRunning n.id i.n c with orderNext := s.orderNext + 1 }
  let s := s.forceUpds (dieOf c) n.hb
  s.trace c 5 0x40 8 n.id i.n 0

/-! ## Prologues (R272, R379) -/

/-- The node, launch, iteration and job slot behind a context. -/
def State.behind (s : State) (x : Ctx) : Option (Node × Launch × Iter × JobSlot) :=
  match s.node x.launch with
  | none => none
  | some n =>
    match n.kind, n.iters.find? (fun i => i.n == x.iter), s.jobSlot n.job with
    | .launch l, some i, some (_, j) => some (n, l, i, j)
    | _, _, _ => none

/-- A core as a staged iteration's prologue sees it: its banks, translation, key, FIFOs and an empty C. -/
def Core.stagedView (k : Core) (n : Node) (l : Launch) (j : JobSlot) (u : Under) : Core :=
  { k with budget := l.budget, keyid := BitVec.ofNat 64 j.keyid, ptbase := j.ptbase, asid := BitVec.ofNat 64 j.asid, jobId := BitVec.ofNat 64 n.job,
           launchId := BitVec.ofNat 64 n.id, pendchk := 0, fifo := u.fifos, eng := k.eng.set 2 { Engine.zero with hb := n.hb } }

/-- The core back in the view of its running context, with what the prologue command did. -/
def Core.unview (k old : Core) : Core :=
  { k with budget := old.budget, keyid := old.keyid, ptbase := old.ptbase, asid := old.asid, jobId := old.jobId, launchId := old.launchId,
           pendchk := old.pendchk, pendRows := old.pendRows, fifo := old.fifo, eng := k.eng.set 2 old.eng.e2 }

/-- The banks of a staged iteration may be prepared: the running slot is free and the iteration's to take, or the budgets share no bank
(R378, R379). -/
def State.mayBank (s : State) (c : Nat) (l : Launch) : Bool :=
  if (s.core c).run.isNone then !s.slotKept l.prio c else (s.core c).budget &&& l.budget == 0

/-- Runs the first prologue command of a staged iteration, or lets it go on; a fault stays with it until it enters RUNNING, with what it
holds (R260, R379). -/
def State.stagedCopy (s : State) (c : Nat) (u : Under) : State :=
  match u.ctx.prologue, s.behind u.ctx with
  | x :: xs, some (n, l, _, j) =>
    if u.fault.isSome || !s.mayBank c l || !(s.engine c 2).q.isEmpty then s
    else
      let s := if u.banked then s else s.prepareBanks c l.budget l.cachemask
      let old := s.core c
      let s := s.modCore c fun k => k.stagedView n l j u
      let (r, y) := runEM (bodyOf x) ⟨s, c, 2, x, u.com, [], 0⟩
      let stay : Under := { u with ctx := { u.ctx with prologue := y.cmd :: xs }, com := y.com, banked := true }
      let (u, s) := match r with
        | .error t => ({ stay with fault := some t }, y.s)
        | .ok _ =>
          if y.cmd.prog ≠ Prog.none then (stay, y.s)
          else
            let s := y.s.performAt (scopeOf x.instr) y.com.lines
            let s := s.pushTok c (pushesOf 2 x.instr) ⟨s.prune (uni n.hb (y.com.carried x.instr)), (s.core c).stamp.toNat, 6⟩
            ({ u with ctx := { u.ctx with prologue := xs, wrote := uni u.ctx.wrote y.com.ids, lines := uni u.ctx.lines y.com.lines },
                      banked := true, fifos := (s.core c).fifo, cflags := u.cflags ||| y.com.flags, com := Commit.zero }, s)
      s.modCore c fun k => { k.unview old with under := some u }
  | _, _ => s

def execPrologueCopy (c : Nat) (s : State) : Out :=
  match (s.engine c 2).q.head?, (s.core c).under with
  | some x, u =>
    if x.prologue then
      (match (s.engine c 2).phase with
        | .idle => .next (if (s.core c).mayStart 2 then s.startCmd c 2 else s)
        | .running com => .next (if x.prog = .none then s.finishCmd c 2 x com else s.goOn c 2 x com)
        | _ => .next s)
    else match u with
      | some v => .next (s.stagedCopy c v)
      | none => .next s
  | none, some v => .next (s.stagedCopy c v)
  | none, none => .next s

def execIterationEnterRunning (c : Nat) (s : State) : Out :=
  match (s.core c).run, (s.core c).under with
  | none, some u =>
    if u.ctx.restored ∨ (u.ctx.prologue ≠ [] ∧ u.fault = none) then .next s
    else
      match s.behind u.ctx with
      | none => .next s
      | some (n, l, i, j) =>
        if s.slotKept l.prio c then .next s
        else .next ((if u.banked then s else s.prepareBanks c l.budget l.cachemask).enterRunning c n l i j u none)
  | _, _ => .next s

/-! ## The end of an iteration (R48, R376, R380) -/

/-- A context leaves its core's running slot. -/
def State.leaveRunning (s : State) (c : Nat) : State :=
  s.modCore c fun k =>
    let x (u : Strand) : Strand := { u with cond := .exited, pend := [], sb := [], lkstep := false }
    { k.cleared with run := none, st := ⟨x k.st.e0, x k.st.e1, x k.st.e2, x k.st.e3⟩ }

/-- Nothing of the iteration is under way: engines, posted stores, scoreboarded operations (R48). -/
def Core.quiet (k : Core) : Bool := k.eng.toList.all Engine.empty && k.wbuf.isEmpty && k.st.toList.all fun u => u.sb.isEmpty

/-- Releases of the iteration on core `c` that the Cellarer has still to make (R48, R250). -/
def State.givesOf (s : State) (c : Nat) : Bool := four.any fun d => (s.die d).gives.any fun g => g.core == some c

/-- Lines that hold writes of the iteration on a core not yet performed at .sys (R147, R270). -/
def Core.ownLines (k : Core) : List Nat :=
  k.st.toList.foldl (fun l u => uni l u.ord.lines) (match k.run with | some r => r.lines | none => [])

def execIterationDrainEnd (c : Nat) (s : State) : Out :=
  match (s.core c).run with
  | none => .next s
  | some r =>
    let s1 := (four.foldl (fun s t => s.loadsDone c t) s).settleGives
    if !r.draining || !(s1.core c).quiet || s1.givesOf c then .next s
    else
      let s1 := s1.toSys (s1.core c).ownLines
      let bad := r.cancelled || r.fatal
      let rel := four.foldl (fun l t => uni l (s1.relSet c t)) (s1.prune r.wrote)
      let s2 := s1.trace c 5 0x41 8 r.launch r.iter (if bad then 1 else 0)
      let s3 := (s2.dropIter r.launch r.iter bad).modNode r.launch fun n =>
        { n with rel := uni n.rel rel, usedSlots := match r.slot with | some k => n.usedSlots.erase k | none => n.usedSlots }
      .next (s3.leaveRunning c)

/-! ## Stopping for pre-emption (R131, R383) -/

/-- A strand in which a requested context may stop (R131); one that has left an sbar whose bundle has still to complete may not, since
its image could not say so (DESIGN CHOICE, log 94). -/
def Strand.mayStop (u : Strand) : Bool :=
  u.passed != some u.pc && match u.cond with
  | .exited => true
  | .parked => true
  | .waiting .cue => !u.sup
  | .waiting .token => !u.sup
  | .waiting .land => !u.sup
  | .waiting .waitc => !u.sup
  | .waiting (.sbar _) => !u.sup
  | .waiting .sync => !u.sup
  | _ => false

/-- Operations in flight complete before the context is saved (R20). -/
def State.landStrands (s : State) (c : Nat) : State :=
  four.foldl (fun s t => (s.loadsDone c t).modStrand c t fun u => u.landAll) s

def execContextStop (c : Nat) (s : State) : Out :=
  let k := s.core c
  if k.live && k.yreq && s.preemptible c && k.raised.isNone && k.locks.isEmpty && k.st.toList.all Strand.mayStop then
    let s1 := s.landStrands c
    if (s1.core c).st.toList.all (fun u => u.sb.isEmpty) then
      let s2 := four.foldl (fun s t => match s.waitObj c t with
        | some (kind, d) => s.waitRec c t.val kind d 0 0 15
        | none => s) s1
      .next (s2.modCore c fun k => { k with run := k.run.map fun r => { r with preDrain := true } })
    else .next s
  else .next s

/-- An attn has stopped at a cask boundary for pre-emption (R241, R243). -/
def Core.attnHalted (k : Core) : Bool := k.eng.e0.phase == .stopped && !k.eng.e0.pend

/-- Whether a queued command of an engine is to push into FIFO `p`. -/
def Core.feeds (k : Core) (e : Eng) (p : Nat) : Bool := (k.eng.get e).q.any fun x => (pushesOf e x.instr).contains p

/-- Whether an engine waits for a token that a stopped attn has yet to push, or that a command behind such a wait pushes (R243). -/
def Core.starved (k : Core) : Nat → Eng → Bool
  | 0, _ => false
  | n + 1, e =>
    let g := k.eng.get e
    if e = 0 then k.attnHalted
    else g.phase == .idle && !g.halt && (match g.q with
      | x :: _ => !x.popped && (popsOf e x.instr).any fun p => (k.tokens p).isEmpty && four.any fun d => k.feeds d p && k.starved n d
      | [] => false)

/-- An engine has finished, or holds only commands that wait for tokens of a stopped attn (R243). -/
def Core.engDrained (k : Core) (e : Eng) : Bool :=
  let g := k.eng.get e
  g.flight.isEmpty && (g.q.isEmpty || (k.attnHalted && k.starved 4 e))

/-- The engine queues and the FIFO banks of the budget are empty, but for R243. -/
def Core.drained (k : Core) : Bool :=
  (four.all fun e => k.engDrained e) && (List.range 32).all fun b => !k.budget.getLsbD b || (k.ring b).isEmpty

def execDrainTimeout (c : Nat) (s : State) : Out :=
  match (s.core c).run with
  | some r => .next (if r.preDrain && !(s.core c).drained then s.abandonDrain c 0x20 else s)
  | none => .next s

/-! ## The image (R384 to R386) -/

/-- Codes of the accumulator states and the bank modes. -/
def accCode : AccKind → Nat
  | .clear => 0
  | .fp32 => 1
  | .int32 => 2
def modeCode : BankMode → Nat
  | .scratch => 0
  | .cache => 1
  | .fifo => 2
  | .dark => 3

/-- The header (R384): `n` saved commands. -/
def State.imageHeader (s : State) (c n : Nat) (cohort : Bool) : List Byte :=
  let k := s.core c
  let modes := (List.range 32).foldl (fun m b => m + modeCode (k.mode b) * 4 ^ b) 0
  let counts := (List.range 20).foldl (fun m p => m + (k.fifo.get [] p).length % 16 * 16 ^ p) 0
  let accs := k.acc.toList.zipIdx.foldl (fun m a => m + accCode a.1.kind * 4 ^ a.2) 0
  toLe 4 0x4D494753 ++ toLe 2 1 ++ toLe 2 n ++ toLe 8 k.iterId.toNat ++ toLe 4 k.launchId.toNat ++ toLe 4 k.jobId.toNat
    ++ toLe 4 k.phaseId.toNat ++ toLe 4 k.graphId.toNat ++ toLe 4 k.budget.toNat ++ toLe 4 0 ++ toLe 8 modes ++ toLe 10 counts
    ++ toLe 1 k.fmtq.length ++ toLe 1 accs ++ toLe 4 0 ++ (k.amax.toList.flatMap fun a => toLe 8 a.toNat)
    ++ toLe 8 k.keyid.toNat ++ toLe 8 k.ptbase.toNat ++ toLe 8 k.asid.toNat
    ++ toLe 8 k.brkctl.toNat ++ toLe 8 k.tracectl.toNat ++ toLe 8 k.pendchk.toNat ++ toLe 8 (s.sysRead c 0 .engctl).toNat
    ++ toLe 2 s.iod.devnum ++ toLe 1 (c % 64) ++ toLe 1 cohort.toNat ++ toLe 100 0

/-- The condition byte of a strand record (R385); a strand stopped by a debugger between bundles counts as parked. -/
def condCode : StrandCond → Nat
  | .exited => 2
  | .waiting .sync => 3
  | .waiting _ => 1
  | _ => 0

/-- The 64 bytes of a loop controller (R385). -/
def loopBytes : Option LoopC → List Byte
  | none => toLe 64 0
  | some l => toLe 8 l.start.toNat ++ toLe 8 l.stop.toNat ++ toLe 8 l.n.toNat ++ toLe 8 l.i
      ++ toLe 1 ((l.s - 1) % 8 + 8 * l.y.toNat + 16 * l.sup.toNat + 32) ++ toLe 1 (l.pb % 32) ++ toLe 30 0

/-- A strand record (R385). -/
def State.strandRecord (s : State) (c : Nat) (t : Fin 4) : List Byte :=
  let u := s.strand c t
  ((List.range 64).flatMap fun n => toLe 8 (u.rd (BitVec.ofNat 6 n)).toNat) ++ toLe 8 u.pc.toNat ++ toLe 8 u.p.toNat
    ++ toLe 8 (s.status c t).toNat ++ toLe 8 u.xflags.toNat ++ toLe 8 u.rmode.toNat ++ toLe 8 u.tshape.toNat
    ++ toLe 16 (condCode u.cond) ++ loopBytes u.lc.e0 ++ loopBytes u.lc.e1 ++ loopBytes u.lc.e2 ++ loopBytes u.lc.e3 ++ toLe 0xC0 0

/-- A saved command (R386). -/
def cmdBytes (e : Eng) (x : Cmd) (stopped : Bool) : List Byte :=
  toLe 1 e.val ++ toLe 1 (x.popped.toNat + 2 * x.word.isSome.toNat + 4 * stopped.toNat) ++ toLe 6 x.strand.val
    ++ toLe 8 x.syl ++ toLe 8 x.a.toNat ++ toLe 8 x.b.toNat ++ toLe 8 x.c.toNat ++ toLe 8 x.tshape.toNat
    ++ toLe 8 (x.word.getD 0).toNat ++ toLe 8 0

/-- The commands an image saves, M then V, C and F (R386). -/
def Core.savedCmds (k : Core) : List Byte :=
  four.flatMap fun e => (k.eng.get e).q.zipIdx.flatMap fun x => cmdBytes e x.1 (e == 0 && x.2 == 0 && k.attnHalted)

/-- What the part keeps of a context beside its image (DESIGN CHOICE, log 78). -/
def Core.keep (k : Core) : Kept :=
  let o (u : Strand) : Quad Nat :=
    let f (l : Option LoopC) : Nat := match l with | some x => x.order | none => 0
    ⟨f u.lc.e0, f u.lc.e1, f u.lc.e2, f u.lc.e3⟩
  { sups := four.flatMap fun e => (k.eng.get e).q.map (·.sup), loops := ⟨o k.st.e0, o k.st.e1, o k.st.e2, o k.st.e3⟩ }

/-- The pieces of a core's image with their offsets (R384). -/
def State.imagePieces (s : State) (c : Nat) (cohort : Bool) : List (Nat × List Byte) :=
  let k := s.core c
  let cmds := k.savedCmds
  let fmt := (List.range 16).flatMap fun i => toLe 8 (k.fmtq.getD i 0).toNat
  let accs := k.acc.toList.flatMap fun a => (List.range 4096).flatMap fun i => toLe 4 (a.cells.get 0 i).toNat
  let banks := (List.range 32).filter fun b => k.budget.getLsbD b && k.mode b == .scratch
  [(0, s.imageHeader c (cmds.length / 64) cohort ++ (four.flatMap fun t => s.strandRecord c t) ++ fmt), (0x1200, cmds), (0x8000, accs)]
    ++ banks.map fun b => (0x20000 + 0x10000 * b, k.spRead (0x10000 * b) 0x10000)

/-- Offset of an image slot in a save area (R382). -/
def slotAddr (saveptr : Word) (slot : Nat) : Word := saveptr + BitVec.ofNat 64 (0x100 + slot * 0x220000)

/-- Where the image of an iteration lies. -/
def Iter.image (i : Iter) (l : Launch) : Option Word :=
  match i.img with
  | some a => some a
  | none => i.slot.map (slotAddr l.saveptr)

/-- Writes the pieces of an image in a launch's space, performed on every die. -/
def State.putPieces (s : State) (c : Nat) (sp : Space3) (base : Word) : List (Nat × List Byte) → Except Trap State
  | [] => .ok s
  | p :: ps =>
    match s.vput c sp (base + BitVec.ofNat 64 p.1) p.2 [] [] with
    | .error t => .error t
    | .ok (ids, s) => (four.foldl (fun s d => s.forceUpds d ids) s).putPieces c sp base ps

/-- Writes the pieces of an image at a physical address. -/
def State.pputPieces (s : State) (kid base : Nat) : List (Nat × List Byte) → Except Trap State
  | [] => .ok s
  | p :: ps =>
    match s.pput kid (base + p.1) p.2 with
    | .error t => .error t
    | .ok s => s.pputPieces kid base ps

/-- Everything the context wrote is performed everywhere, and its cache banks are written back (R51). -/
def State.writeOut (s : State) (c : Nat) (x : Ctx) : State :=
  let s := s.flushCore c
  let ids := four.foldl (fun l t => uni l (s.relSet c t)) x.wrote
  four.foldl (fun s d => s.forceUpds d ids) s

/-- A word of a bank the image takes cannot be read (R445). -/
def Core.imageUnreadable (k : Core) : Bool :=
  k.ueWords.any fun w => k.budget.getLsbD (8 * w / 65536) && k.mode (8 * w / 65536) == .scratch

def execImageWrite (c : Nat) (s : State) : Out :=
  match (s.core c).run with
  | none => .next s
  | some r =>
    if !r.preDrain || !(s.core c).drained then .next s
    else
      match s.behind r, r.slot with
      | some (n, l, _, _), some slot =>
        let s1 := s.writeOut c r
        let a := slotAddr l.saveptr slot
        let wrote := if (s1.core c).imageUnreadable then none
          else match s1.putPieces c n.space a (s1.imagePieces c l.cohort) with
            | .ok s => some s
            | .error _ => none
        (match wrote with
          | none =>
            let s2 := (s.abandonDrain c 0x22).modCore c fun k =>
              { k with run := k.run.map fun r => { r with yreq := false, slot := none, noReq := true } }
            .next ((s2.modNode n.id fun m => { m with usedSlots := m.usedSlots.erase slot }).modDie (dieOf c) fun d =>
              { d with reqs := d.reqs.filter fun q => q.1 != c })
          | some s2 =>
            let s3 := (s2.trace c 4 0x18 8 r.launch r.iter a.toNat).trace c 5 0x41 8 r.launch r.iter 2
            let s4 := s3.modNode n.id fun m =>
              { m with iters := m.iters.map (fun i => if i.n = r.iter then
                         { i with st := .yielded, slot := some slot, img := none, kept := some (s1.core c).keep } else i),
                       rel := uni m.rel (s3.prune r.wrote) }
            .next (((s4.endRunning c).leaveRunning c).joinList (dieOf c) l.prio n.job))
      | _, _ => .next s

/-! ## Taking up an image (R387) -/

/-- Reads a piece of an image. -/
abbrev Reader := State → Nat → Nat → Except Trap (List Byte × State)

/-- Reads the image of an iteration in a launch's space, or at a physical address. -/
def virtReader (c : Nat) (sp : Space3) (base : Word) : Reader := fun s off n => s.vget c sp (base + BitVec.ofNat 64 off) n
def physReader (kid base : Nat) : Reader := fun s off n => s.pget kid (base + off) n

/-- A loop controller from its 64 bytes. -/
def loopOf (b : List Byte) : Option LoopC :=
  let f := fld b 0x20 1
  if f.testBit 5 then
    some ⟨BitVec.ofNat 64 (fld b 0 8), BitVec.ofNat 64 (fld b 8 8), BitVec.ofNat 64 (fld b 0x10 8), f % 8 + 1, fld b 0x21 1 % 32, fld b 0x18 8,
      f.testBit 3, f.testBit 4, 0⟩
  else none

/-- Numbers the live loops of a strand in the order of their keys: an inner loop was made live later. -/
def orderLoops (keys : Quad Nat) (q : Quad (Option LoopC)) : Quad (Option LoopC) :=
  let key (n : Fin 4) : Nat := 4 * keys.get n + n.val
  let f (n : Fin 4) : Option LoopC := (q.get n).map fun l =>
    { l with order := (four.filter fun m => (q.get m).isSome && decide (key m < key n)).length }
  ⟨f 0, f 1, f 2, f 3⟩

/-- What a context goes on with beside its image: what the part kept, where that is of as many commands; else free modes and free
orders of the loops (DESIGN CHOICE, log 78). -/
def State.keptOr (s : State) (k : Option Kept) (n : Nat) : Kept × State :=
  match k.filter fun k => k.sups.length == n with
  | some k => (k, s)
  | none =>
    let w (i : Nat) : Nat := (Config.freeWord (s.tick + n + i)).toNat
    let q (t : Nat) : Quad Nat := ⟨w (4 * t), w (4 * t + 1), w (4 * t + 2), w (4 * t + 3)⟩
    (⟨(List.range n).map fun i => Config.freeBit (s.tick + i), ⟨q 0, q 1, q 2, q 3⟩⟩, { s with tick := s.tick + n + 16 })

/-- A strand from its record (R385); `u` gives what the record does not hold, `keys` when its loops were made live. -/
def restoreStrand (u : Strand) (b : List Byte) (tvec : Word) (hb : List Nat) (keys : Quad Nat) : Strand :=
  let w (o : Nat) : Word := BitVec.ofNat 64 (fld b o 8)
  let u := (List.range 64).foldl (fun u n => u.wr (BitVec.ofNat 6 n) (w (8 * n))) { u with g := [] }
  let lc (n : Nat) : Option LoopC := loopOf ((b.drop (0x240 + 0x40 * n)).take 0x40)
  { u with pc := w 0x200, p := BitVec.ofNat 24 (fld b 0x208 4), sup := (w 0x210).getLsbD 0, lkstep := (w 0x210).getLsbD 1,
           xflags := w 0x218 &&& SysReg.mask .xflags, rmode := w 0x220 &&& 3, tshape := w 0x228 &&& SysReg.mask .tshape, tvec := tvec,
           cond := if fld b 0x230 1 = 2 then .exited else .ready, lc := orderLoops keys ⟨lc 0, lc 1, lc 2, lc 3⟩, lcNext := 4,
           pend := [], sb := [], ord := OrdSt.from hb, stepPend := false, passed := none, drain := false }

/-- A saved command from its 64 bytes, with its engine; none where it names no engine instruction of that engine (R386). -/
def restoreCmd (b : List Byte) (sup : Bool) : Option (Eng × Cmd) :=
  match decodeSyllable (fld b 8 8) with
  | .error _ => none
  | .ok y =>
    let f := fld b 1 1
    let w (o : Nat) : Word := BitVec.ofNat 64 (fld b o 8)
    match engineOf y.instr with
    | none => none
    | some e =>
      if fld b 0 1 ≠ e.val then none
      else some (e,
        { instr := y.instr, strand := Fin.ofNat 4 (fld b 2 1), a := w 0x10, b := w 0x18, c := w 0x20, tshape := w 0x28, sup := sup,
          syl := fld b 8 8, popped := f.testBit 0, word := if f.testBit 1 then some (w 0x30) else none, prog := .none, prologue := false,
          obj := [], num := 0, desc := [], routine := none, out := [], blk := [] })

/-- The contents of a bank taken from 65,536 bytes. -/
def Core.fillBank (k : Core) (b : Nat) (bs : List Byte) : Core :=
  { k with scratch := k.scratch.filter (fun e => decide (e.1 < 65536 * b))
      ++ (bs.zipIdx.map fun e => (65536 * b + e.2, e.1)) ++ k.scratch.filter (fun e => decide (65536 * (b + 1) ≤ e.1)) }

/-- The bank mode of a code. -/
def modeOf (n : Nat) : BankMode :=
  match n % 4 with
  | 0 => .scratch
  | 1 => .cache
  | 2 => .fifo
  | _ => .dark

/-- Reads and restores the banks of an image. -/
def State.restoreBanks (s : State) (c : Nat) (rd : Reader) (budget modes : Nat) : List Nat → Except Trap State
  | [] => .ok s
  | b :: bs =>
    if budget.testBit b then
      let m := modeOf (modes / 4 ^ b)
      let s := s.setMode c b m
      if m = .scratch then
        match rd s (0x20000 + 0x10000 * b) 0x10000 with
        | .error t => .error t
        | .ok (d, s) => (s.modCore c fun k => k.fillBank b d).restoreBanks c rd budget modes bs
      else s.restoreBanks c rd budget modes bs
    else s.restoreBanks c rd budget modes bs

/-- The accumulator `n` of an image. -/
def accOf (kind : Nat) (b : List Byte) : Acc :=
  let cells := (List.range 4096).filterMap fun i =>
    let v : BitVec 32 := BitVec.ofNat 32 (fld b (4 * i) 4)
    if v = 0 then none else some (i, v)
  match kind % 4 with
  | 1 => ⟨.fp32, cells⟩
  | 2 => ⟨.int32, cells⟩
  | _ => Acc.zero

/-- The fields of an AMAX register (R76). -/
def amaxMask : Word := 0x1FFFFFFFF

/-- The header of an image meets the checks of R387. -/
def State.imageOk (s : State) (h : List Byte) : Bool :=
  fld h 0 4 == 0x4D494753 && fld h 4 2 == 1 && (s.jobSlot (fld h 0x14 4)).isSome
    && (match s.node (fld h 0x10 4) with | some n => n.launch?.isSome && n.job == fld h 0x14 4 | none => false)

/-- Restores an image onto a core under `x`; none where it fails the checks or cannot be read. `base` gives strands what the image lacks,
`kept` is what the part kept beside it, `under` the understudy the core then has. Reserved bits stay zero (R8). -/
def State.restoreImage (s : State) (c : Nat) (rd : Reader) (x : Ctx) (j : JobSlot) (hb : List Nat) (base : Quad Strand)
    (kept : Option Kept) (under : Option Under) : Option State :=
  match rd s 0 0x1200 with
  | .error _ => none
  | .ok (h, s) =>
    if !s.imageOk h then none
    else
      match rd s 0x1200 (64 * fld h 6 2), rd s 0x8000 0x10000 with
      | .ok (cb, _), .ok (ab, _) =>
        let (kp, s) := s.keptOr kept (fld h 6 2)
        match (List.range (fld h 6 2)).mapM fun i => restoreCmd ((cb.drop (64 * i)).take 64) (kp.sups.getD i false) with
        | none => none
        | some cmds =>
          match s.restoreBanks c rd (fld h 0x20 4) (fld h 0x28 8) (List.range 32) with
          | .error _ => none
          | .ok s =>
            let w (o : Nat) : Word := BitVec.ofNat 64 (fld h o 8)
            let q (e : Eng) : List Cmd := (cmds.filter fun y => y.1 == e).map (·.2)
            let eng (e : Eng) : Engine := { Engine.zero with q := q e, hb := hb }
            let st (t : Nat) : Strand := restoreStrand (base.get (Fin.ofNat 4 t)) ((h.drop (0x100 + 0x400 * t)).take 0x400) j.tvec hb (kp.loops.get (Fin.ofNat 4 t))
            let acc (n : Nat) : Acc := accOf (fld h 0x3B 1 / 4 ^ n) ((ab.drop (0x4000 * n)).take 0x4000)
            let s := s.modCore c fun k =>
              let k := ((k.cleared.ofJob j).withIds (fld h 8 6) (fld h 0x10 4) (fld h 0x14 4) (fld h 0x18 4) (fld h 0x1C 4))
              let k := { k with
                st := ⟨st 0, st 1, st 2, st 3⟩, eng := ⟨eng 0, eng 1, eng 2, eng 3⟩, acc := ⟨acc 0, acc 1, acc 2, acc 3⟩,
                amax := ⟨w 0x40 &&& amaxMask, w 0x48 &&& amaxMask, w 0x50 &&& amaxMask, w 0x58 &&& amaxMask⟩, budget := BitVec.ofNat 32 (fld h 0x20 4),
                fmtq := (List.range (Min.min 16 (fld h 0x3A 1))).map fun i => BitVec.ofNat 64 (fld h (0x1100 + 8 * i) 8),
                fifo := (List.range 20).filterMap fun p =>
                  let n := fld h 0x30 10 / 16 ^ p % 16
                  if n = 0 then none else some (p, List.replicate n ⟨[], 0, 15⟩),
                brkctl := w 0x78 &&& SysReg.mask .brkctl, pendchk := w 0x88 &&& SysReg.mask .pendchk, run := some x, under := under }
              (k.putTracectl (w 0x80 &&& SysReg.mask .tracectl)).setHalt (w 0x90)
            some (s.forceUpds (dieOf c) hb)
      | _, _ => none

/-- A YIELDED iteration resumes on a core, which then has understudy `under`, or ends CANCELLED where its image fails (R380, R387). -/
def State.resume (s : State) (c : Nat) (n : Node) (l : Launch) (i : Iter) (j : JobSlot) (under : Option Under) : State :=
  let (u0, s) := s.freshTrapRegs
  let (u1, s) := s.freshTrapRegs
  let (u2, s) := s.freshTrapRegs
  let (u3, s) := s.freshTrapRegs
  let a := (i.image l).getD 0
  match s.restoreImage c (virtReader c n.space a) (Ctx.fresh i.n n.id s.orderNext) j n.hb ⟨u0, u1, u2, u3⟩ i.kept under with
  | none =>
    ((s.logEvent (dieOf c) 0x21 c n.id).modCore c fun k => { k with under := under }).dropIter n.id i.n true
  | some s =>
    let s := { s.markRunning n.id i.n c with orderNext := s.orderNext + 1 }
    let s := s.modNode n.id fun m =>
      { m with usedSlots := (match i.slot with | some k => m.usedSlots.erase k | none => m.usedSlots),
               iters := m.iters.map fun k => if k.n = i.n then { k with slot := none, img := none, kept := none } else k }
    s.trace c 4 0x19 8 n.id i.n a.toNat

def execImageRestore (c : Nat) (s : State) : Out :=
  match (s.core c).run, (s.core c).under with
  | none, some u =>
    if u.ctx.restored then
      match s.behind u.ctx with
      | some (n, l, i, j) => .next (if s.slotKept l.prio c then s else s.resume c n l i j none)
      | none => .next s
    else .next s
  | _, _ => .next s

/-! ## COHORT launches (R378) -/

/-- The reserved core an iteration of a COHORT node takes: its own, or the next free one of its die. -/
def cohortCores (d : Nat) (resv : List Nat) : List Iter → List (Iter × Nat)
  | [] => []
  | i :: is =>
    if i.die ≠ d then cohortCores d resv is
    else
      match i.core with
      | some c => if resv.contains c then (i, c) :: cohortCores d (resv.erase c) is else cohortCores d resv is
      | none => match resv with
        | c :: cs => (i, c) :: cohortCores d cs is
        | [] => []

/-- An understudy whose banks another iteration takes is prepared anew once they are its own (R379; DESIGN CHOICE, log 94). -/
def State.restage (s : State) (budget : BitVec 32) (u : Under) : Under :=
  match s.behind u.ctx with
  | some (_, l, i, _) =>
    if l.budget &&& budget == 0 ∨ u.ctx.restored then u
    else { u with ctx := { u.ctx with prologue := if i.st = .yielded then [] else l.prologue }, banked := false, fifos := [], cflags := 0,
                  fault := none, com := Commit.zero }
  | none => u

/-- An iteration of a COHORT launch that has not been staged, its prologue to run. -/
def Under.cohort (n : Node) (l : Launch) (i : Iter) : Under :=
  ⟨{ Ctx.fresh i.n n.id 0 with prologue := l.prologue }, true, [], 0, none, Commit.zero⟩

def execCohortAdmit (launch : Nat) (s : State) : Out :=
  match s.node launch with
  | none => .next s
  | some n =>
    match n.kind, s.jobSlot n.job with
    | .launch l, some (_, j) =>
      let mine (d : Fin 4) : List Nat := ((s.die d).resv.filter fun r => r.2 == n.id).map (·.1)
      let rest := n.iters.filter Iter.waits
      let places := allDies.flatMap fun d => cohortCores d.val (mine d) rest
      if !l.cohort || !n.started || n.cancelled || rest.isEmpty || l.total > n.walker || rest.length ≠ n.iters.length
          || places.length ≠ rest.length || !(places.all fun p => (s.core p.2).run.isNone) then .next s
      else
        let s1 := allDies.foldl (fun s d => s.modDie d fun k => { k with resv := k.resv.filter fun r => r.2 != n.id }) s
        .next (places.foldl (fun s p =>
          let under := (s.core p.2).under.map (s.restage l.budget)
          if p.1.st = .yielded then s.resume p.2 n l p.1 j under
          else (s.prepareBanks p.2 l.budget l.cachemask).enterRunning p.2 n l p.1 j (Under.cohort n l p.1) under) s1)
    | _, _ => .next s

/-! ## Debug stops (R457) -/

/-- Field C of a DEBUG_STOP record: that of LOOP_ITER for the loop whose back edge the strand took. -/
def debugLoop (u : Strand) (i : Nat) : Nat :=
  match u.liveLoops.find? fun e => e.2.start == u.pc && e.2.i == i with
  | none => 0
  | some (lc, l) =>
    let blk := (List.range l.s).foldl (fun m j => if stageOn i j l.n.toNat then m + 2 ^ j else m) 0
    (if l.s = 1 then 0 else blk) + 2 ^ 8 * lc.val + 2 ^ 10 * l.pb

/-- DBGIMG as an address (R457). -/
def Core.dbgBase (k : Core) : Nat := k.dbgImg.toNat / 2 ^ 16 * 2 ^ 16

def execDebugStop (c : Nat) (s : State) : Out :=
  let k := s.core c
  match k.dbgHit, k.run with
  | some (t, i), some r =>
    if r.draining || k.stopped || !k.stopReq || !k.drained || k.raised.isSome then .next s
    else
      match s.behind r with
      | none => .next s
      | some (_, l, _, j) =>
        let s1 := (s.landStrands c).writeOut c r
        let u := s1.strand c t
        (match s1.pputPieces j.keyid k.dbgBase (s1.imagePieces c l.cohort) with
          | .error _ => .next (s.putOffDebug c)
          | .ok s2 =>
            let s3 := s2.trace c 4 0x30 8 (u.pc.toNat % 2 ^ 32) i (if i = 0xFFFFFFFF then 0 else debugLoop u i)
            .next (s3.modCore c fun k => { k with dbgHit := none, stopReq := false, stopped := true, dbgKept := some (s1.core c).keep }))
  | _, _ => .next s

def execDebugGo (c : Nat) (s : State) : Out :=
  let k := s.core c
  match k.stopped, k.run with
  | true, some r =>
    (match s.behind r with
      | none => .next s
      | some (n, _, _, j) =>
        match s.restoreImage c (physReader j.keyid k.dbgBase) r j n.hb k.st k.dbgKept k.under with
        | none => .next ((s.logEvent (dieOf c) 0x21 c r.launch).cancelRun c)
        | some s1 => .next (s1.modCore c fun k' => { k' with stopped := false, dbgKept := none, locks := k.locks, lockLast := k.lockLast }))
  | _, _ => .next s

end Sys2Proof.Machine
end

