-- ==== Sys2Proof/Machine/Crypto.lean ====
section
/-! DEFINITION. The published algorithms the part uses: SHA-384 (FIPS 180-4), ECDSA P-384 (FIPS 186-5), AES-256-GCM (FIPS 197, SP 800-38D)
(R410, R437; log 13). Numbers are naturals; byte strings are big-endian as those standards have them. -/

namespace Sys2Proof.Machine.Crypto

/-- The number a big-endian byte string stands for. -/
def be (bs : List Byte) : Nat := bs.foldl (fun n b => 256 * n + b.toNat) 0

/-- The `n` big-endian bytes of a number. -/
def toBe (n v : Nat) : List Byte := (toLe n v).reverse

/-- Consecutive pieces of `n` elements. -/
def pieces {α : Type} (n : Nat) : Nat → List α → List (List α)
  | 0, _ => []
  | fuel + 1, l => if l = [] then [] else l.take n :: pieces n fuel (l.drop n)

/-! ## SHA-384 -/

/-- The greatest natural whose `k`-th power is at most `v`, sought bit by bit below 2^bits. -/
def root (k v : Nat) : (bits : Nat) → (found : Nat) → Nat
  | 0, found => found
  | b + 1, found => root k v b (if (found + 2 ^ b) ^ k ≤ v then found + 2 ^ b else found)

/-- The primes among the numbers below `n`, least first. -/
def primes (n : Nat) : List Nat :=
  (List.range n).filter fun p => 2 ≤ p ∧ (List.range 21).all fun d => d < 2 ∨ p ≤ d ∨ p % d ≠ 0

/-- The first 64 bits of the fraction of the `k`-th root of `p`. -/
def rootBits (k p : Nat) : Word := BitVec.ofNat 64 (root k (p * 2 ^ (64 * k)) 69 0)

/-- The additive constant of each of the 80 rounds: cube roots of the first 80 primes, of which the greatest is 409. -/
def shaConst : List Word := (primes 410).map (rootBits 3)

/-- XOR of a word rotated right by each of some amounts. -/
def spin (x : Word) (turns : List Nat) : Word := turns.foldl (fun y r => y ^^^ x.rotateRight r) 0

/-- The eight working words of the hash. -/
structure Sha where
  a : Word
  b : Word
  c : Word
  d : Word
  e : Word
  f : Word
  g : Word
  h : Word
  deriving DecidableEq, Repr

/-- The words in order. -/
def Sha.words (x : Sha) : List Word := [x.a, x.b, x.c, x.d, x.e, x.f, x.g, x.h]

/-- Eight words in order; missing ones are 0. -/
def Sha.of (l : List Word) : Sha :=
  let i (n : Nat) := l.getD n 0
  ⟨i 0, i 1, i 2, i 3, i 4, i 5, i 6, i 7⟩

/-- Where SHA-384 begins: square roots of the ninth to the sixteenth prime. -/
def Sha.start : Sha := .of (((primes 54).drop 8).map (rootBits 2))

/-- One round takes in `x`, the sum of the round's constant and its message word. -/
def Sha.round (v : Sha) (x : Word) : Sha :=
  let choose := v.g ^^^ (v.e &&& (v.f ^^^ v.g))
  let most := (v.a &&& v.b) ||| (v.c &&& (v.a ||| v.b))
  let into := v.h + x + choose + spin v.e [14, 18, 41]
  { v with a := into + most + spin v.a [28, 34, 39], b := v.a, c := v.b, d := v.c, e := v.d + into, f := v.e, g := v.f, h := v.g }

/-- The message word that comes after sixteen others, the oldest first. -/
def shaNext (w : List Word) : Word :=
  let i (n : Nat) := w.getD n 0
  i 0 + i 9 + (spin (i 1) [1, 8] ^^^ (i 1 >>> 7)) + (spin (i 14) [19, 61] ^^^ (i 14 >>> 6))

/-- The rounds of a block: one for each constant, with the sixteen message words from that round on. -/
def shaRounds : (consts : List Word) → (w : List Word) → Sha → Sha
  | [], _, v => v
  | k :: ks, w, v => shaRounds ks (w.drop 1 ++ [shaNext w]) (v.round (k + w.headD 0))

/-- SHA-384, 48 bytes. The message goes on with a 1 bit, zeros, and its length in bits in the last 16 bytes of a block of 128. -/
def sha384 (m : List Byte) : List Byte :=
  let fill := List.replicate (127 - (m.length + 16) % 128) 0
  let consts := shaConst
  let block (v : Sha) (blk : List Byte) : Sha :=
    let w := (pieces 8 16 blk).map fun b => BitVec.ofNat 64 (be b)
    .of (List.zipWith (· + ·) v.words (shaRounds consts w v).words)
  let whole := m ++ 0x80 :: fill ++ toBe 16 (8 * m.length)
  let v := (pieces 128 whole.length whole).foldl block .start
  (v.words.take 6).flatMap fun w => toBe 8 w.toNat

/-! ## ECDSA over P-384 -/

/-- The prime, the coefficient b, the base point and its order. -/
def ecP : Nat := 2 ^ 384 - 2 ^ 128 - 2 ^ 96 + 2 ^ 32 - 1
def ecB : Nat := 0xb3312fa7e23ee7e4988e056be3f82d19181d9c6efe8141120314088f5013875ac656398d8a2ed19d2a85c8edd3ec2aef
def ecN : Nat := 0xffffffffffffffffffffffffffffffffffffffffffffffffc7634d81f4372ddf581a0db248b0a77aecec196accc52973
def ecGx : Nat := 0xaa87ca22be8b05378eb1c71ef320ad746e1d3b628ba79b9859f741e082542a385502f25dbf55296c3a545e3872760ab7
def ecGy : Nat := 0x3617de4a96262c6f5d9e98bf9292dc29f8f41dbd289a147ce9da3113b5f0b8c00a60b1ce1d7e819d7a431d7c90ea0e5f

/-- `b` to the power `e` modulo `m`, for exponents of at most `bits` bits. -/
def powMod (bits b e m : Nat) : Nat :=
  (List.range bits).foldr (fun i acc => let q := acc * acc % m; if e.testBit i then q * b % m else q) 1

/-- The inverse modulo a prime. -/
def invMod (a m : Nat) : Nat := powMod 384 a (m - 2) m

/-- A point: none is the point at infinity. -/
abbrev Point := Option (Nat × Nat)

/-- The sum of two points. -/
def ecAdd (a b : Point) : Point :=
  match a, b with
  | none, _ => b
  | _, none => a
  | some (x1, y1), some (x2, y2) =>
    let fin (l : Nat) : Point :=
      let x3 := (l * l + 2 * ecP - x1 - x2) % ecP
      some (x3, (l * (x1 + ecP - x3) + ecP - y1) % ecP)
    if x1 ≠ x2 then fin ((y2 + ecP - y1) * invMod ((x2 + ecP - x1) % ecP) ecP % ecP)
    else if (y1 + y2) % ecP = 0 then none
    else fin ((3 * x1 * x1 + ecP - 3) * invMod (2 * y1 % ecP) ecP % ecP)

/-- A multiple of a point. -/
def ecMul (k : Nat) (a : Point) : Point :=
  (List.range 384).foldr (fun i acc => let d := ecAdd acc acc; if k.testBit i then ecAdd d a else d) none

/-- Verification of a signature r then s over a 48-byte digest under a key Qx then Qy (R437). -/
def ecdsaVerify (digest sig key : List Byte) : Bool :=
  let r := be (sig.take 48)
  let s := be ((sig.drop 48).take 48)
  let x := be (key.take 48)
  let y := be ((key.drop 48).take 48)
  if digest.length ≠ 48 ∨ sig.length ≠ 96 ∨ key.length ≠ 96 then false
  else if r = 0 ∨ ecN ≤ r ∨ s = 0 ∨ ecN ≤ s then false
  else if ecP ≤ x ∨ ecP ≤ y ∨ y * y % ecP ≠ (x * x * x + (ecP - 3) * x + ecB) % ecP then false
  else
    let w := invMod s ecN
    match ecAdd (ecMul (be digest * w % ecN) (some (ecGx, ecGy))) (ecMul (r * w % ecN) (some (x, y))) with
    | none => false
    | some (v, _) => v % ecN == r

/-! ## AES-256-GCM -/

/-- Multiplication in GF(2^8) of AES. -/
def gfMul (a b : Nat) : Nat :=
  ((List.range 8).foldl (fun (p : Nat × Nat) i =>
    let acc := if b.testBit i then p.1 ^^^ p.2 else p.1
    let x := 2 * p.2
    (acc, if x.testBit 8 then x ^^^ 0x11B else x)) (0, a)).1

/-- The S-box: the inverse (the 254th power), then the affine map. -/
def sbox (a : Nat) : Nat :=
  let sq (x : Nat) : Nat := gfMul x x
  let inv := (List.range 7).foldl (fun (p : Nat × Nat) _ => let q := sq p.2; (gfMul p.1 q, q)) (1, a)
  let b := inv.1
  (List.range 8).foldl (fun m i =>
    let bit (j : Nat) : Bool := b.testBit ((i + j) % 8)
    if (bit 0 ^^ bit 4 ^^ bit 5 ^^ bit 6 ^^ bit 7 ^^ Nat.testBit 0x63 i) then m + 2 ^ i else m) 0

/-- Key expansion: the words of the schedule, newest first. -/
def aesExpand : Nat → Nat → Nat → List (List Nat) → List (List Nat)
  | 0, _, _, w => w
  | k + 1, i, rcon, w =>
    let prev := w.headD []
    let t := if i % 8 = 0 then
        (match (prev.drop 1 ++ prev.take 1).map sbox with | b :: bs => (b ^^^ rcon) :: bs | [] => [])
      else if i % 8 = 4 then prev.map sbox else prev
    aesExpand k (i + 1) (if i % 8 = 0 then gfMul 2 rcon else rcon) (List.zipWith (· ^^^ ·) (w.getD 7 []) t :: w)

/-- The 15 round keys of a 32-byte key, 16 bytes each. -/
def aesKeys (key : List Byte) : List (List Nat) :=
  let w := aesExpand 52 8 1 ((pieces 4 32 (key.map (·.toNat))).reverse)
  let bs := w.reverse.flatten
  pieces 16 bs.length bs

/-- ShiftRows on a state held column by column. -/
def shiftRows (s : List Nat) : List Nat := (List.range 16).map fun i => s.getD ((i + 4 * (i % 4)) % 16) 0

/-- MixColumns. -/
def mixColumns (s : List Nat) : List Nat :=
  (List.range 16).map fun i =>
    let g (j : Nat) : Nat := s.getD (i / 4 * 4 + (i + j) % 4) 0
    gfMul 2 (g 0) ^^^ gfMul 3 (g 1) ^^^ g 2 ^^^ g 3

/-- AES-256 of one block. -/
def aesBlock (keys : List (List Nat)) (blk : List Nat) : List Nat :=
  let mid := (keys.drop 1).take 13
  let s := mid.foldl (fun s k => List.zipWith (· ^^^ ·) (mixColumns (shiftRows (s.map sbox))) k) (List.zipWith (· ^^^ ·) blk (keys.headD []))
  List.zipWith (· ^^^ ·) (shiftRows (s.map sbox)) (keys.getD 14 [])

/-- Multiplication of GHASH: bit 0 is the most significant bit of the first byte. -/
def ghMul (x y : Nat) : Nat :=
  ((List.range 128).foldl (fun (p : Nat × Nat) i =>
    (if x.testBit (127 - i) then p.1 ^^^ p.2 else p.1, if p.2.testBit 0 then p.2 / 2 ^^^ (0xE1 * 2 ^ 120) else p.2 / 2)) (0, y)).1

/-- A byte string padded with zeros to a multiple of 16. -/
def pad16 (bs : List Byte) : List Byte := bs ++ List.replicate ((16 - bs.length % 16) % 16) 0

/-- GHASH of a byte string of whole blocks. -/
def ghash (h : Nat) (bs : List Byte) : Nat := (pieces 16 bs.length bs).foldl (fun y b => ghMul (y ^^^ be b) h) 0

/-- AES-256-GCM decryption with a 12-byte nonce: the plaintext, or none where the tag fails. -/
def gcmOpen (key nonce aad cipher tag : List Byte) : Option (List Byte) :=
  let keys := aesKeys key
  let e (n : Nat) : Nat := be ((aesBlock keys ((toBe 16 n).map (·.toNat))).map (BitVec.ofNat 8))
  let j0 := be nonce * 2 ^ 32 + 1
  let t := ghash (e 0) (pad16 aad ++ pad16 cipher ++ toBe 8 (8 * aad.length) ++ toBe 8 (8 * cipher.length)) ^^^ e j0
  if be tag ≠ t then none
  else some (((pieces 16 cipher.length cipher).zipIdx.flatMap fun b => toBe 16 (be (pad16 b.1) ^^^ e (j0 + 1 + b.2))).take cipher.length)

end Sys2Proof.Machine.Crypto
end

