-- ==== Sys2Proof/Machine/HostIf.lean ====
section
/-! DEFINITION. The host interface: doorbell, job capsules, host writes of registers, CXL ranges (R325, R403 to R413, R420, R424, R431). -/

namespace Sys2Proof.Machine

/-! ## Host memory (log 33) -/

/-- Bytes of host memory, if every one of them answers. -/
def State.hostRead (s : State) (a n : Nat) : Option (List Byte) := (List.range n).mapM fun i => s.iod.host.find (a + i)

/-- Writes host memory where it answers. -/
def hostPut (m : Mem) (a : Nat) : List Byte → Mem
  | [] => m
  | b :: bs => hostPut (if (m.find a).isSome then Tab.put m a b else m) (a + 1) bs

def State.hostWrite (s : State) (a : Nat) (bs : List Byte) : State := s.modIod fun i => { i with host := hostPut i.host a bs }

/-! ## Doorbell and capsule page (R405, R407) -/

/-- A doorbell makes the capsules from HEAD up to its TAIL pending; none that is pending already ceases to be (R407). -/
def execHifDoorbell (v : Word) (s : State) : Out :=
  .next (s.modIod fun i =>
    let n (t : Nat) : Nat := (t + 32 - i.hifHead) % 32
    if n i.hifTail < n (v.toNat % 32) then { i with hifTail := v.toNat % 32 } else i)

/-- A write of HIF_CAPBASE: without effect while capsules are pending or in
progress, but for a halt it ends (R404, R405). -/
def execHifCapbase (x : HostHalf) (s : State) : Out :=
  let i := s.iod
  if i.inProg ≠ [] ∨ (i.hifHead ≠ i.hifTail ∧ ¬ i.hifStopped) then .next s
  else .next (s.modIod fun i =>
    { i with capBase := hostMerge i.capBase (if x.hi then 4 else 0) (x.dbl && !x.hi) x.v &&& 0xFFFFFFFFFFFFF000, hifStopped := false })

/-- Host address of a capsule. -/
def Iod.capAddr (i : Iod) (n : Nat) : Nat := i.capBase.toNat + 128 * n

/-- Starts capsules in ring order from HEAD on, each read whole, at most 8 in progress (R407). -/
def State.startCaps (s : State) : Nat → State
  | 0 => s
  | fuel + 1 =>
    let i := s.iod
    if i.hifHead = i.hifTail ∨ i.hifStopped ∨ ¬ i.hifReady ∨ 8 ≤ i.inProg.length then s
    else
      match s.hostRead (i.capAddr i.hifHead) 128 with
      | none => s.modIod fun i => { i with hifStopped := true }
      | some b =>
        if (fld b 2 2).testBit 0 ∧ i.inProg ≠ [] then s
        else (s.modIod fun i => { i with inProg := i.inProg ++ [(i.hifHead, b)], hifHead := (i.hifHead + 1) % 32 }).startCaps fuel

/-- How a capsule ends: done with a result, or failed with an error and a result (R406, R409). -/
inductive CapEnd where
  | done (result : Nat)
  | failed (error result : Nat)
  deriving DecidableEq, Repr

/-- A capsule that breaks its checks (R408). -/
def malformed : CapEnd := .failed 1 0

/-- Writes the result, then the status, and signals the host (R407). -/
def State.endCap (s : State) (n : Nat) (b : List Byte) (e : CapEnd) : State :=
  let (st, res) := match e with
    | .done r => (1, r)
    | .failed x r => (2 + 256 * x, r)
  let a := s.iod.capAddr n
  let s := (s.hostWrite (a + 0xC) (toLe 4 res)).hostWrite (a + 8) (toLe 4 st)
  let s := s.modIod fun i => { i with inProg := i.inProg.filter fun c => c.1 != n }
  if (fld b 2 2).testBit 1 then s.msix 0 else s

/-- The opcodes of R408. -/
def isCapOp (op : Nat) : Bool := decide (1 ≤ op ∧ op ≤ 11)

/-- Whether the arguments hold nothing but the listed fields, given as (offset, size). -/
def argsOk (b : List Byte) (fs : List (Nat × Nat)) : Bool :=
  fld b 2 2 / 4 == 0 && (List.range 112).all fun o =>
    (b.getD (0x10 + o) 0 == 0) || fs.any fun f => decide (f.1 ≤ o ∧ o < f.1 + f.2)

/-- An argument. -/
def capArg (b : List Byte) (off n : Nat) : Nat := fld b (0x10 + off) n

/-- Every write numbered from `w` on is performed on every die (R407). -/
def State.settleFrom (s : State) (w : Nat) : State :=
  let ids := (List.range (s.widNext - w)).map (w + ·)
  allDies.foldl (fun s d => s.forceUpds d ids) s

/-- The capsule of index `i` acts, if it can start and its opcode is one of `ops`; `act` answers none while it must go on waiting. -/
def capsule (ops : Nat → Bool) (fs : List (Nat × Nat)) (i : Fin 32) (act : List Byte → State → Option (CapEnd × State)) (s : State) : Out :=
  let s1 := s.startCaps 32
  match s1.iod.inProg.find? fun c => c.1 == i.val with
  | none => .next s1
  | some (n, b) =>
    if !ops (fld b 0 2) then .next s1
    else if !isCapOp (fld b 0 2) || !argsOk b fs then .next (s1.endCap n b malformed)
    else
      match act b s1 with
      | none => .next s1
      | some (e, s2) => .next ((s2.settleFrom s1.widNext).endCap n b e)

/-! ## Jobs (R368, R408) -/

/-- A job slot from its image, if it meets R368, with VALID. -/
def jobOf (b : List Byte) : Option (Bool × JobSlot) :=
  let w (o : Nat) : Word := BitVec.ofNat 64 (fld b o 8)
  if fld b 0 4 / 4 = 0 ∧ fld b 4 4 ≠ 0 ∧ fld b 8 2 ≠ 0 ∧ fld b 0xA 1 ≤ 7 ∧ fld b 0xB 1 = 0
      ∧ fld b 0xC 2 < 1024 ∧ fld b 0x40 8 % 65536 = 0 ∧ fld b 0x70 16 = 0 then
    some (fld b 0 1 % 2 == 1, {
           cancelled := false, jobid := fld b 4 4, weight := fld b 8 2, maxprio := fld b 0xA 1, keyid := fld b 0xC 2, asid := fld b 0xE 2,
           ptbase := w 0x10 &&& SysReg.mask .ptbase, tvec := w 0x18 &&& SysReg.mask .tvec, brkctl := w 0x20, tracectl := w 0x28,
           pendchk := w 0x30, engctl := w 0x38, frbase := w 0x40, count := 0 })
  else none

/-- The deficits of a job begin at 0 on every die (R376). -/
def State.clearDeficits (s : State) (job : Nat) : State :=
  allDies.foldl (fun s d => s.modDie d fun k => { k with deficit := k.deficit.del job }) s

/-- A job slot is valid no longer: a later job of its id begins with no phase, graph or launch of its own (R137, R368). -/
def State.forgetJob (s : State) (slot job : Nat) : State :=
  { s.clearDeficits job with
    jobs := s.jobs.del slot, graphs := s.graphs.filter fun (g : Group) => g.job != job, phases := s.phases.filter fun (g : Group) => g.job != job,
    cancelledGraphs := s.cancelledGraphs.filter fun (g : Nat × Nat × Nat) => g.1 != job,
    cancelledPhases := s.cancelledPhases.filter fun (g : Nat × Nat) => g.1 != job,
    endedNodes := s.endedNodes.map fun (e : Ended) => if e.job = job then { e with job := 0 } else e }

/-- JOB_SET's effect; an image without VALID leaves the slot not valid. -/
def jobSetAct (b : List Byte) (s : State) : Option (CapEnd × State) :=
  let slot := capArg b 0 1
  match s.hostRead (capArg b 8 8) 128 with
  | none => some (.failed 5 0, s)
  | some img =>
    match jobOf img with
    | none => some (malformed, s)
    | some (valid, j) =>
      match s.jobs.find slot with
      | some o =>
        if o.jobid ≠ j.jobid then some (.failed 2 0, s)
        else if !valid then some (.done 0, s.forgetJob slot j.jobid)
        else some (.done 0, { s with jobs := s.jobs.put slot { j with cancelled := o.cancelled, count := o.count } })
      | none =>
        if !valid then some (.done 0, s)
        else if (s.jobSlot j.jobid).isSome then some (.failed 2 0, s)
        else some (.done 0, { s.clearDeficits j.jobid with jobs := s.jobs.put slot j })

/-- JOB_SET; a capsule whose opcode is none of R408 ends with it (R408). -/
def execJobSet (i : Fin 32) (s : State) : Out :=
  capsule (fun op => op == 1 || !isCapOp op) [(0, 1), (8, 8)] i jobSetAct s

def execJobFree (i : Fin 32) (s : State) : Out :=
  capsule (· == 2) [(0, 1)] i (fun b s =>
    let slot := capArg b 0 1
    match s.jobs.find slot with
    | none => some (.failed 2 0, s)
    | some j =>
      if s.nodes.any fun n => n.job == j.jobid then some (.failed 6 0, s)
      else some (.done 0, s.forgetJob slot j.jobid)) s

/-! ## Keys (R410, R411, R420) -/

/-- Unwraps a 32-byte key under the host key-transport key (R410). -/
def State.unwrap (s : State) (aad nonce key tag : List Byte) : Option Nat :=
  match s.iod.blob.bind (·.hostKey) with
  | none => none
  | some k => (Crypto.gcmOpen (Crypto.toBe 32 k) nonce aad key tag).map Crypto.be

/-- Bytes of the arguments. -/
def capBytes (b : List Byte) (off n : Nat) : List Byte := (b.drop (0x10 + off)).take n

/-- Dies of a mask. -/
def maskDies (m : Nat) : List (Fin 4) := allDies.filter fun d => m.testBit d.val

def execKeyLoad (i : Fin 32) (s : State) : Out :=
  capsule (· == 3) [(0, 1), (2, 2), (4, 12), (0x10, 32), (0x30, 16)] i (fun b s =>
    let m := capArg b 0 1
    let kid := capArg b 2 2
    if 16 ≤ m ∨ 1024 ≤ kid ∨ kid = 0 then some (malformed, s)
    else
      match s.unwrap (capBytes b 0 4) (capBytes b 4 12) (capBytes b 0x10 32) (capBytes b 0x30 16) with
      | none => some (.failed 4 0, s)
      | some k =>
        if (maskDies m).any fun d => ((s.die d).keys.find kid).isSome then some (.failed 6 0, s)
        else some (.done 0, (maskDies m).foldl (fun s d => s.modDie d fun x => { x with keys := x.keys.put kid k }) s)) s

/-- Discards every cached copy under a key ID on a die, unwritten, and zeroes the key (R411). -/
def State.destroyKey (s : State) (kid : Nat) (d : Fin 4) : State :=
  let s := s.modDie d fun x =>
    { x with sets := x.sets.map (fun e => (e.1, e.2.filter fun l => l.kid != kid)), keys := x.keys.del kid }
  { s with cores := s.cores.map fun e => if dieOf e.1 = d then
      (e.1, { e.2 with dc := e.2.dc.filter (fun l => l.kid != kid), tc := e.2.tc.filter (fun l => l.kid != kid),
                       wbuf := e.2.wbuf.filter (fun w => w.kid != kid) }) else e }

def execKeyDestroy (i : Fin 32) (s : State) : Out :=
  capsule (· == 4) [(0, 1), (2, 2)] i (fun b s =>
    let m := capArg b 0 1
    let kid := capArg b 2 2
    if 16 ≤ m ∨ 1024 ≤ kid ∨ kid = 0 then some (malformed, s)
    else some (.done 0, (maskDies m).foldl (fun s d => s.destroyKey kid d) s)) s

def execLinkKey (i : Fin 32) (s : State) : Out :=
  capsule (· == 5) [(0, 1), (4, 4), (8, 12), (0x14, 32), (0x34, 16)] i (fun b s =>
    let l := capArg b 0 1
    let k := s.iod.link l
    if 12 ≤ l ∨ capArg b 4 4 ≠ k.epoch + 1 then some (malformed, s)
    else
      match s.unwrap (capBytes b 0 4) (capBytes b 8 12) (capBytes b 0x14 32) (capBytes b 0x34 16) with
      | none => some (.failed 4 0, s)
      | some key =>
        if k.oldTx.isSome || k.oldRx.isSome then some (.failed 6 0, s)
        else some (.done 0, s.modLink l fun x => { x with nextKey := some key })) s

/-! ## Data and routines (R325, R326, R408, R413, R431) -/

/-- A physical range lies in populated memory, its CXL part configured (R304). -/
def State.physOk (s : State) (pa n : Nat) : Bool :=
  (List.range (n / 2 ^ 14 + 2)).all fun i =>
    let a := Min.min (pa + 2 ^ 14 * i) (pa + n - 1)
    n == 0 || ((homeDie a).isSome && (!isCxl a || s.cxlConfigured a))

/-- An access that raised a cause (R409 error 7). -/
def raised (t : Trap) : CapEnd := .failed 7 t.cause

def execCopy (i : Fin 32) (s : State) : Out :=
  capsule (· == 6) [(0, 1), (2, 2), (4, 4), (8, 8), (0x10, 8)] i (fun b s =>
    let n := capArg b 4 4
    let h := capArg b 8 8
    let pa := capArg b 0x10 8
    let kid := capArg b 2 2
    if 2 ≤ capArg b 0 1 ∨ 1024 ≤ kid ∨ n % 16 ≠ 0 ∨ h % 16 ≠ 0 ∨ pa % 16 ≠ 0 ∨ ¬ s.physOk pa n then some (malformed, s)
    else
      match s.hostRead h n with
      | none => some (.failed 5 0, s)
      | some bs =>
        if capArg b 0 1 = 0 then
          match s.pput kid pa bs with
          | .ok s' => some (.done 0, s')
          | .error t => some (raised t, s)
        else
          match s.pget kid pa n with
          | .ok (bs, s') => some (.done 0, s'.hostWrite h bs)
          | .error t => some (raised t, s)) s

/-- Whether a list holds no element twice. -/
def distinct {α : Type} [BEq α] : List α → Bool
  | [] => true
  | x :: xs => !xs.contains x && distinct xs

/-- The sections of a vocabulary blob as (offset, bytes) (R323, R324). -/
def vSections (v : Vocab) : List (Nat × Nat) :=
  [(vBytetab v, 1024), (vToktab v, 8 * vNtok v), (vStrs v, vStrlen v), (vMtab v, 16 * 2 ^ vHbits v), (vStab v, 4 * vNspec v),
   (vCtab v, 12 * vNrange v), (vPtab v, 2 * (vNstate v * vNclass v))]

/-- Condition 1 of R325. -/
def vBad1 (v : Vocab) : Bool :=
  let inside (lo x hi : Nat) : Bool := decide (lo ≤ x ∧ x ≤ hi)
  !(fld v 0 4 == 0x434F5647 && fld v 4 2 == 1 && fld v 6 1 == 0 && fld v 7 1 == 0 && inside 1 (vNtok v) 524288 && vNmerge v ≤ 524288
    && vNspec v ≤ 1024 && inside 1 (vNstate v) 64 && inside 1 (vNclass v) 32 && inside 1 (vHbits v) 21
    && 2 * vNmerge v ≤ 2 ^ vHbits v && fld v 0x15 3 == 0 && vNrange v ≤ 65536 && vFbbase v + 255 < vNtok v
    && vLength v ≤ 2 ^ 28 && fld v 0x44 60 == 0)

/-- Condition 2 of R325. -/
def vBad2 (v : Vocab) : Bool :=
  let ss := vSections v
  let clash (a b : Nat × Nat) : Bool := decide (0 < a.2 ∧ 0 < b.2 ∧ a.1 < b.1 + b.2 ∧ b.1 < a.1 + a.2)
  ss.any (fun x => x.1 % 16 != 0 || decide (x.1 < 0x80) || decide (vLength v - 96 < x.1 + x.2))
    || (List.range 7).any fun i => (List.range i).any fun j => clash (ss.getD i (0, 0)) (ss.getD j (0, 0))

/-- Condition 3 of R325, with the token table's own ranges (R324). -/
def vBad3 (v : Vocab) : Bool :=
  let tokBad (t : Nat) : Bool :=
    let o := vToktab v + 8 * t
    let n := fld v (o + 4) 2
    decide (vStrlen v < fld v o 4 + n ∨ n < 1 ∨ 128 < n ∨ 2 < vKind v t) || fld v (o + 7) 1 != 0
      || (vKind v t == 2 && !decide (vFbbase v ≤ t ∧ t < vFbbase v + 256))
  (List.range (vNtok v)).any tokBad || (List.range 256).any fun b =>
    let t := vByte v b
    let f := vFbbase v + b
    !(decide (t < vNtok v) && vKind v t == 0 && vStr v t == [BitVec.ofNat 8 b] && vKind v f == 2 && vStr v f == [BitVec.ofNat 8 b])

/-- Condition 4 of R325. -/
def vBad4 (v : Vocab) : Bool :=
  let ts := vSpecials v
  ts.any (fun t => decide (vNtok v ≤ t) || vKind v t != 1 || !validUtf8 (vStr v t).length (vStr v t)) || !distinct (ts.map (vStr v))

/-- Condition 5 of R325. -/
def vBad5 (v : Vocab) : Bool :=
  let ms := ((List.range (2 ^ vHbits v)).map (vSlot v)).filter fun m => m.1 != 0xFFFFFFFF
  let ranks := sortBy (fun a b => decide (a ≤ b)) (ms.map fun m => m.2.2.2)
  !distinct (ms.map fun m => (m.1, m.2.1)) || ranks != List.range (vNmerge v) || ms.any fun m =>
    let (l, r, x, k) := m
    [l, r, x].any (fun t => decide (vNtok v ≤ t) || vKind v t != 0) || vStr v x != vStr v l ++ vStr v r || vMerge v l r != some (x, k)

/-- Condition 6 of R325. -/
def vBad6 (v : Vocab) : Bool :=
  let c (i o n : Nat) : Nat := fld v (vCtab v + 12 * i + o) n
  (List.range (vNrange v)).any (fun i =>
    decide (c i 4 4 < c i 0 4 ∨ 0x10FFFF < c i 4 4 ∨ vNclass v ≤ c i 8 1) || c i 9 3 != 0 || (decide (0 < i) && decide (c i 0 4 ≤ c (i - 1) 4 4)))
    || (List.range (vNstate v * vNclass v)).any fun i =>
      let e := fld v (vPtab v + 2 * i) 2
      decide (vNstate v ≤ e % 64) || e / 128 != 0

/-- Condition 7 of R325: the signature does not verify under the vocabulary key. -/
def vBad7 (key : Option (List Byte)) (v : Vocab) : Bool :=
  match key with
  | none => true
  | some k => !Crypto.ecdsaVerify (Crypto.sha384 (v.take (vLength v - 96))) ((v.drop (vLength v - 96)).take 96) k

/-- The first failing condition of R325. -/
def vFailing (key : Option (List Byte)) (v : Vocab) : Option Nat :=
  if vBad1 v then some 1
  else if vBad2 v then some 2
  else if vBad3 v then some 3
  else if vBad4 v then some 4
  else if vBad5 v then some 5
  else if vBad6 v then some 6
  else if vBad7 key v then some 7
  else none

/-- A running card took its vocabulary from a slot (R326). -/
def State.vocabBusy (s : State) (slot : Nat) : Bool :=
  s.nodes.any fun n => match n.kind with
    | .card x => n.engine.isSome && x.vslot == some slot
    | .launch _ => false

/-- VOCAB_INSTALL's effect; none while a card still uses the slot's contents. -/
def vocabAct (b : List Byte) (s : State) : Option (CapEnd × State) :=
  let slot := capArg b 0 1
  let kid := capArg b 2 2
  let pa := capArg b 8 8
  if 16 ≤ slot ∨ 1024 ≤ kid ∨ ¬ s.physOk pa 128 then some (malformed, s)
  else
    match s.pget kid pa 128 with
    | .error t => some (raised t, s)
    | .ok (h, s1) =>
      if vBad1 h then some (.failed 1 1, s1)
      else if !s1.physOk pa (vLength h) then some (malformed, s1)
      else
        match s1.pget kid pa (vLength h) with
        | .error t => some (raised t, s1)
        | .ok (v, s2) =>
          match vFailing (s2.iod.blob.bind (·.vocabKey)) v with
          | some 7 => some (.failed 3 7, s2)
          | some n => some (.failed 1 n, s2)
          | none =>
            if s2.vocabBusy slot then none
            else some (.done 0, s2.modIod fun d => { d with vocab := d.vocab.put slot v })

def execVocabInstall (i : Fin 32) (s : State) : Out := capsule (· == 7) [(0, 1), (2, 2), (8, 8)] i vocabAct s

def execRoutineLoad (i : Fin 32) (s : State) : Out :=
  capsule (· == 8) [(0, 1), (2, 2), (4, 4), (8, 8)] i (fun b s =>
    let r := capArg b 0 1
    let n := capArg b 4 4
    let pa := capArg b 8 8
    let others := s.iod.routines.foldl (fun m e => if e.1 = r then m else m + e.2.length) 0
    if 1024 ≤ capArg b 2 2 ∨ 65536 < others + n ∨ ¬ s.physOk pa n then some (malformed, s)
    else if n = 0 then some (.done 0, s.modIod fun d => { d with routines := d.routines.del r })
    else
      match s.pget (capArg b 2 2) pa n with
      | .error t => some (raised t, s)
      | .ok (bs, s') => some (.done 0, s'.modIod fun d => { d with routines := d.routines.put r bs })) s

/-- A service entry is well formed (R413). -/
def svcOk (e : List Byte) : Bool :=
  fld e 0 4 / 2 == 0 && fld e 8 8 % 64 == 0 && decide (1 ≤ fld e 0x10 4 ∧ fld e 0x10 4 ≤ 65536)
    && fld e 0x14 4 % 64 == 0 && decide (128 ≤ fld e 0x14 4 ∧ fld e 0x14 4 ≤ 2 ^ 20 + 64) && fld e 0x20 2 < 256 && fld e 0x22 1 < 64
    && fld e 0x23 1 == 0 && fld e 0x28 24 == 0

def execServiceSet (i : Fin 32) (s : State) : Out :=
  capsule (· == 9) [(0, 4), (0x10, 64)] i (fun b s =>
    let id := capArg b 0 4
    let e := capBytes b 0x10 64
    if 256 ≤ id then some (malformed, s)
    else if !svcOk e then some (malformed, s)
    else if (s.jobSlot (fld e 4 4)).isNone then some (.failed 2 0, s)
    else some (.done 0, s.modIod fun d => { d with svc := d.svc.put id e })) s

/-! ## Work from the host (R387, R408) -/

/-- The agent of the lowest ready die, under which host work is done. -/
def State.hostAgent (s : State) : Option Nat := (s.firstDie allDies).map fun d => 256 + 64 * d.val

def execCapsuleLaunch (i : Fin 32) (s : State) : Out :=
  capsule (· == 0xA) [(0, 1), (8, 8)] i (fun b s =>
    match s.jobs.find (capArg b 0 1), s.hostAgent with
    | none, _ => some (.failed 2 0, s)
    | some _, none => none
    | some j, some c =>
      match submitLaunch c (j.space true) j.jobid false [] 12 (BitVec.ofNat 64 (capArg b 8 8)) s with
      | .error t => some (raised t, s)
      | .ok (none, _) => none
      | .ok (some id, s') => some (.done id, s')) s

/-- IMAGE_RESUME's failed check. -/
def badImage : CapEnd := .failed 7 Cause.launchRecordInvalid

/-- The image becomes a YIELDED iteration of its launch on the lowest ready die; COHORT images do not move (R34, R387). -/
def resumeAct (b : List Byte) (s : State) : Option (CapEnd × State) :=
  match s.jobs.find (capArg b 0 1), s.hostAgent with
  | none, _ => some (.failed 2 0, s)
  | some _, none => none
  | some j, some c =>
    let a : Word := BitVec.ofNat 64 (capArg b 8 8)
    match s.vget c (j.space true) a 256 with
    | .error t => some (raised t, s)
    | .ok (h, s) =>
      match s.node (fld h 0x10 4) with
      | none => some (badImage, s)
      | some n =>
        match n.kind with
        | .card _ => some (badImage, s)
        | .launch l =>
          if !s.imageOk h || fld h 0x14 4 != j.jobid || n.cancelled || (fld h 0x9B 1).testBit 0 then some (badImage, s)
          else
            let d := (dieOf (c % 256)).val
            let key := fld h 8 8 + 2 ^ 48 * (1 + s.orderNext)
            let it : Iter := ⟨key, ⟨0, 0, 0, 0⟩, d, .yielded, none, none, some a, none⟩
            let s := { s.modNode n.id (fun m => { m with iters := m.iters ++ [it] }) with orderNext := s.orderNext + 1 }
            some (.done 0, s.joinList (dieOf (c % 256)) l.prio n.job)

def execImageResume (i : Fin 32) (s : State) : Out := capsule (· == 0xB) [(0, 1), (8, 8)] i resumeAct s

/-! ## Host writes of registers (R8, R404, R424) -/

/-- Fields of a CXL range register that take a write (R424). -/
def cxlMask (k : Nat) : Word :=
  match k with
  | 0 => 0xFFFFFFFFC0000001
  | 1 => 0xFFFFFFFFC0000000
  | 2 => 0x000000000FFFFFFF
  | _ => 0xFFFFFFFFFFFFFFFF

/-- The span of a range with given registers. -/
def cxlSpan (base size : Word) : Nat × Nat := (base.toNat / 2 ^ 30 * 2 ^ 30, size.toNat / 2 ^ 30 * 2 ^ 30)

/-- Whether a range would overlap another valid one. -/
def Iod.cxlOverlap (i : Iod) (r : Nat) (base size : Word) : Bool :=
  let a := cxlSpan base size
  (List.range 8).any fun q =>
    let b := cxlSpan (i.cxlReg.get 0 (4 * q)) (i.cxlReg.get 0 (4 * q + 1))
    q != r && (i.cxlReg.get 0 (4 * q)).getLsbD 0 && decide (0 < a.2 ∧ 0 < b.2 ∧ a.1 < b.1 + b.2 ∧ b.1 < a.1 + a.2)

/-- A write of 8 or 4 bytes to a CXL range register (R404, R424). -/
def execCxlRangeWrite (r : Fin 8) (off : Nat) (x : HostVal) (s : State) : Out :=
  if off % (if x.dbl then 8 else 4) ≠ 0 ∨ 0x20 ≤ off then .next s
  else
    let k := off / 8
    let v := hostMerge (s.iod.cxlReg.get 0 (4 * r.val + k)) off x.dbl x.v &&& cxlMask k
    let v := if k = 0 && v.getLsbD 0 && s.iod.cxlOverlap r.val v (s.iod.cxlReg.get 0 (4 * r.val + 1)) then v &&& ~~~1#64 else v
    .next (s.modIod fun i => { i with cxlReg := Tab.set 0 i.cxlReg (4 * r.val + k) v })

/-- A request to a range whose port is down, of a line that no slice holds: the host is told (R424). -/
def execCxlPortDownAccess (_c line : Nat) (s : State) : Out :=
  if s.cxlDown line && (s.resident (homeOf line) line).isNone then .next (s.msix 3) else .next s

/-- The fields a write of an 8-byte register with no step of its own may change, at a BAR0 offset or, from 0x0800_0000 on, at an address
of the management core (R367, R404, R435). -/
def regMask (off : Nat) : Word :=
  if off = 0x10000 ∨ off = 0x11000 ∨ off = 0x12000 ∨ off = 0x13000 then 0xFFFFFFFF
  else if 0x40000 ≤ off ∧ off < 0x50000 ∧ off % 16 = 0 then 0x80FFFFFF
  else if off = 0x51008 then 0xFFFFFFFFFFFFFFFF
  else if off = 0x101008 then 1
  else if off = 0x102008 ∨ off = 0x102010 then 0xFFFFFFFFFFFFFFFF
  else if off = 0x102028 then 0x3FFFFFFFFFF
  else if 0x200000 ≤ off ∧ off < 0x300000 ∧ off % 4096 = 0x28 then 2
  else if 0x200000 ≤ off ∧ off < 0x300000 ∧ off % 4096 = 0x30 then 0xFFFFFFFFFFFF0000
  else if 0x8000000 ≤ off ∧ off < 0x8100000 then 0xFFFFFFFFFFFFFFFF
  else if off = 0x20000008 ∨ off = 0x20001008 ∨ off = 0x20001010 ∨ off = 0x20001028 ∨ off = 0x20002008 then 0xFFFFFFFFFFFFFFFF
  else if off = 0x20000010 then 0xFFFFFF
  else if off = 0x20002080 then 0xFF
  else if 0x20003200 ≤ off ∧ off < 0x20003400 then 0xFFFFFFFFFFFFFFFF
  else 0

/-- The present value of such a register, and of the Stage Manager's read-only ones: SM_LIVE, SM_FREE, SM_ERRLOG, SM_ERRCNT, and the counts
of each job slot (R368). -/
def State.regGet (s : State) (off : Nat) : Word :=
  let m := s.iod.mgmt
  if off < 0x14000 then
    let d : Fin 4 := Fin.ofNat 4 ((off - 0x10000) / 4096)
    match off % 4096 with
    | 0 => BitVec.ofNat 64 (s.die d).drainMax
    | 8 => BitVec.ofNat 64 (s.smLive d)
    | 0x10 => BitVec.ofNat 64 (s.smFree d)
    | 0x18 => (s.die d).errLog
    | 0x20 => (s.die d).errCnt
    | _ => 0
  else if off < 0x28000 then
    match s.jobs.find ((off - 0x20000) / 128) with
    | some j => if off % 128 = 0x48 then BitVec.ofNat 64 (s.jobLive j.jobid + 2 ^ 32 * s.jobRunning j.jobid) else 0
    | none => 0
  else if off < 0x50000 then s.iod.route.get 0 ((off - 0x40000) / 16)
  else if off = 0x51008 then s.iod.fabRetry
  else if off = 0x101008 then BitVec.ofNat 64 m.go.toNat
  else if off = 0x102008 then BitVec.ofNat 64 s.iod.encBase
  else if off = 0x102010 then BitVec.ofNat 64 s.iod.encSize
  else if off = 0x102028 then BitVec.ofNat 64 (s.iod.encJob + 2 ^ 32 * s.iod.encKid)
  else if off < 0x300000 then
    let k := s.core ((off - 0x200000) / 4096)
    if off % 4096 = 0x28 then (if k.stopReq then 2 else 0) ||| (if k.stopped then 8 else 0) else k.dbgImg
  else if off < 0x8100000 then BitVec.ofNat 64 (Memory.readList m.sram (off - 0x8000000) 8 |> le)
  else if off = 0x20000008 then m.shaSrc
  else if off = 0x20000010 then m.shaLen
  else if off = 0x20001008 then m.eccDig
  else if off = 0x20001010 then m.eccSig
  else if off = 0x20001028 then m.eccKey
  else if off = 0x20002008 then m.measSrc
  else if off = 0x20002080 then BitVec.ofNat 64 m.bootStatus
  else BitVec.ofNat 64 (le ((m.rsp.drop (off - 0x20003200)).take 8))

/-- Changes the management core. -/
def State.modMgmt (s : State) (f : Mgmt → Mgmt) : State := s.modIod fun i => { i with mgmt := f i.mgmt }

/-- Bytes put into a buffer of `n` bytes at an offset. -/
def bufPut (n : Nat) (buf : List Byte) (off : Nat) (bs : List Byte) : List Byte :=
  (List.range n).map fun i => if off ≤ i ∧ i < off + bs.length then bs.getD (i - off) 0 else buf.getD i 0

/-- Sets such a register to a value already masked; setting BOOT_GO has a step of its own (R438). -/
def State.regPut (s : State) (off : Nat) (v : Word) : State :=
  if off < 0x14000 then
    if 1024 ≤ v.toNat then s.modDie (Fin.ofNat 4 ((off - 0x10000) / 4096)) fun d => { d with drainMax := v.toNat } else s
  else if off < 0x50000 then s.modIod fun i => { i with route := Tab.set 0 i.route ((off - 0x40000) / 16) v }
  else if off = 0x51008 then s.modIod fun i => { i with fabRetry := v }
  else if off = 0x101008 then s.modMgmt fun m => { m with go := m.go && v.getLsbD 0 }
  else if off < 0x103000 ∧ s.iod.encMode ≠ 0 then s
  else if off = 0x102008 then s.modIod fun i => { i with encBase := v.toNat }
  else if off = 0x102010 then s.modIod fun i => { i with encSize := v.toNat }
  else if off = 0x102028 then s.modIod fun i => { i with encJob := v.toNat % 2 ^ 32, encKid := v.toNat / 2 ^ 32 % 1024 }
  else if off < 0x300000 then
    let c := (off - 0x200000) / 4096
    if off % 4096 = 0x28 then (if v.getLsbD 1 then s else s.putOffDebug c).modCore c fun k => { k with stopReq := v.getLsbD 1 }
    else s.modCore c fun k => { k with dbgImg := v }
  else if off < 0x8100000 then s.modMgmt fun m => { m with sram := Memory.writeList m.sram (off - 0x8000000) (toLe 8 v.toNat) }
  else if off = 0x20000008 then s.modMgmt fun m => { m with shaSrc := v }
  else if off = 0x20000010 then s.modMgmt fun m => { m with shaLen := v }
  else if off = 0x20001008 then s.modMgmt fun m => { m with eccDig := v }
  else if off = 0x20001010 then s.modMgmt fun m => { m with eccSig := v }
  else if off = 0x20001028 then s.modMgmt fun m => { m with eccKey := v }
  else if off = 0x20002008 then s.modMgmt fun m => { m with measSrc := v }
  else if off = 0x20002080 then s.modMgmt fun m => { m with bootStatus := v.toNat }
  else s.modMgmt fun m => { m with rsp := bufPut 512 m.rsp (off - 0x20003200) (toLe 8 v.toNat) }

/-- A write of 8 bytes (`dbl`) or 4 bytes to a register with no step of its own: its RW fields take the value (R8, R404). -/
def execRegisterWrite (off : Nat) (dbl : Bool) (v : Word) (s : State) : Out :=
  let base := off / 8 * 8
  let m := regMask base
  if off % (if dbl then 8 else 4) ≠ 0 ∨ m = 0 then .next s
  else .next (s.regPut base (hostMerge (s.regGet base) off dbl v &&& m))

end Sys2Proof.Machine
end

