-- ==== Sys2Proof/Machine/Boot.lean ====
section
/-! DEFINITION. The management core's blocks, the ROM stage, the configuration blob, readiness, the mailbox (R432 to R444). -/

namespace Sys2Proof.Machine

/-! ## Addresses of the management core (R435, R436) -/

/-- The eight bytes of a block register. -/
def regByte (v : Nat) (o : Nat) : Byte := BitVec.ofNat 8 (v / 256 ^ o)

/-- SHA_STAT, ECC_STAT, MEAS_STAT and MBX_STAT. -/
def Mgmt.eccStat (m : Mgmt) : Nat := m.eccBusy.toNat + 2 * m.eccValid.toNat
def Mgmt.measStat (m : Mgmt) : Nat := m.measBusy.toNat + 256 * m.measCount
def Mgmt.mbxStat (m : Mgmt) : Nat := match m.req with | some r => 1 + 65536 * r.length | none => 0

/-- A byte the management core reads; a write-only register reads as zero (R8); what it cannot read, and fresh random bytes, are free by the
number `t` (log 4). -/
def Mgmt.byteAt (m : Mgmt) (t a : Nat) : Byte :=
  let free := Config.freeScratch t a
  let o := a % 8
  if 0x08000000 ≤ a ∧ a < 0x08100000 then Memory.read m.sram (a - 0x08000000)
  else if 0x10000000 ≤ a ∧ a < 0x11000000 then Memory.read m.flash (a - 0x10000000)
  else if 0x20000040 ≤ a ∧ a < 0x20000070 then m.shaDig.getD (a - 0x20000040) 0
  else if 0x20002040 ≤ a ∧ a < 0x20002070 then m.meas0.getD (a - 0x20002040) 0
  else if 0x20003100 ≤ a ∧ a < 0x20003200 then (match m.req with | some r => r.getD (a - 0x20003100) free | none => free)
  else if 0x20003200 ≤ a ∧ a < 0x20003400 then m.rsp.getD (a - 0x20003200) 0
  else match a / 8 * 8 with
    | 0x20000000 | 0x20001000 | 0x20002000 | 0x20003008 => 0
    | 0x20000008 => regByte m.shaSrc.toNat o
    | 0x20000010 => regByte m.shaLen.toNat o
    | 0x20000018 => regByte m.shaBusy.toNat o
    | 0x20001008 => regByte m.eccDig.toNat o
    | 0x20001010 => regByte m.eccSig.toNat o
    | 0x20001018 => regByte m.eccStat o
    | 0x20001028 => regByte m.eccKey.toNat o
    | 0x20002008 => regByte m.measSrc.toNat o
    | 0x20002018 => regByte m.measStat o
    | 0x20002080 => regByte m.bootStatus o
    | 0x20002088 => regByte m.go.toNat o
    | 0x20003000 => regByte m.mbxStat o
    | _ => free

/-- Bytes the management core reads. -/
def State.mgmtRead (s : State) (a n : Nat) : List Byte × State :=
  let (t, s) := s.draw
  ((List.range n).map fun i => s.iod.mgmt.byteAt t (a + i), s)

/-! ## The blocks (R437) -/

/-- A hash starts: the message is read once all before it is performed. -/
def execShaStart (v : Word) (s : State) : Out :=
  let m := s.iod.mgmt
  if !v.getLsbD 0 || m.shaBusy then .next s
  else
    let (bs, s) := s.mgmtRead m.shaSrc.toNat m.shaLen.toNat
    .next (s.modMgmt fun m => { m with shaBusy := true, shaNext := Crypto.sha384 bs })

def execShaDone (s : State) : Out :=
  if s.iod.mgmt.shaBusy then .next (s.modMgmt fun m => { m with shaBusy := false, shaDig := m.shaNext, shaNext := [] }) else .next s

def execEccStart (v : Word) (s : State) : Out :=
  let m := s.iod.mgmt
  if m.eccBusy then .next s
  else if !v.getLsbD 0 then .next (s.modMgmt fun m => { m with eccSel := v.getLsbD 1 })
  else
    let (d, s) := s.mgmtRead m.eccDig.toNat 48
    let (g, s) := s.mgmtRead m.eccSig.toNat 96
    let (k, s) := s.mgmtRead m.eccKey.toNat 96
    let key := if v.getLsbD 1 then k else Config.romKey
    .next (s.modMgmt fun m => { m with eccSel := v.getLsbD 1, eccBusy := true, eccNext := Crypto.ecdsaVerify d g key })

def execEccDone (s : State) : Out :=
  if s.iod.mgmt.eccBusy then .next (s.modMgmt fun m => { m with eccBusy := false, eccValid := m.eccNext, eccNext := false }) else .next s

def execMeasExtend (v : Word) (s : State) : Out :=
  let m := s.iod.mgmt
  if !v.getLsbD 0 || m.measBusy then .next s
  else
    let (bs, s) := s.mgmtRead m.measSrc.toNat 48
    .next (s.modMgmt fun m => { m with measBusy := true, measNext := bs })

/-- MEAS0 extended with 48 bytes (R437). -/
def Mgmt.extended (m : Mgmt) (bs : List Byte) : Mgmt :=
  { m with meas0 := Crypto.sha384 (m.meas0 ++ bs), measCount := Min.min 255 (m.measCount + 1) }

def execMeasDone (s : State) : Out :=
  if s.iod.mgmt.measBusy then .next (s.modMgmt fun m => { m.extended m.measNext with measBusy := false, measNext := [] }) else .next s

/-- Sends bytes of the response buffer and frees the mailbox (R437). -/
def execMbxRsplen (v : Word) (s : State) : Out :=
  let n := v.toNat % 1024
  if s.iod.mgmt.req.isNone ∨ 512 < n then .next s
  else .next (s.modMgmt fun m => { m with sent := some (1, (List.range n).map fun i => m.rsp.getD i 0), req := none })

/-! ## The ROM stage (R439, R440) -/

/-- Copies bytes of the flash window to the start of boot SRAM. -/
def Mgmt.copyIn (m : Mgmt) (off n : Nat) : Mgmt :=
  { m with sram := Memory.writeList m.sram off (Memory.readList m.flash off n) }

/-- A field of the image's copy in boot SRAM. -/
def Mgmt.imgField (m : Mgmt) (o n : Nat) : Nat := le (Memory.readList m.sram o n)

/-- The header of R439, as its copy shows it. -/
def Mgmt.headerGood (m : Mgmt) : Bool :=
  let body := m.imgField 8 4
  m.imgField 0 4 == 0x31574647 && m.imgField 4 2 == 1 && body % 16 == 0 && decide (body ≤ 0xFFF00) && m.imgField 12 4 % 4 == 0
    && decide (m.imgField 12 4 < body)

/-- The ROM stage on the image in flash: copies, checks, hashes, verifies, extends, writes BOOT_STATUS (R440). -/
def Mgmt.romStage (m : Mgmt) : Mgmt :=
  let m := m.copyIn 0 64
  if !m.headerGood then { m with bootStatus := 1 }
  else
    let body := m.imgField 8 4
    let m := m.copyIn 64 (body + 96)
    let d := Crypto.sha384 (Memory.readList m.sram 0 (body + 64))
    let valid := Crypto.ecdsaVerify d (Memory.readList m.sram (body + 64) 96) Config.romKey
    let m := { m with shaSrc := 0x08000000, shaLen := BitVec.ofNat 64 (body + 64), shaDig := d, eccDig := 0x20000040,
                      eccSig := BitVec.ofNat 64 (0x08000000 + body + 64), eccSel := false, eccValid := valid }
    if !valid then { m with bootStatus := 2 }
    else { { m with measSrc := 0x20000040 }.extended d with bootStatus := 0x80, entry := some (0x08000000 + m.imgField 12 4 + 64) }

/-- The ROM jumps to a verified image once GO is set (R440). -/
def Mgmt.tryJump (m : Mgmt) : Mgmt :=
  match m.go, m.entry with
  | true, some a => if m.entered then m else { m with entered := true, pc := BitVec.ofNat 64 a }
  | _, _ => m

/-- The ROM stage has run: it does so before the ROM serves anything (R444). -/
def Mgmt.booted (m : Mgmt) : Mgmt := if m.bootStatus = 0 && !m.entered then m.romStage else m

/-- Package reset: everything but memory below the LLC, flash and what lies outside the package takes its reset state; the ROM runs (R432). -/
def execPackageReset (s : State) : Out :=
  let i := { Iod.zero with host := s.iod.host, mgmt := { Mgmt.zero with flash := s.iod.mgmt.flash }.romStage }
  .next { State.reset with iod := i, dram := s.dram, lineKey := s.lineKey, poisoned := s.poisoned, widNext := s.widNext,
                           tick := s.tick, agenda := s.agenda }

/-- The host sets GO (R438, R440). -/
def execBootGo (s : State) : Out := .next (s.modMgmt fun m => { m with go := true }.booted.tryJump)

/-! ## Readiness (R433, R434) -/

/-- How many functions of a kind there are, and the bit of the first in the readiness map (R433). -/
def funcSpan : Func → Nat × Nat
  | .core => (256, 0)
  | .slice => (256, 256)
  | .hbm => (8, 512)
  | .link => (12, 520)
  | .port => (4, 532)
  | .prom => (8, 536)
  | .narr => (8, 544)
  | .cxl => (2, 552)
  | .scseq => (1, 554)
  | .smgr => (4, 555)
  | .coord => (1, 559)
  | .cell => (4, 560)
  | .fw => (1, 576)

/-- Every kind of function. -/
def allFuncs : List Func := [.core, .slice, .hbm, .link, .port, .prom, .narr, .cxl, .scseq, .smgr, .coord, .cell, .fw]

/-- The functions a map of 80 bytes names. -/
def mapFuncs (b : List Byte) : List (Func × Nat) :=
  let v := le b
  allFuncs.flatMap fun f => ((List.range (funcSpan f).1).filter fun i => v.testBit ((funcSpan f).2 + i)).map fun i => (f, i)

/-- The map of a list of functions, as a number. -/
def funcsMap (l : List (Func × Nat)) : Nat := l.dedup.foldl (fun m e => m + 2 ^ ((funcSpan e.1).2 + e.2)) 0

/-- A function's bit is set and the host is told (R434). -/
def State.setReady (s : State) (f : Func) (i : Nat) : State :=
  (s.modIod fun d => { d with ready := (f, i) :: d.ready }).msix 2

/-- A function passes its self-test; firmware starts none before FW and none that the blob excludes (R434, R441). A core comes up. -/
def execFunctionReady (f : Func) (i : Nat) (s : State) : Out :=
  let never := match s.iod.blob with | some b => b.never | none => []
  if f = .fw ∨ (funcSpan f).1 ≤ i ∨ s.isReady f i ∨ ¬ s.isReady .fw 0 ∨ never.contains (f, i) then .next s
  else
    let s := if f = .core then { s with cores := s.cores.put i Core.zero } else s
    .next (s.setReady f i)

def execReadinessClear (f : Func) (i : Nat) (s : State) : Out := .next (s.unready f i)

/-! ## The configuration blob (R441) -/

/-- An entry of the blob: id and value. -/
def blobEntries : Nat → List Byte → Option (List (Nat × List Byte))
  | 0, b => if b = [] then some [] else none
  | n + 1, b =>
    let len := fld b 2 2
    let padded := (len + 7) / 8 * 8
    if b.length < 8 + padded ∨ fld b 4 4 ≠ 0 ∨ fld b (8 + len) (padded - len) ≠ 0 then none
    else (blobEntries n (b.drop (8 + padded))).map fun es => (fld b 0 2, (b.drop 8).take len) :: es

/-- Whether an entry has a known id, its length and a value in range (R441). -/
def entryOk (e : Nat × List Byte) : Bool :=
  let v := le e.2
  match e.1 with
  | 1 => e.2.length == 2 && decide (v ≤ 0xFFF)
  | 2 => e.2.length == 80 && v == funcsMap (mapFuncs e.2)
  | 3 => e.2.length == 32
  | 4 => e.2.length == 96
  | 5 => e.2.length == 4 && decide (400 ≤ v ∧ v ≤ 2000)
  | 6 => e.2.length == 4 && decide (1000 ≤ v ∧ v ≤ 4000)
  | _ => false

/-- The entries of an acceptable blob under a key. -/
def blobOk (key b : List Byte) : Option (List (Nat × List Byte)) :=
  let n := b.length
  if n < 160 ∨ fld b 0 4 ≠ 0x47464347 ∨ fld b 4 2 ≠ 1 ∨ fld b 6 2 ≠ 0 ∨ fld b 8 4 ≠ n ∨ fld b 0x10 48 ≠ 0 then none
  else
    match blobEntries (fld b 0xC 4) ((b.take (n - 96)).drop 64) with
    | none => none
    | some es =>
      if es.all entryOk && distinct (es.map (·.1)) && Crypto.ecdsaVerify (Crypto.sha384 (b.take (n - 96))) (b.drop (n - 96)) key
      then some es else none

/-- A value among the entries. -/
def entryVal (es : List (Nat × List Byte)) (id : Nat) : Option (List Byte) := (es.find? fun e => e.1 == id).map (·.2)

/-- The device key enters key ID 0 on every die (R410). -/
def State.loadDeviceKey (s : State) : State :=
  let (t, s) := s.draw
  allDies.foldl (fun s d => s.modDie d fun k => { k with keys := k.keys.put 0 (Config.freeNat t) }) s

/-- Firmware verifies and applies the configuration blob (R439, R441). -/
def execConfigBlobApply (blob : List Byte) (s : State) : Out :=
  let m := s.iod.mgmt
  if !m.entered || s.isReady .fw 0 then .next s
  else
    match blobOk (Config.blobKey (Memory.readList m.sram 0 (m.imgField 8 4 + 160))) blob with
    | none => .next (s.modMgmt fun m => { m with bootStatus := 0xC1 })
    | some es =>
      let nat (id d : Nat) : Nat := ((entryVal es id).map le).getD d
      let b : Blob := ⟨((entryVal es 2).map mapFuncs).getD [], (entryVal es 3).map Crypto.be, entryVal es 4, nat 5 2000, nat 6 4000⟩
      let s := (s.modMgmt fun m => { m with bootStatus := 0xC0 }).modIod fun i =>
        { i with blob := some b, devnum := nat 1 0xFFF, clkMhz := Min.min 4000 (nat 6 4000), hifReady := true }
      .next (s.loadDeviceKey.setReady .fw 0)

/-! ## The mailbox (R442, R443; fixed tables: log 34) -/

/-- The mailbox takes a request only while it holds none (R442). -/
def State.mailbox (s : State) (f : State → State) : Out := if s.iod.mgmt.req.isSome then .next s else .next (f s)

/-- A response of a fixed table is sent. -/
def State.answer (s : State) (ty : Nat) (bs : List Byte) : State := s.modMgmt fun m => { m with sent := some (ty, bs) }

def execDoeDiscovery (req : List Byte) (s : State) : Out :=
  s.mailbox fun s => s.answer 0 (match fld req 0 1 with
    | 0 => [0x01, 0x00, 0x00, 0x01]
    | 1 => [0x01, 0x00, 0x01, 0x00]
    | _ => [0xFF, 0xFF, 0x00, 0x00])

def execGetVersion (_req : List Byte) (s : State) : Out :=
  s.mailbox fun s => s.answer 1 [0x10, 0x04, 0, 0, 0, 1, 0x00, 0x13]

/-- Bytes of a fixed table that the spec leaves open. -/
def openBytes (code off n : Nat) : List Byte := (List.range n).map fun i => Config.spdmByte code (off + i)

def execGetCapabilities (_req : List Byte) (s : State) : Out :=
  s.mailbox fun s => s.answer 1 ([0x13, 0x61, 0, 0, 0] ++ openBytes 0x61 5 1 ++ [0, 0, 0x08, 0, 0, 0] ++ openBytes 0x61 12 8)

def execNegotiateAlgorithms (_req : List Byte) (s : State) : Out :=
  s.mailbox fun s => s.answer 1 ([0x13, 0x63, 0, 0, 36, 0, 1] ++ openBytes 0x63 7 1 ++ [4, 0, 0, 0] ++ openBytes 0x63 12 8
    ++ List.replicate 11 0 ++ openBytes 0x63 31 1 ++ [0, 0, 0, 0])

/-- Thirty-two fresh random bytes (R436 ECC_RAND). -/
def State.nonce (s : State) : List Byte × State :=
  let (a, s) := s.drawWord
  let (b, s) := s.drawWord
  let (c, s) := s.drawWord
  let (d, s) := s.drawWord
  (toLe 8 a.toNat ++ toLe 8 b.toNat ++ toLe 8 c.toNat ++ toLe 8 d.toNat, s)

/-- The ROM's MEASUREMENTS response (R443): one block, or their count. -/
def measResponse (block : Bool) (meas nonce ctx : List Byte) : List Byte :=
  (if block then [0x13, 0x60, 0, 0, 1, 0x37, 0, 0] ++ [1, 1, 0x33, 0, 1, 0x30, 0] ++ meas else [0x13, 0x60, 1, 0, 0, 0, 0, 0])
    ++ nonce ++ [0, 0] ++ ctx

/-- The ROM's answer to a request of software's kind (R443), with the response buffer it leaves. -/
def State.romAnswer (s : State) (req : List Byte) : State :=
  let b (i : Nat) : Nat := (req.getD i 0).toNat
  let code := req.getD 1 0
  let send (s : State) (buf : List Byte) (n : Nat) : State := s.modMgmt fun m => { m with rsp := buf, sent := some (1, buf.take n) }
  let put (bs : List Byte) : List Byte := bufPut 512 s.iod.mgmt.rsp 0 bs
  if b 1 ≠ 0xE0 then send s (put [0x13, 0x7F, 0x07, code, 0, 0, 0, 0]) 4
  else if req.length ≠ 12 ∨ b 0 ≠ 0x13 ∨ b 2 ≠ 0 ∨ ¬ (b 3 = 0 ∨ b 3 = 1 ∨ b 3 = 0xFF) then send s (put [0x13, 0x7F, 0x01, 0x00, 0, 0, 0, 0]) 4
  else
    let (n, s) := s.nonce
    let r := measResponse (b 3 != 0) ((List.range 48).map fun i => s.iod.mgmt.meas0.getD i 0) n (req.drop 4)
    send s (bufPut 512 (put r) 0x180 n) r.length

/-- A request that the mailbox passes on: the ROM answers it, after its own stage; firmware finds it in the buffer (R442 to R444). -/
def State.passOn (s : State) (req : List Byte) : State :=
  if s.iod.mgmt.entered then s.modMgmt fun m => { m with req := some (req.take 256) }
  else ((s.modMgmt Mgmt.booted).romAnswer req).modMgmt Mgmt.tryJump

def execGetMeasurements (req : List Byte) (s : State) : Out :=
  if fld req 1 1 ≠ 0xE0 then .next s else s.mailbox fun s => s.passOn req

/-- Request codes that the mailbox answers itself, and GET_MEASUREMENTS, have steps of their own. -/
def execSpdmRequest (req : List Byte) (s : State) : Out :=
  if [0x84, 0xE1, 0xE3, 0xE0].contains (fld req 1 1) then .next s else s.mailbox fun s => s.passOn req

end Sys2Proof.Machine
end

