-- ==== Sys2Proof/Machine/Depend.lean ====
section
/-! DEFINITION. Scrubbing, Encore's modes, power and temperature (R445 to R447, R460, R462, R464 to R466). -/

namespace Sys2Proof.Machine

/-! ## Scrubbing (R446, R447): which errors a visit meets is an input (log 28) -/

/-- A visit to a scratchpad row: a corrected error is counted; an uncorrectable one marks a word of the row. -/
def execSramScrub (c row : Nat) (ce ue : Bool) (s : State) : Out :=
  let s := if ce then s.modCore c fun k => { k with sramCe := k.sramCe + 1 } else s
  if !ue then .next s
  else
    let (t, s) := s.draw
    let w := 16 * row + Config.freeNat t % 16
    .next ((s.modCore c fun k => { k with ueWords := if k.ueWords.contains w then k.ueWords else w :: k.ueWords }).sramError c (8 * w))

/-- A line of a set becomes poisoned (R318). -/
def poisonAt (ls : List Line) (n : Nat) : List Line := ls.zipIdx.map fun l => if l.2 = n then { l.1 with poison := true } else l.1

def execLlcScrub (d : Fin 4) (slice set : Nat) (ue : Option Nat) (s : State) : Out :=
  match ue with
  | none => .next s
  | some n =>
    let key := slice * 12288 + set
    match ((s.die d).sets.get [] key)[n]? with
    | none => .next s
    | some l =>
      if l.poison then .next s
      else .next ((s.modDie d fun k => { k with sets := k.sets.put key (poisonAt (k.sets.get [] key) n) }).count d slice 15 1)

/-- Key ID under which a die holds key material; 0 where it holds it under none. -/
def Die.kidOf (d : Die) (k : Nat) : Nat := ((d.keys.find? fun e => e.2 == k).map (·.1)).getD 0

def execHbmScrub (line : Nat) (ue : Bool) (s : State) : Out :=
  if !ue || !decide (line < 2 ^ 39) then .next s
  else
    let n := line / 128
    let d := homeOf n
    let kid := match s.lineKey.find n with | some k => (s.die d).kidOf k | none => 0
    .next ({ s with poisoned := s.poisoned.put n true }.machineCheck d 0xF1 2 (line / 2 ^ 36) line kid)

/-! ## Encore (R460, R462) -/

/-- A mode of Encore starts from an empty count. -/
def Iod.encStart (i : Iod) (mode : Nat) : Iod :=
  { i with encMode := mode, encHead := 0, encDiverge := false, encOvf := false, encSeq := 0, encCnt := [], encDone := [] }

def execEncoreCaptureStart (s : State) : Out := .next (s.modIod fun i => i.encStart 1)
def execEncoreReplayStart (s : State) : Out := .next (s.modIod fun i => i.encStart 2)
def execEncoreOff (s : State) : Out := .next (s.modIod fun i => { i with encMode := 0 })

/-! ## Power and temperature (R464 to R466): sensor values are inputs (log 27) -/

/-- The junction temperatures of a telemetry word, in 1/16 °C. -/
def junctions (temp : Word) : List Int := (List.range 4).map fun i => (temp.extractLsb' (16 * i) 16).toInt

/-- The hottest junction reaches `t` degrees. -/
def hotter (temp : Word) (t : Int) : Bool := (junctions temp).any fun j => decide (16 * t < j)

/-- PWR_LIMIT in watts and the highest clock in MHz (R464, R465). -/
def Iod.pwrLimit (i : Iod) : Nat := match i.blob with | some b => b.power | none => 2000
def Iod.clkMax (i : Iod) : Nat := match i.blob with | some b => Min.min 4000 b.clock | none => 4000

/-- Power or a junction exceeds its limit (R465). -/
def Iod.limited (i : Iod) (mw temp : Word) : Bool := decide (1000 * i.pwrLimit < mw.toNat) || hotter temp 100

def execPowerStepDown (mw temp : Word) (s : State) : Out :=
  .next (s.modIod fun i =>
    let i := { i with pwrPkg := mw, temp := temp }
    if i.limited mw temp && decide (1100 ≤ i.clkMhz) then { i with clkMhz := i.clkMhz - 100, thrEvents := i.thrEvents + 1 } else i)

/-- A step up after 10 ms without a limit; the milliseconds spent below the maximum are free (log 26). -/
def execPowerStepUp (mw temp : Word) (s : State) : Out :=
  let (w, s) := s.drawWord
  .next (s.modIod fun i =>
    let i := { i with pwrPkg := mw, temp := temp }
    if !i.limited mw temp && decide (i.clkMhz + 100 ≤ i.clkMax) then { i with clkMhz := i.clkMhz + 100, thrMs := i.thrMs + w } else i)

/-- At 110 °C every function stops until a package reset (R465). -/
def execThermalShutdown (temp : Word) (s : State) : Out :=
  if (junctions temp).any fun j => decide (16 * 110 ≤ j) then
    let s1 := if s.iod.ready = [] then s else s.msix 2
    .next { (s1.modIod fun i => { i with temp := temp, ready := [] }).msix 1 with powered := false }
  else .next s

end Sys2Proof.Machine
end

