-- ==== Sys2Proof/Machine/Dispatch.lean ====
section
/-! DEFINITION. One arm per instruction: each is one call of its meaning. -/

namespace Sys2Proof.Machine

def exec (i : Instr) (s : State) : Host.Outcome State Fault Refusal :=
  match i with
  | .add d a b => Sys2Proof.Machine.execAdd d a b s
  | .sub d a b => Sys2Proof.Machine.execSub d a b s
  | .addi d a imm => Sys2Proof.Machine.execAddi d a imm s
  | .mul d a b => Sys2Proof.Machine.execMul d a b s
  | .mulh d a b k => Sys2Proof.Machine.execMulh d a b k s
  | .div d a b u => Sys2Proof.Machine.execDiv d a b u s
  | .rem d a b u => Sys2Proof.Machine.execRem d a b u s
  | .and d a b => Sys2Proof.Machine.execAnd d a b s
  | .or d a b => Sys2Proof.Machine.execOr d a b s
  | .xor d a b => Sys2Proof.Machine.execXor d a b s
  | .andi d a imm => Sys2Proof.Machine.execAndi d a imm s
  | .ori d a imm => Sys2Proof.Machine.execOri d a imm s
  | .xori d a imm => Sys2Proof.Machine.execXori d a imm s
  | .shl d a b => Sys2Proof.Machine.execShl d a b s
  | .shr d a b ar => Sys2Proof.Machine.execShr d a b ar s
  | .shli d a n => Sys2Proof.Machine.execShli d a n s
  | .shri d a n ar => Sys2Proof.Machine.execShri d a n ar s
  | .rotl d a b => Sys2Proof.Machine.execRotl d a b s
  | .min d a b u => Sys2Proof.Machine.execMin d a b u s
  | .max d a b u => Sys2Proof.Machine.execMax d a b u s
  | .clz d a => Sys2Proof.Machine.execClz d a s
  | .popc d a => Sys2Proof.Machine.execPopc d a s
  | .bswap d a => Sys2Proof.Machine.execBswap d a s
  | .ext d a lsb wm1 sx => Sys2Proof.Machine.execExt d a lsb wm1 sx s
  | .ins d a b lsb wm1 => Sys2Proof.Machine.execIns d a b lsb wm1 s
  | .li d imm => Sys2Proof.Machine.execLi d imm s
  | .lih d a imm => Sys2Proof.Machine.execLih d a imm s
  | .mov d a => Sys2Proof.Machine.execMov d a s
  | .sel d a b p => Sys2Proof.Machine.execSel d a b p s
  | .addsh d a b sh => Sys2Proof.Machine.execAddsh d a b sh s
  | .madd d a b c => Sys2Proof.Machine.execMadd d a b c s
  | .fadd d a b dbl => Sys2Proof.Machine.execFadd d a b dbl s
  | .fsub d a b dbl => Sys2Proof.Machine.execFsub d a b dbl s
  | .fmul d a b dbl => Sys2Proof.Machine.execFmul d a b dbl s
  | .fma d a b c dbl => Sys2Proof.Machine.execFma d a b c dbl s
  | .fdiv d a b dbl => Sys2Proof.Machine.execFdiv d a b dbl s
  | .fsqrt d a dbl => Sys2Proof.Machine.execFsqrt d a dbl s
  | .fmin d a b dbl => Sys2Proof.Machine.execFmin d a b dbl s
  | .fmax d a b dbl => Sys2Proof.Machine.execFmax d a b dbl s
  | .fcvt d a dst src rtz => Sys2Proof.Machine.execFcvt d a dst src rtz s
  | .fsgn d a b k dbl => Sys2Proof.Machine.execFsgn d a b k dbl s
  | .fclass d a dbl => Sys2Proof.Machine.execFclass d a dbl s
  | .cmp p pc a b cc => Sys2Proof.Machine.execCmp p pc a b cc s
  | .cmpi p a imm cc => Sys2Proof.Machine.execCmpi p a imm cc s
  | .fcmp p pc a b cc dbl => Sys2Proof.Machine.execFcmp p pc a b cc dbl s
  | .plog p pa pb table => Sys2Proof.Machine.execPlog p pa pb table s
  | .ptog d => Sys2Proof.Machine.execPtog d s
  | .gtop a b => Sys2Proof.Machine.execGtop a b s
  | .tbit p a n inv => Sys2Proof.Machine.execTbit p a n inv s
  | .br off => Sys2Proof.Machine.execBr off s
  | .brr a link => Sys2Proof.Machine.execBrr a link s
  | .call off => Sys2Proof.Machine.execCall off s
  | .ret a => Sys2Proof.Machine.execRet a s
  | .loop lc a lm1 sm1 y pb => Sys2Proof.Machine.execLoop lc a lm1 sm1 y pb s
  | .lbrk lc => Sys2Proof.Machine.execLbrk lc s
  | .yield => Sys2Proof.Machine.execYield s
  | .exit => Sys2Proof.Machine.execExit s
  | .launch d a nb => Sys2Proof.Machine.execLaunch d a nb s
  | .cancel d a b lvl => Sys2Proof.Machine.execCancel d a b lvl s
  | .waitc d a b lvl => Sys2Proof.Machine.execWaitc d a b lvl s
  | .sbar mask => Sys2Proof.Machine.execSbar mask s
  | .trap code => Sys2Proof.Machine.execTrap code s
  | .brk code => Sys2Proof.Machine.execBrk code s
  | .mfs d sys => Sys2Proof.Machine.execMfs d sys s
  | .mts sys a => Sys2Proof.Machine.execMts sys a s
  | .rft => Sys2Proof.Machine.execRft s
  | .tlbi a b kind scp => Sys2Proof.Machine.execTlbi a b kind scp s
  | .icinv a b scp => Sys2Proof.Machine.execIcinv a b scp s
  | .nop => Sys2Proof.Machine.execNop s
  | .ld d m sx sz => Sys2Proof.Machine.execLd d m sx sz s
  | .st c m sz => Sys2Proof.Machine.execSt c m sz s
  | .ldq d c m => Sys2Proof.Machine.execLdq d c m s
  | .stq dm b c masked m => Sys2Proof.Machine.execStq dm b c masked m s
  | .ldt d m sx sz => Sys2Proof.Machine.execLdt d m sx sz s
  | .ldl d pc m sz => Sys2Proof.Machine.execLdl d pc m sz s
  | .stu c m sz => Sys2Proof.Machine.execStu c m sz s
  | .spamo d a b c off op dbl => Sys2Proof.Machine.execSpamo d a b c off op dbl s
  | .amo d a b c off op dbl ord scp => Sys2Proof.Machine.execAmo d a b c off op dbl ord scp s
  | .amosc d a b c off op dbl => Sys2Proof.Machine.execAmosc d a b c off op dbl s
  | .fence ord scp => Sys2Proof.Machine.execFence ord scp s
  | .tfence scp => Sys2Proof.Machine.execTfence scp s
  | .cueinc win n a b scp => Sys2Proof.Machine.execCueinc win n a b scp s
  | .cuewait n b scp => Sys2Proof.Machine.execCuewait n b scp s
  | .cuerd d win n a => Sys2Proof.Machine.execCuerd d win n a s
  | .tkpush mask => Sys2Proof.Machine.execTkpush mask s
  | .tkpop mask => Sys2Proof.Machine.execTkpop mask s
  | .lwarm a b => Sys2Proof.Machine.execLwarm a b s
  | .lwwait a b => Sys2Proof.Machine.execLwwait a b s
  | .pref m llc => Sys2Proof.Machine.execPref m llc s
  | .cflush a b kind scp => Sys2Proof.Machine.execCflush a b kind scp s
  | .mapb a mode => Sys2Proof.Machine.execMapb a mode s
  | .vshape d a b c => Sys2Proof.Machine.execVshape d a b c s
  | .vadd v => Sys2Proof.Machine.execVadd v s
  | .vsub v => Sys2Proof.Machine.execVsub v s
  | .vmul v => Sys2Proof.Machine.execVmul v s
  | .vfma v => Sys2Proof.Machine.execVfma v s
  | .vmax v => Sys2Proof.Machine.execVmax v s
  | .vmin v => Sys2Proof.Machine.execVmin v s
  | .vlog v => Sys2Proof.Machine.execVlog v s
  | .vsh v => Sys2Proof.Machine.execVsh v s
  | .vcmp v => Sys2Proof.Machine.execVcmp v s
  | .vsel v => Sys2Proof.Machine.execVsel v s
  | .vsfu v => Sys2Proof.Machine.execVsfu v s
  | .vcvt v => Sys2Proof.Machine.execVcvt v s
  | .vred v => Sys2Proof.Machine.execVred v s
  | .vbcast v => Sys2Proof.Machine.execVbcast v s
  | .vtrn v => Sys2Proof.Machine.execVtrn v s
  | .vpart v => Sys2Proof.Machine.execVpart v s
  | .vgath v => Sys2Proof.Machine.execVgath v s
  | .vscat v => Sys2Proof.Machine.execVscat v s
  | .vgathm v => Sys2Proof.Machine.execVgathm v s
  | .vscan v => Sys2Proof.Machine.execVscan v s
  | .viota v => Sys2Proof.Machine.execViota v s
  | .vtopk v => Sys2Proof.Machine.execVtopk v s
  | .vnorm v => Sys2Proof.Machine.execVnorm v s
  | .vrng v => Sys2Proof.Machine.execVrng v s
  | .vquant v => Sys2Proof.Machine.execVquant v s
  | .vdeq v => Sys2Proof.Machine.execVdeq v s
  | .vsample v => Sys2Proof.Machine.execVsample v s
  | .vmovg v => Sys2Proof.Machine.execVmovg v s
  | .vcopy v => Sys2Proof.Machine.execVcopy v s
  | .mma t a b n => Sys2Proof.Machine.execMma t a b n s
  | .mmaz t a b n => Sys2Proof.Machine.execMmaz t a b n s
  | .mgma t a b c n gm1 => Sys2Proof.Machine.execMgma t a b c n gm1 s
  | .mdrain t a b c n fmt sm sat clr scale => Sys2Proof.Machine.execMdrain t a b c n fmt sm sat clr scale s
  | .mldacc t a b n int => Sys2Proof.Machine.execMldacc t a b n int s
  | .mzero t mask => Sys2Proof.Machine.execMzero t mask s
  | .mamax t a n => Sys2Proof.Machine.execMamax t a n s
  | .fmtq a => Sys2Proof.Machine.execFmtq a s
  | .attn t a => Sys2Proof.Machine.execAttn t a s
  | .attnCaskBoundary c => Sys2Proof.Machine.execAttnCaskBoundary c s
  | .kvapp t a b c nm1 adv => Sys2Proof.Machine.execKvapp t a b c nm1 adv s
  | .kvfork d a b => Sys2Proof.Machine.execKvfork d a b s
  | .kvdrop a => Sys2Proof.Machine.execKvdrop a s
  | .kvclass a b cls => Sys2Proof.Machine.execKvclass a b cls s
  | .kvquery d a b => Sys2Proof.Machine.execKvquery d a b s
  | .kvtrim a b => Sys2Proof.Machine.execKvtrim a b s
  | .cpy e dsp ssp scp => Sys2Proof.Machine.execCpy e dsp ssp scp s
  | .cpyf e ssp => Sys2Proof.Machine.execCpyf e ssp s
  | .cpyg e dsp scp fifo z => Sys2Proof.Machine.execCpyg e dsp scp fifo z s
  | .cpys e scp => Sys2Proof.Machine.execCpys e scp s
  | .cpyz e dsp scp => Sys2Proof.Machine.execCpyz e dsp scp s
  | .tsobj t a b => Sys2Proof.Machine.execTsobj t a b s
  | .tsdrop t b => Sys2Proof.Machine.execTsdrop t b s
  | .xform e dsp ssp scp routine => Sys2Proof.Machine.execXform e dsp ssp scp routine s
  | .card e => Sys2Proof.Machine.execCard e s
  | .cardwt e => Sys2Proof.Machine.execCardwt e s
  | .fld e sz ord => Sys2Proof.Machine.execFld e sz ord s
  | .fst e sz ord => Sys2Proof.Machine.execFst e sz ord s
  | .famo e op dbl ord => Sys2Proof.Machine.execFamo e op dbl ord s
  | .fput e ssp ord => Sys2Proof.Machine.execFput e ssp ord s
  | .fget e dsp ord => Sys2Proof.Machine.execFget e dsp ord s
  | .fsig e => Sys2Proof.Machine.execFsig e s
  | .ffence e => Sys2Proof.Machine.execFfence e s
  | .lockstepIssue c => Sys2Proof.Machine.execLockstepIssue c s
  | .queueStallRelease c t => Sys2Proof.Machine.execQueueStallRelease c t s
  | .cuewaitSatisfied c t => Sys2Proof.Machine.execCuewaitSatisfied c t s
  | .tkpopSatisfied c t => Sys2Proof.Machine.execTkpopSatisfied c t s
  | .lwwaitSatisfied c t => Sys2Proof.Machine.execLwwaitSatisfied c t s
  | .waitcSatisfied c t => Sys2Proof.Machine.execWaitcSatisfied c t s
  | .sbarRelease c => Sys2Proof.Machine.execSbarRelease c s
  | .spamoRetry c t => Sys2Proof.Machine.execSpamoRetry c t s
  | .engineCommandStart c e => Sys2Proof.Machine.execEngineCommandStart c e s
  | .engineCommandFinish c e => Sys2Proof.Machine.execEngineCommandFinish c e s
  | .streamBytesReady c => Sys2Proof.Machine.execStreamBytesReady c s
  | .globalWritePerform c k => Sys2Proof.Machine.execGlobalWritePerform c k s
  | .dieUpdateApply d k => Sys2Proof.Machine.execDieUpdateApply d k s
  | .llcFill d line key cmp => Sys2Proof.Machine.execLlcFill d line key cmp s
  | .llcWrite d line off data => Sys2Proof.Machine.execLlcWrite d line off data s
  | .engineFault c e => Sys2Proof.Machine.execEngineFault c e s
  | .engineFaultDelivery c => Sys2Proof.Machine.execEngineFaultDelivery c s
  | .engfaultRestart c e => Sys2Proof.Machine.execEngfaultRestart c e s
  | .engfaultAbandon c e => Sys2Proof.Machine.execEngfaultAbandon c e s
  | .engctlHalt c mask => Sys2Proof.Machine.execEngctlHalt c mask s
  | .singleStep c t => Sys2Proof.Machine.execSingleStep c t s
  | .scoreboardedResult c t k => Sys2Proof.Machine.execScoreboardedResult c t k s
  | .iterationPlace launch => Sys2Proof.Machine.execIterationPlace launch s
  | .slotFill d => Sys2Proof.Machine.execSlotFill d s
  | .deficitCharge d job clocks => Sys2Proof.Machine.execDeficitCharge d job clocks s
  | .preemptionRequest d => Sys2Proof.Machine.execPreemptionRequest d s
  | .cohortAdmit launch => Sys2Proof.Machine.execCohortAdmit launch s
  | .understudyStage c => Sys2Proof.Machine.execUnderstudyStage c s
  | .prologueCopy c => Sys2Proof.Machine.execPrologueCopy c s
  | .iterationEnterRunning c => Sys2Proof.Machine.execIterationEnterRunning c s
  | .iterationDrainEnd c => Sys2Proof.Machine.execIterationDrainEnd c s
  | .nodeStart node => Sys2Proof.Machine.execNodeStart node s
  | .nodeEnd node => Sys2Proof.Machine.execNodeEnd node s
  | .contextStop c => Sys2Proof.Machine.execContextStop c s
  | .imageWrite c => Sys2Proof.Machine.execImageWrite c s
  | .drainTimeout c => Sys2Proof.Machine.execDrainTimeout c s
  | .imageRestore c => Sys2Proof.Machine.execImageRestore c s
  | .debugStop c => Sys2Proof.Machine.execDebugStop c s
  | .debugGo c => Sys2Proof.Machine.execDebugGo c s
  | .cardStart card engine => Sys2Proof.Machine.execCardStart card engine s
  | .prompterCardRun engine => Sys2Proof.Machine.execPrompterCardRun engine s
  | .narratorCardRun engine => Sys2Proof.Machine.execNarratorCardRun engine s
  | .cardEnd card => Sys2Proof.Machine.execCardEnd card s
  | .engineNotReadyCardFail card => Sys2Proof.Machine.execEngineNotReadyCardFail card s
  | .request port flow msg => Sys2Proof.Machine.execRequest port flow msg s
  | .cancelMessage port flow msg => Sys2Proof.Machine.execCancelMessage port flow msg s
  | .replyReceived port flow msg => Sys2Proof.Machine.execReplyReceived port flow msg s
  | .hifDoorbell v => Sys2Proof.Machine.execHifDoorbell v s
  | .hifCapbase v => Sys2Proof.Machine.execHifCapbase v s
  | .jobSet k => Sys2Proof.Machine.execJobSet k s
  | .jobFree k => Sys2Proof.Machine.execJobFree k s
  | .keyLoad k => Sys2Proof.Machine.execKeyLoad k s
  | .keyDestroy k => Sys2Proof.Machine.execKeyDestroy k s
  | .linkKey k => Sys2Proof.Machine.execLinkKey k s
  | .copy k => Sys2Proof.Machine.execCopy k s
  | .vocabInstall k => Sys2Proof.Machine.execVocabInstall k s
  | .routineLoad k => Sys2Proof.Machine.execRoutineLoad k s
  | .serviceSet k => Sys2Proof.Machine.execServiceSet k s
  | .capsuleLaunch k => Sys2Proof.Machine.execCapsuleLaunch k s
  | .imageResume k => Sys2Proof.Machine.execImageResume k s
  | .fabDevnumWrite v => Sys2Proof.Machine.execFabDevnumWrite v s
  | .flitReceive link f => Sys2Proof.Machine.execFlitReceive link f s
  | .fabricRequestPerform k => Sys2Proof.Machine.execFabricRequestPerform k s
  | .fabRetryExpiry c n => Sys2Proof.Machine.execFabRetryExpiry c n s
  | .linkReplay link lseq auth => Sys2Proof.Machine.execLinkReplay link lseq auth s
  | .epochSwitch link => Sys2Proof.Machine.execEpochSwitch link s
  | .oldKeyDestroy l => Sys2Proof.Machine.execOldKeyDestroy l s
  | .chunkGrant k => Sys2Proof.Machine.execChunkGrant k s
  | .cxlRangeWrite r off v => Sys2Proof.Machine.execCxlRangeWrite r off v s
  | .cxlPortDownAccess c line => Sys2Proof.Machine.execCxlPortDownAccess c line s
  | .cellarerRegisterWrite d off v => Sys2Proof.Machine.execCellarerRegisterWrite d off v s
  | .caskMove d cask tier fmt addr => Sys2Proof.Machine.execCaskMove d cask tier fmt addr s
  | .fp8Step d cask => Sys2Proof.Machine.execFp8Step d cask s
  | .cxlStep d cask => Sys2Proof.Machine.execCxlStep d cask s
  | .absentStep d cask => Sys2Proof.Machine.execAbsentStep d cask s
  | .recall d agree => Sys2Proof.Machine.execRecall d agree s
  | .lenderTimeout c => Sys2Proof.Machine.execLenderTimeout c s
  | .agreementInvalidate d agree => Sys2Proof.Machine.execAgreementInvalidate d agree s
  | .sramScrub c row ce ue => Sys2Proof.Machine.execSramScrub c row ce ue s
  | .llcScrub d slice set ue => Sys2Proof.Machine.execLlcScrub d slice set ue s
  | .hbmScrub line ue => Sys2Proof.Machine.execHbmScrub line ue s
  | .encoreCaptureStart => Sys2Proof.Machine.execEncoreCaptureStart s
  | .encoreReplayStart => Sys2Proof.Machine.execEncoreReplayStart s
  | .encoreOff => Sys2Proof.Machine.execEncoreOff s
  | .powerStepDown mw temp => Sys2Proof.Machine.execPowerStepDown mw temp s
  | .powerStepUp mw temp => Sys2Proof.Machine.execPowerStepUp mw temp s
  | .thermalShutdown temp => Sys2Proof.Machine.execThermalShutdown temp s
  | .packageReset => Sys2Proof.Machine.execPackageReset s
  | .bootGo => Sys2Proof.Machine.execBootGo s
  | .configBlobApply blob => Sys2Proof.Machine.execConfigBlobApply blob s
  | .functionReady f k => Sys2Proof.Machine.execFunctionReady f k s
  | .readinessClear f k => Sys2Proof.Machine.execReadinessClear f k s
  | .shaStart v => Sys2Proof.Machine.execShaStart v s
  | .shaDone => Sys2Proof.Machine.execShaDone s
  | .eccStart v => Sys2Proof.Machine.execEccStart v s
  | .eccDone => Sys2Proof.Machine.execEccDone s
  | .measExtend v => Sys2Proof.Machine.execMeasExtend v s
  | .measDone => Sys2Proof.Machine.execMeasDone s
  | .mbxRsplen v => Sys2Proof.Machine.execMbxRsplen v s
  | .doeDiscovery req => Sys2Proof.Machine.execDoeDiscovery req s
  | .getVersion req => Sys2Proof.Machine.execGetVersion req s
  | .getCapabilities req => Sys2Proof.Machine.execGetCapabilities req s
  | .negotiateAlgorithms req => Sys2Proof.Machine.execNegotiateAlgorithms req s
  | .getMeasurements req => Sys2Proof.Machine.execGetMeasurements req s
  | .registerWrite off dbl v => Sys2Proof.Machine.execRegisterWrite off dbl v s
  | .flowOpen port flow => Sys2Proof.Machine.execFlowOpen port flow s
  | .flowClose port flow => Sys2Proof.Machine.execFlowClose port flow s
  | .spdmRequest req => Sys2Proof.Machine.execSpdmRequest req s

end Sys2Proof.Machine
end

