-- ==== Sys2Proof/Machine/Run.lean ====
section
/-! DEFINITION. What moves next, the clocks of the cores, and how one word comes to be the next bundle (logs 5, 6, 9). -/

namespace Sys2Proof.Machine

/-! ## What the part can do by itself -/

/-- Bundles, waits, engines and the context of one core. -/
def coreActs (c n : Nat) : List Act :=
  let ev (i : Instr) : Act := .ev i
  ((four.map fun t => Act.strand c t)
    ++ four.flatMap fun t => [ev (.queueStallRelease c t), ev (.cuewaitSatisfied c t), ev (.tkpopSatisfied c t), ev (.lwwaitSatisfied c t),
        ev (.waitcSatisfied c t), ev (.spamoRetry c t), ev (.singleStep c t), ev (.scoreboardedResult c t n)])
    ++ (four.flatMap fun e => [ev (.engineCommandStart c e), ev (.engineCommandFinish c e), ev (.engineFault c e),
        ev (.engfaultRestart c e), ev (.engfaultAbandon c e)])
    ++ [ev (.lockstepIssue c), ev (.sbarRelease c), ev (.streamBytesReady c), ev (.attnCaskBoundary c), ev (.globalWritePerform c n),
        ev (.engineFaultDelivery c), ev (.understudyStage c), ev (.prologueCopy c), ev (.iterationEnterRunning c),
        ev (.iterationDrainEnd c), ev (.contextStop c), ev (.imageWrite c), ev (.drainTimeout c), ev (.imageRestore c), ev (.debugStop c),
        ev (.lenderTimeout c)]

/-- The Stage Manager and the Cellarer of one die. -/
def dieActs (s : State) (d : Fin 4) (n : Nat) : List Act :=
  [.ev (.dieUpdateApply d n), .ev (.slotFill d), .ev (.preemptionRequest d), .ev (.fp8Step d n), .ev (.cxlStep d n), .ev (.absentStep d n),
    .ev (.recall d (Fin.ofNat 8 n))]
    ++ (s.die d).owed.map fun j => .ev (.deficitCharge d j n)

/-- The steps of one node. -/
def nodeActs (m : Node) : List Act :=
  let ev (i : Instr) : Act := .ev i
  [ev (.nodeStart m.id), ev (.nodeEnd m.id), ev (.iterationPlace m.id), ev (.cohortAdmit m.id), ev (.cardEnd m.id), ev (.engineNotReadyCardFail m.id)]
    ++ (List.range 16).map fun e => ev (.cardStart m.id e)

/-- The functions of the I/O die: text engines, fabric, capsules, management blocks, self-tests. -/
def iodActs (n : Nat) : List Act :=
  let ev (i : Instr) : Act := .ev i
  let i : Fin 32 := Fin.ofNat 32 n
  let l : Fin 12 := Fin.ofNat 12 n
  [ev (.prompterCardRun (n % 8)), ev (.narratorCardRun (8 + n % 8)), ev (.fabricRequestPerform n), ev (.chunkGrant n), ev (.epochSwitch l),
   ev (.oldKeyDestroy ⟨l, false⟩), ev (.jobSet i), ev (.jobFree i), ev (.keyLoad i), ev (.keyDestroy i), ev (.linkKey i), ev (.copy i),
   ev (.vocabInstall i), ev (.routineLoad i), ev (.serviceSet i), ev (.capsuleLaunch i), ev (.imageResume i), ev .shaDone, ev .eccDone,
   ev .measDone, .replay]
    ++ allFuncs.map fun f => ev (.functionReady f (n % (funcSpan f).1))

/-- Everything the part may do next by itself; a step whose condition does not hold changes nothing (log 7). -/
def State.acts (s : State) (n : Nat) : List Act :=
  iodActs n ++ (s.iod.outReqs.map fun r => .ev (.fabRetryExpiry r.req.core ⟨r.req.dst, r.req.seq⟩)) ++ (s.cores.flatMap fun e => coreActs e.1 n) ++ (allDies.flatMap fun d => dieActs s d n) ++ s.nodes.flatMap nodeActs

/-- The next action: the first the agenda names, or a free one; and what is left of the agenda. -/
def State.nextAct (s : State) : Act × State :=
  match s.agenda with
  | a :: rest => (a, { s with agenda := rest })
  | [] =>
    let (t, s) := s.draw
    let l := s.acts (Config.freeNat t)
    (l.getD (Config.nextAct t % l.length) .replay, s)

/-- Time passes on every core that is up (R102, R465). -/
def State.clock (s : State) : State :=
  let (t, s) := s.draw
  { s with cores := s.cores.map fun e => (e.1, { e.2 with cycle := e.2.cycle + BitVec.ofNat 64 (Config.clocks t e.1) }) }

/-- One action. -/
def perform (a : Act) (s : State) : Out :=
  match a with
  | .strand c t => issueStrand exec c t s
  | .ev i => exec i s
  | .replay => .next s.replayMsg

/-- A part that has shut down does nothing but reset (R465). -/
def State.barred (s : State) (a : Act) : Bool := !s.powered && a != .ev .packageReset

/-! ## A word as the next bundle (log 5) -/

/-- Where the bundle, its page tables and its key are placed. -/
def fetchVa : Nat := 0x100000
def fetchTables : Nat := 0x200000
def fetchKid : Nat := 1

/-- Tables that map the first 64 GiB to themselves for user and supervisor, all access allowed. -/
def fetchMap (m : Mem) : Mem :=
  let m := Memory.writeList m fetchTables (toLe 8 (1 + (fetchTables + 0x4000) / 2 ^ 14 * 2 ^ 22))
  Memory.writeList m (fetchTables + 0x4000) (toLe 8 (63 + fetchKid * 2 ^ 12))

/-- A die that holds no cached line and the key of the bundle's page. -/
def Die.forFetch (d : Die) : Die := { d with sets := [], stale := [], upds := [], tlb := [], keys := d.keys.put fetchKid 1 }

/-- A core whose strand 0 is to issue the bundle. -/
def Core.forFetch : Core :=
  { Core.zero with
    st := { Core.zero.st with e0 := { Strand.zero with pc := BitVec.ofNat 64 fetchVa, cond := .ready } },
    run := some (Ctx.fresh 0 0 0), ptbase := BitVec.ofNat 64 fetchTables, keyid := BitVec.ofNat 64 fetchKid, budget := 0xFFFFFFFF }

/-- The bundle of a word: the word's own 128 bits, or a syllable of at most 64 bits beside the filler of R99. -/
def fetchBundle (nbits w : Nat) : Nat := if 64 < nbits then w % 2 ^ 128 else encodeBundle (w % 2 ^ 62) filler false

end Sys2Proof.Machine
end

