-- ==== Sys2Proof/Machine/Step.lean ====
section
/-! DEFINITION. One step of the package, and the state in which a given word is fetched next. -/

namespace Sys2Proof.Machine

/-- One step: time passes, and the next action is taken (log 6). -/
def step (s : State) : Host.Outcome State Fault Refusal :=
  let (a, s') := s.nextAct
  if s'.barred a then .fault .shutDown else perform a s'.clock

/-- The state with a word placed as the bundle that the very next step issues (log 5). -/
def State.withFetchWord (s : State) (nbits w : Nat) : State :=
  let d := s.dies
  { s with
    cores := s.cores.put 0 Core.forFetch
    dies := ⟨d.e0.forFetch, d.e1.forFetch, d.e2.forFetch, d.e3.forFetch⟩
    iod := { s.iod with ready := if s.iod.ready.contains (.core, 0) then s.iod.ready else (.core, 0) :: s.iod.ready }
    dram := Memory.writeList (fetchMap s.dram) fetchVa (leBytes 16 (fetchBundle nbits w))
    lineKey := ((s.lineKey.del (fetchVa / 128)).del (fetchTables / 128)).del ((fetchTables + 0x4000) / 128)
    poisoned := ((s.poisoned.del (fetchVa / 128)).del (fetchTables / 128)).del ((fetchTables + 0x4000) / 128)
    iss := Issue.zero
    agenda := [.strand 0 0]
    powered := true }

end Sys2Proof.Machine
end

