-- ==== Sys2Proof/Safety.lean ====
section
/-! DEFINITION. The terms in which claims about the machine are stated: what memory reads as, what an instruction leaves alone. -/

namespace Sys2Proof.Machine

/-! ## Reading memory -/

/-- Byte `pa` of global memory as core `c` reads it under key ID `kid`, with no change of the machine; none where the key or
poison forbids the read. -/
def State.byteAt (s : State) (c pa kid : Nat) : Option Byte :=
  (s.peekLine (dieOf c) (pa / 128) kid).map fun d => s.coreByte c pa (d.getD (pa % 128) 0)

/-- Every byte of global memory, under every key and from every core, reads in `t` as in `s`. -/
def SameGlobal (s t : State) : Prop := ∀ c pa kid, t.byteAt c pa kid = s.byteAt c pa kid

/-- Every byte of every scratchpad outside `p` reads in `t` as in `s`. -/
def SameScratch (s t : State) (p : Nat → Nat → Prop) : Prop := ∀ c a, ¬ p c a → (t.core c).spByte a = (s.core c).spByte a

/-- No byte is left out. -/
def Nowhere (_ _ : Nat) : Prop := False

/-- All of memory reads in `t` as in `s`. -/
def SameMemory (s t : State) : Prop := SameGlobal s t ∧ SameScratch s t Nowhere

/-! ## Words of scratchpad that may be old (R43) -/

/-- Nothing orders a read by agent `who` of word `q` of scratchpad after its latest write: it may find the word as it was. -/
def Core.mayBeOld (k : Core) (who q : Nat) : Prop := ∃ e, k.torn.find q = some e ∧ e.who ≠ who ∧ who ∉ e.seen

/-- Agent `who` of core `c` has read `n` bytes of scratchpad from `a` in `s`, with `w` after it, and byte `x` as `byte x`: each aligned
8-byte word whole, as it is or, where nothing orders the read, as it was; a word that it finds new no agent finds old any more, and
nothing else changes (R43, R289). -/
structure Sees (s w : State) (c who a n : Nat) (byte : Nat → Byte) : Prop where
  word : ∃ old : Nat → Bool, (∀ q, old q = true → (s.core c).mayBeOld who q)
    ∧ ∀ x, a ≤ x → x < a + n → byte x = if old (x / 8) = true then (s.core c).spOld x else (s.core c).spByte x
  torn : ∀ q, (w.core c).torn.find q = (s.core c).torn.find q ∨ (w.core c).torn.find q = none
  core : ∀ q, w.core q = if q = c then { s.core c with torn := (w.core c).torn } else s.core q
  rest : { w with cores := s.cores, tick := s.tick } = s
  plain : (∀ x, a ≤ x → x < a + n → ¬ (s.core c).mayBeOld who (x / 8)) → w = s

/-! ## Accesses of memory -/

/-- `t` is `s` but for memory, caches, translation, ordering data, counters and tracing. -/
structure Access (s t : State) : Prop where
  top : t = { s with
    cores := t.cores, dies := t.dies, iod := { s.iod with msix := t.iod.msix, mgmtLog := t.iod.mgmtLog }, dram := t.dram, lineKey := t.lineKey,
    poisoned := t.poisoned, gmeta := t.gmeta, scSet := t.scSet, widNext := t.widNext, tick := t.tick }
  core : ∀ c, t.core c = { s.core c with
    tlb := (t.core c).tlb, ic := (t.core c).ic, tc := (t.core c).tc, dc := (t.core c).dc, wbuf := (t.core c).wbuf,
    stamp := (t.core c).stamp, sramUe := (t.core c).sramUe, torn := (t.core c).torn,
        traceLost := (t.core c).traceLost, traceDrop := (t.core c).traceDrop, traceN := (t.core c).traceN }

/-- The BRKCTL watchpoint of the issuing core meets a user-mode access to `n` bytes of global memory (R456). -/
def State.watches (s : State) (ea : Word) (n : Nat) (wr : Bool) : Prop :=
  s.str.sup = false ∧ s.me.brkctl.toNat / 2 ^ 16 * 1024 < ea.toNat + n ∧ ea.toNat < s.me.brkctl.toNat / 2 ^ 16 * 1024 + 1024
    ∧ s.me.brkctl.getLsbD (if wr then 7 else 6) = true

/-- The issuing strand's pending loads of `n` bytes at a physical address have completed: a later access comes after them (R289). -/
def State.settled (s : State) (pa n : Nat) : State := s.sbForce s.iss.core s.iss.strand (fun b => b.meets pa n)

/-- A strand instruction has left alone all but memory, caches and tracing and the issuing strand's registers, its scoreboard and its
knowledge of other agents' writes: its registers too where none of its operations was pending. -/
def Ordered (s t : State) : Prop :=
  Access s (t.modStr fun _ => s.str) ∧ SameScratch s t Nowhere ∧ (s.str.sb = [] → t.str = { s.str with ord := t.str.ord })

/-- No posted store of the issuing core and no die's update is under way. -/
def State.settledMemory (s : State) : Prop := s.me.wbuf = [] ∧ ∀ d, (s.die d).upds = []

/-- The line of `pa` holds `bs` from there in its home slice in `t`, and its other bytes as in `s`, where it was resident. -/
def HomeHolds (s t : State) (pa : Nat) (bs : List Byte) : Prop :=
  ∃ e f, s.resident (homeOf (pa / 128)) (pa / 128) = some e ∧ t.resident (homeOf (pa / 128)) (pa / 128) = some f
    ∧ ∀ j < 128, f.data.getD j 0 = if pa % 128 ≤ j ∧ j < pa % 128 + bs.length then bs.getD (j - pa % 128) 0 else e.data.getD j 0

/-- `t` is `s` with one operation more pending in the scoreboard of the issuing strand: it will write `vals` to `ds` (R16, R19). -/
def Pends (s t : State) (ds : List Reg) (vals : List Word) (f : Flags) : Prop :=
  ∃ w, t.str.sb = s.str.sb ++ [⟨s.str.sbNext, ds, vals, f, w⟩] ∧ t = s.modStr fun u => { u with sb := t.str.sb, sbNext := u.sbNext + 1 }

/-! ## Results of fixed latency (R17) -/

/-- The issuing strand as a syllable `k` bundles later finds its registers, once what is due by then has been written. -/
def State.later (s : State) (k : Nat) : Strand := s.str.landDue (s.str.n + k)

/-- What a destination of a strand holds: a register's value, or 1 for a true predicate. -/
def Strand.holds (u : Strand) : Dst → Word
  | .reg r => u.rd r
  | .pred p => if u.rp p then 1 else 0

/-- What a destination holds after a write of `v`: g0 stays zero (R13), a predicate takes the lowest bit. -/
def written (d : Dst) (v : Word) : Word :=
  match d with
  | .reg r => if r = 0 then 0 else v
  | .pred _ => v &&& 1

/-- `t` is `s` with operations of latency `l` in flight that write the listed values: a syllable `l` bundles later reads them, an earlier
one and every other register reads what it read before, the flags join SFLAGS with the results, and nothing else of the machine and
no byte of memory differs (R13, R17, R81). -/
structure Results (s t : State) (l : Nat) (rs : List (Dst × Word)) (f : Flags) : Prop where
  value : ∀ dv ∈ rs, (t.later l).holds dv.1 = written dv.1 dv.2
  others : ∀ k d, (k < l ∨ d ∉ rs.map (·.1)) → (t.later k).holds d = (s.later k).holds d
  flags : ∀ k, (t.later k).xflags = if l ≤ k then (s.later k).xflags ||| f.zeroExtend 64 else (s.later k).xflags
  rest : t = s.modStr fun u => { u with pend := t.str.pend }
  memory : SameMemory s t

/-- The instruction completes with one result in a register. -/
def Gives (i : Instr) (s : State) (l : Nat) (d : Reg) (v : Word) (f : Flags) : Prop :=
  ∃ t, exec i s = .next t ∧ Results s t l [(.reg d, v)] f

/-- The instruction completes with results in predicates. -/
def Decides (i : Instr) (s : State) (l : Nat) (ps : List (Pred × Bool)) (f : Flags) : Prop :=
  ∃ t, exec i s = .next t ∧ Results s t l (ps.map fun e => (.pred e.1, if e.2 then 1 else 0)) f

/-- The registers of the issuing strand are in canonical form, as every write leaves them. -/
def State.regsWf (s : State) : Prop := Tab.wf 0 s.str.g = true

/-! ## The end of a bundle -/

/-- The bundle has decided nothing yet: no branch, trap, wait, exit, park or system register write. -/
def Issue.clean (i : Issue) : Prop :=
  i.redirect = none ∧ i.taken = false ∧ i.noStep = false ∧ i.trapped = none ∧ i.held = none ∧ i.sysw = [] ∧ i.ret = none
    ∧ i.exits = false ∧ i.parks = false

/-- A strand whose bundle is under execution. -/
def State.underWay (s : State) : Prop := s.iss.clean ∧ s.str.cond ≠ .exited ∧ s.str.pc = s.iss.pc

/-- The strand after its bundle has issued in order: the next PC, and one bundle more; an sbar it had left in that bundle counts no
longer (R133). -/
def Strand.step (u : Strand) (pc : Word) : Strand :=
  { u with pc := pc, n := u.n + 1, cond := .ready, lkstep := false, stepPend := false,
           passed := if u.passed = some u.pc then none else u.passed }

/-- A bundle whose only instruction is `i` completes and leaves the issuing strand as `u`, and nothing else of the machine changed. -/
def Leads (i : Instr) (s : State) (u : Strand) : Prop :=
  ∃ t, exec i s = .next t ∧ t.iss.trapped = none ∧ t.iss.held = none ∧ t.finish s.str.sup false false = (s.modStr fun _ => u).closed

/-- No loop of the strand steps at the bundle under execution (R129). -/
def State.noLoopEnd (s : State) : Prop := ∀ k l, s.str.lc.get k = some l → ¬ (l.stop = s.iss.pc ∧ l.sup = s.str.sup)

/-- The core does not trace (R450). -/
def State.quiet (s : State) : Prop := s.me.tracectl.getLsbD 0 = false

/-! ## The issue of a bundle -/

/-- The issue context of a strand's bundle at the start of its execution. -/
def State.issuing (s : State) (c : Nat) (t : Fin 4) : State :=
  { s.modStrand c t (fun u => u.landDue u.n) with iss := { Issue.zero with core := c, strand := t, pc := (s.strand c t).pc } }

/-- Strand `t` of core `c` may issue the bundle at its PC: it holds instruction `i` in slot 0, whose guard holds, beside a nop in
slot 1; no operation of the strand is pending, and `a` is the state `i` executes in. `sync` is the bundle's SYNC bit. -/
def State.fetches (s : State) (c : Nat) (t : Fin 4) (sync : Bool) (i : Instr) (a : State) : Prop :=
  (s.core c).mayIssue t = true ∧ (s.strand c t).stepPend = false ∧ (s.strand c t).sb = [] ∧
    ∃ w b k g k' g', (s.issuing c t).fetch c t = .ok (w, b) ∧ (splitBundle w).sync = sync ∧ (splitBundle w).hdr = 0
      ∧ slotDecode b.str.sup 0 (splitBundle w).slot0 = .ok ⟨k, g, i⟩
      ∧ slotDecode b.str.sup 1 (splitBundle w).slot1 = .ok ⟨k', g', .nop⟩ ∧ guardHolds g b.str = true
      ∧ a = (b.modStr fun u => { u with drain := false }).modIss fun x => { x with slot := 0, k := k, syl := (splitBundle w).slot0 }

/-- An instruction executed in `a` ends in `b`, with no trap and no wait. -/
def Runs (i : Instr) (a b : State) : Prop := exec i a = .next b ∧ b.iss.trapped = none ∧ b.iss.held = none

/-! ## Nodes and contexts -/

/-- The node is in the table, and no other node has its id: none is given while another node holds it (R134; State.freshId). -/
def State.alone (s : State) (n : Node) : Prop := n ∈ s.nodes ∧ ∀ m ∈ s.nodes, m.id = n.id → m = n

/-- `t` has logged one Stage Manager event more than `s` on a die, and signalled it (R368, R403). -/
def Logs (s t : State) (d : Fin 4) (event core launch : Nat) : Prop :=
  (t.die d).errLog = BitVec.ofNat 64 (event + 256 * (core % 64) + 65536 * (launch % 2 ^ 32)) ∧ (t.die d).errCnt = (s.die d).errCnt + 1
    ∧ t.iod.msix = s.iod.msix ++ [1]

/-- Core `c` runs iteration `i` of launch `l` from its start, with understudy `u`: strands, ids and job registers as R47 and R51 give them. -/
structure Started (t : State) (c : Nat) (n : Node) (l : Launch) (i : Iter) (j : JobSlot) (u : Option Under) : Prop where
  ctx : ∃ r, (t.core c).run = some r ∧ r.iter = i.n ∧ r.launch = n.id ∧ r.yreq = false ∧ r.draining = false ∧ r.preDrain = false
  under : (t.core c).under = u
  ids : (t.core c).iterId = BitVec.ofNat 64 i.n ∧ (t.core c).launchId = BitVec.ofNat 64 n.id ∧ (t.core c).jobId = BitVec.ofNat 64 n.job
    ∧ (t.core c).phaseId = BitVec.ofNat 64 n.phase ∧ (t.core c).graphId = BitVec.ofNat 64 n.graph
  job : (t.core c).keyid = BitVec.ofNat 64 j.keyid ∧ (t.core c).ptbase = j.ptbase ∧ (t.core c).asid = BitVec.ofNat 64 j.asid
    ∧ (t.core c).budget = l.budget
  engines : (∀ m, (t.core c).acc.get m = Acc.zero ∧ (t.core c).amax.get m = 0) ∧ (t.core c).fmtq = []
    ∧ ∀ e, (t.engine c e).pend = false ∧ (e ≠ 2 → (t.engine c e).q = [])
  strand : ∀ x : Fin 4,
    let u := t.strand c x
    (∀ k : Fin 4, u.rd (BitVec.ofNat 6 (k.val + 1)) = BitVec.ofNat 64 (i.idx.get k)) ∧ u.rd 5 = l.argptr ∧ u.rd 6 = BitVec.ofNat 64 i.n
      ∧ u.rd 7 = BitVec.ofNat 64 n.id ∧ (∀ r : Reg, 7 < r.toNat → u.rd r = 0) ∧ u.p = 0 ∧ u.lc = Quad.all none ∧ u.pc = l.entry.get x
      ∧ u.sup = false ∧ u.rmode = 0 ∧ u.tshape = 0 ∧ u.tvec = j.tvec ∧ (x ≠ 0 → u.xflags = 0)
      ∧ u.cond = (if l.entry.get x = 0 then .exited else .ready)

/-- Iteration `i` of node `n` has state `st` in `t`. -/
def IterIs (t : State) (n : Node) (i : Iter) (st : IterSt) : Prop :=
  ∃ m ∈ t.nodes, m.id = n.id ∧ ∃ k ∈ m.iters, k.n = i.n ∧ k.idx = i.idx ∧ k.st = st

/-! ## Links -/

/-- `t` has sent a body over link `p` that had made `hop` traversals: it goes out under the link's epoch with the link's next sequence number
and waits in its replay buffer until it is acknowledged (R417, R419). -/
def Sends (s t : State) (p hop : Nat) (b : FlitBody) : Prop :=
  let k := s.iod.link p
  t.iod.link p = { k with
    lseq := k.lseq + flitsOf b, txCount := k.txCount + BitVec.ofNat 64 (flitsOf b),
    replay := replayKeep (k.replay ++ [⟨hop + 1, k.epoch, k.lseq % 2 ^ 16, true, true, k.rxGood, b⟩]) }

/-! ## Capsules -/

/-- Capsule `b` of ring entry `i`, with opcode `op`, is in progress, and the ring holds no other (R405, R406). -/
def State.capsule (s : State) (i : Fin 32) (b : List Byte) (op : Nat) : Prop :=
  s.iod.hifHead = s.iod.hifTail ∧ s.iod.inProg = [(i.val, b)] ∧ fld b 0 2 = op

/-- Step `y` ends capsule `b` of ring entry `i` from `w`, which it reached from `s`: result and status go into the entry where the host
answers, an MSI-X message follows where the capsule asks for one, and nothing else changes (R406, R407). -/
def Closes (i : Fin 32) (b : List Byte) (s : State) (y : Instr) (w : State) (error res : Nat) : Prop :=
  let a := s.iod.capBase.toNat + 128 * i.val
  ∃ t, exec y s = .next t ∧ t.iod.inProg = []
    ∧ t.iod.host = hostPut (hostPut w.iod.host (a + 0xC) (toLe 4 res)) (a + 8) (toLe 4 (if error = 0 then 1 else 2 + 256 * error))
    ∧ t.iod.msix = w.iod.msix ++ (if (fld b 2 2).testBit 1 then [0] else [])
    ∧ { t with iod := { t.iod with inProg := w.iod.inProg, host := w.iod.host, msix := w.iod.msix } } = w.settleFrom s.widNext

/-! ## The canonical form of the state -/

/-- The tables of a core in canonical form: registers, cues, FIFOs, bank modes, rings and locks. -/
structure Core.canonical (k : Core) : Prop where
  regs : ∀ t : Fin 4, Tab.wf 0 (k.st.get t).g = true
  cues : Tab.wf 0 k.cues = true
  fifo : Tab.wf [] k.fifo = true
  staged : ∀ u, k.under = some u → Tab.wf [] u.fifos = true
  modes : Tab.wf .scratch k.bankMode = true
  rings : Tab.wf [] k.rings = true
  locks : Tab.rises k.locks = true

/-- Every core, the memory below the LLC, boot SRAM, flash, the route table and the CXL range registers are in canonical form: keys rise
strictly and no entry equals what an unlisted one reads as, so that equal contents are equal data; and a line of the last-level cache that
is not poisoned holds its 128 bytes. -/
structure State.canonical (s : State) : Prop where
  cores : ∀ c, (s.core c).canonical
  dram : Memory.wf s.dram = true
  sram : Memory.wf s.iod.mgmt.sram = true
  flash : Memory.wf s.iod.mgmt.flash = true
  route : Tab.wf 0 s.iod.route = true
  ranges : Tab.wf 0 s.iod.cxlReg = true
  older : ∀ d, Tab.rises (s.die d).stale = true
  lines : ∀ d k, ∀ l ∈ (s.die d).sets.get [] k, l.poison = false → l.data.length = 128

end Sys2Proof.Machine
end

