-- ==== Sys2Proof/Certificates/Slice0/Obligations.lean ====
section
/-! DEFINITION. The statements about the machine, for the provers. -/

open Sys2Proof Sys2Proof.Machine

/-! ## Encoding -/

/-- Words written out from the encodings of the spec decode to the instructions they stand for, and a bundle's bytes in memory hold its two
syllables and SYNC (R82, R84, R90 to R96, R99). -/
def Obligations.DecodeWords : Prop :=
  (decodeSyllable 0x0F80860840000000 = .ok ⟨false, .always, .add 3 1 2⟩
      ∧ decodeSyllable 0x32018A2FFFFFFFF8 = .ok ⟨true, .pred 4 true, .addi 5 5 0xFFFFFFFF⟩
      ∧ decodeSyllable 0x0FBA00480052A00B = .ok ⟨false, .always, .loop 1 9 11 2 true 20⟩
      ∧ decodeSyllable 0x0FFC800000000007 = .ok ⟨false, .always, .brk 7⟩
      ∧ decodeSyllable 0x0FFD804828000000 = .ok ⟨false, .always, .mts 0x50 9⟩
      ∧ decodeSyllable 0x0FC00A5000008113 = .ok ⟨false, .always, .ld 5 ⟨10, 0, 16, 0, .g, .pkg, .acq⟩ false .d⟩
      ∧ decodeSyllable 0x0FD2410516609000 = .ok ⟨false, .always, .vfma ⟨⟨16, 8⟩, 10, 11, 12, 1, false, false, true, false, 0, 0, 0⟩⟩
      ∧ decodeSyllable 0x0FE0084A2A000002 = .ok ⟨false, .always, .mma ⟨2, 2⟩ 20 21 2⟩
      ∧ decodeSyllable 0x0FFF800000000000 = .ok ⟨false, .always, .nop⟩
      ∧ decodeSyllable 0x1FFF800000000001 = .ok ⟨false, .never, .nop⟩)
  ∧ (∀ (s0 s1 : Nat) (sync : Bool), s0 < 2 ^ 62 → s1 < 2 ^ 62 →
        splitBundle (leNat (leBytes 16 (encodeBundle s0 s1 sync))) = ⟨s0, s1, 0, sync⟩)

/-- Decoding gives every well-formed instruction back from its encoding, under every guard and K; and what decoding accepts is a
well-formed instruction of Unoazar, or a syllable that is never executed (R84 to R86). -/
def Obligations.EncodeDecode : Prop :=
  (∀ y : Syllable, y.instr.wf = true → y.instr.isStep = false → (y.guard = .never → y.instr = .nop) →
    ∃ w, encodeSyllable y = some w ∧ w < 2 ^ 62 ∧ decodeSyllable w = .ok y)
  ∧ ∀ (w : Nat) (y : Syllable), decodeSyllable w = .ok y →
      y.instr.wf = true ∧ y.instr.isStep = false ∧ (y.guard = .never → y.instr = .nop)

/-- The step of a machine whose agenda names a strand that may issue fetches the bundle at its PC and runs the decoded instruction:
for an instruction in slot 0 beside a nop (the filler of R99, or one that is never executed), with no operation of the strand pending in the scoreboard and
no SYNC bit, the step is exec of the instruction where its guard holds, and then the end of the bundle; a wait or a trap leaves the
bundle as it was. -/
def Obligations.StepRunsDecoded : Prop :=
  ∀ (s s1 s2 : State) (c : Nat) (t : Fin 4) (rest : List Act) (w : Nat) (k k' : Bool) (g g' : Guard) (i : Instr),
    s.agenda = .strand c t :: rest → s.powered = true → s1 = ({ s with agenda := rest } : State).clock →
    (s1.core c).mayIssue t = true → (s1.strand c t).stepPend = false → (s1.strand c t).sb = [] →
    (s1.issuing c t).fetch c t = .ok (w, s2) → (splitBundle w).sync = false → (splitBundle w).hdr = 0 →
    slotDecode s2.str.sup 0 (splitBundle w).slot0 = .ok ⟨k, g, i⟩ →
    slotDecode s2.str.sup 1 (splitBundle w).slot1 = .ok ⟨k', g', .nop⟩ →
    let s3 := s2.modStr fun u => { u with drain := false }
    let s4 := s3.modIss fun x => { x with slot := 0, k := k, syl := (splitBundle w).slot0 }
    let single := s2.me.brkctl.getLsbD 2
    (guardHolds g s2.str = false → step s = .next (s3.finish s2.str.sup single false))
    ∧ (guardHolds g s2.str = true → ∀ s5, exec i s4 = .next s5 →
        (s5.iss.trapped = none → s5.iss.held = none → step s = .next (s5.finish s2.str.sup single false))
        ∧ (s5.iss.trapped = none → ∀ x, s5.iss.held = some x → step s = .next (s3.waits x))
        ∧ (s5.iss.trapped.isSome = true → ∃ o, step s = .next (s5.cut o).closed))

/-- No step stops the machine but one of a part that has shut down for heat and is asked for anything else than a package reset
(R465): every instruction, and every step of another agent, answers a next state. -/
def Obligations.StepAnswers : Prop :=
  ∀ s : State, (∃ t, step s = .next t)
    ∨ (step s = .fault .shutDown ∧ s.powered = false ∧ s.nextAct.1 ≠ .ev .packageReset)

/-- Every step keeps the canonical form: registers, cues, FIFOs, bank modes, rings, the memory below the LLC, boot SRAM, flash, the route
table and the CXL range registers list their entries in rising order and none that equals what an unlisted one reads as; and every line of
the last-level cache that is not poisoned holds 128 bytes. -/
def Obligations.StepKeepsCanonicalForm : Prop :=
  ∀ s t : State, s.canonical → step s = .next t → t.canonical

/-- The machine at reset is in canonical form, with nothing ready, no core up, nothing in memory, and the part powered (R432; the values
the spec does not state are logs 1 to 4). -/
def Obligations.ResetCanonical : Prop :=
  State.reset.canonical ∧ State.reset.dram = [] ∧ State.reset.cores = [] ∧ State.reset.iod.ready = [] ∧ State.reset.powered = true
    ∧ State.reset.agenda = [] ∧ (∀ c u r, (State.reset.strand c u).rd r = 0) ∧ ∀ a, Memory.read State.reset.dram a = 0

/-! ## Registers and results of fixed latency -/

/-- g0 reads as zero and ignores every write; any other register reads what was last written to it, and no write changes another (R13). -/
def Obligations.RegisterFile : Prop :=
  ∀ (u : Strand) (r q : Reg) (v : Word), Tab.wf 0 u.g = true →
    u.rd 0 = 0 ∧ u.wr 0 v = u ∧ (r ≠ 0 → (u.wr r v).rd r = v) ∧ (q ≠ r → (u.wr r v).rd q = u.rd q)
      ∧ Tab.wf 0 (u.wr r v).g = true ∧ (u.wr r v).p = u.p

/-- The integer arithmetic of R118, and what it leaves alone. -/
def Obligations.IntegerArithmetic : Prop :=
  ∀ (s : State) (d a b c : Reg) (p : Pred) (i : BitVec 32) (sh : BitVec 6), s.regsWf →
    let A := s.rd a
    let B := s.rd b
    Gives (.add d a b) s 1 d (A + B) 0 ∧ Gives (.sub d a b) s 1 d (A - B) 0
    ∧ Gives (.addi d a i) s 1 d (A + i.signExtend 64) 0
    ∧ Gives (.mul d a b) s 3 d (BitVec.ofNat 64 (A.toNat * B.toNat)) 0
    ∧ Gives (.mulh d a b .ss) s 3 d (BitVec.ofInt 64 (A.toInt * B.toInt / 2 ^ 64)) 0
    ∧ Gives (.mulh d a b .uu) s 3 d (BitVec.ofNat 64 (A.toNat * B.toNat / 2 ^ 64)) 0
    ∧ Gives (.mulh d a b .su) s 3 d (BitVec.ofInt 64 (A.toInt * B.toNat / 2 ^ 64)) 0
    ∧ Gives (.madd d a b c) s 3 d (BitVec.ofNat 64 (A.toNat * B.toNat + (s.rd c).toNat)) 0
    ∧ Gives (.addsh d a b sh) s 1 d (BitVec.ofNat 64 (A.toNat + B.toNat * 2 ^ sh.toNat)) 0
    ∧ Gives (.li d i) s 1 d (BitVec.ofInt 64 i.toInt) 0
    ∧ Gives (.lih d a i) s 1 d (BitVec.ofNat 64 (i.toNat * 2 ^ 32 + A.toNat % 2 ^ 32)) 0
    ∧ Gives (.mov d a) s 1 d A 0
    ∧ Gives (.sel d a b p) s 1 d (if s.str.rp p then A else B) 0
    ∧ Gives (.min d a b false) s 1 d (BitVec.ofInt 64 (Min.min A.toInt B.toInt)) 0
    ∧ Gives (.min d a b true) s 1 d (BitVec.ofNat 64 (Min.min A.toNat B.toNat)) 0
    ∧ Gives (.max d a b false) s 1 d (BitVec.ofInt 64 (Max.max A.toInt B.toInt)) 0
    ∧ Gives (.max d a b true) s 1 d (BitVec.ofNat 64 (Max.max A.toNat B.toNat)) 0

/-- The bitwise instructions and the shifts of R118, a shift taking the low six bits of its amount; bit counts, byte order and bit fields:
what each bit of the result is (R118, R120). -/
def Obligations.IntegerLogic : Prop :=
  (∀ (s : State) (d a b : Reg) (i : BitVec 32) (n : BitVec 6), s.regsWf →
      let A := s.rd a
      let B := s.rd b
      let I : Word := i.signExtend 64
      let m := B.toNat % 64
      Gives (.and d a b) s 1 d (A &&& B) 0 ∧ Gives (.or d a b) s 1 d (A ||| B) 0 ∧ Gives (.xor d a b) s 1 d (A ^^^ B) 0
      ∧ Gives (.andi d a i) s 1 d (A &&& I) 0 ∧ Gives (.ori d a i) s 1 d (A ||| I) 0 ∧ Gives (.xori d a i) s 1 d (A ^^^ I) 0
      ∧ Gives (.shl d a b) s 1 d (BitVec.ofNat 64 (A.toNat * 2 ^ m)) 0
      ∧ Gives (.shr d a b false) s 1 d (BitVec.ofNat 64 (A.toNat / 2 ^ m)) 0
      ∧ Gives (.shr d a b true) s 1 d (BitVec.ofInt 64 (A.toInt / 2 ^ m)) 0
      ∧ Gives (.shli d a n) s 1 d (BitVec.ofNat 64 (A.toNat * 2 ^ n.toNat)) 0
      ∧ Gives (.shri d a n false) s 1 d (BitVec.ofNat 64 (A.toNat / 2 ^ n.toNat)) 0
      ∧ Gives (.shri d a n true) s 1 d (BitVec.ofInt 64 (A.toInt / 2 ^ n.toNat)) 0
      ∧ ∃ v, Gives (.rotl d a b) s 1 d v 0 ∧ ∀ j < 64, v.getLsbD ((j + m) % 64) = A.getLsbD j)
  ∧ (∀ (s : State) (d a b : Reg) (lsb wm1 : BitVec 6) (sx : Bool), s.regsWf → lsb.toNat + wm1.toNat + 1 ≤ 64 →
        let A := s.rd a
        let B := s.rd b
        (∃ n ≤ 64, Gives (.clz d a) s 1 d (BitVec.ofNat 64 n) 0 ∧ A.toNat < 2 ^ (64 - n) ∧ (n < 64 → 2 ^ (63 - n) ≤ A.toNat))
        ∧ Gives (.popc d a) s 1 d (BitVec.ofNat 64 ((List.range 64).countP fun j => A.getLsbD j)) 0
        ∧ (∃ v, Gives (.bswap d a) s 1 d v 0 ∧ ∀ j < 8, v.extractLsb' (8 * j) 8 = A.extractLsb' (8 * (7 - j)) 8)
        ∧ (∃ v, Gives (.ext d a lsb wm1 sx) s 1 d v 0 ∧ ∀ j < 64, v.getLsbD j =
            if j ≤ wm1.toNat then A.getLsbD (lsb.toNat + j) else sx && A.getLsbD (lsb.toNat + wm1.toNat))
        ∧ ∃ v, Gives (.ins d a b lsb wm1) s 1 d v 0 ∧ ∀ j < 64, v.getLsbD j =
            if lsb.toNat ≤ j ∧ j ≤ lsb.toNat + wm1.toNat then A.getLsbD (j - lsb.toNat) else B.getLsbD j)

/-- div and rem compute as R119 says, into a register the scoreboard guards, and take integer_divide_by_zero where B is 0. -/
def Obligations.Division : Prop :=
  ∀ (s : State) (d a b : Reg),
    let A := s.rd a
    let B := s.rd b
    let writes (i : Instr) (v : Word) : Prop :=
      ∃ t, exec i s = .next t ∧ SameMemory s t ∧ t = s.modStr (fun u => { u with sb := t.str.sb, sbNext := t.str.sbNext })
        ∧ ∃ x, t.str.sb = s.str.sb ++ [x] ∧ x.isDone = true ∧ x.flags = 0 ∧ x.dst = [d] ∧ x.vals = [v]
    (B ≠ 0 →
      writes (.div d a b true) (BitVec.ofNat 64 (A.toNat / B.toNat))
      ∧ writes (.rem d a b true) (BitVec.ofNat 64 (A.toNat - A.toNat / B.toNat * B.toNat))
      ∧ ∃ q r : Word, writes (.div d a b false) q ∧ writes (.rem d a b false) r
        ∧ (A = BitVec.intMin 64 ∧ B.toInt = -1 → q = BitVec.intMin 64 ∧ r = 0)
        ∧ (¬ (A = BitVec.intMin 64 ∧ B.toInt = -1) →
            q.toInt * B.toInt + r.toInt = A.toInt ∧ r.toInt.natAbs < B.toInt.natAbs
              ∧ (0 ≤ A.toInt → 0 ≤ r.toInt) ∧ (A.toInt ≤ 0 → r.toInt ≤ 0)))
    ∧ (B = 0 → ∀ u, exec (.div d a b u) s = .next (s.takeTrap ⟨0x0A, 0, 0⟩) ∧ exec (.rem d a b u) s = .next (s.takeTrap ⟨0x0A, 0, 0⟩))

/-! ## Floating point and predicates -/

/-- The scalar floating-point instructions complete with the rounded result of their operation under RMODE and its flags in SFLAGS
(R70, R71, R81, R121, R122), four bundles later, a quotient after 16 and a root after 20 (R16). -/
def Obligations.FloatResults : Prop :=
  ∀ (s : State) (d a b c : Reg) (x rtz : Bool) (ty from' : CvtType), s.regsWf →
    let A := s.rd a
    let B := s.rd b
    let rm := RM.ofCode (s.str.rmode.toNat % 4)
    Gives (.fadd d a b x) s 4 d (fpAdd rm x A B).1 (fpAdd rm x A B).2
    ∧ Gives (.fsub d a b x) s 4 d (fpSub rm x A B).1 (fpSub rm x A B).2
    ∧ Gives (.fmul d a b x) s 4 d (fpMul rm x A B).1 (fpMul rm x A B).2
    ∧ Gives (.fma d a b c x) s 4 d (fpFma rm x A B (s.rd c)).1 (fpFma rm x A B (s.rd c)).2
    ∧ Gives (.fdiv d a b x) s 16 d (fpDiv rm x A B).1 (fpDiv rm x A B).2
    ∧ Gives (.fsqrt d a x) s 20 d (fpSqrt rm x A).1 (fpSqrt rm x A).2
    ∧ Gives (.fmin d a b x) s 4 d (fpMin rm x A B).1 0 ∧ Gives (.fmax d a b x) s 4 d (fpMax rm x A B).1 0
    ∧ Gives (.fcvt d a ty from' rtz) s 4 d (fpCvt (if rtz then .rtz else rm) ty from' A).1 (fpCvt (if rtz then .rtz else rm) ty from' A).2

/-- Edges of scalar floating point: a NaN operand gives the positive canonical NaN (log 19) and no flag, a minimum or maximum of a number and a NaN is the
number, the root of −0 is −0, and a non-zero number over zero is an infinity with DZ; fsgn gives the magnitude bits of A with the
chosen sign, a NaN its own pattern so (R55, R71, R72, R121). -/
def Obligations.FloatEdges : Prop :=
  (∀ (rm : RM) (A B : Word),
      (∀ x, (fpVal x A).isNan = true →
        (∀ y ∈ [fpAdd rm x A B, fpAdd rm x B A, fpSub rm x A B, fpMul rm x A B, fpMul rm x B A, fpDiv rm x A B, fpDiv rm x B A, fpSqrt rm x A],
          y = (if x then 0x7FF8000000000000 else 0x7FC00000, 0)))
      ∧ (∀ x, (fpVal x A).isNan = true → ∀ n m, fpVal x B = .num n m →
          (fpMin rm x A B = fpResult rm x (fpVal x B, 0) ∧ fpMax rm x A B = fpResult rm x (fpVal x B, 0)
            ∧ fpMin rm x B A = fpResult rm x (fpVal x B, 0) ∧ fpMax rm x B A = fpResult rm x (fpVal x B, 0)))
      ∧ fpSqrt rm true (1#64 <<< 63) = (1#64 <<< 63, 0)
      ∧ (∀ x n m k, fpVal x A = .num n m → m ≠ 0 → fpVal x B = .num k 0 →
          fpDiv rm x A B = fpResult rm x (.inf (n != k), Flag.dz)))
  ∧ (∀ (s : State) (d a b : Reg) (k : SgnKind) (x : Bool), s.regsWf →
        let A := s.rd a
        let B := s.rd b
        let n := if x then 63 else 31
        let sign := match k with | .same => B.getLsbD n | .inv => !B.getLsbD n | .xor => A.getLsbD n != B.getLsbD n
        ∃ v, Gives (.fsgn d a b k x) s 4 d v 0 ∧ ∀ j < 64, v.getLsbD j = if j < n then A.getLsbD j else if j = n then sign else false)

/-- fclass writes exactly one bit set, the class of its operand by sign, exponent field and fraction field, and sets no flag (R123). -/
def Obligations.FloatClass : Prop :=
  ∀ (s : State) (d a : Reg) (x : Bool), s.regsWf →
    let A := s.rd a
    let E := if x then A.toNat / 2 ^ 52 % 2 ^ 11 else A.toNat / 2 ^ 23 % 2 ^ 8
    let F := if x then A.toNat % 2 ^ 52 else A.toNat % 2 ^ 23
    let neg := A.getLsbD (if x then 63 else 31)
    Gives (.fclass d a x) s 4 d (1#64 <<<
      (if E = (if x then 2047 else 255) then (if F = 0 then (if neg then 0 else 7) else 8)
       else if E = 0 then (if F = 0 then (if neg then 3 else 4) else (if neg then 2 else 5))
       else (if neg then 1 else 6))) 0

/-- cmp, cmpi, fcmp, plog, tbit, ptog and gtop write what R124 says; a second predicate takes the inverse, and every predicate that is
not named keeps its value. -/
def Obligations.PredicateResults : Prop :=
  ∀ (s : State) (p q pa pb : Pred) (a b d : Reg) (cc : Cond) (fc : FCond) (i : BitVec 32) (n : BitVec 6) (inv x : Bool) (table : BitVec 4),
    s.regsWf → p ≠ q →
    let A := s.rd a
    let B := s.rd b
    let holds (cc : Cond) (A B : Word) : Bool := match cc with
      | .eq => decide (A = B) | .ne => decide (A ≠ B) | .lt => decide (A.toInt < B.toInt) | .ge => decide (B.toInt ≤ A.toInt)
      | .ltu => decide (A.toNat < B.toNat) | .geu => decide (B.toNat ≤ A.toNat)
    let fr := fpCmp fc (fpVal x A) (fpVal x B)
    Decides (.cmp p none a b cc) s 1 [(p, holds cc A B)] 0
    ∧ Decides (.cmp p (some q) a b cc) s 1 [(p, holds cc A B), (q, !holds cc A B)] 0
    ∧ Decides (.cmpi p a i cc) s 1 [(p, holds cc A (i.signExtend 64))] 0
    ∧ Decides (.fcmp p none a b fc x) s 4 [(p, fr.1)] fr.2
    ∧ Decides (.fcmp p (some q) a b fc x) s 4 [(p, fr.1), (q, !fr.1)] fr.2
    ∧ Decides (.plog p pa pb table) s 1 [(p, table.getLsbD (2 * (s.str.rp pa).toNat + (s.str.rp pb).toNat))] 0
    ∧ Decides (.tbit p a n inv) s 1 [(p, A.getLsbD n.toNat != inv)] 0
    ∧ Gives (.ptog d) s 1 d (BitVec.ofNat 64 s.str.p.toNat) 0
    ∧ Decides (.gtop a b) s 1 (((List.finRange 24).filter fun p => B.getLsbD p.val).map fun p => (p, A.getLsbD p.val)) 0

/-! ## Control -/

/-- Branches: the next PC, the link register readable one bundle later, the kill of a taken branch, nothing else; a target in a
register that is not 16-byte aligned raises misaligned_access with none of the effect (R21, R127, R138). -/
def Obligations.Branches : Prop :=
  ∀ (s : State) (off : BitVec 32) (a : Reg) (l : Bool), s.underWay →
    let A := s.rd a
    let there := s.iss.pc + off.signExtend 64 * 16
    let kept := s.str.pend.filter fun p => !(p.k && decide (p.issued < s.str.n ∧ s.str.n < p.ready))
    let link : Pend := ⟨s.str.n, s.str.n + 1, s.iss.k, .reg 63, s.iss.pc + 16, 0⟩
    Leads (.br off) s ({ s.str with pend := kept }.step there)
    ∧ Leads (.call off) s ({ s.str with pend := kept ++ [link] }.step there)
    ∧ (A.toNat % 16 = 0 →
        Leads (.brr a l) s ({ s.str with pend := if l then kept ++ [link] else kept }.step A)
        ∧ Leads (.ret a) s ({ s.str with pend := kept }.step A))
    ∧ (A.toNat % 16 ≠ 0 →
        exec (.brr a l) s = .next (s.takeTrap ⟨0x24, 0, A⟩) ∧ exec (.ret a) s = .next (s.takeTrap ⟨0x24, 0, A⟩))

/-- loop: a live controller raises loop_busy, as does a body that would cross the end of a live loop; a count of 0 skips the body; else
the controller is live with its start, end, count, stages and mode, and the stage block is readable from the next bundle (R128).
The end of a loop's last bundle: while kernel iterations are left the strand goes back to the start and the stage block is computed
afresh, and after the last of n + S − 1 the controller is idle and the strand goes on (R129). -/
def Obligations.Loops : Prop :=
  (∀ (s : State) (k : Fin 4) (a : Reg) (lm1 : BitVec 12) (sm1 : BitVec 3) (y : Bool) (pb : BitVec 5), s.underWay → s.quiet → s.noLoopEnd →
      s.regsWf → (Instr.loop k a lm1 sm1 y pb).wf = true →
      let i : Instr := .loop k a lm1 sm1 y pb
      let n := s.rd a
      let pc := s.iss.pc
      let last := pc + BitVec.ofNat 64 (16 * (lm1.toNat + 1))
      let crosses := ∃ j e, s.str.lc.get j = some e ∧ e.start.toNat ≤ pc.toNat ∧ pc.toNat ≤ e.stop.toNat
        ∧ e.stop.toNat < pc.toNat + 16 * (lm1.toNat + 1)
      ((s.str.lc.get k).isSome = true → exec i s = .next (s.takeTrap ⟨0x0B, 0, 0⟩))
      ∧ (s.str.lc.get k = none → crosses → exec i s = .next (s.takeTrap ⟨0x0B, 1, 0⟩))
      ∧ (s.str.lc.get k = none → ¬ crosses → n = 0 → Leads i s (s.str.step (last + 16)))
      ∧ (s.str.lc.get k = none → ¬ crosses → n ≠ 0 →
          ∃ t, exec i s = .next t ∧ t.iss = s.iss ∧ SameMemory s t
            ∧ t = s.modStr (fun u => { u with lc := t.str.lc, lcNext := t.str.lcNext, pend := t.str.pend })
            ∧ (∃ l, t.str.lc = s.str.lc.set k (some l) ∧ l.start = pc + 16 ∧ l.stop = last ∧ l.n = n ∧ l.s = sm1.toNat + 1
                ∧ l.pb = pb.toNat ∧ l.i = 0 ∧ l.y = y ∧ l.sup = s.str.sup ∧ ∀ j e, s.str.lc.get j = some e → e.order < s.str.lcNext → e.order < l.order)
            ∧ (∀ p : Pred, (t.later 1).rp p = if 2 ≤ sm1.toNat + 1 ∧ pb.toNat ≤ p.val ∧ p.val ≤ pb.toNat + sm1.toNat
                then decide (p.val = pb.toNat) else (s.later 1).rp p)
            ∧ (∀ r, (t.later 1).rd r = (s.later 1).rd r)))
  ∧ (∀ (s : State) (k : Fin 4) (l : LoopC), s.underWay → s.quiet → s.regsWf → s.str.lc.get k = some l →
        l.stop = s.iss.pc → l.sup = s.str.sup → l.y = false → l.pb + l.s ≤ 24 →
        (∀ j e, j ≠ k → s.str.lc.get j = some e → e.stop = s.iss.pc → e.sup = s.str.sup → e.order < l.order) →
        ∃ t, exec .nop s = .next t ∧ t.iss = s.iss ∧
          let e := (t.finish s.str.sup false false).strand s.iss.core s.iss.strand
          (l.i + 1 < l.n.toNat + l.s - 1 →
            e.pc = l.start ∧ e.n = s.str.n + 1 ∧ e.lc = s.str.lc.set k (some { l with i := l.i + 1 })
              ∧ ∀ p : Pred, (e.landDue e.n).rp p = if 2 ≤ l.s ∧ l.pb ≤ p.val ∧ p.val < l.pb + l.s
                  then decide (p.val - l.pb ≤ l.i + 1 ∧ l.i + 1 - (p.val - l.pb) < l.n.toNat) else (s.later 1).rp p)
          ∧ (¬ l.i + 1 < l.n.toNat + l.s - 1 →
              (∀ j e, j ≠ k → s.str.lc.get j = some e → ¬ (e.stop = s.iss.pc ∧ e.sup = s.str.sup)) →
              e = { s.str with lc := s.str.lc.set k none }.step (s.iss.pc + 16)))

/-- lbrk: a live controller and every loop made live after it become idle, the strand goes on behind the loop's end with the kill of a
taken branch, and no predicate is written; an idle controller leaves it without effect. The stages of loop.y lc1, g9, 12, 3, p20 with
g9 = 4 are those of the table (R130). -/
def Obligations.LoopBreak : Prop :=
  (∀ (s : State) (k : Fin 4), s.underWay → s.quiet →
    (s.str.lc.get k = none → s.noLoopEnd → Leads (.lbrk k) s (s.str.step (s.iss.pc + 16)))
    ∧ ∀ l, s.str.lc.get k = some l → ∃ q : Quad (Option LoopC),
        Leads (.lbrk k) s ({ s.str.kill with lc := q }.step (l.stop + 16))
        ∧ ∀ j, q.get j = match s.str.lc.get j with
            | some e => if l.order ≤ e.order then none else some e
            | none => none)
  ∧ decodeSyllable 0x0FBA00480052A00B = .ok ⟨false, .always, .loop 1 9 11 2 true 20⟩
  ∧ ((List.range 6).map fun i => (List.range 3).map fun j => stageOn i j 4)
      = [[true, false, false], [true, true, false], [true, true, true], [true, true, true], [false, true, true], [false, false, true]]

/-- yield parks a user-mode strand of a requested pre-emptible context that holds no lock, and has no effect elsewhere; nop has none (R131, R156, R99).
exit ends its strand in either mode: operations in flight complete, the locks it holds are free, and when it is the last strand
the iteration drains (R48, R132, R156); the loops that end at its bundle step first (R129), and here none does.
trap takes software_trap and brk breakpoint, or a debug stop where BRKCTL routes it there (R138, R456, R457).
sbar waits until every strand it names has exited or waits in an sbar with the same mask, and then all that wait with it leave together:
a strand that has left goes on in its bundle without waiting again (R133, R339). -/
def Obligations.StrandControl : Prop :=
  (∀ s : State, s.underWay → s.noLoopEnd → s.me.stopReq = false →
      let honoured := s.str.sup = false ∧ (∀ l ∈ s.me.locks, l.2 ≠ s.iss.strand) ∧ s.me.yreq = true ∧ s.preemptible s.iss.core = true
      Leads .nop s (s.str.step (s.iss.pc + 16))
      ∧ (honoured → Leads .yield s { s.str.step (s.iss.pc + 16) with cond := .parked })
      ∧ (¬ honoured → Leads .yield s (s.str.step (s.iss.pc + 16))))
  ∧ (∀ s : State, s.underWay → s.noLoopEnd → s.me.stopReq = false →
        let c := s.iss.core
        let x := s.iss.strand
        ∃ t, exec .exit s = .next t ∧ t.iss.trapped = none ∧ t.iss.held = none ∧
          let e := t.finish s.str.sup false false
          SameMemory s e
          ∧ e.strand c x = { (s.str.step (s.iss.pc + 16)).landAll with cond := .exited, lkstep := false }
          ∧ (∀ y, y ≠ x → e.strand c y = s.strand c y)
          ∧ (e.core c).locks = s.me.locks.filter (fun l => l.2 != x)
          ∧ (e.core c).run = (if ∀ y, y ≠ x → (s.strand c y).cond = .exited
              then s.me.run.map fun r => { r with draining := true, preDrain := false } else s.me.run))
  ∧ (∀ (s : State) (code : BitVec 16),
        exec (.trap code) s = .next (s.takeTrap ⟨0x08, code.toNat, 0⟩)
        ∧ (s.me.brkctl.getLsbD 1 = false → exec (.brk code) s = .next (s.takeTrap ⟨0x09, code.toNat, 0⟩))
        ∧ (s.me.brkctl.getLsbD 1 = true → ∃ t, exec (.brk code) s = .next t ∧ t.iss.held = some .debug ∧ t.cores = s.cores))
  ∧ (∀ (s : State) (mask : BitVec 4), s.quiet →
        let c := s.iss.core
        let x := s.iss.strand
        let names (y : Fin 4) : Prop := y = x ∨ mask = 0 ∨ mask.getLsbD y.val = true
        let there (y : Fin 4) : Prop := (s.strand c y).cond = .exited ∨ (s.strand c y).cond = .waiting (.sbar mask.toNat)
        (s.str.passed = some s.iss.pc → exec (.sbar mask) s = .next s)
        ∧ (s.str.passed ≠ some s.iss.pc → (∃ y, y ≠ x ∧ names y ∧ ¬ there y) →
            exec (.sbar mask) s = .next (s.hold (.sbar mask.toNat)))
        ∧ (s.str.passed ≠ some s.iss.pc → (∀ y, y ≠ x → names y → there y) →
            ∃ t, exec (.sbar mask) s = .next t ∧ t.iss = s.iss ∧ t.str.cond = s.str.cond
              ∧ (∀ y, y ≠ x → (s.strand c y).cond = .waiting (.sbar mask.toNat) →
                  (t.strand c y).cond = .ready ∧ (t.strand c y).pc = (s.strand c y).pc
                    ∧ (t.strand c y).passed = some (t.strand c y).pc ∧ ∀ b ∈ (t.strand c y).sb, b.free = false)
              ∧ (∀ y, y ≠ x → (s.strand c y).cond ≠ .waiting (.sbar mask.toNat) → t.strand c y = s.strand c y)))

/-- Taking a trap: operations in flight write, TPC, TCAUSE, TSUB and TVAL are saved, TSTATUS keeps the mode and LKSTEP, the strand is in
supervisor mode at TVEC and out of lockstep; with TIP set, or no handler, the iteration drains fatally and event 0x30 is logged (R394).
A poisoned line and an uncorrectable scratchpad error add what R318, R396 and R424 say of the line, which is not stated here.
rft: in supervisor mode operations of earlier bundles in flight write and the strand goes on at TPC in the mode TSTATUS holds, with TIP
clear, past an sbar it had left there; in user mode it raises privileged_instruction (R49, R133, R140, R394). -/
def Obligations.TrapEntryAndReturn : Prop :=
  (∀ (s : State) (tr : Trap), s.quiet → s.str.sb = [] → tr.cause ∉ [0x29, 0xC2, 0xF0] →
      let c := s.iss.core
      let u := s.str.landAll
      ∃ t, t = s.takeTrap tr ∧ t.iss = { s.iss with trapped := some tr } ∧
        (s.str.tstatus.getLsbD 1 = false → s.str.tvec ≠ 0 → SameMemory s t
          ∧ t = (s.modStr fun _ =>
            { u with
              tpc := s.iss.pc, tcause := BitVec.ofNat 64 tr.cause, tsub := BitVec.ofNat 64 tr.sub, tval := tr.val,
              tstatus := BitVec.ofNat 64 (4 * s.str.lkstep.toNat + 2 + s.str.sup.toNat), sup := true, lkstep := false,
              pc := s.str.tvec, cond := .ready, drain := false }).modIss (fun i => { i with trapped := some tr }))
        ∧ (s.str.tstatus.getLsbD 1 = true ∨ s.str.tvec = 0 → SameMemory s t
          ∧ (t.core c).run = s.me.run.map (fun r => { r with fatal := true, draining := true, preDrain := false })
          ∧ t.str.tpc = s.iss.pc ∧ t.str.tcause = BitVec.ofNat 64 tr.cause ∧ (∀ y, (t.strand c y).cond = .exited)
          ∧ ((t.die (dieOf c)).errLog).toNat % 256 = 0x30))
  ∧ (∀ s : State, s.underWay → s.quiet →
        (s.str.sup = true →
          Leads .rft s { s.str.landEarlier.step s.str.tpc with
            sup := s.str.tstatus.getLsbD 0, tstatus := s.str.tstatus &&& ~~~2#64,
            passed := if s.str.passed = some s.str.tpc then s.str.passed else none })
        ∧ (s.str.sup = false → exec .rft s = .next (s.takeTrap ⟨0x05, s.iss.slot, 0⟩)))

/-! ## System registers, caches of translations and bundles, work -/

/-- mfs reads a system register of the issuing strand or core one bundle later, its reserved bits zero; a privileged one in user mode
raises privileged_instruction, and one that is not listed illegal_instruction or reserved_sysreg (R50, R100 to R102, R139, R400). -/
def Obligations.SystemRegisterReads : Prop :=
  ∀ (s : State) (d : Reg) (ix : BitVec 12), s.regsWf →
    let u := s.str
    let k := s.me
    let c := s.iss.core
    let i : Instr := .mfs d ix
    let user : List (Nat × Word) :=
      [(0x001, u.xflags), (0x002, u.rmode), (0x003, u.tshape), (0x004, k.amax.e0), (0x005, k.amax.e1), (0x006, k.amax.e2),
       (0x007, k.amax.e3), (0x010, BitVec.ofNat 64 (c % 256)), (0x011, BitVec.ofNat 64 s.iss.strand.val), (0x012, k.iterId),
       (0x013, k.launchId), (0x014, k.jobId), (0x015, k.phaseId), (0x016, k.graphId), (0x018, k.cycle), (0x021, u.tpc),
       (0x022, u.tcause), (0x023, u.tsub), (0x024, u.tval), (0x025, u.tscratch), (0x026, u.tstatus), (0x040, k.brkctl),
       (0x041, k.tracectl), (0x042, k.pendchk), (0x050, k.eng.e0.faultWord), (0x051, k.eng.e1.faultWord),
       (0x052, k.eng.e2.faultWord), (0x053, k.eng.e3.faultWord)]
    let priv : List (Nat × Word) := [(0x020, u.tvec), (0x030, k.keyid), (0x031, k.ptbase), (0x032, k.asid)]
    (∀ e ∈ user, ix.toNat = e.1 → Gives i s 1 d e.2 0)
    ∧ (ix.toNat = 0 → ∃ v, Gives i s 1 d v 0 ∧ v.toNat < 32 ∧ v.getLsbD 0 = u.sup ∧ v.getLsbD 1 = u.lkstep ∧ v.getLsbD 2 = k.yreq)
    ∧ (u.sup = true → (∀ e ∈ priv, ix.toNat = e.1 → Gives i s 1 d e.2 0)
        ∧ (ix.toNat = 0x058 → ∃ v, Gives i s 1 d v 0 ∧ ∀ e : Fin 4, v.getLsbD e.val = (k.eng.get e).halt
            ∧ v.getLsbD (16 + e.val) = (k.eng.get e).empty))
    ∧ (u.sup = false → ix.toNat ∈ [0x020, 0x030, 0x031, 0x032, 0x058] → exec i s = .next (s.takeTrap ⟨0x05, s.iss.slot, 0⟩))
    ∧ (ix.toNat ∉ sysListed → exec i s = .next (s.takeTrap (if u.sup then ⟨0x07, ix.toNat, 0⟩ else ⟨0x01, s.iss.slot, 0⟩)))

/-- mts writes the fields marked RW at the end of its bundle and ignores the rest; a register that is read-only takes nothing
(R70, R79, R100, R101, R139, R173, R393, R395, R450, R456). -/
def Obligations.SystemRegisterWrites : Prop :=
  ∀ (s : State) (a : Reg) (ix : BitVec 12), s.underWay → s.noLoopEnd →
    let A := s.rd a
    let i : Instr := .mts ix a
    let u := s.str.step (s.iss.pc + 16)
    let core (f : Core → Core) : Prop := ∃ t, exec i s = .next t ∧ t.iss.trapped = none ∧ t.iss.held = none
      ∧ t.finish s.str.sup false false = ((s.modMe f).modStr fun u => u.step (s.iss.pc + 16)).closed
    (ix.toNat = 0x001 → Leads i s { u with xflags := A &&& 0x01FF01FF01FF01FF })
    ∧ (ix.toNat = 0x002 → Leads i s { u with rmode := A &&& 3 })
    ∧ (ix.toNat = 0x003 → Leads i s { u with tshape := A &&& 0xFFFFFFFFF })
    ∧ (ix.toNat = 0x021 → Leads i s { u with tpc := A })
    ∧ (ix.toNat = 0x022 → Leads i s { u with tcause := A &&& 0xFF })
    ∧ (ix.toNat = 0x023 → Leads i s { u with tsub := A &&& 0xFFFF })
    ∧ (ix.toNat = 0x024 → Leads i s { u with tval := A })
    ∧ (ix.toNat = 0x025 → Leads i s { u with tscratch := A })
    ∧ (ix.toNat = 0x026 → Leads i s { u with tstatus := A &&& 0xF })
    ∧ (ix.toNat = 0x040 → core fun k => { k with brkctl := A &&& 0xFFFFFFFFFFFF00C6 })
    ∧ (ix.toNat ∈ [0x000, 0x004, 0x005, 0x006, 0x007, 0x010, 0x011, 0x012, 0x013, 0x014, 0x015, 0x016, 0x018] → Leads i s u)
    ∧ (s.str.sup = false → ix.toNat ∈ [0x050, 0x051, 0x052, 0x053] → Leads i s u)
    ∧ (s.str.sup = true →
        (ix.toNat = 0x020 → Leads i s { u with tvec := A &&& ~~~0xF#64 })
        ∧ (ix.toNat = 0x030 → core fun k => { k with keyid := A &&& 0x3FF })
        ∧ (ix.toNat = 0x031 → core fun k => { k with ptbase := A &&& 0x000FFFFFFFFFC000 })
        ∧ (ix.toNat = 0x032 → core fun k => { k with asid := A &&& 0xFFFF }))

/-- Every supervisor-only instruction, and every access to a privileged system register, raises privileged_instruction in user mode
and has no effect (R49, R100, R400). -/
def Obligations.UserPrivilege : Prop :=
  ∀ (s : State) (d a b : Reg) (ix : BitVec 12) (k : TlbiKind) (sc : Scope3) (scp : Scope), s.str.sup = false →
    ∀ i ∈ [Instr.rft, .tlbi a b k sc, .cflush a b .discard scp, .launch d a true]
        ++ (if ix.toNat ∈ [0x020, 0x030, 0x031, 0x032, 0x058] then [Instr.mfs d ix, .mts ix a] else []),
      exec i s = .next (s.takeTrap ⟨0x05, s.iss.slot, 0⟩)
        ∧ slotDecode false s.iss.slot ((encodeSyllable ⟨false, .always, i⟩).getD 0)
          = (if i.wf then .error ⟨0x05, s.iss.slot, 0⟩ else slotDecode false s.iss.slot ((encodeSyllable ⟨false, .always, i⟩).getD 0))

/-- tlbi removes from every TLB in scope the entries its kind names and no other, and icinv from every instruction cache in scope the
bundles that meet its range (R141, R142); stores that are visible at its scope reach every die in it, at .pkg every write a home slice
has serialised (R392; log 16), and nothing else happens: none of it where no store is on its way. -/
def Obligations.Invalidations : Prop :=
  ∀ (s : State) (a b : Reg) (k : TlbiKind) (sc : Scope3),
    let A := (s.rd a).toNat
    let me := s.iss.core
    let near (c : Nat) : Prop := match sc with | .cr => c = me | .die => c / 64 = me / 64 | .pkg => True
    let names (e : TlbEnt) : Prop := match k with
      | .va => (e.glob = true ∨ e.asid = (s.rd b).toNat % 65536) ∧ e.va = A / leafSpan e.lvl
      | .asid => e.asid = (s.rd b).toNat % 65536
      | .nonglobal => e.glob = false
      | .all => True
    let moves (t : State) : Prop := t.iss = s.iss ∧ Access s t ∧ SameScratch s t Nowhere ∧ (sc = .pkg → ∀ d, (t.die d).upds = [])
    (s.str.sup = true → ∃ t, exec (.tlbi a b k sc) s = .next t ∧ moves t
      ∧ (∀ c e, e ∈ (t.core c).tlb ↔ e ∈ (s.core c).tlb ∧ ¬ (near c ∧ names e))
      ∧ (∀ d e, e ∈ (t.die d).tlb ↔ e ∈ (s.die d).tlb ∧ ¬ (names e ∧ (match sc with | .cr => False | .die => d = dieOf me | .pkg => True)))
      ∧ (s.settledMemory → SameMemory s t ∧ { t with cores := s.cores, dies := s.dies } = s
          ∧ ∀ c, { t.core c with tlb := (s.core c).tlb } = s.core c))
    ∧ ∃ t, exec (.icinv a b sc) s = .next t ∧ moves t
      ∧ (∀ c e, e ∈ (t.core c).ic ↔ e ∈ (s.core c).ic
          ∧ ¬ (near c ∧ ((s.rd b).toNat = 0 ∨ (A < e.va + 16 ∧ e.va < A + (s.rd b).toNat))))
      ∧ (s.settledMemory → SameMemory s t ∧ { t with cores := s.cores } = s ∧ ∀ c, { t.core c with ic := (s.core c).ic } = s.core c)

/-- launch of a valid record, with room in the node table, a ready Stage Manager and no capture: a node is entered in it under an id that no
other live node has, with the record's job, phase and graph, which depends on every live node of its graph that shares a byte with it
where one writes, and gD reads as its id; a record that is not valid raises its cause. A COHORT launch enters with every iteration
placed, on no die more than its ready cores, and with no placement map on the lowest die with a ready core (R134, R370, R373, R378). -/
def Obligations.LaunchEnters : Prop :=
  ∀ (s s1 : State) (d a : Reg) (nb : Bool), s.regsWf → s.str.sb = [] → (nb = true → s.str.sup = true) →
    s1 = (s.release s.iss.core s.iss.strand .pkg).2 →
    (∀ tr, readLaunch s.iss.core s1.mySpace s1.me.jobId.toNat (s1.rd a) s1 = .error tr → exec (.launch d a nb) s = .next (s.takeTrap tr))
    ∧ ∀ (r : Record) (s2 : State), readLaunch s.iss.core s1.mySpace s1.me.jobId.toNat (s1.rd a) s1 = .ok (r, s2) →
      s2.iod.encMode = 0 →
      let few := s2.nodes.length + (s2.graphs.flatMap (·.ids)).length < 2 ^ 32 - 1
      let enters (placed : Node → Prop) : Prop := ∃ t n, exec (.launch d a nb) s = .next t ∧ t.nodes = s2.nodes ++ [n] ∧ n.id ≠ 0
        ∧ (few → ∀ m ∈ s2.nodes, m.id ≠ n.id)
        ∧ n.kind = .launch r.l ∧ n.regions = r.rs ∧ n.job = r.job ∧ n.phase = r.phase ∧ n.graph = r.graph ∧ n.started = false ∧ placed n
        ∧ n.deps = (s2.nodes.filter fun m => decide (m.job = r.job ∧ m.phase = r.phase ∧ m.graph = r.graph)
            && m.regions.any fun x => r.rs.any fun y =>
              (x.w || y.w) && decide (0 < x.len ∧ 0 < y.len ∧ x.base < y.base + y.len ∧ y.base < x.base + x.len)).map (·.id)
        ∧ (t.later 1).rd d = (if d = 0 then 0 else BitVec.ofNat 64 n.id)
        ∧ (r.l.cohort = false ∨ r.l.placekind = 0 →
            Results s2 { t with nodes := s2.nodes, nodeNext := s2.nodeNext, seqs := s2.seqs, graphs := s2.graphs, phases := s2.phases }
              1 [(.reg d, BitVec.ofNat 64 n.id)] 0)
      let waits : Prop := ∃ t, exec (.launch d a nb) s = .next t ∧ t.iss.held = some .launch ∧ t.nodes = s2.nodes
      let full := s2.tableFull (dieOf s.iss.core).val
      (s2.isCancelled r.job r.phase r.graph = true → exec (.launch d a nb) s = .next (s.takeTrap ⟨0xA3, 0, s1.rd a⟩))
      ∧ (s2.isCancelled r.job r.phase r.graph = false →
          (full = true → nb = true → exec (.launch d a nb) s = .next (s.takeTrap ⟨0xA4, 0, s1.rd a⟩))
          ∧ (full = true → nb = false → waits)
          ∧ (full = false → s2.smOn (dieOf s.iss.core) = false → waits)
          ∧ (full = false → s2.smOn (dieOf s.iss.core) = true →
              (r.l.cohort = false → enters fun n => n.iters = [])
              ∧ (r.l.cohort = true → few → enters fun n => n.iters.length = r.l.total ∧ (∀ i ∈ n.iters, i.st = .eligible)
                  ∧ (∀ x : Fin 4, (n.iters.filter fun i => i.die == x.val).length ≤ (s2.readyCores x).length)
                  ∧ (r.l.placekind = 0 → ∀ i ∈ n.iters, (s2.firstDie allDies).map (·.val) = some i.die))))

/-- cancel answers 1 where the object is live, not yet cancelled and of a job the context may name, and then its nodes are marked
cancelled; else 0, with no other effect (R135, R136, R381).
waitc answers at once 3 for an object that contains the waiting iteration and 2 for one of another job in user mode, waits while
the object has live nodes, and then answers its outcome; a cancelled or unknown one changes nothing else (R135, R137, R372). -/
def Obligations.CancelAndWaitc : Prop :=
  (∀ (s : State) (d a b : Reg) (lvl : Level), s.regsWf →
      let o := namedBy lvl (s.rd a) (s.rd b)
      let may := s.str.sup = true ∨ o.job = s.me.jobId.toNat % 2 ^ 32
      let found := may ∧ (∃ n ∈ s.nodes, o.has n = true) ∧ s.marked o = false
      (¬ found → Gives (.cancel d a b lvl) s 1 d 0 0)
      ∧ (found → ∃ t, exec (.cancel d a b lvl) s = .next t ∧ (t.later 1).rd d = (if d = 0 then 0 else 1)
          ∧ (∀ n ∈ t.nodes, o.has n = true → n.cancelled = true)
          ∧ ∀ n ∈ s.nodes, (∀ m ∈ s.nodes, o.has m = true → m.id ≠ n.id) → n ∈ t.nodes))
  ∧ (∀ (s : State) (d a b : Reg) (lvl : Level), s.regsWf → s.quiet →
        let o := namedBy lvl (s.rd a) (s.rd b)
        let i : Instr := .waitc d a b lvl
        let may := s.str.sup = true ∨ o.job = s.me.jobId.toNat % 2 ^ 32
        (¬ may → Gives i s 1 d 2 0)
        ∧ (may → s.contains o s.iss.core = true → Gives i s 1 d 3 0)
        ∧ (may → s.contains o s.iss.core = false → (∃ n ∈ s.nodes, o.has n = true) → exec i s = .next (s.hold .waitc))
        ∧ (may → s.contains o s.iss.core = false → (∀ n ∈ s.nodes, o.has n = false) →
            ((s.outcome o).1 ≠ 0 → Gives i s 1 d (BitVec.ofNat 64 (s.outcome o).1) 0)
            ∧ ((s.outcome o).1 = 0 → ∃ t, exec i s = .next t ∧ t.iss = s.iss ∧ (t.later 1).rd d = 0)))

/-! ## Scratchpad and global memory -/

/-- Every scratchpad access checks its address in the order of R146 and takes the trap of the first check that fails, with no effect;
an access that a pending spamo of the strand meets waits for it (R146, R147). -/
def Obligations.ScratchpadChecks : Prop :=
  ∀ (s : State) (i : Instr) (ea : Word) (n : Nat) (rd : Bool),
    ((∃ d m sx sz, i = .ld d m sx sz ∧ m.spc = .sp ∧ ea = memEa m s ∧ n = szBytes sz ∧ rd = true)
      ∨ (∃ d c m, i = .ldq d c m ∧ m.spc = .sp ∧ ea = memEa m s ∧ n = 16 ∧ rd = true)
      ∨ (∃ c m sz, i = .st c m sz ∧ m.spc = .sp ∧ ea = memEa m s ∧ n = szBytes sz ∧ rd = false)
      ∨ (∃ dm b c k m, i = .stq dm b c k m ∧ m.spc = .sp ∧ ea = s.rd m.a + m.off.signExtend 64 ∧ n = 16 ∧ rd = false
          ∧ (k = true → (s.rd dm).toNat % 65536 ≠ 0))
      ∨ (∃ d p m sz, i = .ldl d p m sz ∧ ea = memEa m s ∧ n = szBytes sz ∧ rd = true)
      ∨ (∃ c m sz, i = .stu c m sz ∧ ea = memEa m s ∧ n = szBytes sz ∧ rd = false)
      ∨ (∃ d a b c off op dbl, i = .spamo d a b c off op dbl ∧ ea = s.rd a + off.signExtend 64 ∧ n = (if dbl then 8 else 4) ∧ rd = true)
      ∨ (∃ a b, i = .lwarm a b ∧ ea = s.rd a ∧ n = 16 ∧ rd = false)
      ∨ (∃ a b, i = .lwwait a b ∧ ea = s.rd a ∧ n = 16 ∧ rd = true)) →
    let a := ea.toNat
    let bank := a / 65536
    let k := s.me
    let inRange := a < 2 ^ 21 ∧ k.budget.getLsbD bank = true
    let traps (cause sub : Nat) : Prop := exec i s = .next (s.takeTrap ⟨cause, sub, ea⟩)
    let pending := k.pendchk.getLsbD 0 = true ∧ ∃ r ∈ k.pendRows, 128 * r.1 < a + n ∧ a < 128 * r.1 + 128
    (¬ inRange → traps Cause.scratchpadRange 0)
    ∧ (inRange → a % n ≠ 0 → traps Cause.misalignedAccess 0)
    ∧ (inRange → a % n = 0 → k.mode bank ≠ .scratch → traps Cause.bankModeViolation 0)
    ∧ (inRange → a % n = 0 → k.mode bank = .scratch → rd = true →
        (pending → traps Cause.pendingRead 0)
        ∧ (¬ pending → (∃ w ∈ k.ueWords, 8 * w < a + n ∧ a < 8 * w + 8) → traps Cause.sramUncorrectable bank))
    ∧ (k.spCheck ea n rd = none → s.spamoAhead a n = true → exec i s = .next (s.hold .lock))

/-- A scratchpad load that passes its checks reads its bytes, little-endian, five bundles later: ld extends them, ldq loads two
registers; an aligned 8-byte word that nothing orders after its latest write is read whole, old or new. Nothing else of the machine
changes but what the strand knows of the writes it has read, and no byte of the scratchpad; where the load is no acquire, no byte of
memory at all (R13, R16, R43, R145, R149). -/
def Obligations.ScratchpadLoads : Prop :=
  ∀ (s : State) (d c : Reg) (m : MemOp) (sx : Bool) (sz : Size), s.regsWf → m.spc = .sp →
    let ea := memEa m s
    let a := ea.toNat
    let num (byte : Nat → Byte) (x k : Nat) : Nat := le ((List.range k).map fun i => byte (x + i))
    let acq := if m.ord = .acq ∨ m.ord = .ar ∨ m.ord = .sc then some Scope.cr else none
    let loads (i : Instr) (n : Nat) (rs : (Nat → Byte) → List (Dst × Word)) : Prop :=
      s.me.spCheck ea n true = none → s.spamoAhead a n = false →
        ∃ t w byte, exec i s = .next t ∧ Sees s w s.iss.core s.iss.strand.val a n byte
          ∧ SameScratch s t Nowhere ∧ (acq = none → SameGlobal s t)
          ∧ (let seen := w.noteRead s.iss.core s.iss.strand ((List.range n).map fun i => s.me.scrMeta.get Meta.zero (a + i)) acq
             Results seen t 5 (rs byte) 0 ∧ seen.str.g = s.str.g ∧ seen.str.p = s.str.p ∧ seen.str.pend = s.str.pend ∧ seen.str.n = s.str.n
              ∧ seen.str.xflags = s.str.xflags ∧ seen.iss = s.iss)
    loads (.ld d m sx sz) (szBytes sz) (fun byte => [(.reg d, if sx then (BitVec.ofNat (8 * szBytes sz) (num byte a (szBytes sz))).signExtend 64
      else BitVec.ofNat 64 (num byte a (szBytes sz)))])
    ∧ (d ≠ c ∨ d = 0 → loads (.ldq d c m) 16 fun byte => [(.reg d, BitVec.ofNat 64 (num byte a 8)), (.reg c, BitVec.ofNat 64 (num byte (a + 8) 8))])

/-- A scratchpad store that passes its checks writes its bytes and no other byte of any scratchpad or of global memory, and no
register; a store of a whole marked word clears its mark. Until a release covers it, other agents may find the words it wrote as they
were; a release, or a store behind one of the strand's release fences, they all find. A release first completes the strand's loads
(R43, R148, R149, R446). -/
def Obligations.ScratchpadStores : Prop :=
  ∀ (s : State) (i : Instr) (m : MemOp) (ea : Word) (n : Nat) (data : Nat → Byte) (on : Nat → Bool), m.spc = .sp →
    ((∃ c sz, i = .st c m sz ∧ ea = memEa m s ∧ n = szBytes sz ∧ (∀ x, data x = (s.rd c).extractLsb' (8 * x) 8) ∧ ∀ x, on x = true)
      ∨ (∃ dm b c k, i = .stq dm b c k m ∧ ea = s.rd m.a + m.off.signExtend 64 ∧ n = 16
          ∧ (∀ x, data x = if x < 8 then (s.rd b).extractLsb' (8 * x) 8 else (s.rd c).extractLsb' (8 * (x - 8)) 8)
          ∧ ∀ x, on x = if k then (s.rd dm).getLsbD x else true)) →
    s.me.spCheck ea n false = none → s.spamoAhead ea.toNat n = false →
    let c := s.iss.core
    let a := ea.toNat
    let stored (q x : Nat) : Prop := q = c ∧ a ≤ x ∧ x < a + n ∧ on (x - a) = true
    let rel := m.ord = .rel ∨ m.ord = .ar ∨ m.ord = .sc
    let w := if rel then s.loadsDone c s.iss.strand else s
    let plain := ¬ rel ∧ s.str.ord.fence = []
    ∃ t, exec i s = .next t
      ∧ (∀ x, x < n → on x = true → t.me.spByte (a + x) = data x)
      ∧ SameScratch s t stored ∧ SameGlobal s t
      ∧ (∀ q, q ≠ c → t.core q = w.core q) ∧ (∀ y, y ≠ s.iss.strand → t.strand c y = w.strand c y)
      ∧ t.str = { w.str with ord := t.str.ord } ∧ { t with cores := w.cores, widNext := w.widNext } = w
      ∧ t.me = { w.me with st := t.me.st, scratch := t.me.scratch, scrMeta := t.me.scrMeta, torn := t.me.torn, ueWords := t.me.ueWords }
      ∧ (∀ x, x < n → on x = true →
          let q := (a + x) / 8
          (plain → ∃ e, t.me.torn.find q = some e ∧ e.who = s.iss.strand.val ∧ e.id ∈ t.str.ord.own
            ∧ (s.me.torn.find q = none → e.seen = [] ∧ ∀ j < 8, e.old.getD j 0 = s.me.spByte (8 * q + j)))
          ∧ (¬ plain → t.me.torn.find q = none))
      ∧ ((∀ x, x < n → on x = true) → ∀ q, q ∈ t.me.ueWords ↔ q ∈ s.me.ueWords ∧ ¬ (a ≤ 8 * q ∧ 8 * q + 8 ≤ a + n))

/-- Every access of global memory by a strand checks its address in the order of R146: a noncanonical address, a misaligned one, the
cause of the walk, and a permission it lacks; the trap of the first that fails is taken with no effect (R146, R159, R163). -/
def Obligations.GlobalChecks : Prop :=
  ∀ (s : State) (i : Instr) (ea : Word) (n : Nat) (k : Acc3),
    ((∃ d m sx sz, i = .ld d m sx sz ∧ m.spc = .g ∧ ea = memEa m s ∧ n = szBytes sz ∧ k = .counter)
      ∨ (∃ d c m, i = .ldq d c m ∧ m.spc = .g ∧ ea = memEa m s ∧ n = 16 ∧ k = .rd)
      ∨ (∃ c m sz, i = .st c m sz ∧ m.spc = .g ∧ ea = memEa m s ∧ n = szBytes sz ∧ k = .wr)
      ∨ (∃ dm b c g m, i = .stq dm b c g m ∧ m.spc = .g ∧ ea = s.rd m.a + m.off.signExtend 64 ∧ n = 16 ∧ k = .wr
          ∧ (g = true → (s.rd dm).toNat % 65536 ≠ 0))
      ∨ (∃ d m sx sz, i = .ldt d m sx sz ∧ ea = memEa m s ∧ n = szBytes sz ∧ k = .rd)
      ∨ (∃ d a b c off op dbl ord scp, i = .amo d a b c off op dbl ord scp ∧ ea = s.rd a + off.signExtend 64
          ∧ n = (if dbl then 8 else 4) ∧ k = .rw)
      ∨ (∃ d a b c off op dbl, i = .amosc d a b c off op dbl ∧ ea = s.rd a + off.signExtend 64 ∧ n = (if dbl then 8 else 4) ∧ k = .rw)
      ∨ (∃ x a b scp, i = .cueinc true x a b scp ∧ ea = s.rd a ∧ n = 8 ∧ k = .cueWr)
      ∨ (∃ d x a, i = .cuerd d true x a ∧ ea = s.rd a ∧ n = 8 ∧ k = .cueRd)) →
    let walked := s.translate s.iss.core (dieOf s.iss.core) s.mySpace ea
    let traps (cause sub : Nat) : Prop := exec i s = .next (s.takeTrap ⟨cause, sub, ea⟩)
    (2 ^ 58 ≤ ea.toNat → traps Cause.noncanonicalAddress 0)
    ∧ (ea.toNat < 2 ^ 58 → ea.toNat % n ≠ 0 → traps Cause.misalignedAccess 0)
    ∧ (ea.toNat < 2 ^ 58 → ea.toNat % n = 0 → ∀ x, walked = .error x → exec i s = .next (s.takeTrap x))
    ∧ (ea.toNat < 2 ^ 58 → ea.toNat % n = 0 → ∀ l s1, walked = .ok (l, s1) →
        let reads := k = .rd ∨ k = .counter
        let seen := s.str.sup = true ∨ pteU l.e = true
        (reads → ¬ (pteR l.e = true ∧ seen ∧ pteRmt l.e = false ∧ pteCp l.e ≠ 2) → traps Cause.readPermission l.lvl)
        ∧ (k = .wr → ¬ (pteW l.e = true ∧ seen ∧ pteRmt l.e = false ∧ pteCp l.e < 2) → traps Cause.writePermission l.lvl)
        ∧ (k = .rd → pteCp l.e = 3 → traps Cause.readPermission l.lvl)
        ∧ (k = .rw → ¬ (pteR l.e = true ∧ pteW l.e = true ∧ seen ∧ pteRmt l.e = false ∧ pteCp l.e < 2) → traps Cause.writePermission l.lvl)
        ∧ (k = .cueWr → pteCp l.e ≠ 2 → traps Cause.writePermission l.lvl)
        ∧ (k = .cueRd → pteCp l.e ≠ 2 → traps Cause.readPermission l.lvl))

/-- A global ld or ldq that passes its checks completes with its registers pending in the scoreboard; a watched one of user mode
raises watchpoint, and one that meets poison or another key its cause. Where the core's die holds the line, the value is the bytes
the core sees there and a load that is no acquire changes no byte of memory; no scratchpad byte changes (R16, R19, R146, R149, R456). -/
def Obligations.GlobalLoads : Prop :=
  ∀ (s s1 : State) (i : Instr) (ea : Word) (n : Nat) (ds : List Reg) (m : MemOp) (sx : Bool) (l : Leaf), m.spc = .g →
    ((∃ d sz, i = .ld d m sx sz ∧ n = szBytes sz ∧ ds = [d]) ∨ (∃ d c, i = .ldq d c m ∧ n = 16 ∧ ds = [d, c] ∧ sx = false)) →
    ea = memEa m s →
    s.gcheck s.iss.core (dieOf s.iss.core) s.mySpace ea n (if n ≤ 8 then .counter else .rd) = .ok (l, s1) → pteCp l.e ≠ 3 →
    let c := s.iss.core
    let pa := l.pa ea.toNat
    let s2 := s1.settled pa n
    let acq := m.ord = .acq ∨ m.ord = .ar ∨ m.ord = .sc
    let words (bs : List Byte) : List Word :=
      if n = 16 then [BitVec.ofNat 64 (le (bs.take 8)), BitVec.ofNat 64 (le (bs.drop 8))]
      else [if sx then (BitVec.ofNat (8 * n) (le bs)).signExtend 64 else BitVec.ofNat 64 (le bs)]
    Access s s1 ∧ SameScratch s s1 Nowhere
    ∧ (∀ x, s2.coreRead c pa n (pteKid l.e) (pteCh l.e) (pteCp l.e != 1) ea = .error x → exec i s = .next (s.takeTrap x))
    ∧ (∀ bs ms s3, s2.coreRead c pa n (pteKid l.e) (pteCh l.e) (pteCp l.e != 1) ea = .ok ((bs, ms), s3) →
        let s4 := if acq then s3.noteRead c s.iss.strand ms (some m.scp) else s3
        Access s2 s3 ∧ bs.length = n
        ∧ (s.watches ea n false → exec i s = .next (s.takeTrap ⟨Cause.watchpoint, 1, ea⟩))
        ∧ (¬ s.watches ea n false →
            ∃ t, exec i s = .next t ∧ Pends s4 t ds (words bs) 0 ∧ SameScratch s t Nowhere ∧ SameMemory s4 t
              ∧ (∀ e, s2.resident (dieOf c) (pa / 128) = some e → e.poison = false →
                  (∀ j < n, s2.byteAt c (pa + j) (pteKid l.e) = some (bs.getD j 0))
                  ∧ (s.me.cacheWays = [] ∨ pteCp l.e = 1 → ¬ acq → SameMemory s1 t))))

/-- A global st or stq that passes its checks is posted: the core then reads the stored bytes, and every other byte, and every byte
for every other core, reads as before, unless a full store queue or data cache makes room; no register changes but by earlier loads
that complete first (R147, R149, R287, R307).
A store with no byte enabled checks and writes nothing, and keeps its ordering: a release completes the strand's loads (R151). -/
def Obligations.GlobalStores : Prop :=
  (∀ (s s1 : State) (i : Instr) (m : MemOp) (ea : Word) (n : Nat) (data : Nat → Byte) (on : Nat → Bool) (l : Leaf), m.spc = .g →
      ((∃ c sz, i = .st c m sz ∧ ea = memEa m s ∧ n = szBytes sz ∧ (∀ x, data x = (s.rd c).extractLsb' (8 * x) 8) ∧ ∀ x, on x = true)
        ∨ (∃ dm b c k, i = .stq dm b c k m ∧ ea = s.rd m.a + m.off.signExtend 64 ∧ n = 16
            ∧ (∀ x, data x = if x < 8 then (s.rd b).extractLsb' (8 * x) 8 else (s.rd c).extractLsb' (8 * (x - 8)) 8)
            ∧ ∀ x, on x = if k then (s.rd dm).getLsbD x else true)) →
      (∃ x, x < n ∧ on x = true) →
      s.gcheck s.iss.core (dieOf s.iss.core) s.mySpace ea n .wr = .ok (l, s1) →
      let c := s.iss.core
      let pa := l.pa ea.toNat
      let stored (x : Nat) : Prop := pa ≤ x ∧ x < pa + n ∧ on (x - pa) = true
      (∀ x, s1.keyCheck c (pa / 128) (pteKid l.e) ea = some x → exec i s = .next (s.takeTrap x))
      ∧ (s1.keyCheck c (pa / 128) (pteKid l.e) ea = none → s.watches ea n true →
          exec i s = .next (s.takeTrap ⟨Cause.watchpoint, 2, ea⟩))
      ∧ (s1.keyCheck c (pa / 128) (pteKid l.e) ea = none → ¬ s.watches ea n true →
          ∃ t e w, exec i s = .next t ∧ t.me.wbuf = w ++ [e] ∧ e.strand = s.iss.strand ∧ e.kid = pteKid l.e
            ∧ e.bytes = ((List.range n).filter fun x => on x).map (fun x => (pa + x, data x))
            ∧ (∀ x, x < n → on x = true → ∀ y, t.coreByte c (pa + x) y = data x)
            ∧ SameScratch s t Nowhere
            ∧ (s.str.sb = [] → Access s (t.modStr fun u => { u with ord := s.str.ord }))
            ∧ ((if s.me.cacheWays = [] then s1.me.wbuf.length < 32 else pteCp l.e = 1) →
                w = s1.me.wbuf ∧ ∀ c' x kid, c' ≠ c ∨ ¬ stored x → t.byteAt c' x kid = s1.byteAt c' x kid)))
  ∧ (∀ (s : State) (dm b c : Reg) (m : MemOp), (s.rd dm).toNat % 65536 = 0 →
        (m.ord = .rlx → exec (.stq dm b c true m) s = .next s)
        ∧ (m.ord = .rel → exec (.stq dm b c true m) s = .next (s.loadsDone s.iss.core s.iss.strand)
            ∧ SameMemory s (s.loadsDone s.iss.core s.iss.strand)))

/-- ldt reads through the table cache: a line there answers, under its key, with the bytes it holds or with newer ones, as each access
finds (a free bit chooses); any other fills it from the core's view. tfence is an acquire that empties the cache (R152, R153). -/
def Obligations.TableCache : Prop :=
  (∀ (s s1 : State) (d : Reg) (m : MemOp) (sx : Bool) (sz : Size) (l : Leaf),
    let ea := memEa m s
    let n := szBytes sz
    s.gcheck s.iss.core (dieOf s.iss.core) s.mySpace ea n .rd = .ok (l, s1) →
    let pa := l.pa ea.toNat
    let i : Instr := .ldt d m sx sz
    let num (bs : List Byte) : Word := if sx then (BitVec.ofNat (8 * n) (le bs)).signExtend 64 else BitVec.ofNat 64 (le bs)
    let reads (t : State) (v : Word) : Prop := t.str = { s.str with
        sb := s.str.sb ++ [⟨s.str.sbNext, [d], [v], 0, .done⟩], sbNext := s.str.sbNext + 1, ord := t.str.ord }
      ∧ Access s (t.modStr fun _ => s.str) ∧ SameScratch s t Nowhere
    (∀ x, s1.me.tc.find? (fun e => e.line == pa / 128) = some x →
      let key := s1.keyAt (pa / 128) (pteKid l.e)
      let s2 := (s1.modMe fun k => { k with tc := x :: k.tc.filter (fun y => y.line != pa / 128) }).drawBit.2
      let newer := s2.tcSee s.iss.core (pa / 128) (pteKid l.e) (pteCh l.e) ea
      (key = none → exec i s = .next (s.takeTrap ⟨Cause.keyMismatch, 3, ea⟩))
      ∧ (key ≠ none → x.kid ≠ pteKid l.e → exec i s = .next (s.takeTrap ⟨Cause.keyMismatch, 1, ea⟩))
      ∧ (key ≠ none → x.kid = pteKid l.e → s.watches ea n false → exec i s = .next (s.takeTrap ⟨Cause.watchpoint, 1, ea⟩))
      ∧ (key ≠ none → x.kid = pteKid l.e → ¬ s.watches ea n false → ∃ t v, exec i s = .next t ∧ reads t v
          ∧ (v = num ((x.data.drop (pa % 128)).take n)
              ∨ ∃ y s3, newer = .ok (y, s3) ∧ v = num ((y.data.drop (pa % 128)).take n))))
    ∧ (s1.me.tc.find? (fun e => e.line == pa / 128) = none →
        (∀ x, s1.dieLine (dieOf s.iss.core) (pa / 128) (pteKid l.e) (pteCh l.e) ea = .error x → exec i s = .next (s.takeTrap x))
        ∧ (∀ data s2, s1.dieLine (dieOf s.iss.core) (pa / 128) (pteKid l.e) (pteCh l.e) ea = .ok (data, s2) → s2.me.wbuf = [] →
            ¬ s.watches ea n false →
            ∃ t, exec i s = .next t ∧ reads t (num ((data.drop (pa % 128)).take n)) ∧ SameMemory s2 t
              ∧ ∃ x ∈ t.me.tc, x.line = pa / 128 ∧ x.kid = pteKid l.e ∧ x.data = data)))
  ∧ ∀ (s : State) (scp : Scope), ∃ t, exec (.tfence scp) s = .next t ∧ t.me.tc = [] ∧ (∀ b ∈ t.str.sb, b.free = false)
      ∧ Ordered s (t.modMe fun k => { k with tc := s.me.tc, tfWid := s.me.tfWid })

/-- A fence completes: an acquire once the strand's loads have returned and its die holds every write released to it at the scope; a
release beyond the core once its posted stores are performed, and it stands before every later write; fence.sc, outside an Encore
run, takes a ticket from a ready sequencer and else waits (R148, R160, R161, R292, R434).
pref touches caches alone, and does nothing where its address fails a check; cflush of no byte does nothing; a flush within one
page leaves no posted store, no dirty and, but for clean, no cached copy of its lines in the core, and at .pkg none on any die, and
no register changes; a line under another key, or none, raises key_mismatch (R146, R168, R169). -/
def Obligations.FencesAndCacheHints : Prop :=
  (∀ (s : State) (scp : Scope),
      let c := s.iss.core
      let free (t : State) : Prop := ∀ b ∈ t.str.sb, b.free = false
      let released (t : State) : Prop := (∃ r ∈ t.str.ord.fence, r.scp = scp ∧ r.agent = c)
        ∧ (scp ≠ .cr → ∀ e ∈ t.me.wbuf, e.strand ≠ s.iss.strand)
      let acquired (t : State) : Prop := s.str.sb = [] → ∀ u ∈ (t.die (dieOf c)).upds, u.wid ∉ relIds scp c s.str.ord.unacq
      (∃ t, exec (.fence .acq scp) s = .next t ∧ free t ∧ Ordered s t ∧ acquired t)
      ∧ (∃ t, exec (.fence .rel scp) s = .next t ∧ free t ∧ Ordered s t ∧ released t)
      ∧ (∃ t, exec (.fence .ar scp) s = .next t ∧ free t ∧ Ordered s t ∧ acquired t ∧ released t)
      ∧ (s.isReady .scseq 0 = false → exec (.fence .sc .pkg) s = .next (s.hold .encore))
      ∧ (s.isReady .scseq 0 = true → s.iod.encMode = 0 →
          ∃ t, exec (.fence .sc .pkg) s = .next t ∧ free t ∧ t.scTicket = s.scTicket + 1 ∧ Ordered s { t with scTicket := s.scTicket }
            ∧ ∀ e ∈ t.me.wbuf, e.strand ≠ s.iss.strand))
  ∧ (∀ (s : State) (m : MemOp) (llc : Bool) (a b : Reg) (kind : FlushKind) (scp : Scope),
        let c := s.iss.core
        let lo := (s.rd a).toNat
        let n := (s.rd b).toNat
        (∃ t, exec (.pref m llc) s = .next t ∧ Access s t ∧ SameScratch s t Nowhere)
        ∧ (∀ x, s.gcheck c (dieOf c) s.mySpace (memEa m s) 1 .rd = .error x → exec (.pref m llc) s = .next s)
        ∧ ((kind = .discard → s.str.sup = true) → n = 0 → exec (.cflush a b kind scp) s = .next s)
        ∧ ((kind = .discard → s.str.sup = true) → n ≠ 0 → lo < 2 ^ 64 - n → lo / 2 ^ 14 = (lo + n - 1) / 2 ^ 14 →
            let go := s.gcheck c (dieOf c) s.mySpace (s.rd a) 1 (if kind = .discard then .drop else .rd)
            (∀ x, go = .error x → exec (.cflush a b kind scp) s = .next (s.takeTrap x))
            ∧ (∀ l s1, go = .ok (l, s1) → scp = .cr ∨ scp = .pkg →
                let first := l.pa lo / 128
                let last := l.pa (lo + n - 1) / 128
                let inside (y : Nat) : Prop := first ≤ y ∧ y ≤ last
                let key := (List.range (last + 1 - first)).findSome? fun j => s1.keyCheck c (first + j) (pteKid l.e) (s.rd a)
                (∀ x, key = some x → exec (.cflush a b kind scp) s = .next (s.takeTrap x))
                ∧ (key = none → ∃ t, exec (.cflush a b kind scp) s = .next t ∧ Access s t ∧ SameScratch s t Nowhere
                  ∧ (∀ e ∈ t.me.wbuf, ∀ y ∈ e.bytes, ¬ inside (y.1 / 128))
                  ∧ (∀ e ∈ t.me.dc, inside e.line → kind = .clean ∧ e.dirty = false)
                  ∧ (scp = .pkg → ∀ d, ∀ e ∈ (t.die d).sets, ∀ y ∈ e.2, inside y.line → kind = .clean ∧ (y.guest = true ∨ y.dirty = false))))))

/-- The scratchpad locks: ldl takes a lock that is free or its own and loads as an acquire, else answers false and loads nothing; stu by the holder
stores and frees the lock, for all to see, by any other does nothing; spamo works at once on a free lock or its own, and retries on
another's (R43, R154 to R157). -/
def Obligations.Locks : Prop :=
  ∀ (s : State) (d a b c : Reg) (p : Pred) (m : MemOp) (sz : Size) (off : BitVec 10) (op : Aop) (dbl : Bool), s.regsWf →
    let ea := memEa m s
    let n := szBytes sz
    let lk := 16 * (ea.toNat / 65536) + (ea.toNat / 8 % 16 ^^^ ea.toNat / 128 % 16 ^^^ ea.toNat / 2048 % 16)
    let holder := s.me.locks.find lk
    let mine := holder = some s.iss.strand
    let taken : State := s.acquire s.iss.core s.iss.strand (s.me.lockRels.get [] lk)
    (s.me.spCheck ea n true = none → s.spamoAhead ea.toNat n = false →
      ((∃ u, holder = some u ∧ u ≠ s.iss.strand) → Decides (.ldl d p m sz) s 5 [(p, false)] 0)
      ∧ (mine ∨ (holder = none ∧ s.me.spamoTurn lk = none) →
          ∃ t w byte, exec (.ldl d p m sz) s = .next t ∧ t.me.locks.find lk = some s.iss.strand
            ∧ (∀ k, k ≠ lk → t.me.locks.find k = s.me.locks.find k)
            ∧ (∀ e ∈ taken.me.torn, e.2.id ∈ s.me.lockRels.get [] lk → s.iss.strand.val ∈ e.2.seen)
            ∧ Sees taken w s.iss.core s.iss.strand.val ea.toNat n byte
            ∧ Results (w.noteRead s.iss.core s.iss.strand ((List.range n).map fun i => s.me.scrMeta.get Meta.zero (ea.toNat + i)) (some .cr))
                (t.modMe fun k => { k with locks := s.me.locks, lockLast := s.me.lockLast, lockRels := s.me.lockRels }) 5
                [(.reg d, BitVec.ofNat 64 (le ((List.range n).map fun i => byte (ea.toNat + i)))), (.pred p, 1)] 0))
    ∧ (s.me.spCheck ea n false = none → s.spamoAhead ea.toNat n = false →
        (¬ mine → exec (.stu c m sz) s = .next s)
        ∧ (mine → s.me.locks.rises = true → ∃ t, exec (.stu c m sz) s = .next t ∧ t.me.locks.find lk = none
            ∧ (∀ k, k ≠ lk → t.me.locks.find k = s.me.locks.find k)
            ∧ (∀ x, x < n → t.me.spByte (ea.toNat + x) = (s.rd c).extractLsb' (8 * x) 8)
            ∧ SameScratch s t (fun q x => q = s.iss.core ∧ ea.toNat ≤ x ∧ x < ea.toNat + n) ∧ SameGlobal s t
            ∧ (∀ x, x < n → t.me.torn.find ((ea.toNat + x) / 8) = none)
            ∧ t = ((s.loadsDone s.iss.core s.iss.strand).modStr Strand.newStores).modMe fun k =>
                { k with scratch := t.me.scratch, scrMeta := t.me.scrMeta, torn := t.me.torn, ueWords := t.me.ueWords, locks := t.me.locks,
                         lockRels := t.me.lockRels }))
    ∧ (let fa := s.rd a + off.signExtend 64
       let w := if dbl then 8 else 4
       let fl := 16 * (fa.toNat / 65536) + (fa.toNat / 8 % 16 ^^^ fa.toNat / 128 % 16 ^^^ fa.toNat / 2048 % 16)
       let x := le ((List.range w).map fun i => s.me.spByte (fa.toNat + i))
       let r := aopApply op dbl x ((s.rd b).toNat % 2 ^ (8 * w)) ((s.rd c).toNat % 2 ^ (8 * w))
       s.me.spCheck fa w true = none → s.spamoAhead fa.toNat w = false →
        ((∃ u, s.me.locks.find fl = some u ∧ u ≠ s.iss.strand) →
          ∃ t, exec (.spamo d a b c off op dbl) s = .next t ∧ SameMemory s t
            ∧ t = s.modStr fun u => { u with sb := u.sb ++ [⟨u.sbNext, [d], [], 0, .spamo fa.toNat op dbl (s.rd b) (s.rd c)⟩], sbNext := u.sbNext + 1 })
        ∧ (s.me.locks.find fl = some s.iss.strand ∨ (s.me.locks.find fl = none ∧ s.me.spamoTurn fl = none) →
          ∃ t, exec (.spamo d a b c off op dbl) s = .next t
            ∧ t.str.sb = s.str.sb ++ [⟨s.str.sbNext, [d], [BitVec.ofNat 64 x], r.2, .done⟩]
            ∧ t.str = { s.str with sb := t.str.sb, sbNext := s.str.sbNext + 1, ord := t.str.ord } ∧ t.me.locks = s.me.locks
            ∧ (match r.1 with
              | none => SameScratch s t Nowhere
              | some v => (∀ i < w, t.me.spByte (fa.toNat + i) = BitVec.ofNat 8 (v / 256 ^ i))
                  ∧ SameScratch s t fun q y => q = s.iss.core ∧ fa.toNat ≤ y ∧ y < fa.toNat + w)))

/-- A global atomic on memory with no write under way, outside an Encore run: it answers the old value at the home slice, zero-extended,
through the scoreboard, and writes the new one there, if it writes; amosc takes one ticket from a ready sequencer, waits for one that
is not ready, and takes none where it faults (R146, R158 to R160, R434).
The operations of an atomic on the old value x, the expected value b and the operand c, all of the access size (R159). -/
def Obligations.GlobalAtomics : Prop :=
  (∀ (s s1 : State) (d a b c : Reg) (off : BitVec 10) (op : Aop) (dbl : Bool) (ord : Ord) (scp : Scope) (l : Leaf) (sc : Bool),
      let ea := s.rd a + off.signExtend 64
      let n := if dbl then 8 else 4
      let i : Instr := if sc then .amosc d a b c off op dbl else .amo d a b c off op dbl ord scp
      s.gcheck s.iss.core (dieOf s.iss.core) s.mySpace ea n .rw = .ok (l, s1) →
      s1.settledMemory → s.str.sb = [] → s.iod.encMode = 0 → (scp = .sys → s.str.ord.lines = []) →
      let pa := l.pa ea.toNat
      let home := (s1.dropCopy s.iss.core (pa / 128)).homeRead pa n (pteKid l.e) (pteCh l.e) ea
      (∀ x, home = .error x → exec i s = .next (s.takeTrap x))
      ∧ (∀ bs s2, home = .ok (bs, s2) → (∀ e, s2.resident (homeOf (pa / 128)) (pa / 128) = some e → e.data.length = 128) →
          (s.watches ea n true → exec i s = .next (s.takeTrap ⟨Cause.watchpoint, 2, ea⟩))
          ∧ (¬ s.watches ea n true → sc = true → s.isReady .scseq 0 = false → ∃ t, exec i s = .next t ∧ t.iss.held = some .encore)
          ∧ (¬ s.watches ea n true → (sc = true → s.isReady .scseq 0 = true) →
              let r := aopApply op dbl (le bs) ((s.rd b).toNat % 2 ^ (8 * n)) ((s.rd c).toNat % 2 ^ (8 * n))
              ∃ t, exec i s = .next t
                ∧ t.str.sb = [⟨s.str.sbNext, [d], [BitVec.ofNat 64 (le bs)], 0, .done⟩]
                ∧ t.str = { s.str with sb := t.str.sb, sbNext := s.str.sbNext + 1, ord := t.str.ord }
                ∧ t.scTicket = s.scTicket + (if sc then 1 else 0)
                ∧ Access s ({ t with scTicket := s.scTicket }.modStr fun _ => s.str) ∧ SameScratch s t Nowhere
                ∧ HomeHolds s2 t pa (match r.1 with | some v => toLe n v | none => []))))
  ∧ (∀ (dbl : Bool) (x b c : BitVec (if dbl then 64 else 32)),
        let f (op : Aop) := aopApply op dbl x.toNat b.toNat c.toNat
        f .add = (some (x + c).toNat, 0) ∧ f .and = (some (x &&& c).toNat, 0) ∧ f .or = (some (x ||| c).toNat, 0)
        ∧ f .xor = (some (x ^^^ c).toNat, 0)
        ∧ f .min = (some (if x.slt c then x else c).toNat, 0) ∧ f .max = (some (if x.slt c then c else x).toNat, 0)
        ∧ f .minu = (some (if x.ult c then x else c).toNat, 0) ∧ f .maxu = (some (if x.ult c then c else x).toNat, 0)
        ∧ f .swap = (some c.toNat, 0) ∧ f .cas = (if x = b then some c.toNat else none, 0))

/-- cueinc adds to the cue it names, modulo 2^32, and to no other; an increment of 2^31 or more raises cue_overflow; cuewait completes
when its cue has reached its target and else waits; cuerd gives the cue through the scoreboard (R33, R162, R163).
tkpush adds one token to the FIFO from the strands to each engine it names, once the strand's loads have returned, and waits while
one of them holds 15; the tokens carry the scratchpad stores the strand has made. tkpop takes one from the FIFO from each engine it names
to the strands, and waits while one of them is empty; the strand then finds no word as it was before a write that the tokens carry
(R28, R29, R43, R165). -/
def Obligations.CuesAndTokens : Prop :=
  (∀ (s : State) (d a b : Reg) (x : BitVec 6) (scp : Scope),
      let c := s.iss.core
      let B := s.rd b
      let ea := s.rd a
      let adds (t : State) (tc tn : Nat) : Prop :=
        (∀ c' n', (t.core c').cues.get 0 n' = (if c' = tc ∧ n' = tn then (s.core c').cues.get 0 n' + B.truncate 32 else (s.core c').cues.get 0 n'))
        ∧ (∀ e ∈ t.str.sb, e.free = false) ∧ (scp ≠ .cr → ∀ e ∈ t.me.wbuf, e.strand ≠ s.iss.strand)
        ∧ Ordered s (t.modCore tc fun k => { k with cues := (s.core tc).cues, cueRels := (s.core tc).cueRels, cueStamp := (s.core tc).cueStamp, cueSrc := (s.core tc).cueSrc })
      let t32 : BitVec 32 := B.truncate 32
      (B.getLsbD 31 = true → exec (.cueinc false x a b scp) s = .next (s.takeTrap ⟨Cause.cueOverflow, 0, B⟩))
      ∧ (B.getLsbD 31 = false → s.me.cues.wf 0 = true → ∃ t, exec (.cueinc false x a b scp) s = .next t ∧ adds t c x.toNat)
      ∧ (∀ l s1, s.gcheck c (dieOf c) s.mySpace ea 8 .cueWr = .ok (l, s1) →
          let tc := ea.toNat % 2 ^ 17 / 512
          (s.isReady .core tc = false → exec (.cueinc true x a b scp) s = .next (s.takeTrap ⟨Cause.translationNotPresent, 7 * 16 + l.lvl, ea⟩))
          ∧ (s.isReady .core tc = true → B.getLsbD 31 = true → exec (.cueinc true x a b scp) s = .next (s.takeTrap ⟨Cause.cueOverflow, 0, B⟩))
          ∧ (s.isReady .core tc = true → B.getLsbD 31 = false → ¬ s.watches ea 8 true → (s.core tc).cues.wf 0 = true →
              ∃ t, exec (.cueinc true x a b scp) s = .next t ∧ adds t tc (ea.toNat % 512 / 8)))
      ∧ (0 ≤ (s.me.cues.get 0 x.toNat - t32).toInt → ∃ t, exec (.cuewait x b scp) s = .next t ∧ Ordered s t)
      ∧ ((s.me.cues.get 0 x.toNat - t32).toInt < 0 → exec (.cuewait x b scp) s = .next (s.hold .cue))
      ∧ (∃ t, exec (.cuerd d false x a) s = .next t ∧ Pends s t [d] [(s.me.cues.get 0 x.toNat).zeroExtend 64] 0 ∧ SameMemory s t)
      ∧ (∀ l s1, s.gcheck c (dieOf c) s.mySpace ea 8 .cueRd = .ok (l, s1) →
          let tc := ea.toNat % 2 ^ 17 / 512
          (s.isReady .core tc = false → exec (.cuerd d true x a) s = .next (s.takeTrap ⟨Cause.translationNotPresent, 7 * 16 + l.lvl, ea⟩))
          ∧ (s.isReady .core tc = true → ¬ s.watches ea 8 false →
              ∃ t, exec (.cuerd d true x a) s = .next t ∧ Pends s1 t [d] [((s.core tc).cues.get 0 (ea.toNat % 512 / 8)).zeroExtend 64] 0
                ∧ SameMemory s1 t)))
  ∧ (∀ (s : State) (mask : BitVec 5),
        let named (e : Nat) : Prop := 1 ≤ e ∧ e < 5 ∧ mask.getLsbD (4 - e) = true
        (mask.getLsbD 4 = false →
          ((∃ e, named e ∧ 15 ≤ (s.me.tokens (fifoIx 0 e)).length) → exec (.tkpush mask) s = .next (s.hold .fifoFull))
          ∧ ((∀ e, named e → (s.me.tokens (fifoIx 0 e)).length < 15) →
              ∃ t, exec (.tkpush mask) s = .next t ∧ (∀ b ∈ t.str.sb, b.free = false)
                ∧ (∀ e, named e → ∃ k, t.me.tokens (fifoIx 0 e) = s.me.tokens (fifoIx 0 e) ++ [k] ∧ k.src = s.iss.strand.val
                    ∧ ∀ y ∈ s.me.torn, y.2.id ∈ s.str.ord.own → y.2.id ∈ k.ids)
                ∧ (∀ q, (∀ e, named e → q ≠ fifoIx 0 e) → t.me.tokens q = s.me.tokens q)
                ∧ Ordered s (t.modMe fun k => { k with fifo := s.me.fifo })))
        ∧ (mask.getLsbD 4 = false →
          ((∃ e, named e ∧ s.me.tokens (fifoIx e 0) = []) → exec (.tkpop mask) s = .next (s.hold .token))
          ∧ ((∀ e, named e → s.me.tokens (fifoIx e 0) ≠ []) → s.me.fifo.wf [] = true →
              ∃ t, exec (.tkpop mask) s = .next t
                ∧ (∀ e, named e → t.me.tokens (fifoIx e 0) = (s.me.tokens (fifoIx e 0)).drop 1)
                ∧ (∀ e k, named e → (s.me.tokens (fifoIx e 0)).head? = some k → ∀ y ∈ t.me.torn, y.2.id ∈ k.ids → s.iss.strand.val ∈ y.2.seen)
                ∧ (∀ q, (∀ e, named e → q ≠ fifoIx e 0) → t.me.tokens q = s.me.tokens q)
                ∧ Ordered s (t.modMe fun k => { k with fifo := s.me.fifo, fifoPop := s.me.fifoPop }))))

/-- lwarm sets the target and clears count and flags of the landing word, which keeps its generation; lwwait completes once the
generation is beyond its operand and else waits (R36, R167).
What a delivery of n bytes does to the target, count, generation and flags of a landing word (R38). -/
def Obligations.LandingWords : Prop :=
  (∀ (s : State) (a b : Reg),
      let ea := s.rd a
      let gen : BitVec 32 := BitVec.ofNat 32 (le ((List.range 4).map fun i => s.me.spByte (ea.toNat + 8 + i)))
      (s.me.spCheck ea 16 false = none → s.spamoAhead ea.toNat 16 = false →
        ∃ t, exec (.lwarm a b) s = .next t
          ∧ (∀ x < 4, t.me.spByte (ea.toNat + x) = (s.rd b).extractLsb' (8 * x) 8)
          ∧ (∀ x < 16, 4 ≤ x → (x < 8 ∨ 12 ≤ x) → t.me.spByte (ea.toNat + x) = 0)
          ∧ SameScratch s t (fun q y => q = s.iss.core ∧ ea.toNat ≤ y ∧ y < ea.toNat + 16 ∧ ¬ (ea.toNat + 8 ≤ y ∧ y < ea.toNat + 12))
          ∧ SameGlobal s t
          ∧ t = s.modMe fun k => { k with scratch := t.me.scratch, scrMeta := t.me.scrMeta, torn := t.me.torn, ueWords := t.me.ueWords })
      ∧ (s.me.spCheck ea 16 true = none → s.spamoAhead ea.toNat 16 = false →
          (0 < (gen - (s.rd b).truncate 32).toInt → ∃ t, exec (.lwwait a b) s = .next t ∧ Ordered s t)
          ∧ ((gen - (s.rd b).truncate 32).toInt ≤ 0 → exec (.lwwait a b) s = .next (s.hold .land))))
  ∧ (∀ target count gen flags n : Nat, target < 2 ^ 32 → count < 2 ^ 32 → gen < 2 ^ 32 →
        (target = 0 → landUpdate target count gen flags n = ((count + n) % 2 ^ 32, gen, flags, false))
        ∧ (target ≠ 0 → count + n = target → landUpdate target count gen flags n = (0, (gen + 1) % 2 ^ 32, flags, true))
        ∧ (target ≠ 0 → target < count + n →
            landUpdate target count gen flags n = ((count + n - target) % 2 ^ 32, (gen + 1) % 2 ^ 32, flags ||| 1, true))
        ∧ (target ≠ 0 → count + n < target → landUpdate target count gen flags n = (count + n, gen, flags, false)))

/-- mapb sets the mode of one bank of the budget and of no other, and leaves the bytes of every other bank; a bank that enters SCRATCH or
DARK holds free bytes, and any ring is emptied; it names its failures (R170, R171).
vshape checks its three operands in order, writes the shape to TSHAPE and to its register, and fmtq appends a word to the format queue
while it holds fewer than 16 (R174, R211). -/
def Obligations.BanksShapesAndFormats : Prop :=
  (∀ (s : State) (a : Reg) (mode : BankMode),
      let v := s.rd a
      let b := v.toNat
      let k := s.me
      (32 ≤ b ∨ k.budget.getLsbD b = false → exec (.mapb a mode) s = .next (s.takeTrap ⟨Cause.scratchpadRange, 0, v⟩))
      ∧ (b < 32 → k.budget.getLsbD b = true →
          (k.mode b = mode → exec (.mapb a mode) s = .next s)
          ∧ (k.mode b ≠ mode → k.mode b = .fifo → k.fifoBusy b = true → exec (.mapb a mode) s = .next (s.takeTrap ⟨Cause.bankModeBusy, 0, v⟩))
          ∧ (k.mode b ≠ mode → (k.mode b = .fifo → k.fifoBusy b = false) → s.str.spamoIn b = false → k.bankMode.wf .scratch = true → k.rings.wf [] = true →
              ∃ t, exec (.mapb a mode) s = .next t ∧ (∀ q, t.me.mode q = if q = b then mode else k.mode q) ∧ t.me.ring b = []
                ∧ SameScratch s t (fun q y => q = s.iss.core ∧ y / 65536 = b ∧ (mode = .scratch ∨ mode = .dark))
                ∧ (mode = .scratch ∨ mode = .dark → ∀ y, y / 65536 = b → t.me.spByte y = Config.freeScratch (k.bankEpoch.get 0 b + 1) y)
                ∧ (∀ c u, t.strand c u = s.strand c u) ∧ (∀ c, c ≠ s.iss.core → t.core c = s.core c)
                ∧ (mode ≠ .cache → k.mode b ≠ .cache → SameGlobal s t))))
  ∧ (∀ (s : State) (d a b c : Reg),
        let x := (s.rd a).toNat
        let y := (s.rd b).toNat
        let z := (s.rd c).toNat
        let bad (q : Nat) : Prop := q = 0 ∨ 4096 < q
        let w : Word := BitVec.ofNat 64 (x - 1) ||| (BitVec.ofNat 64 (y - 1) <<< 12) ||| (BitVec.ofNat 64 (z / 16) <<< 24)
        (bad x → exec (.vshape d a b c) s = .next (s.takeTrap ⟨Cause.tileSpan, 1, s.rd a⟩))
        ∧ (¬ bad x → bad y → exec (.vshape d a b c) s = .next (s.takeTrap ⟨Cause.tileSpan, 2, s.rd b⟩))
        ∧ (¬ bad x → ¬ bad y → z % 16 ≠ 0 ∨ 65520 < z → exec (.vshape d a b c) s = .next (s.takeTrap ⟨Cause.tileSpan, 3, s.rd c⟩))
        ∧ (¬ bad x → ¬ bad y → z % 16 = 0 → z ≤ 65520 → s.underWay → s.noLoopEnd →
            Leads (.vshape d a b c) s { s.str.step (s.iss.pc + 16) with
              tshape := w, pend := s.str.pend ++ [⟨s.str.n, s.str.n + 1, s.iss.k, .reg d, w, 0⟩] })
        ∧ (s.me.fmtq.length < 16 → ∃ t, exec (.fmtq a) s = .next t ∧ t = s.modMe (fun k => { k with fmtq := k.fmtq ++ [s.rd a] }) ∧ SameMemory s t)
        ∧ (16 ≤ s.me.fmtq.length → exec (.fmtq a) s = .next (s.hold .queue)))

/-! ## The key-value store -/

/-- The key-value commands of a strand resolve their handle or raise its cause; positions beyond the sequence raise kv_position_range;
kvquery answers the word of the cask of a position; kvclass of no position does nothing, and of one cask writes its class; kvtrim writes
the length; kvdrop clears the entry's state; kvfork answers the child's handle or names an empty pool (R227, R230, R249 to R253).
A write to the key-value store, on memory with no update under way, puts its bytes into the home line and leaves no die with an older
value of them; no strand, engine or scratchpad changes (R247, R248). -/
def Obligations.KvCommands : Prop :=
  (∀ (s : State) (d a b : Reg) (cls : BitVec 2),
      let h := (s.rd a).toNat % 2 ^ 32
      let hv : Word := BitVec.ofNat 64 h
      let B := (s.rd b).toNat
      let traps (i : Instr) (cause sub : Nat) : Prop := exec i s = .next (s.takeTrap ⟨cause, sub, hv⟩)
      (∀ x, myHandle h s = .error x → x.cause ≠ 0 →
        ∀ i ∈ [Instr.kvfork d a b, .kvdrop a, .kvclass a b cls, .kvquery d a b, .kvtrim a b], exec i s = .next (s.takeTrap x))
      ∧ (∀ e s1, myHandle h s = .ok (e, s1) →
          let q := B % 2 ^ 32
          let y := B / 2 ^ 32 % 2 ^ 16
          let g := B / 2 ^ 48
          let n := B / 2 ^ 32
          ((e.ncask * e.ppc ≤ q ∨ e.layers ≤ y ∨ e.ngrp ≤ g) → traps (.kvquery d a b) Cause.kvPositionRange 0)
          ∧ (q < e.ncask * e.ppc → y < e.layers → g < e.ngrp →
              (∀ s2, rackGet e y g (q / e.ppc) s1 = .ok (0xFFFFFFFF, s2) →
                ∃ t, exec (.kvquery d a b) s = .next t ∧ Pends s2 t [d] [0xFFFFFFFF00000000] 0 ∧ SameMemory s2 t)
              ∧ (∀ id s2 x s3, rackGet e y g (q / e.ppc) s1 = .ok (id, s2) → id ≠ 0xFFFFFFFF → id < 2 ^ 32 →
                  descChecked id e.csize hv s2 = .ok (x, s3) →
                  ∃ t v, exec (.kvquery d a b) s = .next t ∧ Pends s3 t [d] [v] 0 ∧ SameMemory s3 t
                    ∧ v.toNat / 2 ^ 32 = id ∧ v.toNat / 2 ^ 16 % 2 ^ 16 = x.refcnt % 2 ^ 16 ∧ v.toNat / 2 ^ 12 % 16 = x.fmtB % 16
                    ∧ v.toNat / 2 ^ 10 % 4 = x.clsB % 4 ∧ v.toNat / 2 ^ 8 % 4 = x.tier % 4 ∧ v.toNat / 2 ^ 7 % 2 = x.size % 2
                    ∧ v.toNat % 8 = x.stateB % 8))
          ∧ (n = 0 → exec (.kvclass a b cls) s = .next s1)
          ∧ (n ≠ 0 → e.ncask * e.ppc < q + n → traps (.kvclass a b cls) Cause.kvPositionRange 0)
          ∧ (n ≠ 0 → q + n ≤ e.ncask * e.ppc → q / e.ppc = (q + n - 1) / e.ppc → e.layers = 1 → e.ngrp = 1 → ∀ id s2 x s3 s4,
              rackGet e 0 0 (q / e.ppc) s1 = .ok (id, s2) → id ≠ 0xFFFFFFFF → descChecked id e.csize hv s2 = .ok (x, s3) →
              kvPut 0 x.pa (Desc.toBytes { x with clsB := cls.toNat }) s3 = .ok ((), s4) → exec (.kvclass a b cls) s = .next s4)
          ∧ (e.len < B → traps (.kvtrim a b) Cause.kvPositionRange 0 ∧ traps (.kvfork d a b) Cause.kvPositionRange 0)
          ∧ (B ≤ e.len → e.ncask ≤ (B + e.ppc - 1) / e.ppc → ∀ s2, kvPut 0 e.pa (toLe 4 B) s1 = .ok ((), s2) →
              exec (.kvtrim a b) s = .next s2)
          ∧ (e.layers = 1 → e.ngrp = 1 → e.ncask = 1 → ∀ s2 s3, kvPut 0 (e.pa + 0xC) [0] s1 = .ok ((), s2) →
              rackGet e 0 0 0 s2 = .ok (0xFFFFFFFF, s3) →
              (s3.die (Fin.ofNat 4 (h / 2 ^ 30 % 4))).cellReg 0x20 = 0 → (s3.die (Fin.ofNat 4 (h / 2 ^ 30 % 4))).cellReg 0x28 = 0 →
              exec (.kvdrop a) s = .next s3)
          ∧ (B ≤ e.len → ∀ s2, poolTake (h / 2 ^ 30 % 4) 0 s1 = .ok (none, s2) → traps (.kvfork d a b) Cause.kvPoolEmpty 0)
          ∧ (∀ m s2, forkSeq h e B s1 = .ok (m, s2) → ∃ t, exec (.kvfork d a b) s = .next t ∧ Pends s2 t [d] [BitVec.ofNat 64 m] 0
              ∧ SameMemory s2 t ∧ m < 2 ^ 32 ∧ m / 2 ^ 30 = h / 2 ^ 30 % 4)))
  ∧ (∀ (s : State) (kid pa : Nat) (bs : List Byte) (e : Line), (∀ d, (s.die d).upds = []) → bs ≠ [] → pa % 128 + bs.length ≤ 128 →
        s.resident (homeOf (pa / 128)) (pa / 128) = some e → e.data.length = 128 → e.poison = false → e.kid = kid →
        (s.keyAt (pa / 128) kid).isSome = true →
        ∃ t, kvPut kid pa bs s = .ok ((), t) ∧ HomeHolds s t pa bs ∧ (∀ d, (t.die d).upds = []) ∧ Access s t ∧ SameScratch s t Nowhere)

/-! ## Engines -/

/-- An engine instruction enters the queue of its engine with its operands, mode and shape as they are at issue, if the queue has room;
a .try form answers whether it did, and any other waits for room; mgma whose row counts are out of bounds traps (R23, R25, R26, R96,
R222). -/
def Obligations.EngineIssue : Prop :=
  ∀ (s : State) (i : Instr) (e : Eng), engineOf i = some e →
    let c := s.iss.core
    let g := s.engine c e
    let room := g.q.length + g.flight.length < 64
    let cmd : Cmd :=
      { instr := i, strand := s.iss.strand, a := s.rd (regsOf i).1, b := s.rd (regsOf i).2.1, c := s.rd (regsOf i).2.2, tshape := s.str.tshape,
        sup := s.str.sup, syl := s.iss.syl, popped := false, word := none, prog := .none, prologue := false, obj := [], num := 0, desc := [],
        routine := none, out := [], blk := [] }
    let inBounds := ∀ t a b c n gm1, i = .mgma t a b c n gm1 →
      (∀ k ≤ gm1.toNat, (s.rd c).toNat / 256 ^ k % 256 ≤ 64)
        ∧ ((List.range (gm1.toNat + 1)).map fun k => (s.rd c).toNat / 256 ^ k % 256).foldl (· + ·) 0 ≤ 64
    (tryOf i = none → room → inBounds → ∃ t, exec i s = .next t ∧ (t.engine c e).q = g.q ++ [cmd]
      ∧ t = s.modEngine c e (fun x => { x with q := x.q ++ [cmd] }) ∧ SameMemory s t)
    ∧ (tryOf i = none → ¬ room → exec i s = .next (s.hold .queue))
    ∧ (room → ¬ inBounds → ∃ C, exec i s = .next (s.takeTrap ⟨Cause.groupedBounds, 0, C⟩))
    ∧ (∀ p, tryOf i = some p → (room → ∃ t, exec i s = .next t ∧ (t.engine c e).q = g.q ++ [cmd]
          ∧ Results s (t.modEngine c e fun _ => g) 1 [(.pred p, 1)] 0)
        ∧ (¬ room → Decides i s 1 [(p, false)] 0))

/-- The head command of an engine that may start waits for its tokens; mzero then clears the accumulators it names and no other, and mamax
stores AMAX and clears it (R29, R78, R224).
A command of M, V or C that has nothing left ends once every FIFO it pushes has room: its flags join XFLAGS of its strand, one token
enters each of those FIFOs, and the next command is at the head (R30, R81). -/
def Obligations.EngineStartsAndEnds : Prop :=
  (∀ (s : State) (c : Nat) (x : Cmd) (xs : List Cmd), (s.engine c 0).q = x :: xs → x.popped = false →
      let i : Instr := .engineCommandStart c 0
      let may := (s.core c).mayStart 0 = true
      let k := s.core c
      (¬ may → exec i s = .next s)
      ∧ (may → (∃ p ∈ popsOf 0 x.instr, k.tokens p = []) → exec i s = .next s)
      ∧ (may → ∀ t mask, x.instr = .mzero t mask → t.pop = 0 →
          ∃ u, exec i s = .next u ∧ (∀ n : Fin 4, (u.core c).acc.get n = if mask.getLsbD n.val then Acc.zero else k.acc.get n)
            ∧ (∃ com, (u.engine c 0).phase = .running com) ∧ (∃ y, (u.engine c 0).q = y :: xs ∧ y.instr = x.instr)
            ∧ (∀ t, u.strand c t = s.strand c t) ∧ SameMemory s u)
      ∧ (may → ∀ t a n, x.instr = .mamax t a n → t.pop = 0 → x.a.toNat % 8 = 0 → x.a.toNat + 8 ≤ 2 ^ 21 →
          k.budget.getLsbD (x.a.toNat / 65536) = true → k.mode (x.a.toNat / 65536) = .scratch →
          ∃ u, exec i s = .next u ∧ (∀ j < 8, (u.core c).spByte (x.a.toNat + j) = (k.amax.get n).extractLsb' (8 * j) 8)
            ∧ (u.core c).amax = k.amax.set n 0 ∧ (∃ com, (u.engine c 0).phase = .running com) ∧ (∀ t, u.strand c t = s.strand c t)
            ∧ SameGlobal s u ∧ SameScratch s u fun q y => q = c ∧ x.a.toNat ≤ y ∧ y < x.a.toNat + 8))
  ∧ (∀ (s : State) (c : Nat) (e : Eng) (x : Cmd) (xs : List Cmd) (com : Commit), e ≠ 3 → (s.engine c e).q = x :: xs →
        (s.engine c e).phase = .running com → x.prog = .none → (tokOf x.instr).push.getLsbD (3 - e.val) = false →
        let i : Instr := .engineCommandFinish c e
        let full := ∃ p ∈ pushesOf e x.instr, 15 ≤ ((s.core c).tokens p).length
        (full → exec i s = .next s)
        ∧ (¬ full → ∃ t, exec i s = .next t ∧ (t.engine c e).q = xs ∧ (t.engine c e).phase = .idle
            ∧ ((s.strand c x.strand).cond ≠ .exited →
                (t.strand c x.strand).xflags = (s.strand c x.strand).xflags ||| (com.flags.zeroExtend 64 <<< (if e = 0 then 32 else if e = 1 then 16 else 48)))
            ∧ (∀ p ∈ pushesOf e x.instr, ∃ k, (t.core c).tokens p = (s.core c).tokens p ++ [k])
            ∧ (∀ p, p ∉ pushesOf e x.instr → (t.core c).tokens p = (s.core c).tokens p)
            ∧ (∀ u r, (t.strand c u).rd r = (s.strand c u).rd r) ∧ SameScratch s t Nowhere))

/-- An M command that waits for stream bytes takes what its rings hold, up to what it still needs: an mgma of no rows that has all bytes
then leaves its accumulator a typed one of the same cells; short of bytes it keeps those it took and waits (R210, R221, R222).
A running attn that meets a pre-emption request at a cask boundary beyond the first writes its resume record, empties both its rings
and stops its engine without a fault; one whose iteration was cancelled has nothing left to do (R239 to R241); releases of the
key-value store that waited for its walk are then made, and none was here (R250). -/
def Obligations.StreamsAndBoundaries : Prop :=
  (∀ (s : State) (c : Nat) (x : Cmd) (xs : List Cmd) (com : Commit) (t : Tok) (a b r : Reg) (n : Fin 4) (gm1 : BitVec 3) (w : Word)
      (ha hb : List Byte), (s.engine c 0).q = x :: xs → (s.engine c 0).phase = .running com → x.instr = .mgma t a b r n gm1 →
      x.prog = .stream ha hb → x.word = some w → x.c = 0 → fwAsm w.toNat = 0 → fwBsm w.toNat = 0 → x.b.toNat ≤ 65535 →
      let k := s.core c
      let la := x.b.toNat * 8 * fmtWidth (fwA w.toNat)
      let lb := (gm1.toNat + 1) * (x.b.toNat * 8 * fmtWidth (fwB w.toNat))
      let ba := x.a.toNat % 32
      let bb := x.a.toNat / 256 % 32
      k.rings.wf [] = true → ba ≠ bb → (∀ q, q = ba ∨ q = bb → k.budget.getLsbD q = true ∧ k.mode q = .fifo) →
      wordFault w.toNat (k.acc.get n).kind = none →
      let na := la - ha.length
      let nb := lb - hb.length
      let there := na ≤ (k.ring ba).length ∧ nb ≤ (k.ring bb).length
      ∃ u, exec (.streamBytesReady c) s = .next u ∧ (∃ y com', (u.engine c 0).q = y :: xs ∧ y.instr = x.instr
          ∧ y.prog = (if there then .none else .stream (ha ++ (k.ring ba).take na) (hb ++ (k.ring bb).take nb))
          ∧ (u.engine c 0).phase = .running com')
        ∧ (∀ q, (u.core c).ring q = (k.ring q).drop (if q = ba then na else if q = bb then nb else 0))
        ∧ (¬ there → (u.core c).acc = k.acc)
        ∧ (∀ m, ((u.core c).acc.get m).cells = (k.acc.get m).cells ∨ (k.acc.get m).kind = .clear) ∧ (∀ m, m ≠ n → (u.core c).acc.get m = k.acc.get m)
        ∧ (there → ((u.core c).acc.get n).kind ≠ .clear) ∧ SameScratch s u Nowhere)
  ∧ (∀ (s : State) (c : Nat) (x : Cmd) (xs : List Cmd) (com : Commit) (p : AttnProg) (r : Ctx),
        (s.engine c 0).q = x :: xs → (s.engine c 0).phase = .running com → x.prog = .attn p → (s.core c).run = some r →
        let b := Block.ofBytes x.obj
        let rec' := recBytes b (p.o.length / Max.max 1 b.nq) p
        let len := (rec' 0).length
        (r.cancelled = true ∨ r.fatal = true → ∃ u, exec (.attnCaskBoundary c) s = .next u
          ∧ (u.engine c 0).q = { x with prog := .none } :: xs ∧ (u.engine c 0).phase = .running com
          ∧ ((∀ d, (s.die d).gives = []) → SameMemory s u))
        ∧ (r.cancelled = false → r.fatal = false → (s.core c).yreq = true → s.preemptible c = true → p.first = false →
            (∀ a, b.raddr ≤ a → a < b.raddr + len → (s.core c).mode (a / 65536) = .scratch) →
            ∃ u y gap, exec (.attnCaskBoundary c) s = .next u ∧ (u.engine c 0).q = y :: xs ∧ y.prog = .none ∧ y.instr = x.instr
              ∧ (u.engine c 0).phase = .stopped ∧ (u.engine c 0).pend = (s.engine c 0).pend
              ∧ (∀ j < len, (u.core c).spByte (b.raddr + j) = (rec' gap).getD j 0)
              ∧ SameScratch s u (fun q y => q = c ∧ b.raddr ≤ y ∧ y < b.raddr + len)
              ∧ ((∀ d, (s.die d).gives = []) → SameGlobal s u)
              ∧ ((s.core c).rings.rises = true → (u.core c).ring b.kbank = [] ∧ (u.core c).ring b.vbank = [])))

/-- A faulting command stops its engine, which records the cause; with no place for the record the iteration ends. The strand whose turn it
is takes the trap with the engine's number in TSUB, once the bundle of an sbar it has left is complete; restart lets the head command start
again with the word of the record, abandon discards what was queued when ACT was written, and HALT sets the four halt bits (R339, R396 to
R400). -/
def Obligations.EngineFaults : Prop :=
  ∀ (s : State) (c : Nat) (e : Eng) (mask : BitVec 4),
    let k := s.core c
    let g := s.engine c e
    let fatal (t : State) : Prop := (t.core c).run = k.run.map (fun r => { r with fatal := true, draining := true, preDrain := false })
      ∧ ∀ y, (t.strand c y).cond = .exited
    (∀ tr x xs, g.phase = .faulting tr → g.q = x :: xs → tr.cause ∉ [Cause.sramUncorrectable, Cause.engineInternal, Cause.poisonConsumed, Cause.cxlPoison] →
      k.dbgHit = none → (∀ r, k.run = some r → r.preDrain = false) →
      (s.faultRec c e = none → ∃ t, exec (.engineFault c e) s = .next t ∧ fatal t)
      ∧ (∀ a ids s2, s.faultRec c e = some a →
          (s.drawWord.2).vput c (k.space true) a (recordBytes e x tr s.drawWord.1) g.hb [] = .ok (ids, s2) →
          ∃ t, exec (.engineFault c e) s = .next t
            ∧ t.engine c e = { g with phase := .raised, pend := true, cause := tr.cause, detail := tr.sub, tval := tr.val, act := 0, actN := 0 }
            ∧ (∀ y, t.strand c y = s.strand c y) ∧ SameScratch s t Nowhere))
    ∧ (k.raised = none → exec (.engineFaultDelivery c) s = .next s)
    ∧ (k.raised = some e → k.taker = none → ∃ t, exec (.engineFaultDelivery c) s = .next t ∧ fatal t)
    ∧ (∀ x, k.raised = some e → k.taker = some x → k.live = true → k.tracectl.getLsbD 0 = false → (s.strand c x).sb = [] →
        let u := s.strand c x
        (u.tip = true ∨ u.goesOn = true → exec (.engineFaultDelivery c) s = .next s)
        ∧ (u.tip = false → u.goesOn = false → u.tvec ≠ 0 → ∃ t, exec (.engineFaultDelivery c) s = .next t ∧ (t.engine c e).phase = .stopped
            ∧ t.strand c x = { u.landAll with
                tpc := u.pc, tcause := BitVec.ofNat 64 g.cause, tsub := BitVec.ofNat 64 (0x8000 + e.val), tval := g.tval,
                tstatus := BitVec.ofNat 64 (8 + 4 * u.lkstep.toNat + 2 + u.sup.toNat), sup := true, lkstep := false, pc := u.tvec,
                cond := .ready, drain := false }
            ∧ SameMemory s t))
    ∧ (g.pend = false ∨ g.act ≠ 1 → exec (.engfaultRestart c e) s = .next s)
    ∧ (g.pend = true → g.act = 1 → ∀ a bs s1, s.faultRec c e = some a → s.vget c (k.space true) (a + 0x30) 8 = .ok (bs, s1) →
        ∃ t, exec (.engfaultRestart c e) s = .next t ∧ (t.engine c e).phase = .idle ∧ (t.engine c e).pend = false
          ∧ (∀ x xs, g.q = x :: xs → (t.engine c e).q = { x with word := if x.word.isSome then some (BitVec.ofNat 64 (le bs)) else none } :: xs)
          ∧ ∀ y, t.strand c y = s.strand c y)
    ∧ (g.pend = true → g.act = 1 → (s.faultRec c e = none ∨ ∃ a tr, s.faultRec c e = some a ∧ s.vget c (k.space true) (a + 0x30) 8 = .error tr) →
        ∃ t, exec (.engfaultRestart c e) s = .next t ∧ fatal t)
    ∧ (g.pend = false ∨ g.act ≠ 2 → exec (.engfaultAbandon c e) s = .next s)
    ∧ (g.pend = true → g.act = 2 → ∃ t, exec (.engfaultAbandon c e) s = .next t ∧ (t.engine c e).q = g.q.drop g.actN ∧ (t.engine c e).phase = .idle
        ∧ (t.engine c e).pend = false ∧ (∀ y, t.strand c y = s.strand c y) ∧ (t.core c).fifo = k.fifo ∧ SameMemory s t)
    ∧ (∃ t, exec (.engctlHalt c mask) s = .next t ∧ ∀ y : Eng, (t.engine c y).halt = mask.getLsbD y.val)

/-! ## Steps of the strands and of memory -/

/-- A waiting bundle whose condition now holds runs its instruction, and stays as it is where the strand waits for something else: an engine
instruction and fmtq once the queue has room, cuewait once its cue has reached its target, tkpop once every FIFO it names holds a token,
lwwait once the generation of its landing word is beyond its operand, waitc once its object has no live node. The last strand of a lockstep
group issues its SYNC bundle and is then in lockstep, and a strand alone leaves its sbar (R15, R25, R33, R36, R133, R137, R164 to R167,
R174). -/
def Obligations.WaitsEnd : Prop :=
  ∀ (s a : State) (c : Nat) (t : Fin 4),
    let single := a.me.brkctl.getLsbD 2
    let ends (y i : Instr) : Prop := ∃ b, exec i a = .next b ∧ exec y s = .next (b.finish a.str.sup single false)
    (∀ e ∈ [(Instr.queueStallRelease c t, Wait.queue), (.cuewaitSatisfied c t, .cue), (.tkpopSatisfied c t, .token),
        (.lwwaitSatisfied c t, .land), (.waitcSatisfied c t, .waitc)],
      ((s.strand c t).cond ≠ .waiting e.2 → exec e.1 s = .next s)
      ∧ ∀ i b, (s.strand c t).cond = .waiting e.2 → s.fetches c t false i a → Runs i a b → exec e.1 s = .next (b.finish a.str.sup single false))
    ∧ ((s.strand c t).cond = .waiting .queue →
        (∀ i e, s.fetches c t false i a → engineOf i = some e → tryOf i = none → (∀ k x y z n m, i ≠ .mgma k x y z n m) →
          (a.engine c e).q.length + (a.engine c e).flight.length < 64 → ends (.queueStallRelease c t) i)
        ∧ ∀ r, s.fetches c t false (.fmtq r) a → a.me.fmtq.length < 16 → ends (.queueStallRelease c t) (.fmtq r))
    ∧ (∀ n r scp, (s.strand c t).cond = .waiting .cue → s.fetches c t false (.cuewait n r scp) a →
        0 ≤ (a.me.cues.get 0 n.toNat - (a.rd r).truncate 32).toInt → ends (.cuewaitSatisfied c t) (.cuewait n r scp))
    ∧ (∀ mask, (s.strand c t).cond = .waiting .token → s.fetches c t false (.tkpop mask) a →
        (∀ p ∈ maskEnds mask, a.me.tokens (fifoIx p 0) ≠ []) → ends (.tkpopSatisfied c t) (.tkpop mask))
    ∧ (∀ x y, (s.strand c t).cond = .waiting .land → s.fetches c t false (.lwwait x y) a → a.me.spCheck (a.rd x) 16 true = none →
        0 < (BitVec.ofNat 32 (le ((List.range 4).map fun j => a.me.spByte ((a.rd x).toNat + 8 + j))) - (a.rd y).truncate 32).toInt →
        ends (.lwwaitSatisfied c t) (.lwwait x y))
    ∧ (∀ d x y lvl, (s.strand c t).cond = .waiting .waitc → s.fetches c t false (.waitc d x y lvl) a →
        (∀ n ∈ a.nodes, (namedBy lvl (a.rd x) (a.rd y)).has n = false) → ends (.waitcSatisfied c t) (.waitc d x y lvl))
    ∧ ((∀ y, y ≠ 3 → (s.strand c y).cond = .exited) → (s.strand c 3).cond = .waiting .sync →
        (∀ i b, s.fetches c 3 true i a → Runs i a b → exec (.lockstepIssue c) s = .next (b.finish a.str.sup single true))
        ∧ ∀ d x y, ∀ i ∈ [Instr.nop, .add d x y, .sub d x y, .mov d x], s.fetches c 3 true i a →
            ∃ u, exec (.lockstepIssue c) s = .next u ∧ (u.strand c 3).lkstep = true ∧ (u.strand c 3).n = (s.strand c 3).n + 1)
    ∧ (∀ m mask, (∀ y, y ≠ t → (s.strand c y).cond = .exited) → (s.strand c t).cond = .waiting (.sbar m) →
        s.fetches c t false (.sbar mask) a → (a.core c).tracectl.getLsbD 0 = false →
        ∃ u, exec (.sbarRelease c) s = .next u ∧ (u.strand c t).cond ≠ .waiting (.sbar m) ∧ (u.strand c t).n = (s.strand c t).n + 1)

/-- A pending operation writes its registers and leaves the scoreboard: a finished one what it holds, a load what its core then sees, a
spamo that gets its lock the old value, with the new one stored, or, in a bank that has left SCRATCH, a free one, with nothing stored (log 96); a strand to be single-stepped takes single_step before its next
bundle (R19, R157, R287, R394, R456). -/
def Obligations.PendingResults : Prop :=
  ∀ (s : State) (c : Nat) (t : Fin 4) (k : Nat) (b : Sb) (d : Reg),
    let u := s.strand c t
    let gives (z : State) (v : Word) : Prop := (z.strand c t).rd d = (if d = 0 then 0 else v) ∧ (∀ r, r ≠ d → (z.strand c t).rd r = u.rd r)
      ∧ (z.strand c t).sb = u.sb.filter (fun x => x.id != b.id) ∧ (z.strand c t).pc = u.pc
    Tab.wf 0 u.g = true → b.dst = [d] →
    ((u.sb.filter Sb.free)[k]? = some b →
      (∀ v, b.work = .done → b.vals = [v] → ∃ z, exec (.scoreboardedResult c t k) s = .next z ∧ gives z v ∧ SameMemory s z)
      ∧ (∀ pa len kid cmp sx data, b.work = .load pa len kid cmp sx → len ≠ 16 → s.peekLine (dieOf c) (pa / 128) kid = some data →
          let v := le ((List.range len).map fun j => s.coreByte c (pa + j) (data.getD (pa % 128 + j) 0))
          ∃ z, exec (.scoreboardedResult c t k) s = .next z ∧ SameMemory s z
            ∧ gives z (if sx = true ∧ 2 ^ (8 * len) ≤ 2 * v then BitVec.ofNat 64 (v + 2 ^ 64 - 2 ^ (8 * len)) else BitVec.ofNat 64 v)))
    ∧ (∀ q op dbl y z, u.sb = [b] → b.work = .spamo q op dbl y z → (s.core c).mayTake t b = true →
        (s.core c).mode (q / 65536) ≠ .scratch →
        ∃ w v, exec (.spamoRetry c t) s = .next w ∧ gives w v ∧ SameScratch s w Nowhere)
    ∧ (∀ q op dbl y z, u.sb = [b] → b.work = .spamo q op dbl y z → (s.core c).mayTake t b = true → (s.core c).mode (q / 65536) = .scratch →
        let n := if dbl then 8 else 4
        let old := le ((List.range n).map fun j => (s.core c).spByte (q + j))
        let r := (aopApply op dbl old (y.toNat % 2 ^ (8 * n)) (z.toNat % 2 ^ (8 * n))).1
        ∃ w, exec (.spamoRetry c t) s = .next w ∧ gives w (BitVec.ofNat 64 old) ∧ (w.core c).locks = (s.core c).locks
          ∧ (match r with
            | none => SameScratch s w Nowhere
            | some v => (∀ j < n, (w.core c).spByte (q + j) = BitVec.ofNat 8 (v / 256 ^ j))
                ∧ SameScratch s w fun x a => x = c ∧ q ≤ a ∧ a < q + n))
    ∧ ((s.core c).mayIssue t = true → u.stepPend = true → u.sb = [] → u.tip = false → u.tvec ≠ 0 → (s.core c).tracectl.getLsbD 0 = false →
        ∃ z, exec (.singleStep c t) s = .next z ∧ SameMemory s z
          ∧ z.strand c t = { u.landAll with
              tpc := u.pc, tcause := 0xE1, tsub := 0, tval := 0, tstatus := BitVec.ofNat 64 (4 * u.lkstep.toNat + 2 + u.sup.toNat), sup := true,
              lkstep := false, pc := u.tvec, cond := .ready, drain := false, stepPend := false })
    ∧ (u.stepPend = false → exec (.singleStep c t) s = .next s)

/-- A posted store that is performed puts its bytes into the home line, with an update on its way to every die but its own and the home;
such a die reads its older value until the update is applied to it (R287, R288, R296, R297).
An update that is applied to a die leaves it with no older value of its bytes; a fill installs the line of the home slice, clean and under
its key, with the bytes memory holds; a write performed at a resident home line puts its bytes there (R287, R297, R312, R319). -/
def Obligations.StoresPerform : Prop :=
  (∀ (s : State) (c pa : Nat) (bs : List Byte) (w : WEnt) (e : Line),
      let line := pa / 128
      let h := homeOf line
      (s.core c).wbuf = [w] → w.bytes = (List.range bs.length).map (fun j => (pa + j, bs.getD j 0)) → bs ≠ [] → pa % 128 + bs.length ≤ 128 →
      (∀ d, (s.die d).upds = []) → s.resident h line = some e → e.data.length = 128 → e.poison = false → e.kid = w.kid →
      ∃ t, exec (.globalWritePerform c 0) s = .next t ∧ (t.core c).wbuf = [] ∧ HomeHolds s t pa bs ∧ Access s t ∧ SameScratch s t Nowhere
        ∧ (∀ d, d ≠ h → d ≠ dieOf c → ∃ u, (t.die d).upds = [u] ∧ u.wid = w.id ∧ u.bytes = w.bytes)
        ∧ (∀ c' a kid, dieOf c' ≠ h → dieOf c' ≠ dieOf c → a / 128 = line → t.byteAt c' a kid = s.byteAt c' a kid))
  ∧ (∀ (s : State) (d : Fin 4) (line off key : Nat) (cmp : Bool) (data : List Byte) (u : Upd),
        ((s.die d).upds = [u] → (s.die d).stale.rises = true → ∃ t, exec (.dieUpdateApply d 0) s = .next t ∧ (t.die d).upds = []
          ∧ (∀ b ∈ u.bytes, (t.die d).stale.find b.1 = none) ∧ Access s t ∧ SameScratch s t Nowhere)
        ∧ (homeDie (128 * line) = some d → s.populated (128 * line) = true → s.resident d line = none → s.storedPoison line = false →
            s.cxlDown line = false → ∀ k, s.keyAt line key = some k →
            ∃ t l, exec (.llcFill d line key cmp) s = .next t ∧ t.resident d line = some l ∧ l.data = s.plain line k ∧ l.kid = key
              ∧ l.dirty = false ∧ l.poison = false ∧ Access s t ∧ SameScratch s t Nowhere)
        ∧ (∀ l, homeDie (128 * line) = some d → s.resident d line = some l → l.data.length = 128 → l.poison = false →
            (s.keyAt line l.kid).isSome = true → (∀ x, (s.die x).upds = []) → off + data.length ≤ 128 → off < 128 →
            ∃ t, exec (.llcWrite d line off data) s = .next t ∧ HomeHolds s t (128 * line + off) data ∧ Access s t ∧ SameScratch s t Nowhere))

/-! ## The Stage Manager -/

/-- A node whose dependences are gone starts, and ends at once where it is a launch of no iterations; a node ends completed when its last
iteration has completed, cancelled when nothing of a cancelled one is under way; then it leaves the table and its dependants lose it.
The walker places one iteration after the other on the die its map names, or the lowest with a ready core (R371, R373, R375). Nothing
starts and nothing is placed while its Stage Manager or the coordinator is not ready (R434). -/
def Obligations.NodeSteps : Prop :=
  ∀ (s : State) (n : Node), s.alone n →
    let gone (i : Instr) (c : Bool) : Prop := ∃ t rel, exec i s = .next t ∧ (∀ m ∈ t.nodes, m.id ≠ n.id)
      ∧ (∀ m ∈ s.nodes, m.id ≠ n.id → ∃ x ∈ t.nodes, x.id = m.id ∧ x.kind = m.kind ∧ x.deps = m.deps.filter fun k => k != n.id)
      ∧ t.endedNodes.head? = some ⟨n.job, n.id, n.die, c, rel⟩ ∧ (c = true → rel = [])
      ∧ (∀ x, t.core x = s.core x) ∧ SameMemory s t
    let on := s.smOn (Fin.ofNat 4 n.die) = true
    (n.started = true ∨ n.cancelled = true ∨ n.deps ≠ [] ∨ ¬ on → exec (.nodeStart n.id) s = .next s)
    ∧ (n.started = false → n.cancelled = false → n.deps = [] → on →
        (∀ l, n.kind = .launch l → l.total = 0 → gone (.nodeStart n.id) false)
        ∧ ((∀ l, n.kind = .launch l → l.total ≠ 0) → ∃ t, exec (.nodeStart n.id) s = .next t ∧ t.orderNext = s.orderNext + 1
            ∧ t.nodes = s.nodes.map (fun m => if m.id = n.id then { m with started := true, startOrder := s.orderNext } else m)
            ∧ { t with nodes := s.nodes, orderNext := s.orderNext, dies := s.dies } = s ∧ SameMemory s t))
    ∧ (∀ k, n.kind = .card k → exec (.nodeEnd n.id) s = .next s ∧ exec (.iterationPlace n.id) s = .next s)
    ∧ (∀ l, n.kind = .launch l →
        let walked := l.total ≤ n.walker
        ((n.cancelled = true ∧ ∀ i ∈ n.iters, i.st = .eligible) ∨ (n.badIter = true ∧ walked ∧ n.iters = []) → gone (.nodeEnd n.id) true)
        ∧ (n.cancelled = false → n.badIter = false → n.started = true → walked → n.iters = [] → gone (.nodeEnd n.id) false)
        ∧ ((n.cancelled = true → ∃ i ∈ n.iters, i.st ≠ .eligible) → (¬ walked ∨ n.iters ≠ [] ∨ (n.started = false ∧ n.badIter = false)) →
            exec (.nodeEnd n.id) s = .next s)
        ∧ (n.cancelled = true ∨ n.started = false ∨ walked ∨ ¬ on → exec (.iterationPlace n.id) s = .next s)
        ∧ ((∀ c < 256, s.isReady .core c = false) → exec (.iterationPlace n.id) s = .next s)
        ∧ (n.cancelled = false → n.started = true → ¬ walked → on → ∀ (d : Fin 4) (z : State),
            let tup := l.tuple n.walker
            let num := l.linear tup
            let ready (e : Fin 4) : Prop := ∃ c, c / 64 = e.val ∧ s.isReady .core c = true
            ready d →
            ((l.placekind = 0 ∧ z = s ∧ ∀ e < d, ¬ ready e) ∨ (l.placekind = 1
              ∧ s.vget (256 + 64 * n.die) n.space (l.placeptr + BitVec.ofNat 64 num) 1 = .ok ([BitVec.ofNat 8 d.val], z))) →
            ∃ t, exec (.iterationPlace n.id) s = .next t ∧ (l.order = 0 → num = n.walker)
              ∧ t.nodes = s.nodes.map (fun m => if m.id = n.id then
                  { m with walker := m.walker + 1, iters := m.iters ++ [⟨num, tup, d.val, .eligible, none, none, none, none⟩] } else m)
              ∧ { t with nodes := z.nodes, dies := z.dies } = z ∧ SameMemory z t))

/-- A free core takes the iteration that the deficit round robin of the highest level chooses, once everything that left RUNNING is charged;
a busy core takes it as its understudy. Where no core is free, the context of lowest level that may be asked is asked to stop and a
save slot is kept for it (R376, R377, R379). None of this happens while the Stage Manager or the coordinator is not ready (R434). -/
def Obligations.SchedulerChoices : Prop :=
  ∀ (s : State) (d : Fin 4),
    let k := s.die d
    let xs := (s.eligible d).filter fun x => !x.2.1.cohort
    let takes (x : Node × Launch × Iter) : Prop := ∃ j js, (∀ y ∈ xs, y.2.1.prio ≤ x.2.1.prio)
      ∧ (∀ y ∈ xs, y.2.1.prio = x.2.1.prio → y.1.job ∈ j :: js) ∧ k.drr.get [] x.2.1.prio = j :: js ∧ 0 < k.deficit.get 0 j
      ∧ xs.find? (fun y => y.2.1.prio == x.2.1.prio && y.1.job == j) = some x
    let staged (t : State) (c : Nat) (x : Node × Launch × Iter) : Prop := IterIs t x.1 x.2.2 .staged
      ∧ (∃ u, t.core c = { s.core c with under := some u } ∧ u.ctx.iter = x.2.2.n ∧ u.ctx.launch = x.1.id
          ∧ u.ctx.prologue = (if x.2.2.st = .yielded then [] else x.2.1.prologue) ∧ u.ctx.restored = (x.2.2.st == .yielded) ∧ u.fifos = []
          ∧ u.cflags = 0 ∧ u.fault = none ∧ u.com = Commit.zero)
      ∧ (∀ y, y ≠ c → t.core y = s.core y) ∧ (∀ m ∈ s.nodes, m.id ≠ x.1.id → m ∈ t.nodes)
      ∧ { t with nodes := s.nodes, cores := s.cores } = s ∧ SameMemory s t
    let free (c : Nat) : Prop := c / 64 = d.val ∧ s.isReady .core c = true ∧ (s.core c).run = none ∧ (s.core c).under = none
    let mayFill (c : Nat) : Prop := free c ∧ ∀ r ∈ k.resv, r.1 ≠ c
    let on := s.smOn d = true
    (k.owed ≠ [] ∨ ¬ on → exec (.slotFill d) s = .next s)
    ∧ (¬ on → (∀ c, dieOf c = d → exec (.understudyStage c) s = .next s) ∧ exec (.preemptionRequest d) s = .next s)
    ∧ (on → s.cohortWaiting d = none → ((∀ c, ¬ mayFill c) ∨ xs = [] → exec (.slotFill d) s = .next s)
        ∧ (k.owed = [] → ∀ c x, mayFill c → (∀ y < c, ¬ mayFill y) → takes x → ∃ t, exec (.slotFill d) s = .next t ∧ staged t c x))
    ∧ (on → ∀ c, dieOf c = d →
        ((s.core c).run = none ∨ (s.core c).under ≠ none ∨ s.isReady .core c = false ∨ k.owed ≠ [] → exec (.understudyStage c) s = .next s)
        ∧ ((s.core c).run ≠ none → (s.core c).under = none → s.isReady .core c = true → k.owed = [] → ∀ x, takes x →
            ∃ t, exec (.understudyStage c) s = .next t ∧ staged t c x))
    ∧ (∀ j n, (j ∉ k.owed → exec (.deficitCharge d j n) s = .next s)
        ∧ (j ∈ k.owed → ∃ t, exec (.deficitCharge d j n) s = .next t ∧ (t.die d).owed = k.owed.erase j
            ∧ (∀ i, (t.die d).deficit.get 0 i = if i = j then k.deficit.get 0 j - n else k.deficit.get 0 i)
            ∧ { t.die d with owed := k.owed, deficit := k.deficit } = k ∧ { t with dies := s.dies } = s ∧ SameMemory s t))
    ∧ (∀ lvl,
        let waits (y : Node × Launch × Iter) : Prop := y ∈ s.eligible d ∧ ∀ r ∈ k.reqs, r.2 ≠ y.2.1.prio
        let asks (c : Nat) : Prop := c / 64 = d.val ∧ s.isReady .core c = true
        on → (∀ y ∈ s.eligible d, y.2.1.cohort = false) → k.resv = [] →
        ((∃ c, free c) ∨ (∀ y, ¬ waits y) → exec (.preemptionRequest d) s = .next s)
        ∧ ((∀ c, ¬ free c) → (∃ y, waits y ∧ y.2.1.prio = lvl) → (∀ y, waits y → y.2.1.prio ≤ lvl) →
            ((∀ c, asks c → s.mayAsk lvl c = none) → exec (.preemptionRequest d) s = .next s)
            ∧ (∀ c r n l x, asks c → (s.core c).run = some r → s.node r.launch = some n → n.kind = .launch l → l.cohort = false → l.prio < lvl →
                l.preempt = true → r.yreq = false → r.noReq = false → r.draining = false → x < l.nslot → x ∉ n.usedSlots →
                (∀ z < x, z ∈ n.usedSlots) →
                (∀ y, asks y → y ≠ c → ∀ p o m q, s.mayAsk lvl y = some (p, o, m, q) → l.prio < p ∨ (l.prio = p ∧ r.order < o)) →
                ∃ t, exec (.preemptionRequest d) s = .next t ∧ t.core c = { s.core c with run := some { r with yreq := true, slot := some x } }
                  ∧ (∀ y, y ≠ c → t.core y = s.core y) ∧ (t.die d).reqs = (c, lvl) :: k.reqs
                  ∧ t.nodes = s.nodes.map (fun m => if m.id = n.id then { m with usedSlots := x :: m.usedSlots } else m)
                  ∧ { t with cores := s.cores, nodes := s.nodes, dies := s.dies } = s ∧ SameMemory s t)))

/-- An understudy whose prologue is over enters RUNNING on an empty slot that no COHORT node keeps from it, with the starting values; a COHORT
iteration enters on the core reserved for it; the copy at the head of a staged prologue runs for the staged iteration alone; a draining
iteration with nothing under way leaves its slot and completes, or ends cancelled (R47, R48, R51, R81, R272, R378 to R380). -/
def Obligations.ContextsStart : Prop :=
  ∀ (s : State) (c : Nat) (n : Node) (l : Launch) (i : Iter) (slot : Nat) (j : JobSlot), s.alone n → n.kind = .launch l →
    s.jobSlot n.job = some (slot, j) → n.iters.find? (fun k => k.n == i.n) = some i →
    let k := s.core c
    (k.run ≠ none ∨ k.under = none → exec (.iterationEnterRunning c) s = .next s)
    ∧ (∀ u, k.run = none → k.under = some u → u.ctx.launch = n.id → u.ctx.iter = i.n → u.ctx.restored = false → u.fault = none →
        (u.ctx.prologue ≠ [] ∨ s.slotKept l.prio c = true → exec (.iterationEnterRunning c) s = .next s)
        ∧ (u.ctx.prologue = [] → s.slotKept l.prio c = false →
            ∃ t, exec (.iterationEnterRunning c) s = .next t ∧ Started t c n l i j none ∧ IterIs t n i .running ∧ (t.core c).fifo = u.fifos
              ∧ (t.strand c 0).xflags = (if l.entry.get 0 = 0 then (0 : Word) else u.cflags.zeroExtend 64 <<< 48)))
    ∧ (l.cohort = true → n.started = true → n.cancelled = false → l.total ≤ n.walker → n.iters = [i] → i.st = .eligible → i.core = none → i.die < 4 →
        ∀ cs, ((s.die (Fin.ofNat 4 i.die)).resv.filter fun r => r.2 == n.id).map (·.1) = c :: cs →
        (k.run ≠ none → exec (.cohortAdmit n.id) s = .next s)
        ∧ (k.run = none → ∃ t, exec (.cohortAdmit n.id) s = .next t ∧ Started t c n l i j (k.under.map (s.restage l.budget))
            ∧ IterIs t n i .running
            ∧ (∀ d, ∀ r ∈ (t.die d).resv, r.2 ≠ n.id) ∧ (t.core c).fifo = [] ∧ (t.engine c 2).q = l.prologue))
    ∧ (∀ u x xs t dsp sc len, k.under = some u → u.ctx.launch = n.id → u.ctx.iter = i.n → u.ctx.prologue = x :: xs → u.fault = none →
        u.banked = true → u.com = Commit.zero → x.blk = [] → s.mayBank c l = true → (s.engine c 2).q = [] → x.instr = .cpyz t dsp sc → dsp = .sp →
        t.tok.push.getLsbD 1 = false → x.prog = .none → x.c = BitVec.ofNat 64 len → 0 < len → x.a.toNat % 16 = 0 → x.a.toNat % 128 + len ≤ 128 →
        x.a.toNat < 2 ^ 21 → l.budget.getLsbD (x.a.toNat / 65536) = true → k.mode (x.a.toNat / 65536) = .scratch →
        ∃ z v, exec (.prologueCopy c) s = .next z ∧ (∀ y < len, (z.core c).spByte (x.a.toNat + y) = 0)
          ∧ (z.core c).under = some v ∧ v.ctx.prologue = xs ∧ v.fault = none
          ∧ (∀ p, (v.fifos.get [] p).length = (u.fifos.get [] p).length + if p ∈ pushesOf 2 x.instr then 1 else 0)
          ∧ (z.core c).run = k.run ∧ (z.core c).st = k.st ∧ (z.core c).eng = k.eng ∧ (z.core c).fifo = k.fifo ∧ (z.core c).keyid = k.keyid
          ∧ (z.core c).ptbase = k.ptbase ∧ (z.core c).budget = k.budget
          ∧ SameGlobal s z ∧ SameScratch s z fun q y => q = c ∧ x.a.toNat ≤ y ∧ y < x.a.toNat + len)
    ∧ (∀ x xs, (s.engine c 2).q = x :: xs → x.prologue = true →
        ((s.engine c 2).phase = .idle → exec (.prologueCopy c) s = exec (.engineCommandStart c 2) s)
        ∧ (∀ com, (s.engine c 2).phase = .running com → x.prog = .none → exec (.prologueCopy c) s = exec (.engineCommandFinish c 2) s))
    ∧ (k.run = none → exec (.iterationDrainEnd c) s = .next s)
    ∧ (∀ r, k.run = some r → r.launch = n.id → r.iter = i.n →
        let bad := r.cancelled || r.fatal
        let empty := ∀ e, (s.engine c e).q = [] ∧ (s.engine c e).flight = []
        (r.draining = false ∨ ¬ empty → exec (.iterationDrainEnd c) s = .next s)
        ∧ (r.draining = true → empty → k.wbuf = [] → (∀ x, (s.strand c x).sb = []) → (∀ d, (s.die d).gives = []) → k.tracectl.getLsbD 0 = false →
            ∃ t, exec (.iterationDrainEnd c) s = .next t ∧ (t.core c).run = none ∧ (∀ x, (t.strand c x).cond = .exited)
              ∧ (t.die (dieOf c)).owed = (s.die (dieOf c)).owed
              ∧ (∃ m ∈ t.nodes, m.id = n.id ∧ m.iters = n.iters.filter (fun x => x.n != i.n)
                  ∧ m.complete = n.complete + (if bad then 0 else 1) ∧ m.badIter = (n.badIter || bad))
              ∧ (∀ m ∈ s.nodes, m.id ≠ n.id → m ∈ t.nodes) ∧ (k.ownLines = [] → SameMemory s t)))

/-- A requested context whose strands all stand begins its drain; a drain that is not over in time is abandoned with event 0x20; one that is
over writes the image, with its header and strand records, and yields, or goes on after event 0x22 where it cannot be written. An image
that is taken up gives the strands back what it holds; one that fails the checks ends the iteration with event 0x21. A debug stop writes
the image and stops the context until it is let go on (R131, R380, R382 to R387, R457). -/
def Obligations.ContextsStop : Prop :=
  ∀ (s : State) (c : Nat) (n : Node) (l : Launch) (i : Iter) (slot : Nat) (j : JobSlot) (r : Ctx), s.alone n → n.kind = .launch l →
    s.jobSlot n.job = some (slot, j) → n.iters.find? (fun k => k.n == i.n) = some i →
    let k := s.core c
    let d := dieOf c
    let stands (u : Strand) : Prop := u.passed ≠ some u.pc ∧ (u.cond = .exited ∨ u.cond = .parked
      ∨ (u.sup = false ∧ (u.cond ∈ [.waiting .cue, .waiting .token, .waiting .land, .waiting .waitc, .waiting .sync] ∨ ∃ m, u.cond = .waiting (.sbar m))))
    (k.yreq = false ∨ s.preemptible c = false ∨ (∃ x, ¬ stands (s.strand c x)) → exec (.contextStop c) s = .next s)
    ∧ (k.run = some r → k.live = true → r.yreq = true → s.preemptible c = true → k.raised = none → k.locks = [] →
        (∀ x, stands (s.strand c x)) → (∀ x, (s.strand c x).sb = []) → k.tracectl.getLsbD 0 = false →
        ∃ t, exec (.contextStop c) s = .next t ∧ (t.core c).run = some { r with preDrain := true }
          ∧ (∀ x, t.strand c x = (s.strand c x).landAll) ∧ SameMemory s t)
    ∧ (k.run = some r →
        (r.preDrain = false ∨ k.drained = true → exec (.drainTimeout c) s = .next s)
        ∧ (r.preDrain = false ∨ k.drained = false → exec (.imageWrite c) s = .next s)
        ∧ (r.preDrain = true → k.drained = false → ∃ t, exec (.drainTimeout c) s = .next t ∧ Logs s t d 0x20 c k.launchId.toNat
            ∧ (t.core c).run = some { r with preDrain := false } ∧ SameMemory s t
            ∧ ∀ x, t.strand c x = { s.strand c x with cond := if (s.strand c x).cond = .parked then .ready else (s.strand c x).cond })
        ∧ (∀ q, r.preDrain = true → k.drained = true → r.launch = n.id → r.iter = i.n → r.slot = some q →
            let z := s.writeOut c r
            let a := l.saveptr + BitVec.ofNat 64 (0x100 + q * 0x220000)
            let b := ((z.imagePieces c l.cohort).headD (0, [])).2
            fld b 0 4 = 0x4D494753 ∧ fld b 4 2 = 1 ∧ fld b 8 8 = (z.core c).iterId.toNat ∧ fld b 0x10 4 = (z.core c).launchId.toNat % 2 ^ 32
            ∧ fld b 0x20 4 = (z.core c).budget.toNat
            ∧ (∀ (x : Fin 4) (y : Reg), fld b (0x100 + 0x400 * x.val + 8 * y.toNat) 8 = ((z.strand c x).rd y).toNat)
            ∧ (∀ x : Fin 4, fld b (0x300 + 0x400 * x.val) 8 = (z.strand c x).pc.toNat)
            ∧ (∀ w, (z.core c).imageUnreadable = false → z.putPieces c n.space a (z.imagePieces c l.cohort) = .ok w →
                ∃ t, exec (.imageWrite c) s = .next t ∧ (t.core c).run = none ∧ IterIs t n i .yielded
                  ∧ (∃ m ∈ t.nodes, m.id = n.id ∧ ∃ x ∈ m.iters, x.n = i.n ∧ x.slot = some q)
                  ∧ (r.draining = false → (t.die d).owed = (w.die d).owed ++ [k.jobId.toNat]) ∧ ∀ x, (t.strand c x).cond = .exited)
            ∧ ((z.core c).imageUnreadable = true ∨ (∃ e, z.putPieces c n.space a (z.imagePieces c l.cohort) = .error e) →
                ∃ t, exec (.imageWrite c) s = .next t
                  ∧ (t.die d).errLog = BitVec.ofNat 64 (0x22 + 256 * (c % 64) + 65536 * (k.launchId.toNat % 2 ^ 32))
                  ∧ (∃ w, (t.core c).run = some w ∧ w.yreq = false ∧ w.slot = none ∧ w.noReq = true ∧ w.preDrain = false)
                  ∧ (∃ m ∈ t.nodes, m.id = n.id ∧ m.usedSlots = n.usedSlots.erase q) ∧ ∀ x, (t.strand c x).cond ≠ .parked)))
    ∧ (k.run = none → ∀ u, k.under = some u → u.ctx.restored = true → u.ctx.launch = n.id → u.ctx.iter = i.n → s.slotKept l.prio c = false → ∀ a, i.image l = some a →
        let q0 := s.freshTrapRegs
        let q1 := q0.2.freshTrapRegs
        let q2 := q1.2.freshTrapRegs
        let q3 := q2.2.freshTrapRegs
        let z := q3.2
        let failed : Prop := ∃ t, exec (.imageRestore c) s = .next t ∧ Logs s t d 0x21 c n.id ∧ (t.core c).run = none ∧ (t.core c).under = none
          ∧ ∃ m ∈ t.nodes, m.id = n.id ∧ m.badIter = true ∧ ∀ x ∈ m.iters, x.n ≠ i.n
        (∀ e, z.vget c n.space a 0x1200 = .error e → failed)
        ∧ (∀ h y, z.vget c n.space a 0x1200 = .ok (h, y) →
            (fld h 0 4 ≠ 0x4D494753 ∨ fld h 4 2 ≠ 1 ∨ s.jobSlot (fld h 0x14 4) = none ∨ s.node (fld h 0x10 4) = none → failed)
            ∧ (∀ w, z.restoreImage c (virtReader c n.space a) (Ctx.fresh i.n n.id s.orderNext) j n.hb ⟨q0.1, q1.1, q2.1, q3.1⟩ i.kept none = some w →
                ∃ t, exec (.imageRestore c) s = .next t ∧ IterIs t n i .running ∧ (t.core c).under = none
                  ∧ (∃ x, (t.core c).run = some x ∧ x.iter = i.n ∧ x.launch = n.id ∧ x.yreq = false)
                  ∧ (t.core c).keyid = BitVec.ofNat 64 j.keyid ∧ (t.core c).ptbase = j.ptbase
                  ∧ (∀ (x : Fin 4) (y : Reg), y ≠ 0 → (t.strand c x).rd y = BitVec.ofNat 64 (fld h (0x100 + 0x400 * x.val + 8 * y.toNat) 8))
                  ∧ (∀ x : Fin 4, (t.strand c x).pc = BitVec.ofNat 64 (fld h (0x300 + 0x400 * x.val) 8)))))
    ∧ (k.run = some r → r.launch = n.id → r.iter = i.n → ∀ x y, k.dbgHit = some (x, y) →
        let z := (s.landStrands c).writeOut c r
        (r.draining = true ∨ k.stopped = true ∨ k.stopReq = false ∨ k.drained = false → exec (.debugStop c) s = .next s)
        ∧ (r.draining = false → k.stopped = false → k.stopReq = true → k.drained = true → k.raised = none →
            (∀ w, z.pputPieces j.keyid (k.dbgImg.toNat / 2 ^ 16 * 2 ^ 16) (z.imagePieces c l.cohort) = .ok w →
              ∃ t, exec (.debugStop c) s = .next t ∧ (t.core c).stopped = true ∧ (t.core c).stopReq = false ∧ (t.core c).dbgHit = none
                ∧ ∀ x, t.strand c x = w.strand c x)
            ∧ (∀ e, z.pputPieces j.keyid (k.dbgImg.toNat / 2 ^ 16 * 2 ^ 16) (z.imagePieces c l.cohort) = .error e →
              ∃ t, exec (.debugStop c) s = .next t ∧ (t.core c).stopped = false ∧ (t.core c).dbgHit = none ∧ ∀ x, (t.strand c x).cond ≠ .parked)))
    ∧ (k.stopped = false → exec (.debugGo c) s = .next s)
    ∧ (k.stopped = true → k.run = some r → r.launch = n.id → r.iter = i.n →
        let back := s.restoreImage c (physReader j.keyid (k.dbgImg.toNat / 2 ^ 16 * 2 ^ 16)) r j n.hb k.st k.dbgKept k.under
        (∀ w, back = some w → ∃ t, exec (.debugGo c) s = .next t ∧ (t.core c).stopped = false ∧ (t.core c).locks = k.locks ∧ (t.core c).run = some r
          ∧ ∀ x, t.strand c x = w.strand c x)
        ∧ (back = none → ∃ t, exec (.debugGo c) s = .next t ∧ (t.die d).errLog = BitVec.ofNat 64 (0x21 + 256 * (c % 64) + 65536 * (n.id % 2 ^ 32))
          ∧ (∃ x, (t.core c).run = some x ∧ x.cancelled = true) ∧ (r.draining = false → ∀ x, (t.strand c x).cond = .exited)))

/-! ## Cards, text and ports -/

/-- A card takes a free ready engine with its vocabulary unless an earlier card of its state record has still to run, and runs: a Prompter
writes ids and result, a Narrator does what its state record allows, and one that fails writes and sends nothing; then it ends with its
status, cue and node, counted by its job. A text of one byte is one token, bytes with no stop string pass the Narrator (R44, R275, R320,
R327, R330, R333, R334, R336). -/
def Obligations.CardsRun : Prop :=
  ∀ (s : State) (n : Node) (k : Card) (e : Nat), s.alone n → n.kind = .card k →
    let z := s.drawWord.2
    let ends (i : Instr) (st det : Nat) : Prop :=
      let eng := match n.engine with | some x => x % 8 | none => if k.eng = 0xFF then s.drawWord.1.toNat % 2 ^ 16 else k.eng
      let ids := if st = 4 then [] else uni n.hb n.rel
      let put := z.vput n.agent n.space (k.addr + 0x20) (toLe 1 st ++ toLe 1 det ++ toLe 2 eng ++ toLe 4 n.id) ids [⟨.pkg, 256, ids⟩]
      ∃ t, exec i s = .next t ∧ (∀ m ∈ t.nodes, m.id ≠ n.id) ∧ t.endedNodes = s.endedNodes
        ∧ t.jobs = s.jobs.map (fun x => if x.2.jobid = n.job then (x.1, { x.2 with count := x.2.count + 1 }) else x)
        ∧ (k.cueCore = 0xFFFF → ∀ c, (t.core c).cues = (s.core c).cues)
        ∧ (k.cueCore ≠ 0xFFFF → (s.core k.cueCore).cues.wf 0 = true → ∀ c x, (t.core c).cues.get 0 x
            = (s.core c).cues.get 0 x + if c = k.cueCore ∧ x = k.cueNum then BitVec.ofNat 32 k.cueAmt else 0)
        ∧ (∀ ws w, put = .ok (ws, w) → SameGlobal w t)
        ∧ (∀ x, put = .error x → SameGlobal s t ∧ Logs s t (Fin.ofNat 4 n.die) 0x12 0 n.id)
    let settled (t : State) (st det : Nat) : Prop := ∃ m ∈ t.nodes, m.id = n.id ∧ ∃ c, m.kind = .card c ∧ c.out = some (st, det)
    let waits := n.started = true ∧ n.cancelled = false ∧ n.engine = none ∧ k.out = none
    let runs := s.onEngine e = some n ∧ s.textReady e = true ∧ n.cancelled = false ∧ k.out = none
    let ahead := s.narrAhead n k = true
    let none' := ∀ x ∈ k.engines, s.textReady x = false
    (waits → none' → ends (.engineNotReadyCardFail n.id) 3 13 ∧ ends (.cardStart n.id e) 3 13)
    ∧ (¬ (waits ∧ none') → exec (.engineNotReadyCardFail n.id) s = .next s)
    ∧ (¬ waits ∨ ¬ none' ∧ (s.textReady e = false ∨ e ∉ k.engines ∨ s.onEngine e ≠ none ∨ ahead) → exec (.cardStart n.id e) s = .next s)
    ∧ (waits → e ∈ k.engines → s.textReady e = true → s.onEngine e = none → ¬ ahead →
        ∀ b y, s.vget n.agent n.space (k.addr + 0x40) 1 = .ok ([b], y) →
        let slot := if b.toNat < 16 then some b.toNat else none
        ∃ t, exec (.cardStart n.id e) s = .next t ∧ { t with nodes := y.nodes } = y
          ∧ t.nodes = s.nodes.map fun m => if m.id = n.id then { m with
              engine := some e, kind := .card { k with vslot := slot, vocab := if b.toNat < 16 then s.iod.vocab.get [] b.toNat else [] } } else m)
    ∧ (∀ st det, k.out = some (st, det) → ends (.cardEnd n.id) st det)
    ∧ (k.out = none → n.cancelled = true → ends (.cardEnd n.id) 4 0)
    ∧ (k.out = none → n.cancelled = false → n.engine = none → exec (.cardEnd n.id) s = .next s)
    ∧ (k.out = none → n.cancelled = false → ∀ x, n.engine = some x →
        (s.textReady x = false → ends (.cardEnd n.id) 3 13) ∧ (s.textReady x = true → exec (.cardEnd n.id) s = .next s))
    ∧ (s.onEngine e = none ∨ k.kind = 2 ∧ s.onEngine e = some n → exec (.prompterCardRun e) s = .next s)
    ∧ (runs → k.kind = 1 → prompterRun s n k = none → exec (.prompterCardRun e) s = .next s)
    ∧ (runs → k.kind = 1 → ∀ b y, s.vget n.agent n.space (k.addr + 0x40) 64 = .ok (b, y) →
        (∀ det x, (prompterIds n k b).go y = (.error det, x) → ∃ t, exec (.prompterCardRun e) s = .next t ∧ settled t 3 det
            ∧ { t with nodes := x.nodes } = x ∧ Access s { t with nodes := s.nodes })
        ∧ (∀ ids inv x, (prompterIds n k b).go y = (.ok (ids, inv), x) → (fld b 1 1).testBit 2 = false →
            ∀ x1, (cardWrite n (BitVec.ofNat 64 (fld b 0x18 8)) (ids.flatMap (toLe 4))).go x = (.ok (), x1) →
            ∀ x2, (cardWrite n (BitVec.ofNat 64 (fld b 0x28 8))
              (toLe 4 ids.length ++ toLe 4 0xFFFFFFFF ++ toLe 4 inv ++ toLe 4 0)).go x1 = (.ok (), x2) →
            ∃ t, exec (.prompterCardRun e) s = .next t ∧ settled t 2 0 ∧ { t with nodes := x2.nodes } = x2))
    ∧ (s.onEngine e = none ∨ k.kind = 1 ∧ s.onEngine e = some n → exec (.narratorCardRun e) s = .next s)
    ∧ (runs → k.kind = 2 → ahead → exec (.narratorCardRun e) s = .next s)
    ∧ (runs → k.kind = 2 → ¬ ahead →
        (∀ det x, (narrPlan n k).go s = (.error det, x) → ∃ t, exec (.narratorCardRun e) s = .next t ∧ settled t 3 det
            ∧ { t with nodes := x.nodes } = x ∧ Access s { t with nodes := s.nodes })
        ∧ (∀ p x, (narrPlan n k).go s = (.ok p, x) →
            (∀ x1, (narrCommit n p.1 p.2.1 p.2.2.1 p.2.2.2).go x = (.ok (), x1) →
              ∃ t, exec (.narratorCardRun e) s = .next t ∧ settled t 2 0 ∧ { t with nodes := x1.nodes } = x1)
            ∧ (∀ det x1, (narrCommit n p.1 p.2.1 p.2.2.1 p.2.2.2).go x = (.error det, x1) →
              ∃ t, exec (.narratorCardRun e) s = .next t ∧ settled t 3 det ∧ { t with nodes := x.nodes } = x
                ∧ Access s { t with nodes := s.nodes })))
    ∧ (∀ (v : Vocab) (b : Byte), tokenise v false true [b] = if b.toNat < 0x80 then ([vByte v b.toNat], 0) else ([vFbbase v + b.toNat], 1))
    ∧ (∀ (x : Narr) (bs : List Byte), x.held = [] → (∀ b ∈ bs, b.toNat < 0x80) → narrToken [] x bs = ⟨x.out ++ bs, [], x.ended, x.stopped⟩)

/-- A message that reaches a port is discarded, answered with an error, or written to the next slot of its inbox with the inbox's cue
incremented; a port that is not ready receives nothing. Flows open, at most 65,536 at a port, and close (R321, R322, R334, R412, R414). -/
def Obligations.PortMessages : Prop :=
  ∀ (s : State) (port : Fin 4) (flow : Nat) (m : List Byte),
    let svc := fld m 0x10 4
    let e := s.iod.svc.get [] svc
    let job := fld e 4 4
    let q := s.iod.svcSeq.get 0 svc
    let kind := fld m 5 1
    let answers (w t : State) (code : Nat) : Prop := t.iod.sentMsgs = s.iod.sentMsgs ++ [(port.val, flow,
        toLe 4 0x31585447 ++ [1, 4, 0, 0] ++ toLe 8 (fld m 8 8) ++ toLe 4 0 ++ toLe 4 0 ++ toLe 2 0 ++ [0, 0] ++ toLe 4 code)]
      ∧ t.iod.svcSeq = s.iod.svcSeq ∧ (∀ c, (t.core c).cues = (s.core c).cues) ∧ SameMemory w t
    (∀ i ∈ [Instr.request port flow m, .cancelMessage port flow m, .replyReceived port flow m],
      (s.isReady .port port.val = false → exec i s = .next s)
      ∧ (kind = 2 ∨ kind = 3 ∨ kind = 4 → exec i s = .next s)
      ∧ (s.isReady .port port.val = true → kind ≠ 2 → kind ≠ 3 → kind ≠ 4 →
          let good := headerOk m = true ∧ m.length = 32 + fld m 0x14 4
          (¬ good → ∃ t, exec i s = .next t ∧ answers s t 1)
          ∧ (good → (255 < svc ∨ (fld e 0 4).testBit 0 = false ∨ s.jobSlot job = none) → ∃ t, exec i s = .next t ∧ answers s t 3)
          ∧ (good → svc ≤ 255 → (fld e 0 4).testBit 0 = true → s.iod.encMode = 0 → ∀ x j, s.jobSlot job = some (x, j) →
              let sp : Space3 := ⟨j.ptbase, BitVec.ofNat 64 j.asid, BitVec.ofNat 64 j.keyid, false⟩
              let logs (w t : State) : Prop := t.iod.mgmtLog = w.iod.mgmtLog ++ [0x40]
              (∀ y, s.vget 256 sp (BitVec.ofNat 64 (fld e 0x18 8)) 8 = .error y → ∃ t, exec i s = .next t ∧ answers s t 5 ∧ logs s t)
              ∧ (∀ b z, s.vget 256 sp (BitVec.ofNat 64 (fld e 0x18 8)) 8 = .ok (b, z) →
                  (le b + fld e 0x10 4 ≤ q → ∃ t, exec i s = .next t ∧ answers z t 2)
                  ∧ (q < le b + fld e 0x10 4 → fld e 0x14 4 < fld m 0x14 4 + 64 → ∃ t, exec i s = .next t ∧ answers z t 4)
                  ∧ (q < le b + fld e 0x10 4 → fld m 0x14 4 + 64 ≤ fld e 0x14 4 →
                      let put := z.vput 256 sp (BitVec.ofNat 64 (fld e 8 8) + BitVec.ofNat 64 (fld e 0x14 4 * (q % Max.max 1 (fld e 0x10 4))))
                        (toLe 4 (port.val * 2 ^ 30 + flow) ++ toLe 4 q ++ List.replicate 24 0 ++ m) [] []
                      (∀ y, put = .error y → ∃ t, exec i s = .next t ∧ answers z t 5 ∧ logs z t)
                      ∧ (∀ ids w, put = .ok (ids, w) → (s.core (fld e 0x20 2)).cues.wf 0 = true → ∃ t, exec i s = .next t ∧ SameMemory w t
                          ∧ t.iod.sentMsgs = s.iod.sentMsgs ∧ t.iod.svcSeq.get 0 svc = (q + 1) % 2 ^ 32
                          ∧ (t.core (fld e 0x20 2)).cues.get 0 (fld e 0x22 1) = (s.core (fld e 0x20 2)).cues.get 0 (fld e 0x22 1) + 1
                          ∧ (∀ c, c ≠ fld e 0x20 2 → (t.core c).cues = (s.core c).cues)))))))
    ∧ (let full := 65536 ≤ (s.iod.flows.filter fun f => f.1 == port.val).length
      (full ∨ (port.val, flow) ∈ s.iod.flows → exec (.flowOpen port flow) s = .next s)
      ∧ (¬ full → ∃ t, exec (.flowOpen port flow) s = .next t ∧ (∀ f, f ∈ t.iod.flows ↔ f ∈ s.iod.flows ∨ f = (port.val, flow))
        ∧ { t with iod := { t.iod with flows := s.iod.flows } } = s ∧ SameMemory s t))
    ∧ (∃ t, exec (.flowClose port flow) s = .next t ∧ (∀ f, f ∈ t.iod.flows ↔ f ∈ s.iod.flows ∧ f ≠ (port.val, flow))
        ∧ { t with iod := { t.iod with flows := s.iod.flows } } = s ∧ SameMemory s t)

/-! ## The host -/

/-- Host writes of registers: a doorbell adds capsules and takes none back, the ring base takes what it may, and every other register changes
its RW fields alone (R403 to R405, R407, R418, R438, R457). -/
def Obligations.HostRegisters : Prop :=
  ∀ (s : State) (v : Word),
    (∃ t, exec (.hifDoorbell v) s = .next t ∧ { t with iod := { t.iod with hifTail := s.iod.hifTail } } = s
        ∧ let pending (x : Nat) : Nat := (x + 32 - s.iod.hifHead) % 32
          t.iod.hifTail = if pending s.iod.hifTail < pending (v.toNat % 32) then v.toNat % 32 else s.iod.hifTail)
    ∧ (∀ hi dbl, s.iod.inProg ≠ [] ∨ (s.iod.hifHead ≠ s.iod.hifTail ∧ s.iod.hifStopped = false) → exec (.hifCapbase ⟨hi, dbl, v⟩) s = .next s)
    ∧ (∀ hi dbl, s.iod.inProg = [] → (s.iod.hifHead = s.iod.hifTail ∨ s.iod.hifStopped = true) → ∃ t, exec (.hifCapbase ⟨hi, dbl, v⟩) s = .next t
        ∧ t.iod.capBase = (if hi then v <<< 32 ||| s.iod.capBase &&& 0xFFFFFFFF else if dbl then v
            else v &&& 0xFFFFFFFF ||| s.iod.capBase &&& 0xFFFFFFFF00000000) &&& 0xFFFFFFFFFFFFF000
        ∧ t.iod.hifStopped = false ∧ { t with iod := { t.iod with capBase := s.iod.capBase, hifStopped := s.iod.hifStopped } } = s)
    ∧ (∀ off dbl, off % (if dbl then 8 else 4) ≠ 0 ∨ regMask (off / 8 * 8) = 0 → exec (.registerWrite off dbl v) s = .next s)
    ∧ (∀ d : Fin 4, ∃ t, exec (.registerWrite (0x10000 + 0x1000 * d.val) true v) s = .next t
        ∧ (t.die d).drainMax = (if 1024 ≤ v.toNat % 2 ^ 32 then v.toNat % 2 ^ 32 else (s.die d).drainMax)
        ∧ { t.die d with drainMax := (s.die d).drainMax } = s.die d ∧ (∀ x, x ≠ d → t.die x = s.die x) ∧ { t with dies := s.dies } = s)
    ∧ (∀ n < 4096, s.iod.route.wf 0 = true → ∃ t, exec (.registerWrite (0x40000 + 16 * n) true v) s = .next t
        ∧ (∀ x, t.iod.route.get 0 x = if x = n then v &&& 0x80FFFFFF else s.iod.route.get 0 x)
        ∧ { t with iod := { t.iod with route := s.iod.route } } = s)
    ∧ (exec (.registerWrite 0x51008 true v) s = .next (s.modIod fun x => { x with fabRetry := v }))
    ∧ (exec (.registerWrite 0x101008 true v) s
        = .next (s.modIod fun x => { x with mgmt := { x.mgmt with go := x.mgmt.go && v.getLsbD 0 } }))
    ∧ (∀ c < 256, ∃ t, exec (.registerWrite (0x200000 + 4096 * c + 0x30) true v) s = .next t
        ∧ t.core c = { s.core c with dbgImg := v &&& 0xFFFFFFFFFFFF0000 } ∧ (∀ x, x ≠ c → t.core x = s.core x) ∧ { t with cores := s.cores } = s)
    ∧ (∀ c < 256, v.getLsbD 1 = true → ∃ t, exec (.registerWrite (0x200000 + 4096 * c + 0x28) true v) s = .next t
        ∧ t.core c = { s.core c with stopReq := true } ∧ (∀ x, x ≠ c → t.core x = s.core x) ∧ { t with cores := s.cores } = s)

/-- Capsules start in ring order once they can be read, and each ends with result, status and, where asked, an MSI-X message: an unknown
opcode ends with an error; job slots are set and freed, services set, launches submitted and images resumed (R8, R406 to R408, R413). -/
def Obligations.CapsulesOfJobs : Prop :=
  ∀ (s : State) (i : Fin 32) (b : List Byte),
    let arg (off n : Nat) : Nat := fld b (0x10 + off) n
    let holds (x : State) (op : Nat) : Prop := x.capsule i b op
    let closes (y : Instr) (w : State) (error res : Nat) : Prop := Closes i b s y w error res
    let a := s.iod.capBase.toNat + 128 * i.val
    let all : List Instr := [.jobSet i, .jobFree i, .keyLoad i, .keyDestroy i, .linkKey i, .copy i, .vocabInstall i, .routineLoad i, .serviceSet i,
      .capsuleLaunch i, .imageResume i]
    (∀ y ∈ all, s.iod.inProg = [] → s.iod.hifHead = i.val → s.iod.hifTail = (i.val + 1) % 32 → s.iod.hifStopped = false → s.iod.hifReady = true →
        (s.hostRead a 128 = none → exec y s = .next (s.modIod fun x => { x with hifStopped := true }))
        ∧ (s.hostRead a 128 = some b → exec y s = exec y (s.modIod fun x => { x with inProg := [(i.val, b)], hifHead := (i.val + 1) % 32 })))
    ∧ (∀ op, holds s op → 11 < op ∨ op = 0 → closes (.jobSet i) s 1 0)
    ∧ (holds s 1 → (argsOk b [(0, 1), (8, 8)] = false → closes (.jobSet i) s 1 0)
        ∧ (argsOk b [(0, 1), (8, 8)] = true → (s.hostRead (arg 8 8) 128 = none → closes (.jobSet i) s 5 0)
          ∧ ∀ img, s.hostRead (arg 8 8) 128 = some img → (jobOf img = none → closes (.jobSet i) s 1 0)
            ∧ ∀ valid j, jobOf img = some (valid, j) →
              (∀ o, s.jobs.find (arg 0 1) = some o → (o.jobid ≠ j.jobid → closes (.jobSet i) s 2 0)
                ∧ (o.jobid = j.jobid → valid = false → closes (.jobSet i) (s.forgetJob (arg 0 1) j.jobid) 0 0)
                ∧ (o.jobid = j.jobid → valid = true →
                    closes (.jobSet i) { s with jobs := s.jobs.put (arg 0 1) { j with cancelled := o.cancelled, count := o.count } } 0 0))
              ∧ (s.jobs.find (arg 0 1) = none → (valid = false → closes (.jobSet i) s 0 0)
                ∧ (valid = true → s.jobSlot j.jobid ≠ none → closes (.jobSet i) s 2 0)
                ∧ (valid = true → s.jobSlot j.jobid = none →
                    closes (.jobSet i) { s.clearDeficits j.jobid with jobs := s.jobs.put (arg 0 1) j } 0 0))))
    ∧ (holds s 2 → argsOk b [(0, 1)] = true → (s.jobs.find (arg 0 1) = none → closes (.jobFree i) s 2 0)
        ∧ ∀ j, s.jobs.find (arg 0 1) = some j → ((∃ n ∈ s.nodes, n.job = j.jobid) → closes (.jobFree i) s 6 0)
          ∧ ((∀ n ∈ s.nodes, n.job ≠ j.jobid) → closes (.jobFree i) (s.forgetJob (arg 0 1) j.jobid) 0 0
              ∧ let x := s.forgetJob (arg 0 1) j.jobid
                (∀ g ∈ x.graphs ++ x.phases, g.job ≠ j.jobid) ∧ (∀ e ∈ x.endedNodes, e.job = j.jobid → j.jobid = 0)))
    ∧ (holds s 9 → argsOk b [(0, 4), (0x10, 64)] = true →
        let e := capBytes b 0x10 64
        (256 ≤ arg 0 4 → closes (.serviceSet i) s 1 0)
        ∧ (arg 0 4 < 256 → (svcOk e = false → closes (.serviceSet i) s 1 0)
            ∧ (svcOk e = true → (s.jobSlot (fld e 4 4) = none → closes (.serviceSet i) s 2 0)
              ∧ (s.jobSlot (fld e 4 4) ≠ none → closes (.serviceSet i) (s.modIod fun y => { y with svc := y.svc.put (arg 0 4) e }) 0 0))))
    ∧ (holds s 10 → argsOk b [(0, 1), (8, 8)] = true → (s.jobs.find (arg 0 1) = none → closes (.capsuleLaunch i) s 2 0)
        ∧ ∀ j c, s.jobs.find (arg 0 1) = some j → s.hostAgent = some c →
          let r := submitLaunch c (j.space true) j.jobid false [] 12 (BitVec.ofNat 64 (arg 8 8)) s
          (∀ t, r = .error t → closes (.capsuleLaunch i) s 7 t.cause) ∧ (∀ w, r = .ok (none, w) → exec (.capsuleLaunch i) s = .next s)
          ∧ ∀ id w, r = .ok (some id, w) → closes (.capsuleLaunch i) w 0 id)
    ∧ (holds s 11 → argsOk b [(0, 1), (8, 8)] = true → (s.jobs.find (arg 0 1) = none → closes (.imageResume i) s 2 0)
        ∧ ∀ j c, s.jobs.find (arg 0 1) = some j → s.hostAgent = some c →
          let p : Word := BitVec.ofNat 64 (arg 8 8)
          (∀ t, s.vget c (j.space true) p 256 = .error t → closes (.imageResume i) s 7 t.cause)
          ∧ ∀ h w, s.vget c (j.space true) p 256 = .ok (h, w) →
            (w.imageOk h = false ∨ fld h 0x14 4 ≠ j.jobid → closes (.imageResume i) w 7 0xA2)
            ∧ (w.imageOk h = true → fld h 0x14 4 = j.jobid → (fld h 0x9B 1).testBit 0 = false → ∀ n, s.alone n → n.id = fld h 0x10 4 → n.cancelled = false →
                ∃ x it, closes (.imageResume i) x 0 0 ∧ x.nodes = s.nodes.map (fun m => if m.id = n.id then { m with iters := m.iters ++ [it] } else m)
                  ∧ it.st = .yielded ∧ it.img = some p))

/-- Capsules that load and destroy keys, copy between host memory and the package, and install vocabularies and routines: each checks its
arguments, names its errors, and does what its opcode says (R325, R407 to R411, R420, R431). -/
def Obligations.CapsulesOfKeysAndContents : Prop :=
  ∀ (s : State) (i : Fin 32) (b : List Byte),
    let arg (off n : Nat) : Nat := fld b (0x10 + off) n
    let holds (x : State) (op : Nat) : Prop := x.capsule i b op
    let closes (y : Instr) (w : State) (error res : Nat) : Prop := Closes i b s y w error res
    let key (aad nonce wrapped tag : Nat) : Option Nat := s.unwrap (capBytes b aad 4) (capBytes b nonce 12) (capBytes b wrapped 32) (capBytes b tag 16)
    (holds s 3 → argsOk b [(0, 1), (2, 2), (4, 12), (0x10, 32), (0x30, 16)] = true →
        let bad := 16 ≤ arg 0 1 ∨ 1024 ≤ arg 2 2 ∨ arg 2 2 = 0
        let busy := ∃ d : Fin 4, (arg 0 1).testBit d.val = true ∧ ((s.die d).keys.find (arg 2 2)).isSome = true
        (bad → closes (.keyLoad i) s 1 0) ∧ (¬ bad → (key 0 4 0x10 0x30 = none → closes (.keyLoad i) s 4 0)
          ∧ ∀ k, key 0 4 0x10 0x30 = some k → (busy → closes (.keyLoad i) s 6 0)
            ∧ (¬ busy → ∃ w, closes (.keyLoad i) w 0 0 ∧ { w with dies := s.dies } = s
                ∧ ∀ d, w.die d = if (arg 0 1).testBit d.val then { s.die d with keys := (s.die d).keys.put (arg 2 2) k } else s.die d)))
    ∧ (holds s 4 → argsOk b [(0, 1), (2, 2)] = true →
        let bad := 16 ≤ arg 0 1 ∨ 1024 ≤ arg 2 2 ∨ arg 2 2 = 0
        (bad → closes (.keyDestroy i) s 1 0)
        ∧ (¬ bad → ∃ w, closes (.keyDestroy i) w 0 0 ∧ { w with dies := s.dies, cores := s.cores } = s
            ∧ (∀ d, (arg 0 1).testBit d.val = false → w.die d = s.die d)
            ∧ (∀ d, (arg 0 1).testBit d.val = true → (w.die d).keys = (s.die d).keys.del (arg 2 2) ∧ (∀ x ∈ (w.die d).sets, ∀ l ∈ x.2, l.kid ≠ arg 2 2)
                ∧ { w.die d with keys := (s.die d).keys, sets := (s.die d).sets } = s.die d)
            ∧ ∀ c, w.core c = if (arg 0 1).testBit (dieOf c).val then { s.core c with
                dc := (s.core c).dc.filter (fun l => l.kid != arg 2 2), tc := (s.core c).tc.filter (fun l => l.kid != arg 2 2),
                wbuf := (s.core c).wbuf.filter fun l => l.kid != arg 2 2 } else s.core c))
    ∧ (holds s 5 → argsOk b [(0, 1), (4, 4), (8, 12), (0x14, 32), (0x34, 16)] = true →
        let k := s.iod.link (arg 0 1)
        let bad := 12 ≤ arg 0 1 ∨ arg 4 4 ≠ k.epoch + 1
        (bad → closes (.linkKey i) s 1 0) ∧ (¬ bad → (key 0 8 0x14 0x34 = none → closes (.linkKey i) s 4 0)
          ∧ ∀ x, key 0 8 0x14 0x34 = some x → (k.oldTx ≠ none ∨ k.oldRx ≠ none → closes (.linkKey i) s 6 0)
            ∧ (k.oldTx = none → k.oldRx = none → ∃ w, closes (.linkKey i) w 0 0 ∧ w.iod.link (arg 0 1) = { k with nextKey := some x }
                ∧ (∀ l, l ≠ arg 0 1 → w.iod.link l = s.iod.link l) ∧ { w with iod := { w.iod with links := s.iod.links } } = s)))
    ∧ (holds s 6 → argsOk b [(0, 1), (2, 2), (4, 4), (8, 8), (0x10, 8)] = true →
        let n := arg 4 4
        let bad := 2 ≤ arg 0 1 ∨ 1024 ≤ arg 2 2 ∨ n % 16 ≠ 0 ∨ arg 8 8 % 16 ≠ 0 ∨ arg 0x10 8 % 16 ≠ 0 ∨ s.physOk (arg 0x10 8) n = false
        (bad → closes (.copy i) s 1 0) ∧ (¬ bad → (s.hostRead (arg 8 8) n = none → closes (.copy i) s 5 0)
          ∧ ∀ bs, s.hostRead (arg 8 8) n = some bs →
            (arg 0 1 = 0 → (∀ w, s.pput (arg 2 2) (arg 0x10 8) bs = .ok w → closes (.copy i) w 0 0)
              ∧ ∀ t, s.pput (arg 2 2) (arg 0x10 8) bs = .error t → closes (.copy i) s 7 t.cause)
            ∧ (arg 0 1 = 1 → (∀ ds w, s.pget (arg 2 2) (arg 0x10 8) n = .ok (ds, w) → closes (.copy i) (w.hostWrite (arg 8 8) ds) 0 0)
              ∧ ∀ t, s.pget (arg 2 2) (arg 0x10 8) n = .error t → closes (.copy i) s 7 t.cause)))
    ∧ (holds s 7 → argsOk b [(0, 1), (2, 2), (8, 8)] = true → arg 0 1 < 16 → arg 2 2 < 1024 → s.physOk (arg 8 8) 128 = true →
        (∀ t, s.pget (arg 2 2) (arg 8 8) 128 = .error t → closes (.vocabInstall i) s 7 t.cause)
        ∧ ∀ h x, s.pget (arg 2 2) (arg 8 8) 128 = .ok (h, x) → (vBad1 h = true → closes (.vocabInstall i) x 1 1)
          ∧ ∀ d w, vBad1 h = false → x.physOk (arg 8 8) (vLength h) = true → x.pget (arg 2 2) (arg 8 8) (vLength h) = .ok (d, w) →
            let f := vFailing (w.iod.blob.bind (·.vocabKey)) d
            (f = some 7 → closes (.vocabInstall i) w 3 7) ∧ (∀ y, f = some y → y ≠ 7 → closes (.vocabInstall i) w 1 y)
            ∧ (f = none → w.vocabBusy (arg 0 1) = true → exec (.vocabInstall i) s = .next s)
            ∧ (f = none → w.vocabBusy (arg 0 1) = false →
                closes (.vocabInstall i) (w.modIod fun y => { y with vocab := y.vocab.put (arg 0 1) d }) 0 0))
    ∧ (holds s 8 → argsOk b [(0, 1), (2, 2), (4, 4), (8, 8)] = true → arg 2 2 < 1024 → s.physOk (arg 8 8) (arg 4 4) = true →
        let r := s.iod.routines.foldl (fun m e => if e.1 = arg 0 1 then m else m + e.2.length) 0
        (65536 < r + arg 4 4 → closes (.routineLoad i) s 1 0)
        ∧ (r + arg 4 4 ≤ 65536 → (arg 4 4 = 0 → closes (.routineLoad i) (s.modIod fun y => { y with routines := y.routines.del (arg 0 1) }) 0 0)
          ∧ (arg 4 4 ≠ 0 → (∀ t, s.pget (arg 2 2) (arg 8 8) (arg 4 4) = .error t → closes (.routineLoad i) s 7 t.cause)
            ∧ ∀ d w, s.pget (arg 2 2) (arg 8 8) (arg 4 4) = .ok (d, w) →
              closes (.routineLoad i) (w.modIod fun y => { y with routines := y.routines.put (arg 0 1) d }) 0 0)))

/-! ## The fabric -/

/-- A flit that arrives is authenticated, and delivered, forwarded or discarded; a flit that fails is asked for again, and the eighth failure
takes the link down; keys of a link rotate, the old one of the transmitter once no flit of it waits (R282, R415 to R420). -/
def Obligations.LinkSteps : Prop :=
  ∀ (s : State) (link : Fin 12),
    let l := link.val
    let k := s.iod.link l
    let me := s.iod.devnum
    let onlyLink (t : State) (x : Link) : Prop := t.iod.link l = x ∧ (∀ y, y ≠ l → t.iod.link y = s.iod.link y)
      ∧ { t with iod := { t.iod with links := s.iod.links } } = s
    -- the device number
    (∀ v, ((∃ e ∈ s.cores, (e.2.eng.get 3).q ≠ [] ∨ (e.2.eng.get 3).flight ≠ []) → exec (.fabDevnumWrite v) s = .next s)
      ∧ ((∀ e ∈ s.cores, (e.2.eng.get 3).q = [] ∧ (e.2.eng.get 3).flight = []) →
          exec (.fabDevnumWrite v) s = .next (s.modIod fun i => { i with devnum := v.toNat % 4096 })))
    -- arriving flits
    ∧ (∀ f : Flit,
        let i : Instr := .flitReceive link f
        let good := f.crc = true ∧ f.auth = true ∧ k.holds f.epoch = true
        let z := s.modLink l fun x =>
          { x with rxFails := 0, rxGood := some f.lseq, replay := match f.ack with | some n => replayAfter x.replay n | none => x.replay }
        let bad := if f.crc then k.authFail + 1 else k.authFail
        let dst := match f.body with | .req r => r.dst | .resp r => r.dst
        (s.linkUp l = false → exec i s = .next s)
        ∧ (s.linkUp l = true → ¬ good → k.rxFails < 7 → ∃ t, exec i s = .next t
            ∧ onlyLink t { k with authFail := bad, rxFails := k.rxFails + 1 })
        ∧ (s.linkUp l = true → ¬ good → k.rxFails = 7 → ∀ r, f.body = .req r → ∃ t, exec i s = .next t ∧ t.isReady .link l = false
            ∧ t.iod.msix = s.iod.msix ++ [2, 3] ∧ (t.iod.link l).authFail = bad ∧ t.iod.inbound = s.iod.inbound)
        ∧ (s.linkUp l = true → good → dst = me → me ≠ 0xFFF →
            (∀ r, f.body = .req r → exec i s = .next (z.modIod fun x => { x with inbound := x.inbound ++ [r] }))
            ∧ (∀ r q num y, f.body = .resp r → s.iod.outReqs.find? (fun q => q.req.dst == r.src && q.req.core == r.core && q.req.seq == r.seq) = some q →
                r.core < 256 → r.src ≠ me → q.fly = some num → s.fly r.core num = some y → y.out = [(r.src, r.seq, 0)] → (∃ e sz o, y.cmd.instr = .fst e sz o) →
                let fault := match r.auth, r.fault with
                  | false, _ => some (y.fault.getD ⟨0xC3, 0, 0⟩)
                  | true, some x => some (y.fault.getD ⟨0xC0, x, y.cmd.b⟩)
                  | true, none => y.fault
                ∃ t, exec i s = .next t ∧ t.iod.outReqs = s.iod.outReqs.erase q
                  ∧ t.fly r.core num = some { y with out := [], com := { y.com with ids := uni y.com.ids [] }, fault := fault } ∧ SameMemory s t))
        ∧ (s.linkUp l = true → good → dst ≠ me → me ≠ 0xFFF →
            (s.ports dst = [] ∨ 16 ≤ f.hop → exec i s = .next z)
            ∧ (∀ p, s.ports dst = [p] → f.hop < 16 → ∃ t, exec i s = .next t ∧ Sends z t p f.hop f.body
                ∧ t.cores = s.cores ∧ t.iod.inbound = s.iod.inbound)))
    -- the link itself
    ∧ (∀ n auth,
        let there := ∃ f ∈ k.replay, f.lseq = n
        let fails := if k.txFail.1 = n then k.txFail.2 + 1 else 1
        (s.linkUp l = false ∨ ¬ there → exec (.linkReplay link n auth) s = .next s)
        ∧ (s.linkUp l = true → there → fails < 8 → ∃ t, exec (.linkReplay link n auth) s = .next t
            ∧ onlyLink t { k with txFail := (n, fails), replay := k.replay.dropWhile fun f => f.lseq != n })
        ∧ (s.linkUp l = true → there → 8 ≤ fails → ∃ t, exec (.linkReplay link n auth) s = .next t ∧ t.isReady .link l = false
            ∧ t.iod.msix = s.iod.msix ++ [2, 3]))
    ∧ (k.nextKey = none → exec (.epochSwitch link) s = .next s)
    ∧ (∀ x, k.nextKey = some x → ∃ t, exec (.epochSwitch link) s = .next t
        ∧ onlyLink t { k with epoch := k.epoch + 1, oldTx := k.key, oldRx := k.key, key := some x, nextKey := none })
    ∧ (∃ t, exec (.oldKeyDestroy ⟨link, true⟩) s = .next t ∧ onlyLink t { k with oldRx := none })
    ∧ ((∃ f ∈ k.replay, f.epoch ≠ k.epoch) → exec (.oldKeyDestroy ⟨link, false⟩) s = .next s)
    ∧ ((∀ f ∈ k.replay, f.epoch = k.epoch) → ∃ t, exec (.oldKeyDestroy ⟨link, false⟩) s = .next t ∧ onlyLink t { k with oldTx := none })

/-- A request is performed in the order of its source, once, and answered; one with no response is sent again and at last reported
unreachable; chunks are granted within their limits (R278 to R283, R416 to R422). -/
def Obligations.FabricRequests : Prop :=
  ∀ (s : State),
    let me := s.iod.devnum
    -- requests performed here
    (∀ n, s.iod.inbound[n]? = none → exec (.fabricRequestPerform n) s = .next s)
    ∧ (∀ n r, s.iod.inbound[n]? = some r → r.seq < 2 ^ 16 →
        let q := s.iod.srcSeqs.get ⟨0, [], []⟩ (r.src * 1024 + r.core)
        let gone := s.modIod fun i => { i with inbound := i.inbound.eraseIdx n }
        let d := (r.seq + 2 ^ 16 - q.next % 2 ^ 16) % 2 ^ 16
        (2 ^ 15 ≤ d → exec (.fabricRequestPerform n) s = .next gone)
        ∧ (0 < d → d < 2 ^ 15 → exec (.fabricRequestPerform n) s = .next s)
        ∧ (d = 0 →
            let taken (w : State) : State := match r.body with
              | .chunkWr name pa bs => w.chunkTaken r.src name (if bs = [] then none else some ((homeDie pa).getD 0).val)
              | _ => w
            let z := gone.modIod fun i => { i with srcSeqs := i.srcSeqs.put (r.src * 1024 + r.core) { q with next := (r.seq + 1) % 2 ^ 16 } }
            (∀ data w, performBody r z = .ok (data, w) → exec (.fabricRequestPerform n) s = .next ((taken w).respond r data none))
            ∧ (∀ x, performBody r z = .error x → exec (.fabricRequestPerform n) s = .next ((taken z).respond r [] (some x.cause)))))
    ∧ (∀ r : FabReq,
        (∀ pa bs, r.body = .wr pa bs → bs ≠ [] →
            (s.populated pa = false ∨ s.populated (pa + bs.length - 1) = false → performBody r s = .error ⟨0x20, 0x50, BitVec.ofNat 64 pa⟩)
            ∧ (s.populated pa = true → s.populated (pa + bs.length - 1) = true → 
              ∀ w, s.physWrite (512 + r.src) r.key (if r.rel then [s.farRel r] else []) (bs.length / 128 + 2) pa bs = .ok w →
                performBody r s = .ok ([], (w.spread pa bs.length).toSys
                  ((List.range ((pa + bs.length + 127) / 128 - pa / 128)).map fun i => pa / 128 + i))))
        ∧ (∀ pa n, r.body = .rd pa n → s.populated pa = true → s.populated (pa + n - 1) = true → ∀ bs w, kvGet r.key pa n s = .ok (bs, w) →
            performBody r s = .ok (bs, w))
        ∧ (∀ c n amt, r.body = .sig c n amt →
            (s.isReady .core c = false → performBody r s = .error ⟨0x20, 0x70, 0⟩)
            ∧ (s.isReady .core c = true → (s.core c).cues.wf 0 = true → ∃ w, performBody r s = .ok ([], w) ∧ SameMemory s w
                ∧ ∀ c' x, (w.core c').cues.get 0 x = (s.core c').cues.get 0 x + if c' = c ∧ x = n then amt else 0)))
    -- retries
    ∧ (∀ c dst seq, s.iod.outReqs.find? (fun q => q.req.core == c && q.req.dst == dst && q.req.seq == seq) = none →
        exec (.fabRetryExpiry c ⟨dst, seq⟩) s = .next s)
    ∧ (∀ c dst seq q, s.iod.outReqs.find? (fun q => q.req.core == c && q.req.dst == dst && q.req.seq == seq) = some q →
        (q.tries < 4 → q.dead = false → ∀ p, me ≠ 0xFFF → q.req.dst ≠ me → s.ports q.req.dst = [p] → ∃ t, exec (.fabRetryExpiry c ⟨dst, seq⟩) s = .next t
          ∧ t.iod.outReqs = s.iod.outReqs.map (fun x => if x = q then { x with tries := x.tries + 1, dead := false } else x)
          ∧ Sends s t p 0 (.req q.req) ∧ t.cores = s.cores)
        ∧ (4 ≤ q.tries ∨ q.dead = true → c < 256 → ∀ num y, q.fly = some num → s.fly c num = some y → ∃ t, exec (.fabRetryExpiry c ⟨dst, seq⟩) s = .next t
          ∧ t.iod.outReqs = s.iod.outReqs.erase q ∧ (∃ x, t.fly c num = some x ∧ x.fault = some (y.fault.getD ⟨0xC1, 0, BitVec.ofNat 64 q.req.dst⟩)
              ∧ ∀ o ∈ x.out, ¬ (o.1 = q.req.dst ∧ o.2.1 = seq)) ∧ SameMemory s t))
    -- grants
    ∧ (∀ d : Nat,
        let sum := (s.iod.demands.map fun x => x.outst.count d).sum
        let first := s.iod.demands.find? fun x => x.left.contains d && decide (x.outst.length < 8)
        (first = none ∨ 256 ≤ sum → exec (.chunkGrant d) s = .next s)
        ∧ (∀ x, first = some x → sum < 256 → x.src ≠ me → ∃ t q, exec (.chunkGrant d) s = .next t
            ∧ t.iod.demands = s.iod.demands.erase x ++ [{ x with left := x.left.erase d, outst := x.outst ++ [d] }]
            ∧ t.iod.outReqs = s.iod.outReqs ++ [q] ∧ q.req.dst = x.src ∧ q.req.core = 260 + d ∧ q.req.body = .grant x.cmd 1 ∧ t.cores = s.cores))

/-! ## CXL memory and the Cellarer -/

/-- CXL range registers keep their fields, and VALID stays clear over another valid range; an access over a port that is down signals the
host. The Cellarer's registers take writes where they may; its steps convert a cask in place, lend it or move it to the CXL pool, or make it
ABSENT, each only under its conditions and the coldest class first; a lender recalls what exceeds its quota, and an agreement that ends loses its casks (R234, R424, R425,
R428 to R430). -/
def Obligations.CxlAndCellarer : Prop :=
  ∀ (s : State) (d : Fin 4) (cask : Nat),
    let k := s.die d
    (∀ (r : Fin 8) (off : Nat) (dbl : Bool) (v : Word),
      let x := 4 * r.val + off / 8
      let u := hostMerge (s.iod.cxlReg.get 0 x) off dbl v
      (off % (if dbl then 8 else 4) ≠ 0 ∨ 0x20 ≤ off → exec (.cxlRangeWrite r off ⟨dbl, v⟩) s = .next s)
      ∧ (off % (if dbl then 8 else 4) = 0 → off < 0x20 → s.iod.cxlReg.wf 0 = true → ∃ t, exec (.cxlRangeWrite r off ⟨dbl, v⟩) s = .next t
          ∧ (∀ y, y ≠ x → t.iod.cxlReg.get 0 y = s.iod.cxlReg.get 0 y)
          ∧ (off / 8 ≠ 0 → t.iod.cxlReg.get 0 x = u &&& (if off / 8 = 1 then 0xFFFFFFFFC0000000 else if off / 8 = 2 then 0xFFFFFFF else ~~~0))
          ∧ (off / 8 = 0 → (t.iod.cxlReg.get 0 x).toNat / 2 ^ 30 = u.toNat / 2 ^ 30 ∧ (t.iod.cxlReg.get 0 x).toNat / 2 % 2 ^ 29 = 0
              ∧ (t.iod.cxlReg.get 0 x).getLsbD 0 = (u.getLsbD 0 && !s.iod.cxlOverlap r.val u (s.iod.cxlReg.get 0 (4 * r.val + 1))))
          ∧ { t with iod := { t.iod with cxlReg := s.iod.cxlReg } } = s))
    ∧ (∀ c line, let out := s.cxlDown line = true ∧ s.resident (homeOf line) line = none
        (out → exec (.cxlPortDownAccess c line) s = .next { s with iod := { s.iod with msix := s.iod.msix ++ [3] } })
        ∧ (¬ out → exec (.cxlPortDownAccess c line) s = .next s))
    ∧ (∀ off dbl (v : Word),
        let r := off / 8 * 8
        let m := cellMask r
        let old := k.cell.get 0 r
        let w := hostMerge old off dbl v
        (off % (if dbl then 8 else 4) ≠ 0 ∨ m = 0 ∨ (r < 0x60 ∧ k.kvOn = true) → exec (.cellarerRegisterWrite d off ⟨dbl, v⟩) s = .next s)
        ∧ (off % (if dbl then 8 else 4) = 0 → m ≠ 0 → (r < 0x60 → k.kvOn = false) → (r < 0x100 ∨ r % 16 ≠ 0 ∨ w.getLsbD 63 = true) → ∃ t,
            exec (.cellarerRegisterWrite d off ⟨dbl, v⟩) s = .next t ∧ (t.die d).cell.get 0 r = (old &&& ~~~m) ||| (w &&& m)
            ∧ (∀ x, x ≠ r → (t.die d).cell.get 0 x = k.cell.get 0 x) ∧ { t.die d with cell := k.cell } = k ∧ (∀ x, x ≠ d → t.die x = s.die x)
            ∧ { t with dies := s.dies } = s ∧ SameMemory s t))
    ∧ ((s.isReady .cell d.val = false ∨ k.kvOn = false ∨ cask / 2 ^ 30 % 4 ≠ d.val ∨ s.walked cask = true) →
        ∀ tier fmt addr, ∀ i ∈ [Instr.fp8Step d cask, .cxlStep d cask, .absentStep d cask, .caskMove d cask tier fmt addr], exec i s = .next s)
    ∧ (∀ x e s1 ctl s2, movable d cask s = .ok ((x, e), s1) → classCtl d.val x.clsB s1 = .ok (ctl, s2) →
        let moved (tier fmt addr : Nat) : Desc := { x with
          addr := addr, tierB := tier + 4 * x.size, fmtB := fmt, stateB := x.stateB % 2 + x.stateB / 4 * 4, ver := (x.ver + 1) % 2 ^ 32 }
        (ctl % 2 ^ 16 = 0 ∨ x.tier ≠ 0 ∨ x.fmtB ≠ 1 → exec (.fp8Step d cask) s = .next s)
        ∧ (ctl % 2 ^ 16 ≠ 0 → x.tier = 0 → x.fmtB = 1 → ∀ bs s3 s4 s5, kvGet e.keyid x.addr (caskBytes x.size) s2 = .ok (bs, s3) →
            kvPut e.keyid x.addr (convertCask 1 3 e.dh e.rows bs) s3 = .ok ((), s4) → descPut (moved 0 3 x.addr) s4 = .ok ((), s5) →
            exec (.fp8Step d cask) s = .next s5
            ∧ ∀ y z, descGet cask 0 s5 = .ok (y, z) → y.tier = 0 → y.fmtB = 3 → y.addr = x.addr → exec (.caskMove d cask 0 3 x.addr) s = .next s5)
        ∧ (ctl / 2 ^ 16 % 2 ^ 16 = 0 ∨ x.tier ≠ 0 ∨ x.fmtB = 1 → exec (.cxlStep d cask) s = .next s)
        ∧ (ctl / 2 ^ 16 % 2 ^ 16 ≠ 0 → x.tier = 0 → x.fmtB ≠ 1 →
            (∀ s3, refilling d (3 + x.size) s2 = .ok (false, s3) → exec (.cxlStep d cask) s = .next s3)
            ∧ ∀ s3, refilling d (3 + x.size) s2 = .ok (true, s3) →
              (∀ t, coldestFirst d x.clsB (cxlWaits d x.size) s3 = .error t → exec (.cxlStep d cask) s = .next s)
              ∧ ∀ s4 bs s5, coldestFirst d x.clsB (cxlWaits d x.size) s3 = .ok ((), s4) → kvGet e.keyid x.addr (caskBytes x.size) s4 = .ok (bs, s5) →
                (ctl.testBit 33 = false ∨ (s5.die d).lendsTo = none →
                  (∀ s6, poolTake d.val (5 + x.size) s5 = .ok (none, s6) → exec (.cxlStep d cask) s = .next s)
                  ∧ ∀ a s6 s7 s8 s9 r, poolTake d.val (5 + x.size) s5 = .ok (some a, s6) → a ≠ x.addr →
                    kvPut e.keyid a (convertCask x.fmtB 6 e.dh e.rows bs) s6 = .ok ((), s7) → descPut (moved 2 6 a) s7 = .ok ((), s8) →
                    release none (cask / 2 ^ 30 % 4) none (.pool (cask / 2 ^ 30 % 4) (3 + x.size) x.addr) s8 = .ok ((), s9) →
                    refilling d (3 + x.size) s9 = .ok r → exec (.cxlStep d cask) s = .next r.2)
                ∧ (∀ a s6 r, ctl.testBit 33 = true → (s5.die d).lendsTo = some a → descPut { x with stateB := x.stateB ||| 2 } s5 = .ok ((), s6) →
                    let w := (s5.die d).agree0 a
                    refilling d (3 + x.size)
                      (s6.sendReq (256 + d.val) (agPeer w) 0 false (.lend (agPeerDie w) (x.size == 1) x.fmtB bs) (some cask)).2 = .ok r →
                    exec (.cxlStep d cask) s = .next r.2))
        ∧ (∀ w s3 free s4, cellOf d.val (0xA0 + 8 * (5 + x.size)) s2 = .ok (w, s3) → poolFree d.val (5 + x.size) s3 = .ok (free, s4) →
            (ctl.testBit 32 = false ∨ x.tier ≠ 2 ∨ w % 2 ^ 32 ≤ free → exec (.absentStep d cask) s = .next s)
            ∧ (ctl.testBit 32 = true → x.tier = 2 → free < w % 2 ^ 32 →
                (∀ t, coldestFirst d x.clsB (absWaits d x.size) s4 = .error t → exec (.absentStep d cask) s = .next s)
                ∧ ∀ s5 s6 s7, coldestFirst d x.clsB (absWaits d x.size) s4 = .ok ((), s5) →
                  descPut { x with addr := 0, tierB := 3 + 4 * x.size, stateB := x.stateB / 4 * 4, ver := (x.ver + 1) % 2 ^ 32 } s5 = .ok ((), s6) →
                  release none (cask / 2 ^ 30 % 4) none (.pool (cask / 2 ^ 30 % 4) (5 + x.size) x.addr) s6 = .ok ((), s7) →
                  exec (.absentStep d cask) s = .next s7)))
    ∧ (∀ a : Fin 8,
        let w := k.agree0 a.val
        let used := agUsed (k.agree1 a.val)
        let ends (z t : State) : Prop := (t.die d).cell.get 0 (0x100 + 16 * a.val) = (z.die d).cell.get 0 (0x100 + 16 * a.val) &&& 0x7FFFFFFFFFFFFFFF
          ∧ (∀ x, x ≠ 0x100 + 16 * a.val → (t.die d).cell.get 0 x = (z.die d).cell.get 0 x) ∧ { t with dies := z.dies } = z ∧ SameMemory z t
        (agValid w = false ∨ agLends w = false ∨ used ≤ agQuota w → exec (.recall d a) s = .next s)
        ∧ (agValid w = true → agLends w = true → agQuota w < used → ∃ t q, exec (.recall d a) s = .next t ∧ t.iod.outReqs = s.iod.outReqs ++ [q]
            ∧ q.req.dst = agPeer w ∧ q.req.body = .takeBack (agPeerDie w) (used - agQuota w) ∧ t.cores = s.cores ∧ t.dies = s.dies)
        ∧ (agValid w = false → exec (.agreementInvalidate d a) s = .next s)
        ∧ (agValid w = true → agLends w = true → ∃ t, exec (.agreementInvalidate d a) s = .next t ∧ ends s t)
        ∧ (agValid w = true → agLends w = false → ∀ z, loseLent d (agPeer w) (agPeerDie w) s = .ok ((), z) → ∃ t, exec (.agreementInvalidate d a) s = .next t ∧ ends z t))
    ∧ (∀ c, ∃ t, exec (.lenderTimeout c) s = .next t ∧ (∀ y, y ≠ c → t.core y = s.core y) ∧ SameMemory s t
        ∧ t.core c = { s.core c with kvRem := (s.core c).kvRem.map fun r => if r.data = none then { r with lost := true } else r })

/-! ## Errors, power and reset -/

/-- A scrub counts what it corrects and marks, poisons and logs what it cannot, and changes no other value; the clock steps within its
limits; at 110 °C the part stops; a package reset leaves the state of R432, with the ROM stage run on the flash image; Encore's modes start
from nothing captured (R432, R437, R440, R445 to R447, R460, R465; which memories a reset keeps is log 85). -/
def Obligations.Dependability : Prop :=
  ∀ (s : State) (c : Nat) (d : Fin 4) (mw temp : Word),
    let logged (t : State) (e : Fin 4) (cause kind unit addr : Nat) : Prop := (t.die e).mcHead = (s.die e).mcHead + 1
      ∧ t.iod.msix = s.iod.msix ++ [1] ∧ let x := (t.die e).mcLog.get [] ((s.die e).mcHead.toNat % 32)
        x.length = 32 ∧ fld x 0 1 = cause ∧ fld x 1 1 = kind ∧ fld x 2 2 = unit % 2 ^ 16 ∧ fld x 8 8 = addr % 2 ^ 64
    (∀ row ce, (∃ t, exec (.sramScrub c row ce false) s = .next t ∧ t.core c = (if ce then { s.core c with sramCe := (s.core c).sramCe + 1 } else s.core c)
          ∧ (∀ x, x ≠ c → t.core x = s.core x) ∧ { t with cores := s.cores } = s)
        ∧ ∃ t w, exec (.sramScrub c row ce true) s = .next t ∧ 16 * row ≤ w ∧ w < 16 * row + 16
          ∧ (∀ x, x ∈ (t.core c).ueWords ↔ x ∈ (s.core c).ueWords ∨ x = w) ∧ (t.core c).sramUe = (s.core c).sramUe + 1
          ∧ (t.core c).sramCe = (s.core c).sramCe + (if ce then 1 else 0) ∧ logged t (dieOf c) 0xF0 0 (c % 64) (8 * w) ∧ SameMemory s t)
    ∧ (∀ slice set, exec (.llcScrub d slice set none) s = .next s)
    ∧ (∀ slice set n l, ((s.die d).sets.get [] (slice * 12288 + set))[n]? = some l →
        (l.poison = true → exec (.llcScrub d slice set (some n)) s = .next s)
        ∧ (l.poison = false → ∃ t, exec (.llcScrub d slice set (some n)) s = .next t
            ∧ (∀ x, ((t.die d).sets.get [] (slice * 12288 + set))[x]?
                = if x = n then some { l with poison := true } else ((s.die d).sets.get [] (slice * 12288 + set))[x]?)
            ∧ (∀ y, y ≠ slice * 12288 + set → (t.die d).sets.get [] y = (s.die d).sets.get [] y) ∧ t.cores = s.cores ∧ t.dram = s.dram))
    ∧ (∀ a, exec (.hbmScrub a false) s = .next s ∧ (a < 2 ^ 39 → ∃ t, exec (.hbmScrub a true) s = .next t
        ∧ (∀ x, t.poisoned.get false x = if x = a / 128 then true else s.poisoned.get false x)
        ∧ logged t (homeOf (a / 128)) 0xF1 2 (a / 2 ^ 36) a ∧ t.dram = s.dram ∧ t.cores = s.cores))
    ∧ (∀ m, m = 1 ∨ m = 2 → ∃ t, exec (if m = 1 then .encoreCaptureStart else .encoreReplayStart) s = .next t ∧ t.iod.encMode = m ∧ t.iod.encHead = 0
        ∧ t.iod.encDiverge = false ∧ t.iod.encOvf = false ∧ t.iod.encBase = s.iod.encBase ∧ t.iod.encSize = s.iod.encSize
        ∧ { t with iod := s.iod } = s ∧ SameMemory s t)
    ∧ (∃ t, exec .encoreOff s = .next t ∧ t.iod.encMode = 0 ∧ { t with iod := { t.iod with encMode := s.iod.encMode } } = s ∧ SameMemory s t)
    ∧ (let i := s.iod
       let limit := (i.blob.map (·.power)).getD 2000
       let top := (i.blob.map fun b => Min.min 4000 b.clock).getD 4000
       let hot (deg : Int) : Prop := ∃ n < 4, 16 * deg < (temp.extractLsb' (16 * n) 16).toInt
       let limited := 1000 * limit < mw.toNat ∨ hot 100
       (∃ t, exec (.powerStepDown mw temp) s = .next t ∧ t.iod.pwrPkg = mw ∧ t.iod.temp = temp
          ∧ (limited → 1100 ≤ i.clkMhz → t.iod.clkMhz = i.clkMhz - 100 ∧ t.iod.thrEvents = i.thrEvents + 1)
          ∧ (¬ limited ∨ i.clkMhz < 1100 → t.iod.clkMhz = i.clkMhz ∧ t.iod.thrEvents = i.thrEvents) ∧ { t with iod := i } = s ∧ SameMemory s t)
       ∧ (∃ t, exec (.powerStepUp mw temp) s = .next t ∧ t.iod.pwrPkg = mw ∧ t.iod.temp = temp
          ∧ t.iod.clkMhz = (if ¬ limited ∧ i.clkMhz + 100 ≤ top then i.clkMhz + 100 else i.clkMhz)
          ∧ t.iod.thrEvents = i.thrEvents ∧ SameMemory s t)
       ∧ ((∃ n < 4, 16 * 110 ≤ (temp.extractLsb' (16 * n) 16).toInt) → ∃ t, exec (.thermalShutdown temp) s = .next t ∧ t.powered = false
          ∧ t.iod.ready = [] ∧ 1 ∈ t.iod.msix ∧ SameMemory s t)
       ∧ ((∀ n < 4, (temp.extractLsb' (16 * n) 16).toInt < 16 * 110) → exec (.thermalShutdown temp) s = .next s))
    ∧ (State.reset.iod.ready = [] ∧ State.reset.iod.hifReady = false ∧ State.reset.iod.mgmt.meas0 = List.replicate 48 0
        ∧ State.reset.iod.mgmt.bootStatus = 0 ∧ State.reset.iod.devnum = 0xFFF ∧ State.reset.iod.fabRetry = 2 ^ 20 ∧ State.reset.iod.clkMhz = 4000
        ∧ (∀ x, (State.reset.die x).drainMax = 2 ^ 20) ∧ State.reset.powered = true)
    ∧ (∃ t, exec .packageReset s = .next t ∧ t.powered = true ∧ t.iod.ready = [] ∧ t.iod.hifReady = false ∧ t.cores = [] ∧ t.nodes = [] ∧ t.jobs = []
        ∧ t.dies = Quad.all Die.zero ∧ t.dram = s.dram ∧ t.iod.mgmt.flash = s.iod.mgmt.flash ∧ t.iod.mgmt.entered = false
        ∧ t.iod.mgmt.pc = 0 ∧ t.iod.mgmt.machine = true
        ∧ (let f (o n : Nat) : List Byte := Memory.readList s.iod.mgmt.flash o n
           let body := le (f 8 4)
           let good := le (f 0 4) = 0x31574647 ∧ le (f 4 2) = 1 ∧ body % 16 = 0 ∧ body ≤ 0xFFF00 ∧ le (f 12 4) % 4 = 0 ∧ le (f 12 4) < body
           let digest := Crypto.sha384 (f 0 (body + 64))
           let valid := Crypto.ecdsaVerify digest (f (body + 64) 96) Config.romKey
           t.iod.mgmt.bootStatus = (if ¬ good then 1 else if valid then 0x80 else 2)
           ∧ t.iod.mgmt.meas0 = (if good ∧ valid = true then Crypto.sha384 (List.replicate 48 0 ++ digest) else List.replicate 48 0)
           ∧ t.iod.mgmt.entry = (if good ∧ valid = true then some (0x08000000 + le (f 12 4) + 64) else none)))

/-! ## Boot and attestation -/

/-- GO enters a verified image; a configuration blob is applied or refused whole; functions become ready, and stop, with an MSI-X message,
and the card of an engine that stops fails with detail 13;
the hash, signature and measurement blocks read at their start and give their result at their end; MEAS0 only grows by extension; the
mailbox answers one request at a time, measurements with MEAS0 (R336, R434, R437, R440 to R443; the fixed tables are log 34). -/
def Obligations.BootAndAttestation : Prop :=
  ∀ (s : State) (v : Word) (f : Func) (n : Nat) (req blob : List Byte),
    let m := s.iod.mgmt
    let meas := (List.range 48).map fun x => m.meas0.getD x 0
    let becomes (i : Instr) (x : Mgmt) : Prop := ∃ t, exec i s = .next t ∧ t.iod.mgmt = x ∧ { t.iod with mgmt := m } = s.iod
      ∧ { t with iod := s.iod, tick := s.tick } = s ∧ SameMemory s t
    let sends (i : Instr) (ty : Nat) (bs : List Byte) : Prop := ∃ t, exec i s = .next t ∧ t.iod.mgmt.sent = some (ty, bs) ∧ t.iod.mgmt.meas0 = m.meas0
      ∧ SameMemory s t
    let never := match s.iod.blob with | some b => b.never | none => []
    (m.bootStatus ≠ 0 → becomes .bootGo { m with
        go := true, entered := m.entered || m.entry.isSome,
        pc := match m.entry with | some a => if m.entered then m.pc else BitVec.ofNat 64 a | none => m.pc })
    ∧ (m.entered = false ∨ s.isReady .fw 0 = true → exec (.configBlobApply blob) s = .next s)
    ∧ (m.entered = true → s.isReady .fw 0 = false →
        let r := blobOk (Config.blobKey (Memory.readList m.sram 0 (m.imgField 8 4 + 160))) blob
        (r = none → becomes (.configBlobApply blob) { m with bootStatus := 0xC1 })
        ∧ ∀ es, r = some es → ∃ t, exec (.configBlobApply blob) s = .next t ∧ t.iod.mgmt = { m with bootStatus := 0xC0 } ∧ t.isReady .fw 0 = true
          ∧ t.iod.hifReady = true ∧ t.iod.msix = s.iod.msix ++ [2] ∧ t.iod.devnum = ((entryVal es 1).map le).getD 0xFFF
          ∧ (∀ d, ((t.die d).keys.find 0).isSome = true) ∧ t.cores = s.cores)
    ∧ (let may := f ≠ .fw ∧ n < (funcSpan f).1 ∧ s.isReady f n = false ∧ s.isReady .fw 0 = true ∧ (f, n) ∉ never
       (¬ may → exec (.functionReady f n) s = .next s)
       ∧ (may → ∃ t, exec (.functionReady f n) s = .next t ∧ t.isReady f n = true ∧ t.iod.msix = s.iod.msix ++ [2]
          ∧ (∀ g x, (g, x) ≠ (f, n) → t.isReady g x = s.isReady g x)
          ∧ ∀ x, t.core x = if f = .core ∧ x = n then Core.zero else s.core x))
    ∧ (s.isReady f n = false → exec (.readinessClear f n) s = .next s)
    ∧ (s.isReady f n = true → ∃ t, exec (.readinessClear f n) s = .next t ∧ t.isReady f n = false ∧ t.iod.msix = s.iod.msix ++ [2]
        ∧ (∀ g x, (g, x) ≠ (f, n) → t.isReady g x = s.isReady g x) ∧ { t with iod := s.iod, nodes := s.nodes } = s ∧ SameMemory s t
        ∧ (f ≠ .prom → f ≠ .narr → t.nodes = s.nodes)
        ∧ ∀ y k, (f = .prom ∨ f = .narr) → s.onEngine (if f = .prom then n else 8 + n) = some y → s.alone y → y.kind = .card k →
          ∃ z ∈ t.nodes, z.id = y.id ∧ z.kind = .card { k with out := some (k.out.getD (3, 13)) })
    ∧ (v.getLsbD 0 = false ∨ m.shaBusy = true → exec (.shaStart v) s = .next s)
    ∧ (v.getLsbD 0 = true → m.shaBusy = false →
        becomes (.shaStart v) { m with shaBusy := true, shaNext := Crypto.sha384 (s.mgmtRead m.shaSrc.toNat m.shaLen.toNat).1 })
    ∧ (m.shaBusy = false → exec .shaDone s = .next s)
    ∧ (m.shaBusy = true → becomes .shaDone { m with shaBusy := false, shaDig := m.shaNext, shaNext := [] })
    ∧ (m.eccBusy = true → exec (.eccStart v) s = .next s)
    ∧ (m.eccBusy = false → v.getLsbD 0 = false → becomes (.eccStart v) { m with eccSel := v.getLsbD 1 })
    ∧ (m.eccBusy = false → v.getLsbD 0 = true →
        let a := s.mgmtRead m.eccDig.toNat 48
        let b := a.2.mgmtRead m.eccSig.toNat 96
        let c := b.2.mgmtRead m.eccKey.toNat 96
        becomes (.eccStart v) { m with
          eccSel := v.getLsbD 1, eccBusy := true, eccNext := Crypto.ecdsaVerify a.1 b.1 (if v.getLsbD 1 then c.1 else Config.romKey) })
    ∧ (m.eccBusy = false → exec .eccDone s = .next s)
    ∧ (m.eccBusy = true → becomes .eccDone { m with eccBusy := false, eccValid := m.eccNext, eccNext := false })
    ∧ (v.getLsbD 0 = false ∨ m.measBusy = true → exec (.measExtend v) s = .next s)
    ∧ (v.getLsbD 0 = true → m.measBusy = false →
        becomes (.measExtend v) { m with measBusy := true, measNext := (s.mgmtRead m.measSrc.toNat 48).1 })
    ∧ (m.measBusy = false → exec .measDone s = .next s)
    ∧ (m.measBusy = true → becomes .measDone { m with
        measBusy := false, measNext := [], meas0 := Crypto.sha384 (m.meas0 ++ m.measNext), measCount := Min.min 255 (m.measCount + 1) })
    ∧ (m.req = none ∨ 512 < v.toNat % 1024 → exec (.mbxRsplen v) s = .next s)
    ∧ (m.req ≠ none → v.toNat % 1024 ≤ 512 →
        becomes (.mbxRsplen v) { m with sent := some (1, (List.range (v.toNat % 1024)).map fun i => m.rsp.getD i 0), req := none })
    ∧ (m.req ≠ none → ∀ i ∈ [Instr.doeDiscovery req, .getVersion req, .getCapabilities req, .negotiateAlgorithms req, .getMeasurements req,
        .spdmRequest req], exec i s = .next s)
    ∧ (m.req = none →
        sends (.doeDiscovery req) 0 (if fld req 0 1 = 0 then [1, 0, 0, 1] else if fld req 0 1 = 1 then [1, 0, 1, 0] else [0xFF, 0xFF, 0, 0])
        ∧ sends (.getVersion req) 1 [0x10, 0x04, 0, 0, 0, 1, 0, 0x13]
        ∧ (∃ a b, sends (.getCapabilities req) 1 ([0x13, 0x61, 0, 0, 0, a, 0, 0, 8, 0, 0, 0] ++ b) ∧ b.length = 8)
        ∧ (∃ a b c, sends (.negotiateAlgorithms req) 1 ([0x13, 0x63, 0, 0, 36, 0, 1, a, 4, 0, 0, 0] ++ b ++ List.replicate 11 0 ++ [c, 0, 0, 0, 0])
            ∧ b.length = 8)
        ∧ (fld req 1 1 ≠ 0xE0 → exec (.getMeasurements req) s = .next s)
        ∧ (fld req 1 1 ∈ [0x84, 0xE1, 0xE3, 0xE0] → exec (.spdmRequest req) s = .next s)
        ∧ (m.entered = true →
            (fld req 1 1 = 0xE0 → becomes (.getMeasurements req) { m with req := some (req.take 256) })
            ∧ (fld req 1 1 ∉ [0x84, 0xE1, 0xE3, 0xE0] → becomes (.spdmRequest req) { m with req := some (req.take 256) }))
        ∧ (m.entered = false → m.bootStatus ≠ 0 →
            let ok := req.length = 12 ∧ req.getD 0 0 = 0x13 ∧ req.getD 2 0 = 0
            (fld req 1 1 ∉ [0x84, 0xE1, 0xE3, 0xE0] → sends (.spdmRequest req) 1 [0x13, 0x7F, 7, req.getD 1 0])
            ∧ (fld req 1 1 = 0xE0 → (¬ ok ∨ req.getD 3 0 ∉ [0, 1, 0xFF] → sends (.getMeasurements req) 1 [0x13, 0x7F, 1, 0])
              ∧ (ok → req.getD 3 0 = 0 → ∃ r, r.length = 32 ∧ sends (.getMeasurements req) 1 ([0x13, 0x60, 1, 0, 0, 0, 0, 0] ++ r ++ [0, 0] ++ req.drop 4))
              ∧ (ok → (req.getD 3 0 = 1 ∨ req.getD 3 0 = 0xFF) → ∃ r, r.length = 32 ∧ sends (.getMeasurements req) 1
                  ([0x13, 0x60, 0, 0, 1, 0x37, 0, 0] ++ [1, 1, 0x33, 0, 1, 0x30, 0] ++ meas ++ r ++ [0, 0] ++ req.drop 4)))))
end

