-- ==== Sys2Proof/Laws/Word.lean ====
section
/-! SUPPORT. Laws of the four-fold record and of the sparse table. -/

namespace Sys2Proof

/-! ## Quad -/

@[simp] theorem Quad.get_all {α : Type} (a : α) (i : Fin 4) : (Quad.all a).get i = a := by
  match i with
  | 0 | 1 | 2 | 3 => rfl

@[simp] theorem Quad.get_set_same {α : Type} (q : Quad α) (i : Fin 4) (a : α) : (q.set i a).get i = a := by
  match i with
  | 0 | 1 | 2 | 3 => rfl

theorem Quad.get_set_ne {α : Type} (q : Quad α) (i j : Fin 4) (a : α) (h : j ≠ i) : (q.set i a).get j = q.get j := by
  match i, j with
  | 0, 0 | 1, 1 | 2, 2 | 3, 3 => exact absurd rfl h
  | 0, 1 | 0, 2 | 0, 3 | 1, 0 | 1, 2 | 1, 3 | 2, 0 | 2, 1 | 2, 3 | 3, 0 | 3, 1 | 3, 2 => rfl

@[simp] theorem Quad.set_get_same {α : Type} (q : Quad α) (i : Fin 4) : q.set i (q.get i) = q := by
  match i with
  | 0 | 1 | 2 | 3 => rfl

@[simp] theorem Quad.set_set_same {α : Type} (q : Quad α) (i : Fin 4) (a b : α) : (q.set i a).set i b = q.set i b := by
  match i with
  | 0 | 1 | 2 | 3 => rfl

theorem Quad.ext_get {α : Type} {p q : Quad α} (h : ∀ i, p.get i = q.get i) : p = q := by
  cases p
  cases q
  have h0 := h 0
  have h1 := h 1
  have h2 := h 2
  have h3 := h 3
  simp only [Quad.get] at h0 h1 h2 h3
  simp [h0, h1, h2, h3]

/-! ## Tab -/

@[simp] theorem Tab.find_nil {α : Type} (k : Nat) : Tab.find ([] : Tab α) k = none := rfl

@[simp] theorem Tab.find_put_same {α : Type} (t : Tab α) (k : Nat) (v : α) : (Tab.put t k v).find k = some v := by
  induction t with
  | nil => simp [Tab.put, Tab.find]
  | cons e t ih =>
    obtain ⟨k', v'⟩ := e
    unfold Tab.put
    split
    · simp [Tab.find]
    · split
      · simp [Tab.find]
      · have : ¬ k' = k := by omega
        simp [Tab.find, this, ih]

theorem Tab.find_put_ne {α : Type} (t : Tab α) (k j : Nat) (v : α) (h : j ≠ k) : (Tab.put t k v).find j = t.find j := by
  induction t with
  | nil => simp [Tab.put, Tab.find, Ne.symm h]
  | cons e t ih =>
    obtain ⟨k', v'⟩ := e
    unfold Tab.put
    split
    · simp [Tab.find, Ne.symm h]
    · split
      · rename_i hk
        subst hk
        simp [Tab.find, Ne.symm h]
      · simp only [Tab.find]
        split
        · rfl
        · exact ih

@[simp] theorem Tab.get_put_same {α : Type} (t : Tab α) (d v : α) (k : Nat) : (Tab.put t k v).get d k = v := by
  simp [Tab.get]

theorem Tab.get_put_ne {α : Type} (t : Tab α) (d v : α) (k j : Nat) (h : j ≠ k) : (Tab.put t k v).get d j = t.get d j := by
  simp [Tab.get, Tab.find_put_ne t k j v h]

theorem Tab.find_del_ne {α : Type} (t : Tab α) (k j : Nat) (h : j ≠ k) : (Tab.del t k).find j = t.find j := by
  induction t with
  | nil => rfl
  | cons e t ih =>
    obtain ⟨k', v'⟩ := e
    unfold Tab.del
    split
    · rename_i hk
      subst hk
      simp [Tab.find, Ne.symm h]
    · simp only [Tab.find]
      split
      · rfl
      · exact ih

theorem Tab.risesFrom_weaken {α : Type} (t : Tab α) (j k : Nat) (h : j ≤ k) (hr : t.risesFrom k) : t.risesFrom j := by
  cases t with
  | nil => rfl
  | cons e t =>
    simp only [Tab.risesFrom, Bool.and_eq_true, decide_eq_true_eq] at hr ⊢
    exact ⟨by omega, hr.2⟩

theorem Tab.find_risesFrom {α : Type} (t : Tab α) (k j : Nat) (hr : t.risesFrom k) (h : j ≤ k) : t.find j = none := by
  induction t generalizing k with
  | nil => rfl
  | cons e t ih =>
    simp only [Tab.risesFrom, Bool.and_eq_true, decide_eq_true_eq] at hr
    have : ¬ e.1 = j := by omega
    simp [Tab.find, this, ih e.1 hr.2 (by omega)]

theorem Tab.put_risesFrom {α : Type} (t : Tab α) (j k : Nat) (v : α) (h : j < k) (hr : t.risesFrom j) : (Tab.put t k v).risesFrom j := by
  induction t generalizing j with
  | nil => simp [Tab.put, Tab.risesFrom, h]
  | cons e t ih =>
    obtain ⟨k', v'⟩ := e
    simp only [Tab.risesFrom, Bool.and_eq_true, decide_eq_true_eq] at hr
    unfold Tab.put
    split
    · simp_all [Tab.risesFrom]
    · split
      · rename_i hk
        subst hk
        simp_all [Tab.risesFrom]
      · simp only [Tab.risesFrom, Bool.and_eq_true, decide_eq_true_eq]
        exact ⟨hr.1, ih k' (by omega) hr.2⟩

theorem Tab.put_rises {α : Type} (t : Tab α) (k : Nat) (v : α) (hr : t.rises) : (Tab.put t k v).rises := by
  cases t with
  | nil => rfl
  | cons e t =>
    obtain ⟨k', v'⟩ := e
    simp only [Tab.rises] at hr
    unfold Tab.put
    split
    · simp_all [Tab.rises, Tab.risesFrom]
    · split
      · rename_i hk
        subst hk
        simpa [Tab.rises] using hr
      · simp only [Tab.rises]
        exact Tab.put_risesFrom t k' k v (by omega) hr

theorem Tab.del_risesFrom {α : Type} (t : Tab α) (j k : Nat) (hr : t.risesFrom j) : (Tab.del t k).risesFrom j := by
  induction t generalizing j with
  | nil => rfl
  | cons e t ih =>
    obtain ⟨k', v'⟩ := e
    simp only [Tab.risesFrom, Bool.and_eq_true, decide_eq_true_eq] at hr
    unfold Tab.del
    split
    · exact Tab.risesFrom_weaken t j k' (by omega) hr.2
    · simp only [Tab.risesFrom, Bool.and_eq_true, decide_eq_true_eq]
      exact ⟨hr.1, ih k' hr.2⟩

theorem Tab.del_rises {α : Type} (t : Tab α) (k : Nat) (hr : t.rises) : (Tab.del t k).rises := by
  cases t with
  | nil => rfl
  | cons e t =>
    obtain ⟨k', v'⟩ := e
    simp only [Tab.rises] at hr
    unfold Tab.del
    split
    · cases t with
      | nil => rfl
      | cons e' t' =>
        simp only [Tab.risesFrom, Bool.and_eq_true] at hr
        exact hr.2
    · exact Tab.del_risesFrom t k' k hr

theorem Tab.find_del_same {α : Type} (t : Tab α) (k : Nat) (hr : t.rises) : (Tab.del t k).find k = none := by
  induction t with
  | nil => rfl
  | cons e t ih =>
    obtain ⟨k', v'⟩ := e
    simp only [Tab.rises] at hr
    unfold Tab.del
    split
    · rename_i hk
      subst hk
      exact Tab.find_risesFrom t k' k' hr (Nat.le_refl _)
    · rename_i hk
      have hr' : Tab.rises t := by
        cases t with
        | nil => rfl
        | cons e' t' =>
          simp only [Tab.risesFrom, Bool.and_eq_true] at hr
          exact hr.2
      simp [Tab.find, hk, ih hr']

theorem Tab.all_put {α : Type} (t : Tab α) (k : Nat) (v : α) (p : Nat × α → Bool) (hv : p (k, v)) (ht : t.all p) : (Tab.put t k v).all p := by
  induction t with
  | nil => simpa [Tab.put] using hv
  | cons e t ih =>
    obtain ⟨k', v'⟩ := e
    simp only [List.all_cons, Bool.and_eq_true] at ht
    unfold Tab.put
    split
    · simp [hv, ht]
    · split
      · simp [hv, ht]
      · simp [ht.1, ih ht.2]

theorem Tab.all_del {α : Type} (t : Tab α) (k : Nat) (p : Nat × α → Bool) (ht : t.all p) : (Tab.del t k).all p := by
  induction t with
  | nil => rfl
  | cons e t ih =>
    obtain ⟨k', v'⟩ := e
    simp only [List.all_cons, Bool.and_eq_true] at ht
    unfold Tab.del
    split
    · exact ht.2
    · simp [ht.1, ih ht.2]

/-- Writing keeps the canonical form. -/
theorem Tab.set_wf {α : Type} [DecidableEq α] (d : α) (t : Tab α) (k : Nat) (v : α) (h : t.wf d) : (Tab.set d t k v).wf d := by
  simp only [Tab.wf, Bool.and_eq_true] at h ⊢
  unfold Tab.set
  split
  · exact ⟨Tab.del_rises t k h.1, Tab.all_del t k _ h.2⟩
  · rename_i hv
    exact ⟨Tab.put_rises t k v h.1, Tab.all_put t k v _ (by simpa using hv) h.2⟩

/-- A read of what was just written in canonical form. -/
theorem Tab.get_set_same {α : Type} [DecidableEq α] (d : α) (t : Tab α) (k : Nat) (v : α) (h : t.wf d) : (Tab.set d t k v).get d k = v := by
  simp only [Tab.wf, Bool.and_eq_true] at h
  unfold Tab.set
  split
  · rename_i hv
    simp [Tab.get, Tab.find_del_same t k h.1, hv]
  · simp

/-- A write leaves every other key alone. -/
theorem Tab.get_set_ne {α : Type} [DecidableEq α] (d : α) (t : Tab α) (k j : Nat) (v : α) (h : j ≠ k) : (Tab.set d t k v).get d j = t.get d j := by
  unfold Tab.set
  split
  · simp [Tab.get, Tab.find_del_ne t k j h]
  · exact Tab.get_put_ne t d v k j h

/-- Writing twice in one place is writing the second value. -/
theorem Tab.put_put_same {α : Type} (t : Tab α) (k : Nat) (v w : α) : Tab.put (Tab.put t k v) k w = Tab.put t k w := by
  induction t with
  | nil => simp [Tab.put]
  | cons e t ih =>
    obtain ⟨k', v'⟩ := e
    by_cases h1 : k < k'
    · simp [Tab.put, h1]
    · by_cases h2 : k = k'
      · subst h2
        simp [Tab.put]
      · simp [Tab.put, h1, h2, ih]

end Sys2Proof
end

