-- ==== Sys2Proof/Laws/State.lean ====
section
/-! SUPPORT. What each update of the state leaves alone, and what its accessors read after it. -/

namespace Sys2Proof.Machine

/-! ## modCore -/

@[simp] theorem State.modCore_dies (s : State) (c : Nat) (f : Core → Core) : (s.modCore c f).dies = s.dies := rfl
@[simp] theorem State.modCore_iod (s : State) (c : Nat) (f : Core → Core) : (s.modCore c f).iod = s.iod := rfl
@[simp] theorem State.modCore_dram (s : State) (c : Nat) (f : Core → Core) : (s.modCore c f).dram = s.dram := rfl
@[simp] theorem State.modCore_lineKey (s : State) (c : Nat) (f : Core → Core) : (s.modCore c f).lineKey = s.lineKey := rfl
@[simp] theorem State.modCore_poisoned (s : State) (c : Nat) (f : Core → Core) : (s.modCore c f).poisoned = s.poisoned := rfl
@[simp] theorem State.modCore_gmeta (s : State) (c : Nat) (f : Core → Core) : (s.modCore c f).gmeta = s.gmeta := rfl
@[simp] theorem State.modCore_jobs (s : State) (c : Nat) (f : Core → Core) : (s.modCore c f).jobs = s.jobs := rfl
@[simp] theorem State.modCore_nodes (s : State) (c : Nat) (f : Core → Core) : (s.modCore c f).nodes = s.nodes := rfl
@[simp] theorem State.modCore_nodeNext (s : State) (c : Nat) (f : Core → Core) : (s.modCore c f).nodeNext = s.nodeNext := rfl
@[simp] theorem State.modCore_orderNext (s : State) (c : Nat) (f : Core → Core) : (s.modCore c f).orderNext = s.orderNext := rfl
@[simp] theorem State.modCore_endedNodes (s : State) (c : Nat) (f : Core → Core) : (s.modCore c f).endedNodes = s.endedNodes := rfl
@[simp] theorem State.modCore_graphs (s : State) (c : Nat) (f : Core → Core) : (s.modCore c f).graphs = s.graphs := rfl
@[simp] theorem State.modCore_phases (s : State) (c : Nat) (f : Core → Core) : (s.modCore c f).phases = s.phases := rfl
@[simp] theorem State.modCore_cancelledGraphs (s : State) (c : Nat) (f : Core → Core) : (s.modCore c f).cancelledGraphs = s.cancelledGraphs := rfl
@[simp] theorem State.modCore_cancelledPhases (s : State) (c : Nat) (f : Core → Core) : (s.modCore c f).cancelledPhases = s.cancelledPhases := rfl
@[simp] theorem State.modCore_seqs (s : State) (c : Nat) (f : Core → Core) : (s.modCore c f).seqs = s.seqs := rfl
@[simp] theorem State.modCore_scTicket (s : State) (c : Nat) (f : Core → Core) : (s.modCore c f).scTicket = s.scTicket := rfl
@[simp] theorem State.modCore_scSet (s : State) (c : Nat) (f : Core → Core) : (s.modCore c f).scSet = s.scSet := rfl
@[simp] theorem State.modCore_widNext (s : State) (c : Nat) (f : Core → Core) : (s.modCore c f).widNext = s.widNext := rfl
@[simp] theorem State.modCore_iss (s : State) (c : Nat) (f : Core → Core) : (s.modCore c f).iss = s.iss := rfl
@[simp] theorem State.modCore_agenda (s : State) (c : Nat) (f : Core → Core) : (s.modCore c f).agenda = s.agenda := rfl
@[simp] theorem State.modCore_tick (s : State) (c : Nat) (f : Core → Core) : (s.modCore c f).tick = s.tick := rfl
@[simp] theorem State.modCore_powered (s : State) (c : Nat) (f : Core → Core) : (s.modCore c f).powered = s.powered := rfl

/-! ## modStrand -/

@[simp] theorem State.modStrand_dies (s : State) (c : Nat) (t : Fin 4) (f : Strand → Strand) : (s.modStrand c t f).dies = s.dies := rfl
@[simp] theorem State.modStrand_iod (s : State) (c : Nat) (t : Fin 4) (f : Strand → Strand) : (s.modStrand c t f).iod = s.iod := rfl
@[simp] theorem State.modStrand_dram (s : State) (c : Nat) (t : Fin 4) (f : Strand → Strand) : (s.modStrand c t f).dram = s.dram := rfl
@[simp] theorem State.modStrand_lineKey (s : State) (c : Nat) (t : Fin 4) (f : Strand → Strand) : (s.modStrand c t f).lineKey = s.lineKey := rfl
@[simp] theorem State.modStrand_poisoned (s : State) (c : Nat) (t : Fin 4) (f : Strand → Strand) : (s.modStrand c t f).poisoned = s.poisoned := rfl
@[simp] theorem State.modStrand_gmeta (s : State) (c : Nat) (t : Fin 4) (f : Strand → Strand) : (s.modStrand c t f).gmeta = s.gmeta := rfl
@[simp] theorem State.modStrand_jobs (s : State) (c : Nat) (t : Fin 4) (f : Strand → Strand) : (s.modStrand c t f).jobs = s.jobs := rfl
@[simp] theorem State.modStrand_nodes (s : State) (c : Nat) (t : Fin 4) (f : Strand → Strand) : (s.modStrand c t f).nodes = s.nodes := rfl
@[simp] theorem State.modStrand_nodeNext (s : State) (c : Nat) (t : Fin 4) (f : Strand → Strand) : (s.modStrand c t f).nodeNext = s.nodeNext := rfl
@[simp] theorem State.modStrand_orderNext (s : State) (c : Nat) (t : Fin 4) (f : Strand → Strand) : (s.modStrand c t f).orderNext = s.orderNext := rfl
@[simp] theorem State.modStrand_endedNodes (s : State) (c : Nat) (t : Fin 4) (f : Strand → Strand) : (s.modStrand c t f).endedNodes = s.endedNodes := rfl
@[simp] theorem State.modStrand_graphs (s : State) (c : Nat) (t : Fin 4) (f : Strand → Strand) : (s.modStrand c t f).graphs = s.graphs := rfl
@[simp] theorem State.modStrand_phases (s : State) (c : Nat) (t : Fin 4) (f : Strand → Strand) : (s.modStrand c t f).phases = s.phases := rfl
@[simp] theorem State.modStrand_cancelledGraphs (s : State) (c : Nat) (t : Fin 4) (f : Strand → Strand) : (s.modStrand c t f).cancelledGraphs = s.cancelledGraphs := rfl
@[simp] theorem State.modStrand_cancelledPhases (s : State) (c : Nat) (t : Fin 4) (f : Strand → Strand) : (s.modStrand c t f).cancelledPhases = s.cancelledPhases := rfl
@[simp] theorem State.modStrand_seqs (s : State) (c : Nat) (t : Fin 4) (f : Strand → Strand) : (s.modStrand c t f).seqs = s.seqs := rfl
@[simp] theorem State.modStrand_scTicket (s : State) (c : Nat) (t : Fin 4) (f : Strand → Strand) : (s.modStrand c t f).scTicket = s.scTicket := rfl
@[simp] theorem State.modStrand_scSet (s : State) (c : Nat) (t : Fin 4) (f : Strand → Strand) : (s.modStrand c t f).scSet = s.scSet := rfl
@[simp] theorem State.modStrand_widNext (s : State) (c : Nat) (t : Fin 4) (f : Strand → Strand) : (s.modStrand c t f).widNext = s.widNext := rfl
@[simp] theorem State.modStrand_iss (s : State) (c : Nat) (t : Fin 4) (f : Strand → Strand) : (s.modStrand c t f).iss = s.iss := rfl
@[simp] theorem State.modStrand_agenda (s : State) (c : Nat) (t : Fin 4) (f : Strand → Strand) : (s.modStrand c t f).agenda = s.agenda := rfl
@[simp] theorem State.modStrand_tick (s : State) (c : Nat) (t : Fin 4) (f : Strand → Strand) : (s.modStrand c t f).tick = s.tick := rfl
@[simp] theorem State.modStrand_powered (s : State) (c : Nat) (t : Fin 4) (f : Strand → Strand) : (s.modStrand c t f).powered = s.powered := rfl

/-! ## modEngine -/

@[simp] theorem State.modEngine_dies (s : State) (c : Nat) (e : Eng) (f : Engine → Engine) : (s.modEngine c e f).dies = s.dies := rfl
@[simp] theorem State.modEngine_iod (s : State) (c : Nat) (e : Eng) (f : Engine → Engine) : (s.modEngine c e f).iod = s.iod := rfl
@[simp] theorem State.modEngine_dram (s : State) (c : Nat) (e : Eng) (f : Engine → Engine) : (s.modEngine c e f).dram = s.dram := rfl
@[simp] theorem State.modEngine_lineKey (s : State) (c : Nat) (e : Eng) (f : Engine → Engine) : (s.modEngine c e f).lineKey = s.lineKey := rfl
@[simp] theorem State.modEngine_poisoned (s : State) (c : Nat) (e : Eng) (f : Engine → Engine) : (s.modEngine c e f).poisoned = s.poisoned := rfl
@[simp] theorem State.modEngine_gmeta (s : State) (c : Nat) (e : Eng) (f : Engine → Engine) : (s.modEngine c e f).gmeta = s.gmeta := rfl
@[simp] theorem State.modEngine_jobs (s : State) (c : Nat) (e : Eng) (f : Engine → Engine) : (s.modEngine c e f).jobs = s.jobs := rfl
@[simp] theorem State.modEngine_nodes (s : State) (c : Nat) (e : Eng) (f : Engine → Engine) : (s.modEngine c e f).nodes = s.nodes := rfl
@[simp] theorem State.modEngine_nodeNext (s : State) (c : Nat) (e : Eng) (f : Engine → Engine) : (s.modEngine c e f).nodeNext = s.nodeNext := rfl
@[simp] theorem State.modEngine_orderNext (s : State) (c : Nat) (e : Eng) (f : Engine → Engine) : (s.modEngine c e f).orderNext = s.orderNext := rfl
@[simp] theorem State.modEngine_endedNodes (s : State) (c : Nat) (e : Eng) (f : Engine → Engine) : (s.modEngine c e f).endedNodes = s.endedNodes := rfl
@[simp] theorem State.modEngine_graphs (s : State) (c : Nat) (e : Eng) (f : Engine → Engine) : (s.modEngine c e f).graphs = s.graphs := rfl
@[simp] theorem State.modEngine_phases (s : State) (c : Nat) (e : Eng) (f : Engine → Engine) : (s.modEngine c e f).phases = s.phases := rfl
@[simp] theorem State.modEngine_cancelledGraphs (s : State) (c : Nat) (e : Eng) (f : Engine → Engine) : (s.modEngine c e f).cancelledGraphs = s.cancelledGraphs := rfl
@[simp] theorem State.modEngine_cancelledPhases (s : State) (c : Nat) (e : Eng) (f : Engine → Engine) : (s.modEngine c e f).cancelledPhases = s.cancelledPhases := rfl
@[simp] theorem State.modEngine_seqs (s : State) (c : Nat) (e : Eng) (f : Engine → Engine) : (s.modEngine c e f).seqs = s.seqs := rfl
@[simp] theorem State.modEngine_scTicket (s : State) (c : Nat) (e : Eng) (f : Engine → Engine) : (s.modEngine c e f).scTicket = s.scTicket := rfl
@[simp] theorem State.modEngine_scSet (s : State) (c : Nat) (e : Eng) (f : Engine → Engine) : (s.modEngine c e f).scSet = s.scSet := rfl
@[simp] theorem State.modEngine_widNext (s : State) (c : Nat) (e : Eng) (f : Engine → Engine) : (s.modEngine c e f).widNext = s.widNext := rfl
@[simp] theorem State.modEngine_iss (s : State) (c : Nat) (e : Eng) (f : Engine → Engine) : (s.modEngine c e f).iss = s.iss := rfl
@[simp] theorem State.modEngine_agenda (s : State) (c : Nat) (e : Eng) (f : Engine → Engine) : (s.modEngine c e f).agenda = s.agenda := rfl
@[simp] theorem State.modEngine_tick (s : State) (c : Nat) (e : Eng) (f : Engine → Engine) : (s.modEngine c e f).tick = s.tick := rfl
@[simp] theorem State.modEngine_powered (s : State) (c : Nat) (e : Eng) (f : Engine → Engine) : (s.modEngine c e f).powered = s.powered := rfl

/-! ## modMe -/

@[simp] theorem State.modMe_dies (s : State) (f : Core → Core) : (s.modMe f).dies = s.dies := rfl
@[simp] theorem State.modMe_iod (s : State) (f : Core → Core) : (s.modMe f).iod = s.iod := rfl
@[simp] theorem State.modMe_dram (s : State) (f : Core → Core) : (s.modMe f).dram = s.dram := rfl
@[simp] theorem State.modMe_lineKey (s : State) (f : Core → Core) : (s.modMe f).lineKey = s.lineKey := rfl
@[simp] theorem State.modMe_poisoned (s : State) (f : Core → Core) : (s.modMe f).poisoned = s.poisoned := rfl
@[simp] theorem State.modMe_gmeta (s : State) (f : Core → Core) : (s.modMe f).gmeta = s.gmeta := rfl
@[simp] theorem State.modMe_jobs (s : State) (f : Core → Core) : (s.modMe f).jobs = s.jobs := rfl
@[simp] theorem State.modMe_nodes (s : State) (f : Core → Core) : (s.modMe f).nodes = s.nodes := rfl
@[simp] theorem State.modMe_nodeNext (s : State) (f : Core → Core) : (s.modMe f).nodeNext = s.nodeNext := rfl
@[simp] theorem State.modMe_orderNext (s : State) (f : Core → Core) : (s.modMe f).orderNext = s.orderNext := rfl
@[simp] theorem State.modMe_endedNodes (s : State) (f : Core → Core) : (s.modMe f).endedNodes = s.endedNodes := rfl
@[simp] theorem State.modMe_graphs (s : State) (f : Core → Core) : (s.modMe f).graphs = s.graphs := rfl
@[simp] theorem State.modMe_phases (s : State) (f : Core → Core) : (s.modMe f).phases = s.phases := rfl
@[simp] theorem State.modMe_cancelledGraphs (s : State) (f : Core → Core) : (s.modMe f).cancelledGraphs = s.cancelledGraphs := rfl
@[simp] theorem State.modMe_cancelledPhases (s : State) (f : Core → Core) : (s.modMe f).cancelledPhases = s.cancelledPhases := rfl
@[simp] theorem State.modMe_seqs (s : State) (f : Core → Core) : (s.modMe f).seqs = s.seqs := rfl
@[simp] theorem State.modMe_scTicket (s : State) (f : Core → Core) : (s.modMe f).scTicket = s.scTicket := rfl
@[simp] theorem State.modMe_scSet (s : State) (f : Core → Core) : (s.modMe f).scSet = s.scSet := rfl
@[simp] theorem State.modMe_widNext (s : State) (f : Core → Core) : (s.modMe f).widNext = s.widNext := rfl
@[simp] theorem State.modMe_iss (s : State) (f : Core → Core) : (s.modMe f).iss = s.iss := rfl
@[simp] theorem State.modMe_agenda (s : State) (f : Core → Core) : (s.modMe f).agenda = s.agenda := rfl
@[simp] theorem State.modMe_tick (s : State) (f : Core → Core) : (s.modMe f).tick = s.tick := rfl
@[simp] theorem State.modMe_powered (s : State) (f : Core → Core) : (s.modMe f).powered = s.powered := rfl

/-! ## modStr -/

@[simp] theorem State.modStr_dies (s : State) (f : Strand → Strand) : (s.modStr f).dies = s.dies := rfl
@[simp] theorem State.modStr_iod (s : State) (f : Strand → Strand) : (s.modStr f).iod = s.iod := rfl
@[simp] theorem State.modStr_dram (s : State) (f : Strand → Strand) : (s.modStr f).dram = s.dram := rfl
@[simp] theorem State.modStr_lineKey (s : State) (f : Strand → Strand) : (s.modStr f).lineKey = s.lineKey := rfl
@[simp] theorem State.modStr_poisoned (s : State) (f : Strand → Strand) : (s.modStr f).poisoned = s.poisoned := rfl
@[simp] theorem State.modStr_gmeta (s : State) (f : Strand → Strand) : (s.modStr f).gmeta = s.gmeta := rfl
@[simp] theorem State.modStr_jobs (s : State) (f : Strand → Strand) : (s.modStr f).jobs = s.jobs := rfl
@[simp] theorem State.modStr_nodes (s : State) (f : Strand → Strand) : (s.modStr f).nodes = s.nodes := rfl
@[simp] theorem State.modStr_nodeNext (s : State) (f : Strand → Strand) : (s.modStr f).nodeNext = s.nodeNext := rfl
@[simp] theorem State.modStr_orderNext (s : State) (f : Strand → Strand) : (s.modStr f).orderNext = s.orderNext := rfl
@[simp] theorem State.modStr_endedNodes (s : State) (f : Strand → Strand) : (s.modStr f).endedNodes = s.endedNodes := rfl
@[simp] theorem State.modStr_graphs (s : State) (f : Strand → Strand) : (s.modStr f).graphs = s.graphs := rfl
@[simp] theorem State.modStr_phases (s : State) (f : Strand → Strand) : (s.modStr f).phases = s.phases := rfl
@[simp] theorem State.modStr_cancelledGraphs (s : State) (f : Strand → Strand) : (s.modStr f).cancelledGraphs = s.cancelledGraphs := rfl
@[simp] theorem State.modStr_cancelledPhases (s : State) (f : Strand → Strand) : (s.modStr f).cancelledPhases = s.cancelledPhases := rfl
@[simp] theorem State.modStr_seqs (s : State) (f : Strand → Strand) : (s.modStr f).seqs = s.seqs := rfl
@[simp] theorem State.modStr_scTicket (s : State) (f : Strand → Strand) : (s.modStr f).scTicket = s.scTicket := rfl
@[simp] theorem State.modStr_scSet (s : State) (f : Strand → Strand) : (s.modStr f).scSet = s.scSet := rfl
@[simp] theorem State.modStr_widNext (s : State) (f : Strand → Strand) : (s.modStr f).widNext = s.widNext := rfl
@[simp] theorem State.modStr_iss (s : State) (f : Strand → Strand) : (s.modStr f).iss = s.iss := rfl
@[simp] theorem State.modStr_agenda (s : State) (f : Strand → Strand) : (s.modStr f).agenda = s.agenda := rfl
@[simp] theorem State.modStr_tick (s : State) (f : Strand → Strand) : (s.modStr f).tick = s.tick := rfl
@[simp] theorem State.modStr_powered (s : State) (f : Strand → Strand) : (s.modStr f).powered = s.powered := rfl

/-! ## fixed -/

@[simp] theorem State.fixed_dies (s : State) (l : Nat) (d : Dst) (v : Word) (g : BitVec 9) : (s.fixed l d v g).dies = s.dies := rfl
@[simp] theorem State.fixed_iod (s : State) (l : Nat) (d : Dst) (v : Word) (g : BitVec 9) : (s.fixed l d v g).iod = s.iod := rfl
@[simp] theorem State.fixed_dram (s : State) (l : Nat) (d : Dst) (v : Word) (g : BitVec 9) : (s.fixed l d v g).dram = s.dram := rfl
@[simp] theorem State.fixed_lineKey (s : State) (l : Nat) (d : Dst) (v : Word) (g : BitVec 9) : (s.fixed l d v g).lineKey = s.lineKey := rfl
@[simp] theorem State.fixed_poisoned (s : State) (l : Nat) (d : Dst) (v : Word) (g : BitVec 9) : (s.fixed l d v g).poisoned = s.poisoned := rfl
@[simp] theorem State.fixed_gmeta (s : State) (l : Nat) (d : Dst) (v : Word) (g : BitVec 9) : (s.fixed l d v g).gmeta = s.gmeta := rfl
@[simp] theorem State.fixed_jobs (s : State) (l : Nat) (d : Dst) (v : Word) (g : BitVec 9) : (s.fixed l d v g).jobs = s.jobs := rfl
@[simp] theorem State.fixed_nodes (s : State) (l : Nat) (d : Dst) (v : Word) (g : BitVec 9) : (s.fixed l d v g).nodes = s.nodes := rfl
@[simp] theorem State.fixed_nodeNext (s : State) (l : Nat) (d : Dst) (v : Word) (g : BitVec 9) : (s.fixed l d v g).nodeNext = s.nodeNext := rfl
@[simp] theorem State.fixed_orderNext (s : State) (l : Nat) (d : Dst) (v : Word) (g : BitVec 9) : (s.fixed l d v g).orderNext = s.orderNext := rfl
@[simp] theorem State.fixed_endedNodes (s : State) (l : Nat) (d : Dst) (v : Word) (g : BitVec 9) : (s.fixed l d v g).endedNodes = s.endedNodes := rfl
@[simp] theorem State.fixed_graphs (s : State) (l : Nat) (d : Dst) (v : Word) (g : BitVec 9) : (s.fixed l d v g).graphs = s.graphs := rfl
@[simp] theorem State.fixed_phases (s : State) (l : Nat) (d : Dst) (v : Word) (g : BitVec 9) : (s.fixed l d v g).phases = s.phases := rfl
@[simp] theorem State.fixed_cancelledGraphs (s : State) (l : Nat) (d : Dst) (v : Word) (g : BitVec 9) : (s.fixed l d v g).cancelledGraphs = s.cancelledGraphs := rfl
@[simp] theorem State.fixed_cancelledPhases (s : State) (l : Nat) (d : Dst) (v : Word) (g : BitVec 9) : (s.fixed l d v g).cancelledPhases = s.cancelledPhases := rfl
@[simp] theorem State.fixed_seqs (s : State) (l : Nat) (d : Dst) (v : Word) (g : BitVec 9) : (s.fixed l d v g).seqs = s.seqs := rfl
@[simp] theorem State.fixed_scTicket (s : State) (l : Nat) (d : Dst) (v : Word) (g : BitVec 9) : (s.fixed l d v g).scTicket = s.scTicket := rfl
@[simp] theorem State.fixed_scSet (s : State) (l : Nat) (d : Dst) (v : Word) (g : BitVec 9) : (s.fixed l d v g).scSet = s.scSet := rfl
@[simp] theorem State.fixed_widNext (s : State) (l : Nat) (d : Dst) (v : Word) (g : BitVec 9) : (s.fixed l d v g).widNext = s.widNext := rfl
@[simp] theorem State.fixed_iss (s : State) (l : Nat) (d : Dst) (v : Word) (g : BitVec 9) : (s.fixed l d v g).iss = s.iss := rfl
@[simp] theorem State.fixed_agenda (s : State) (l : Nat) (d : Dst) (v : Word) (g : BitVec 9) : (s.fixed l d v g).agenda = s.agenda := rfl
@[simp] theorem State.fixed_tick (s : State) (l : Nat) (d : Dst) (v : Word) (g : BitVec 9) : (s.fixed l d v g).tick = s.tick := rfl
@[simp] theorem State.fixed_powered (s : State) (l : Nat) (d : Dst) (v : Word) (g : BitVec 9) : (s.fixed l d v g).powered = s.powered := rfl

/-! ## scoreboard -/

@[simp] theorem State.scoreboard_dies (s : State) (ds : List Reg) (vs : List Word) (g : BitVec 9) (w : SbWork) : (s.scoreboard ds vs g w).dies = s.dies := rfl
@[simp] theorem State.scoreboard_iod (s : State) (ds : List Reg) (vs : List Word) (g : BitVec 9) (w : SbWork) : (s.scoreboard ds vs g w).iod = s.iod := rfl
@[simp] theorem State.scoreboard_dram (s : State) (ds : List Reg) (vs : List Word) (g : BitVec 9) (w : SbWork) : (s.scoreboard ds vs g w).dram = s.dram := rfl
@[simp] theorem State.scoreboard_lineKey (s : State) (ds : List Reg) (vs : List Word) (g : BitVec 9) (w : SbWork) : (s.scoreboard ds vs g w).lineKey = s.lineKey := rfl
@[simp] theorem State.scoreboard_poisoned (s : State) (ds : List Reg) (vs : List Word) (g : BitVec 9) (w : SbWork) : (s.scoreboard ds vs g w).poisoned = s.poisoned := rfl
@[simp] theorem State.scoreboard_gmeta (s : State) (ds : List Reg) (vs : List Word) (g : BitVec 9) (w : SbWork) : (s.scoreboard ds vs g w).gmeta = s.gmeta := rfl
@[simp] theorem State.scoreboard_jobs (s : State) (ds : List Reg) (vs : List Word) (g : BitVec 9) (w : SbWork) : (s.scoreboard ds vs g w).jobs = s.jobs := rfl
@[simp] theorem State.scoreboard_nodes (s : State) (ds : List Reg) (vs : List Word) (g : BitVec 9) (w : SbWork) : (s.scoreboard ds vs g w).nodes = s.nodes := rfl
@[simp] theorem State.scoreboard_nodeNext (s : State) (ds : List Reg) (vs : List Word) (g : BitVec 9) (w : SbWork) : (s.scoreboard ds vs g w).nodeNext = s.nodeNext := rfl
@[simp] theorem State.scoreboard_orderNext (s : State) (ds : List Reg) (vs : List Word) (g : BitVec 9) (w : SbWork) : (s.scoreboard ds vs g w).orderNext = s.orderNext := rfl
@[simp] theorem State.scoreboard_endedNodes (s : State) (ds : List Reg) (vs : List Word) (g : BitVec 9) (w : SbWork) : (s.scoreboard ds vs g w).endedNodes = s.endedNodes := rfl
@[simp] theorem State.scoreboard_graphs (s : State) (ds : List Reg) (vs : List Word) (g : BitVec 9) (w : SbWork) : (s.scoreboard ds vs g w).graphs = s.graphs := rfl
@[simp] theorem State.scoreboard_phases (s : State) (ds : List Reg) (vs : List Word) (g : BitVec 9) (w : SbWork) : (s.scoreboard ds vs g w).phases = s.phases := rfl
@[simp] theorem State.scoreboard_cancelledGraphs (s : State) (ds : List Reg) (vs : List Word) (g : BitVec 9) (w : SbWork) : (s.scoreboard ds vs g w).cancelledGraphs = s.cancelledGraphs := rfl
@[simp] theorem State.scoreboard_cancelledPhases (s : State) (ds : List Reg) (vs : List Word) (g : BitVec 9) (w : SbWork) : (s.scoreboard ds vs g w).cancelledPhases = s.cancelledPhases := rfl
@[simp] theorem State.scoreboard_seqs (s : State) (ds : List Reg) (vs : List Word) (g : BitVec 9) (w : SbWork) : (s.scoreboard ds vs g w).seqs = s.seqs := rfl
@[simp] theorem State.scoreboard_scTicket (s : State) (ds : List Reg) (vs : List Word) (g : BitVec 9) (w : SbWork) : (s.scoreboard ds vs g w).scTicket = s.scTicket := rfl
@[simp] theorem State.scoreboard_scSet (s : State) (ds : List Reg) (vs : List Word) (g : BitVec 9) (w : SbWork) : (s.scoreboard ds vs g w).scSet = s.scSet := rfl
@[simp] theorem State.scoreboard_widNext (s : State) (ds : List Reg) (vs : List Word) (g : BitVec 9) (w : SbWork) : (s.scoreboard ds vs g w).widNext = s.widNext := rfl
@[simp] theorem State.scoreboard_iss (s : State) (ds : List Reg) (vs : List Word) (g : BitVec 9) (w : SbWork) : (s.scoreboard ds vs g w).iss = s.iss := rfl
@[simp] theorem State.scoreboard_agenda (s : State) (ds : List Reg) (vs : List Word) (g : BitVec 9) (w : SbWork) : (s.scoreboard ds vs g w).agenda = s.agenda := rfl
@[simp] theorem State.scoreboard_tick (s : State) (ds : List Reg) (vs : List Word) (g : BitVec 9) (w : SbWork) : (s.scoreboard ds vs g w).tick = s.tick := rfl
@[simp] theorem State.scoreboard_powered (s : State) (ds : List Reg) (vs : List Word) (g : BitVec 9) (w : SbWork) : (s.scoreboard ds vs g w).powered = s.powered := rfl

/-! ## append -/

@[simp] theorem State.append_dies (s : State) (c : Nat) (e : Eng) (x : Cmd) : (s.append c e x).dies = s.dies := rfl
@[simp] theorem State.append_iod (s : State) (c : Nat) (e : Eng) (x : Cmd) : (s.append c e x).iod = s.iod := rfl
@[simp] theorem State.append_dram (s : State) (c : Nat) (e : Eng) (x : Cmd) : (s.append c e x).dram = s.dram := rfl
@[simp] theorem State.append_lineKey (s : State) (c : Nat) (e : Eng) (x : Cmd) : (s.append c e x).lineKey = s.lineKey := rfl
@[simp] theorem State.append_poisoned (s : State) (c : Nat) (e : Eng) (x : Cmd) : (s.append c e x).poisoned = s.poisoned := rfl
@[simp] theorem State.append_gmeta (s : State) (c : Nat) (e : Eng) (x : Cmd) : (s.append c e x).gmeta = s.gmeta := rfl
@[simp] theorem State.append_jobs (s : State) (c : Nat) (e : Eng) (x : Cmd) : (s.append c e x).jobs = s.jobs := rfl
@[simp] theorem State.append_nodes (s : State) (c : Nat) (e : Eng) (x : Cmd) : (s.append c e x).nodes = s.nodes := rfl
@[simp] theorem State.append_nodeNext (s : State) (c : Nat) (e : Eng) (x : Cmd) : (s.append c e x).nodeNext = s.nodeNext := rfl
@[simp] theorem State.append_orderNext (s : State) (c : Nat) (e : Eng) (x : Cmd) : (s.append c e x).orderNext = s.orderNext := rfl
@[simp] theorem State.append_endedNodes (s : State) (c : Nat) (e : Eng) (x : Cmd) : (s.append c e x).endedNodes = s.endedNodes := rfl
@[simp] theorem State.append_graphs (s : State) (c : Nat) (e : Eng) (x : Cmd) : (s.append c e x).graphs = s.graphs := rfl
@[simp] theorem State.append_phases (s : State) (c : Nat) (e : Eng) (x : Cmd) : (s.append c e x).phases = s.phases := rfl
@[simp] theorem State.append_cancelledGraphs (s : State) (c : Nat) (e : Eng) (x : Cmd) : (s.append c e x).cancelledGraphs = s.cancelledGraphs := rfl
@[simp] theorem State.append_cancelledPhases (s : State) (c : Nat) (e : Eng) (x : Cmd) : (s.append c e x).cancelledPhases = s.cancelledPhases := rfl
@[simp] theorem State.append_seqs (s : State) (c : Nat) (e : Eng) (x : Cmd) : (s.append c e x).seqs = s.seqs := rfl
@[simp] theorem State.append_scTicket (s : State) (c : Nat) (e : Eng) (x : Cmd) : (s.append c e x).scTicket = s.scTicket := rfl
@[simp] theorem State.append_scSet (s : State) (c : Nat) (e : Eng) (x : Cmd) : (s.append c e x).scSet = s.scSet := rfl
@[simp] theorem State.append_widNext (s : State) (c : Nat) (e : Eng) (x : Cmd) : (s.append c e x).widNext = s.widNext := rfl
@[simp] theorem State.append_iss (s : State) (c : Nat) (e : Eng) (x : Cmd) : (s.append c e x).iss = s.iss := rfl
@[simp] theorem State.append_agenda (s : State) (c : Nat) (e : Eng) (x : Cmd) : (s.append c e x).agenda = s.agenda := rfl
@[simp] theorem State.append_tick (s : State) (c : Nat) (e : Eng) (x : Cmd) : (s.append c e x).tick = s.tick := rfl
@[simp] theorem State.append_powered (s : State) (c : Nat) (e : Eng) (x : Cmd) : (s.append c e x).powered = s.powered := rfl

/-! ## modDie -/

@[simp] theorem State.modDie_cores (s : State) (d : Fin 4) (f : Die → Die) : (s.modDie d f).cores = s.cores := rfl
@[simp] theorem State.modDie_iod (s : State) (d : Fin 4) (f : Die → Die) : (s.modDie d f).iod = s.iod := rfl
@[simp] theorem State.modDie_dram (s : State) (d : Fin 4) (f : Die → Die) : (s.modDie d f).dram = s.dram := rfl
@[simp] theorem State.modDie_lineKey (s : State) (d : Fin 4) (f : Die → Die) : (s.modDie d f).lineKey = s.lineKey := rfl
@[simp] theorem State.modDie_poisoned (s : State) (d : Fin 4) (f : Die → Die) : (s.modDie d f).poisoned = s.poisoned := rfl
@[simp] theorem State.modDie_gmeta (s : State) (d : Fin 4) (f : Die → Die) : (s.modDie d f).gmeta = s.gmeta := rfl
@[simp] theorem State.modDie_jobs (s : State) (d : Fin 4) (f : Die → Die) : (s.modDie d f).jobs = s.jobs := rfl
@[simp] theorem State.modDie_nodes (s : State) (d : Fin 4) (f : Die → Die) : (s.modDie d f).nodes = s.nodes := rfl
@[simp] theorem State.modDie_nodeNext (s : State) (d : Fin 4) (f : Die → Die) : (s.modDie d f).nodeNext = s.nodeNext := rfl
@[simp] theorem State.modDie_orderNext (s : State) (d : Fin 4) (f : Die → Die) : (s.modDie d f).orderNext = s.orderNext := rfl
@[simp] theorem State.modDie_endedNodes (s : State) (d : Fin 4) (f : Die → Die) : (s.modDie d f).endedNodes = s.endedNodes := rfl
@[simp] theorem State.modDie_graphs (s : State) (d : Fin 4) (f : Die → Die) : (s.modDie d f).graphs = s.graphs := rfl
@[simp] theorem State.modDie_phases (s : State) (d : Fin 4) (f : Die → Die) : (s.modDie d f).phases = s.phases := rfl
@[simp] theorem State.modDie_cancelledGraphs (s : State) (d : Fin 4) (f : Die → Die) : (s.modDie d f).cancelledGraphs = s.cancelledGraphs := rfl
@[simp] theorem State.modDie_cancelledPhases (s : State) (d : Fin 4) (f : Die → Die) : (s.modDie d f).cancelledPhases = s.cancelledPhases := rfl
@[simp] theorem State.modDie_seqs (s : State) (d : Fin 4) (f : Die → Die) : (s.modDie d f).seqs = s.seqs := rfl
@[simp] theorem State.modDie_scTicket (s : State) (d : Fin 4) (f : Die → Die) : (s.modDie d f).scTicket = s.scTicket := rfl
@[simp] theorem State.modDie_scSet (s : State) (d : Fin 4) (f : Die → Die) : (s.modDie d f).scSet = s.scSet := rfl
@[simp] theorem State.modDie_widNext (s : State) (d : Fin 4) (f : Die → Die) : (s.modDie d f).widNext = s.widNext := rfl
@[simp] theorem State.modDie_iss (s : State) (d : Fin 4) (f : Die → Die) : (s.modDie d f).iss = s.iss := rfl
@[simp] theorem State.modDie_agenda (s : State) (d : Fin 4) (f : Die → Die) : (s.modDie d f).agenda = s.agenda := rfl
@[simp] theorem State.modDie_tick (s : State) (d : Fin 4) (f : Die → Die) : (s.modDie d f).tick = s.tick := rfl
@[simp] theorem State.modDie_powered (s : State) (d : Fin 4) (f : Die → Die) : (s.modDie d f).powered = s.powered := rfl

/-! ## modIss -/

@[simp] theorem State.modIss_cores (s : State) (f : Issue → Issue) : (s.modIss f).cores = s.cores := rfl
@[simp] theorem State.modIss_dies (s : State) (f : Issue → Issue) : (s.modIss f).dies = s.dies := rfl
@[simp] theorem State.modIss_iod (s : State) (f : Issue → Issue) : (s.modIss f).iod = s.iod := rfl
@[simp] theorem State.modIss_dram (s : State) (f : Issue → Issue) : (s.modIss f).dram = s.dram := rfl
@[simp] theorem State.modIss_lineKey (s : State) (f : Issue → Issue) : (s.modIss f).lineKey = s.lineKey := rfl
@[simp] theorem State.modIss_poisoned (s : State) (f : Issue → Issue) : (s.modIss f).poisoned = s.poisoned := rfl
@[simp] theorem State.modIss_gmeta (s : State) (f : Issue → Issue) : (s.modIss f).gmeta = s.gmeta := rfl
@[simp] theorem State.modIss_jobs (s : State) (f : Issue → Issue) : (s.modIss f).jobs = s.jobs := rfl
@[simp] theorem State.modIss_nodes (s : State) (f : Issue → Issue) : (s.modIss f).nodes = s.nodes := rfl
@[simp] theorem State.modIss_nodeNext (s : State) (f : Issue → Issue) : (s.modIss f).nodeNext = s.nodeNext := rfl
@[simp] theorem State.modIss_orderNext (s : State) (f : Issue → Issue) : (s.modIss f).orderNext = s.orderNext := rfl
@[simp] theorem State.modIss_endedNodes (s : State) (f : Issue → Issue) : (s.modIss f).endedNodes = s.endedNodes := rfl
@[simp] theorem State.modIss_graphs (s : State) (f : Issue → Issue) : (s.modIss f).graphs = s.graphs := rfl
@[simp] theorem State.modIss_phases (s : State) (f : Issue → Issue) : (s.modIss f).phases = s.phases := rfl
@[simp] theorem State.modIss_cancelledGraphs (s : State) (f : Issue → Issue) : (s.modIss f).cancelledGraphs = s.cancelledGraphs := rfl
@[simp] theorem State.modIss_cancelledPhases (s : State) (f : Issue → Issue) : (s.modIss f).cancelledPhases = s.cancelledPhases := rfl
@[simp] theorem State.modIss_seqs (s : State) (f : Issue → Issue) : (s.modIss f).seqs = s.seqs := rfl
@[simp] theorem State.modIss_scTicket (s : State) (f : Issue → Issue) : (s.modIss f).scTicket = s.scTicket := rfl
@[simp] theorem State.modIss_scSet (s : State) (f : Issue → Issue) : (s.modIss f).scSet = s.scSet := rfl
@[simp] theorem State.modIss_widNext (s : State) (f : Issue → Issue) : (s.modIss f).widNext = s.widNext := rfl
@[simp] theorem State.modIss_agenda (s : State) (f : Issue → Issue) : (s.modIss f).agenda = s.agenda := rfl
@[simp] theorem State.modIss_tick (s : State) (f : Issue → Issue) : (s.modIss f).tick = s.tick := rfl
@[simp] theorem State.modIss_powered (s : State) (f : Issue → Issue) : (s.modIss f).powered = s.powered := rfl

/-! ## hold -/

@[simp] theorem State.hold_cores (s : State) (w : Wait) : (s.hold w).cores = s.cores := rfl
@[simp] theorem State.hold_dies (s : State) (w : Wait) : (s.hold w).dies = s.dies := rfl
@[simp] theorem State.hold_iod (s : State) (w : Wait) : (s.hold w).iod = s.iod := rfl
@[simp] theorem State.hold_dram (s : State) (w : Wait) : (s.hold w).dram = s.dram := rfl
@[simp] theorem State.hold_lineKey (s : State) (w : Wait) : (s.hold w).lineKey = s.lineKey := rfl
@[simp] theorem State.hold_poisoned (s : State) (w : Wait) : (s.hold w).poisoned = s.poisoned := rfl
@[simp] theorem State.hold_gmeta (s : State) (w : Wait) : (s.hold w).gmeta = s.gmeta := rfl
@[simp] theorem State.hold_jobs (s : State) (w : Wait) : (s.hold w).jobs = s.jobs := rfl
@[simp] theorem State.hold_nodes (s : State) (w : Wait) : (s.hold w).nodes = s.nodes := rfl
@[simp] theorem State.hold_nodeNext (s : State) (w : Wait) : (s.hold w).nodeNext = s.nodeNext := rfl
@[simp] theorem State.hold_orderNext (s : State) (w : Wait) : (s.hold w).orderNext = s.orderNext := rfl
@[simp] theorem State.hold_endedNodes (s : State) (w : Wait) : (s.hold w).endedNodes = s.endedNodes := rfl
@[simp] theorem State.hold_graphs (s : State) (w : Wait) : (s.hold w).graphs = s.graphs := rfl
@[simp] theorem State.hold_phases (s : State) (w : Wait) : (s.hold w).phases = s.phases := rfl
@[simp] theorem State.hold_cancelledGraphs (s : State) (w : Wait) : (s.hold w).cancelledGraphs = s.cancelledGraphs := rfl
@[simp] theorem State.hold_cancelledPhases (s : State) (w : Wait) : (s.hold w).cancelledPhases = s.cancelledPhases := rfl
@[simp] theorem State.hold_seqs (s : State) (w : Wait) : (s.hold w).seqs = s.seqs := rfl
@[simp] theorem State.hold_scTicket (s : State) (w : Wait) : (s.hold w).scTicket = s.scTicket := rfl
@[simp] theorem State.hold_scSet (s : State) (w : Wait) : (s.hold w).scSet = s.scSet := rfl
@[simp] theorem State.hold_widNext (s : State) (w : Wait) : (s.hold w).widNext = s.widNext := rfl
@[simp] theorem State.hold_agenda (s : State) (w : Wait) : (s.hold w).agenda = s.agenda := rfl
@[simp] theorem State.hold_tick (s : State) (w : Wait) : (s.hold w).tick = s.tick := rfl
@[simp] theorem State.hold_powered (s : State) (w : Wait) : (s.hold w).powered = s.powered := rfl

/-! ## jump -/

@[simp] theorem State.jump_cores (s : State) (a : Word) : (s.jump a).cores = s.cores := rfl
@[simp] theorem State.jump_dies (s : State) (a : Word) : (s.jump a).dies = s.dies := rfl
@[simp] theorem State.jump_iod (s : State) (a : Word) : (s.jump a).iod = s.iod := rfl
@[simp] theorem State.jump_dram (s : State) (a : Word) : (s.jump a).dram = s.dram := rfl
@[simp] theorem State.jump_lineKey (s : State) (a : Word) : (s.jump a).lineKey = s.lineKey := rfl
@[simp] theorem State.jump_poisoned (s : State) (a : Word) : (s.jump a).poisoned = s.poisoned := rfl
@[simp] theorem State.jump_gmeta (s : State) (a : Word) : (s.jump a).gmeta = s.gmeta := rfl
@[simp] theorem State.jump_jobs (s : State) (a : Word) : (s.jump a).jobs = s.jobs := rfl
@[simp] theorem State.jump_nodes (s : State) (a : Word) : (s.jump a).nodes = s.nodes := rfl
@[simp] theorem State.jump_nodeNext (s : State) (a : Word) : (s.jump a).nodeNext = s.nodeNext := rfl
@[simp] theorem State.jump_orderNext (s : State) (a : Word) : (s.jump a).orderNext = s.orderNext := rfl
@[simp] theorem State.jump_endedNodes (s : State) (a : Word) : (s.jump a).endedNodes = s.endedNodes := rfl
@[simp] theorem State.jump_graphs (s : State) (a : Word) : (s.jump a).graphs = s.graphs := rfl
@[simp] theorem State.jump_phases (s : State) (a : Word) : (s.jump a).phases = s.phases := rfl
@[simp] theorem State.jump_cancelledGraphs (s : State) (a : Word) : (s.jump a).cancelledGraphs = s.cancelledGraphs := rfl
@[simp] theorem State.jump_cancelledPhases (s : State) (a : Word) : (s.jump a).cancelledPhases = s.cancelledPhases := rfl
@[simp] theorem State.jump_seqs (s : State) (a : Word) : (s.jump a).seqs = s.seqs := rfl
@[simp] theorem State.jump_scTicket (s : State) (a : Word) : (s.jump a).scTicket = s.scTicket := rfl
@[simp] theorem State.jump_scSet (s : State) (a : Word) : (s.jump a).scSet = s.scSet := rfl
@[simp] theorem State.jump_widNext (s : State) (a : Word) : (s.jump a).widNext = s.widNext := rfl
@[simp] theorem State.jump_agenda (s : State) (a : Word) : (s.jump a).agenda = s.agenda := rfl
@[simp] theorem State.jump_tick (s : State) (a : Word) : (s.jump a).tick = s.tick := rfl
@[simp] theorem State.jump_powered (s : State) (a : Word) : (s.jump a).powered = s.powered := rfl

/-! ## closed -/

@[simp] theorem State.closed_cores (s : State) : (s.closed).cores = s.cores := rfl
@[simp] theorem State.closed_dies (s : State) : (s.closed).dies = s.dies := rfl
@[simp] theorem State.closed_iod (s : State) : (s.closed).iod = s.iod := rfl
@[simp] theorem State.closed_dram (s : State) : (s.closed).dram = s.dram := rfl
@[simp] theorem State.closed_lineKey (s : State) : (s.closed).lineKey = s.lineKey := rfl
@[simp] theorem State.closed_poisoned (s : State) : (s.closed).poisoned = s.poisoned := rfl
@[simp] theorem State.closed_gmeta (s : State) : (s.closed).gmeta = s.gmeta := rfl
@[simp] theorem State.closed_jobs (s : State) : (s.closed).jobs = s.jobs := rfl
@[simp] theorem State.closed_nodes (s : State) : (s.closed).nodes = s.nodes := rfl
@[simp] theorem State.closed_nodeNext (s : State) : (s.closed).nodeNext = s.nodeNext := rfl
@[simp] theorem State.closed_orderNext (s : State) : (s.closed).orderNext = s.orderNext := rfl
@[simp] theorem State.closed_endedNodes (s : State) : (s.closed).endedNodes = s.endedNodes := rfl
@[simp] theorem State.closed_graphs (s : State) : (s.closed).graphs = s.graphs := rfl
@[simp] theorem State.closed_phases (s : State) : (s.closed).phases = s.phases := rfl
@[simp] theorem State.closed_cancelledGraphs (s : State) : (s.closed).cancelledGraphs = s.cancelledGraphs := rfl
@[simp] theorem State.closed_cancelledPhases (s : State) : (s.closed).cancelledPhases = s.cancelledPhases := rfl
@[simp] theorem State.closed_seqs (s : State) : (s.closed).seqs = s.seqs := rfl
@[simp] theorem State.closed_scTicket (s : State) : (s.closed).scTicket = s.scTicket := rfl
@[simp] theorem State.closed_scSet (s : State) : (s.closed).scSet = s.scSet := rfl
@[simp] theorem State.closed_widNext (s : State) : (s.closed).widNext = s.widNext := rfl
@[simp] theorem State.closed_agenda (s : State) : (s.closed).agenda = s.agenda := rfl
@[simp] theorem State.closed_tick (s : State) : (s.closed).tick = s.tick := rfl
@[simp] theorem State.closed_powered (s : State) : (s.closed).powered = s.powered := rfl

/-! ## modIod -/

@[simp] theorem State.modIod_cores (s : State) (f : Iod → Iod) : (s.modIod f).cores = s.cores := rfl
@[simp] theorem State.modIod_dies (s : State) (f : Iod → Iod) : (s.modIod f).dies = s.dies := rfl
@[simp] theorem State.modIod_dram (s : State) (f : Iod → Iod) : (s.modIod f).dram = s.dram := rfl
@[simp] theorem State.modIod_lineKey (s : State) (f : Iod → Iod) : (s.modIod f).lineKey = s.lineKey := rfl
@[simp] theorem State.modIod_poisoned (s : State) (f : Iod → Iod) : (s.modIod f).poisoned = s.poisoned := rfl
@[simp] theorem State.modIod_gmeta (s : State) (f : Iod → Iod) : (s.modIod f).gmeta = s.gmeta := rfl
@[simp] theorem State.modIod_jobs (s : State) (f : Iod → Iod) : (s.modIod f).jobs = s.jobs := rfl
@[simp] theorem State.modIod_nodes (s : State) (f : Iod → Iod) : (s.modIod f).nodes = s.nodes := rfl
@[simp] theorem State.modIod_nodeNext (s : State) (f : Iod → Iod) : (s.modIod f).nodeNext = s.nodeNext := rfl
@[simp] theorem State.modIod_orderNext (s : State) (f : Iod → Iod) : (s.modIod f).orderNext = s.orderNext := rfl
@[simp] theorem State.modIod_endedNodes (s : State) (f : Iod → Iod) : (s.modIod f).endedNodes = s.endedNodes := rfl
@[simp] theorem State.modIod_graphs (s : State) (f : Iod → Iod) : (s.modIod f).graphs = s.graphs := rfl
@[simp] theorem State.modIod_phases (s : State) (f : Iod → Iod) : (s.modIod f).phases = s.phases := rfl
@[simp] theorem State.modIod_cancelledGraphs (s : State) (f : Iod → Iod) : (s.modIod f).cancelledGraphs = s.cancelledGraphs := rfl
@[simp] theorem State.modIod_cancelledPhases (s : State) (f : Iod → Iod) : (s.modIod f).cancelledPhases = s.cancelledPhases := rfl
@[simp] theorem State.modIod_seqs (s : State) (f : Iod → Iod) : (s.modIod f).seqs = s.seqs := rfl
@[simp] theorem State.modIod_scTicket (s : State) (f : Iod → Iod) : (s.modIod f).scTicket = s.scTicket := rfl
@[simp] theorem State.modIod_scSet (s : State) (f : Iod → Iod) : (s.modIod f).scSet = s.scSet := rfl
@[simp] theorem State.modIod_widNext (s : State) (f : Iod → Iod) : (s.modIod f).widNext = s.widNext := rfl
@[simp] theorem State.modIod_iss (s : State) (f : Iod → Iod) : (s.modIod f).iss = s.iss := rfl
@[simp] theorem State.modIod_agenda (s : State) (f : Iod → Iod) : (s.modIod f).agenda = s.agenda := rfl
@[simp] theorem State.modIod_tick (s : State) (f : Iod → Iod) : (s.modIod f).tick = s.tick := rfl
@[simp] theorem State.modIod_powered (s : State) (f : Iod → Iod) : (s.modIod f).powered = s.powered := rfl

/-! ## modMgmt -/

@[simp] theorem State.modMgmt_cores (s : State) (f : Mgmt → Mgmt) : (s.modMgmt f).cores = s.cores := rfl
@[simp] theorem State.modMgmt_dies (s : State) (f : Mgmt → Mgmt) : (s.modMgmt f).dies = s.dies := rfl
@[simp] theorem State.modMgmt_dram (s : State) (f : Mgmt → Mgmt) : (s.modMgmt f).dram = s.dram := rfl
@[simp] theorem State.modMgmt_lineKey (s : State) (f : Mgmt → Mgmt) : (s.modMgmt f).lineKey = s.lineKey := rfl
@[simp] theorem State.modMgmt_poisoned (s : State) (f : Mgmt → Mgmt) : (s.modMgmt f).poisoned = s.poisoned := rfl
@[simp] theorem State.modMgmt_gmeta (s : State) (f : Mgmt → Mgmt) : (s.modMgmt f).gmeta = s.gmeta := rfl
@[simp] theorem State.modMgmt_jobs (s : State) (f : Mgmt → Mgmt) : (s.modMgmt f).jobs = s.jobs := rfl
@[simp] theorem State.modMgmt_nodes (s : State) (f : Mgmt → Mgmt) : (s.modMgmt f).nodes = s.nodes := rfl
@[simp] theorem State.modMgmt_nodeNext (s : State) (f : Mgmt → Mgmt) : (s.modMgmt f).nodeNext = s.nodeNext := rfl
@[simp] theorem State.modMgmt_orderNext (s : State) (f : Mgmt → Mgmt) : (s.modMgmt f).orderNext = s.orderNext := rfl
@[simp] theorem State.modMgmt_endedNodes (s : State) (f : Mgmt → Mgmt) : (s.modMgmt f).endedNodes = s.endedNodes := rfl
@[simp] theorem State.modMgmt_graphs (s : State) (f : Mgmt → Mgmt) : (s.modMgmt f).graphs = s.graphs := rfl
@[simp] theorem State.modMgmt_phases (s : State) (f : Mgmt → Mgmt) : (s.modMgmt f).phases = s.phases := rfl
@[simp] theorem State.modMgmt_cancelledGraphs (s : State) (f : Mgmt → Mgmt) : (s.modMgmt f).cancelledGraphs = s.cancelledGraphs := rfl
@[simp] theorem State.modMgmt_cancelledPhases (s : State) (f : Mgmt → Mgmt) : (s.modMgmt f).cancelledPhases = s.cancelledPhases := rfl
@[simp] theorem State.modMgmt_seqs (s : State) (f : Mgmt → Mgmt) : (s.modMgmt f).seqs = s.seqs := rfl
@[simp] theorem State.modMgmt_scTicket (s : State) (f : Mgmt → Mgmt) : (s.modMgmt f).scTicket = s.scTicket := rfl
@[simp] theorem State.modMgmt_scSet (s : State) (f : Mgmt → Mgmt) : (s.modMgmt f).scSet = s.scSet := rfl
@[simp] theorem State.modMgmt_widNext (s : State) (f : Mgmt → Mgmt) : (s.modMgmt f).widNext = s.widNext := rfl
@[simp] theorem State.modMgmt_iss (s : State) (f : Mgmt → Mgmt) : (s.modMgmt f).iss = s.iss := rfl
@[simp] theorem State.modMgmt_agenda (s : State) (f : Mgmt → Mgmt) : (s.modMgmt f).agenda = s.agenda := rfl
@[simp] theorem State.modMgmt_tick (s : State) (f : Mgmt → Mgmt) : (s.modMgmt f).tick = s.tick := rfl
@[simp] theorem State.modMgmt_powered (s : State) (f : Mgmt → Mgmt) : (s.modMgmt f).powered = s.powered := rfl

/-! ## msix -/

@[simp] theorem State.msix_cores (s : State) (v : Nat) : (s.msix v).cores = s.cores := rfl
@[simp] theorem State.msix_dies (s : State) (v : Nat) : (s.msix v).dies = s.dies := rfl
@[simp] theorem State.msix_dram (s : State) (v : Nat) : (s.msix v).dram = s.dram := rfl
@[simp] theorem State.msix_lineKey (s : State) (v : Nat) : (s.msix v).lineKey = s.lineKey := rfl
@[simp] theorem State.msix_poisoned (s : State) (v : Nat) : (s.msix v).poisoned = s.poisoned := rfl
@[simp] theorem State.msix_gmeta (s : State) (v : Nat) : (s.msix v).gmeta = s.gmeta := rfl
@[simp] theorem State.msix_jobs (s : State) (v : Nat) : (s.msix v).jobs = s.jobs := rfl
@[simp] theorem State.msix_nodes (s : State) (v : Nat) : (s.msix v).nodes = s.nodes := rfl
@[simp] theorem State.msix_nodeNext (s : State) (v : Nat) : (s.msix v).nodeNext = s.nodeNext := rfl
@[simp] theorem State.msix_orderNext (s : State) (v : Nat) : (s.msix v).orderNext = s.orderNext := rfl
@[simp] theorem State.msix_endedNodes (s : State) (v : Nat) : (s.msix v).endedNodes = s.endedNodes := rfl
@[simp] theorem State.msix_graphs (s : State) (v : Nat) : (s.msix v).graphs = s.graphs := rfl
@[simp] theorem State.msix_phases (s : State) (v : Nat) : (s.msix v).phases = s.phases := rfl
@[simp] theorem State.msix_cancelledGraphs (s : State) (v : Nat) : (s.msix v).cancelledGraphs = s.cancelledGraphs := rfl
@[simp] theorem State.msix_cancelledPhases (s : State) (v : Nat) : (s.msix v).cancelledPhases = s.cancelledPhases := rfl
@[simp] theorem State.msix_seqs (s : State) (v : Nat) : (s.msix v).seqs = s.seqs := rfl
@[simp] theorem State.msix_scTicket (s : State) (v : Nat) : (s.msix v).scTicket = s.scTicket := rfl
@[simp] theorem State.msix_scSet (s : State) (v : Nat) : (s.msix v).scSet = s.scSet := rfl
@[simp] theorem State.msix_widNext (s : State) (v : Nat) : (s.msix v).widNext = s.widNext := rfl
@[simp] theorem State.msix_iss (s : State) (v : Nat) : (s.msix v).iss = s.iss := rfl
@[simp] theorem State.msix_agenda (s : State) (v : Nat) : (s.msix v).agenda = s.agenda := rfl
@[simp] theorem State.msix_tick (s : State) (v : Nat) : (s.msix v).tick = s.tick := rfl
@[simp] theorem State.msix_powered (s : State) (v : Nat) : (s.msix v).powered = s.powered := rfl

/-! ## modNode -/

@[simp] theorem State.modNode_cores (s : State) (n : Nat) (f : Node → Node) : (s.modNode n f).cores = s.cores := rfl
@[simp] theorem State.modNode_dies (s : State) (n : Nat) (f : Node → Node) : (s.modNode n f).dies = s.dies := rfl
@[simp] theorem State.modNode_iod (s : State) (n : Nat) (f : Node → Node) : (s.modNode n f).iod = s.iod := rfl
@[simp] theorem State.modNode_dram (s : State) (n : Nat) (f : Node → Node) : (s.modNode n f).dram = s.dram := rfl
@[simp] theorem State.modNode_lineKey (s : State) (n : Nat) (f : Node → Node) : (s.modNode n f).lineKey = s.lineKey := rfl
@[simp] theorem State.modNode_poisoned (s : State) (n : Nat) (f : Node → Node) : (s.modNode n f).poisoned = s.poisoned := rfl
@[simp] theorem State.modNode_gmeta (s : State) (n : Nat) (f : Node → Node) : (s.modNode n f).gmeta = s.gmeta := rfl
@[simp] theorem State.modNode_jobs (s : State) (n : Nat) (f : Node → Node) : (s.modNode n f).jobs = s.jobs := rfl
@[simp] theorem State.modNode_nodeNext (s : State) (n : Nat) (f : Node → Node) : (s.modNode n f).nodeNext = s.nodeNext := rfl
@[simp] theorem State.modNode_orderNext (s : State) (n : Nat) (f : Node → Node) : (s.modNode n f).orderNext = s.orderNext := rfl
@[simp] theorem State.modNode_endedNodes (s : State) (n : Nat) (f : Node → Node) : (s.modNode n f).endedNodes = s.endedNodes := rfl
@[simp] theorem State.modNode_graphs (s : State) (n : Nat) (f : Node → Node) : (s.modNode n f).graphs = s.graphs := rfl
@[simp] theorem State.modNode_phases (s : State) (n : Nat) (f : Node → Node) : (s.modNode n f).phases = s.phases := rfl
@[simp] theorem State.modNode_cancelledGraphs (s : State) (n : Nat) (f : Node → Node) : (s.modNode n f).cancelledGraphs = s.cancelledGraphs := rfl
@[simp] theorem State.modNode_cancelledPhases (s : State) (n : Nat) (f : Node → Node) : (s.modNode n f).cancelledPhases = s.cancelledPhases := rfl
@[simp] theorem State.modNode_seqs (s : State) (n : Nat) (f : Node → Node) : (s.modNode n f).seqs = s.seqs := rfl
@[simp] theorem State.modNode_scTicket (s : State) (n : Nat) (f : Node → Node) : (s.modNode n f).scTicket = s.scTicket := rfl
@[simp] theorem State.modNode_scSet (s : State) (n : Nat) (f : Node → Node) : (s.modNode n f).scSet = s.scSet := rfl
@[simp] theorem State.modNode_widNext (s : State) (n : Nat) (f : Node → Node) : (s.modNode n f).widNext = s.widNext := rfl
@[simp] theorem State.modNode_iss (s : State) (n : Nat) (f : Node → Node) : (s.modNode n f).iss = s.iss := rfl
@[simp] theorem State.modNode_agenda (s : State) (n : Nat) (f : Node → Node) : (s.modNode n f).agenda = s.agenda := rfl
@[simp] theorem State.modNode_tick (s : State) (n : Nat) (f : Node → Node) : (s.modNode n f).tick = s.tick := rfl
@[simp] theorem State.modNode_powered (s : State) (n : Nat) (f : Node → Node) : (s.modNode n f).powered = s.powered := rfl

/-! ## draw -/

@[simp] theorem State.draw_cores (s : State) : (s.draw).2.cores = s.cores := rfl
@[simp] theorem State.draw_dies (s : State) : (s.draw).2.dies = s.dies := rfl
@[simp] theorem State.draw_iod (s : State) : (s.draw).2.iod = s.iod := rfl
@[simp] theorem State.draw_dram (s : State) : (s.draw).2.dram = s.dram := rfl
@[simp] theorem State.draw_lineKey (s : State) : (s.draw).2.lineKey = s.lineKey := rfl
@[simp] theorem State.draw_poisoned (s : State) : (s.draw).2.poisoned = s.poisoned := rfl
@[simp] theorem State.draw_gmeta (s : State) : (s.draw).2.gmeta = s.gmeta := rfl
@[simp] theorem State.draw_jobs (s : State) : (s.draw).2.jobs = s.jobs := rfl
@[simp] theorem State.draw_nodes (s : State) : (s.draw).2.nodes = s.nodes := rfl
@[simp] theorem State.draw_nodeNext (s : State) : (s.draw).2.nodeNext = s.nodeNext := rfl
@[simp] theorem State.draw_orderNext (s : State) : (s.draw).2.orderNext = s.orderNext := rfl
@[simp] theorem State.draw_endedNodes (s : State) : (s.draw).2.endedNodes = s.endedNodes := rfl
@[simp] theorem State.draw_graphs (s : State) : (s.draw).2.graphs = s.graphs := rfl
@[simp] theorem State.draw_phases (s : State) : (s.draw).2.phases = s.phases := rfl
@[simp] theorem State.draw_cancelledGraphs (s : State) : (s.draw).2.cancelledGraphs = s.cancelledGraphs := rfl
@[simp] theorem State.draw_cancelledPhases (s : State) : (s.draw).2.cancelledPhases = s.cancelledPhases := rfl
@[simp] theorem State.draw_seqs (s : State) : (s.draw).2.seqs = s.seqs := rfl
@[simp] theorem State.draw_scTicket (s : State) : (s.draw).2.scTicket = s.scTicket := rfl
@[simp] theorem State.draw_scSet (s : State) : (s.draw).2.scSet = s.scSet := rfl
@[simp] theorem State.draw_widNext (s : State) : (s.draw).2.widNext = s.widNext := rfl
@[simp] theorem State.draw_iss (s : State) : (s.draw).2.iss = s.iss := rfl
@[simp] theorem State.draw_agenda (s : State) : (s.draw).2.agenda = s.agenda := rfl
@[simp] theorem State.draw_powered (s : State) : (s.draw).2.powered = s.powered := rfl

/-! ## drawBit -/

@[simp] theorem State.drawBit_cores (s : State) : (s.drawBit).2.cores = s.cores := rfl
@[simp] theorem State.drawBit_dies (s : State) : (s.drawBit).2.dies = s.dies := rfl
@[simp] theorem State.drawBit_iod (s : State) : (s.drawBit).2.iod = s.iod := rfl
@[simp] theorem State.drawBit_dram (s : State) : (s.drawBit).2.dram = s.dram := rfl
@[simp] theorem State.drawBit_lineKey (s : State) : (s.drawBit).2.lineKey = s.lineKey := rfl
@[simp] theorem State.drawBit_poisoned (s : State) : (s.drawBit).2.poisoned = s.poisoned := rfl
@[simp] theorem State.drawBit_gmeta (s : State) : (s.drawBit).2.gmeta = s.gmeta := rfl
@[simp] theorem State.drawBit_jobs (s : State) : (s.drawBit).2.jobs = s.jobs := rfl
@[simp] theorem State.drawBit_nodes (s : State) : (s.drawBit).2.nodes = s.nodes := rfl
@[simp] theorem State.drawBit_nodeNext (s : State) : (s.drawBit).2.nodeNext = s.nodeNext := rfl
@[simp] theorem State.drawBit_orderNext (s : State) : (s.drawBit).2.orderNext = s.orderNext := rfl
@[simp] theorem State.drawBit_endedNodes (s : State) : (s.drawBit).2.endedNodes = s.endedNodes := rfl
@[simp] theorem State.drawBit_graphs (s : State) : (s.drawBit).2.graphs = s.graphs := rfl
@[simp] theorem State.drawBit_phases (s : State) : (s.drawBit).2.phases = s.phases := rfl
@[simp] theorem State.drawBit_cancelledGraphs (s : State) : (s.drawBit).2.cancelledGraphs = s.cancelledGraphs := rfl
@[simp] theorem State.drawBit_cancelledPhases (s : State) : (s.drawBit).2.cancelledPhases = s.cancelledPhases := rfl
@[simp] theorem State.drawBit_seqs (s : State) : (s.drawBit).2.seqs = s.seqs := rfl
@[simp] theorem State.drawBit_scTicket (s : State) : (s.drawBit).2.scTicket = s.scTicket := rfl
@[simp] theorem State.drawBit_scSet (s : State) : (s.drawBit).2.scSet = s.scSet := rfl
@[simp] theorem State.drawBit_widNext (s : State) : (s.drawBit).2.widNext = s.widNext := rfl
@[simp] theorem State.drawBit_iss (s : State) : (s.drawBit).2.iss = s.iss := rfl
@[simp] theorem State.drawBit_agenda (s : State) : (s.drawBit).2.agenda = s.agenda := rfl
@[simp] theorem State.drawBit_powered (s : State) : (s.drawBit).2.powered = s.powered := rfl

/-! ## drawWord -/

@[simp] theorem State.drawWord_cores (s : State) : (s.drawWord).2.cores = s.cores := rfl
@[simp] theorem State.drawWord_dies (s : State) : (s.drawWord).2.dies = s.dies := rfl
@[simp] theorem State.drawWord_iod (s : State) : (s.drawWord).2.iod = s.iod := rfl
@[simp] theorem State.drawWord_dram (s : State) : (s.drawWord).2.dram = s.dram := rfl
@[simp] theorem State.drawWord_lineKey (s : State) : (s.drawWord).2.lineKey = s.lineKey := rfl
@[simp] theorem State.drawWord_poisoned (s : State) : (s.drawWord).2.poisoned = s.poisoned := rfl
@[simp] theorem State.drawWord_gmeta (s : State) : (s.drawWord).2.gmeta = s.gmeta := rfl
@[simp] theorem State.drawWord_jobs (s : State) : (s.drawWord).2.jobs = s.jobs := rfl
@[simp] theorem State.drawWord_nodes (s : State) : (s.drawWord).2.nodes = s.nodes := rfl
@[simp] theorem State.drawWord_nodeNext (s : State) : (s.drawWord).2.nodeNext = s.nodeNext := rfl
@[simp] theorem State.drawWord_orderNext (s : State) : (s.drawWord).2.orderNext = s.orderNext := rfl
@[simp] theorem State.drawWord_endedNodes (s : State) : (s.drawWord).2.endedNodes = s.endedNodes := rfl
@[simp] theorem State.drawWord_graphs (s : State) : (s.drawWord).2.graphs = s.graphs := rfl
@[simp] theorem State.drawWord_phases (s : State) : (s.drawWord).2.phases = s.phases := rfl
@[simp] theorem State.drawWord_cancelledGraphs (s : State) : (s.drawWord).2.cancelledGraphs = s.cancelledGraphs := rfl
@[simp] theorem State.drawWord_cancelledPhases (s : State) : (s.drawWord).2.cancelledPhases = s.cancelledPhases := rfl
@[simp] theorem State.drawWord_seqs (s : State) : (s.drawWord).2.seqs = s.seqs := rfl
@[simp] theorem State.drawWord_scTicket (s : State) : (s.drawWord).2.scTicket = s.scTicket := rfl
@[simp] theorem State.drawWord_scSet (s : State) : (s.drawWord).2.scSet = s.scSet := rfl
@[simp] theorem State.drawWord_widNext (s : State) : (s.drawWord).2.widNext = s.widNext := rfl
@[simp] theorem State.drawWord_iss (s : State) : (s.drawWord).2.iss = s.iss := rfl
@[simp] theorem State.drawWord_agenda (s : State) : (s.drawWord).2.agenda = s.agenda := rfl
@[simp] theorem State.drawWord_powered (s : State) : (s.drawWord).2.powered = s.powered := rfl

/-! ## Cores, strands, engines and dies after an update -/

@[simp] theorem State.core_modCore_same (s : State) (c : Nat) (f : Core → Core) : (s.modCore c f).core c = f (s.core c) := by
  simp [State.core, State.modCore]

theorem State.core_modCore_ne (s : State) (c d : Nat) (f : Core → Core) (h : d ≠ c) : (s.modCore c f).core d = s.core d := by
  simp [State.core, State.modCore, Tab.get_put_ne _ _ _ _ _ h]

theorem State.core_modCore (s : State) (c d : Nat) (f : Core → Core) :
    (s.modCore c f).core d = if d = c then f (s.core c) else s.core d := by
  by_cases h : d = c
  · subst h
    simp
  · simp [h, State.core_modCore_ne s c d f h]

@[simp] theorem State.strand_modStrand_same (s : State) (c : Nat) (t : Fin 4) (f : Strand → Strand) :
    (s.modStrand c t f).strand c t = f (s.strand c t) := by
  simp [State.strand, State.modStrand]

theorem State.strand_modStrand_ne (s : State) (c d : Nat) (t u : Fin 4) (f : Strand → Strand) (h : d ≠ c ∨ u ≠ t) :
    (s.modStrand c t f).strand d u = s.strand d u := by
  by_cases hc : d = c
  · subst hc
    have hu : u ≠ t := by
      rcases h with h | h
      · exact absurd rfl h
      · exact h
    simp [State.strand, State.modStrand, Quad.get_set_ne _ _ _ _ hu]
  · simp [State.strand, State.modStrand, State.core_modCore_ne _ _ _ _ hc]

@[simp] theorem State.engine_modEngine_same (s : State) (c : Nat) (e : Eng) (f : Engine → Engine) :
    (s.modEngine c e f).engine c e = f (s.engine c e) := by
  simp [State.engine, State.modEngine]

theorem State.engine_modEngine_ne (s : State) (c d : Nat) (e g : Eng) (f : Engine → Engine) (h : d ≠ c ∨ g ≠ e) :
    (s.modEngine c e f).engine d g = s.engine d g := by
  by_cases hc : d = c
  · subst hc
    have hg : g ≠ e := by
      rcases h with h | h
      · exact absurd rfl h
      · exact h
    simp [State.engine, State.modEngine, Quad.get_set_ne _ _ _ _ hg]
  · simp [State.engine, State.modEngine, State.core_modCore_ne _ _ _ _ hc]

@[simp] theorem State.strand_modEngine (s : State) (c d : Nat) (e : Eng) (t : Fin 4) (f : Engine → Engine) :
    (s.modEngine c e f).strand d t = s.strand d t := by
  by_cases hc : d = c
  · subst hc
    simp [State.strand, State.modEngine]
  · simp [State.strand, State.modEngine, State.core_modCore_ne _ _ _ _ hc]

@[simp] theorem State.engine_modStrand (s : State) (c d : Nat) (e : Eng) (t : Fin 4) (f : Strand → Strand) :
    (s.modStrand c t f).engine d e = s.engine d e := by
  by_cases hc : d = c
  · subst hc
    simp [State.engine, State.modStrand]
  · simp [State.engine, State.modStrand, State.core_modCore_ne _ _ _ _ hc]

@[simp] theorem State.str_modStr (s : State) (f : Strand → Strand) : (s.modStr f).str = f s.str := by
  simp [State.str, State.modStr]

@[simp] theorem State.str_modIss (s : State) (f : Issue → Issue) : (s.modIss f).core = s.core := rfl

@[simp] theorem State.die_modDie_same (s : State) (d : Fin 4) (f : Die → Die) : (s.modDie d f).die d = f (s.die d) := by
  simp [State.die, State.modDie]

theorem State.die_modDie_ne (s : State) (d e : Fin 4) (f : Die → Die) (h : e ≠ d) : (s.modDie d f).die e = s.die e := by
  simp [State.die, State.modDie, Quad.get_set_ne _ _ _ _ h]

@[simp] theorem State.die_modCore (s : State) (c : Nat) (d : Fin 4) (f : Core → Core) : (s.modCore c f).die d = s.die d := rfl

@[simp] theorem State.core_modDie (s : State) (c : Nat) (d : Fin 4) (f : Die → Die) : (s.modDie d f).core c = s.core c := rfl

/-- Two updates of one core are one. -/
theorem State.modCore_modCore (s : State) (c : Nat) (f g : Core → Core) : (s.modCore c f).modCore c g = s.modCore c (g ∘ f) := by
  simp [State.modCore, State.core, Tab.put_put_same, Function.comp]

/-- Two updates of one strand are one. -/
theorem State.modStrand_modStrand (s : State) (c : Nat) (t : Fin 4) (f g : Strand → Strand) :
    (s.modStrand c t f).modStrand c t g = s.modStrand c t (g ∘ f) := by
  simp [State.modStrand, State.modCore_modCore, Function.comp_def]

end Sys2Proof.Machine
end

