-- ==== Sys2Proof/Laws/Results.lean ====
section
/-! SUPPORT. What operations of fixed latency do: the registers as later bundles read them. -/

namespace Sys2Proof.Machine

/-! ## One write -/

theorem Strand.rd_zero (u : Strand) : u.rd 0 = 0 := rfl

theorem Strand.wr_zero (u : Strand) (v : Word) : u.wr 0 v = u := rfl

theorem Strand.wr_wf (u : Strand) (r : Reg) (v : Word) (h : Tab.wf 0 u.g = true) : Tab.wf 0 (u.wr r v).g = true := by
  unfold Strand.wr
  split
  · exact h
  · exact Tab.set_wf 0 u.g r.toNat v h

theorem Strand.rd_wr_same (u : Strand) (r : Reg) (v : Word) (h : Tab.wf 0 u.g = true) : (u.wr r v).rd r = if r = 0 then 0 else v := by
  unfold Strand.wr Strand.rd
  split
  · rfl
  · exact Tab.get_set_same 0 u.g r.toNat v h

theorem Strand.rd_wr_ne (u : Strand) (r q : Reg) (v : Word) (h : q ≠ r) : (u.wr r v).rd q = u.rd q := by
  unfold Strand.wr Strand.rd
  have hn : q.toNat ≠ r.toNat := fun e => h (BitVec.eq_of_toNat_eq e)
  split
  · rfl
  · split
    · rfl
    · rw [Tab.get_set_ne 0 u.g r.toNat q.toNat v hn]

@[simp] theorem Strand.wr_p (u : Strand) (r : Reg) (v : Word) : (u.wr r v).p = u.p := by unfold Strand.wr; split <;> rfl
@[simp] theorem Strand.wr_xflags (u : Strand) (r : Reg) (v : Word) : (u.wr r v).xflags = u.xflags := by unfold Strand.wr; split <;> rfl
@[simp] theorem Strand.wp_g (u : Strand) (p : Pred) (b : Bool) : (u.wp p b).g = u.g := rfl
@[simp] theorem Strand.wp_xflags (u : Strand) (p : Pred) (b : Bool) : (u.wp p b).xflags = u.xflags := rfl

theorem setBit24_get (w : BitVec 24) (n : Nat) (b : Bool) (j : Nat) (h : j < 24) :
    (setBit24 w n b).getLsbD j = if j = n then b else w.getLsbD j := by
  unfold setBit24
  by_cases hj : j = n
  · subst hj
    cases b <;> simp [h]
  · cases b
    · by_cases hlt : j < n
      · simp [hj, h, hlt]
      · have : ∃ k, j - n = k + 1 := ⟨j - n - 1, by omega⟩
        obtain ⟨k, hk⟩ := this
        simp [hj, h, hlt, hk]
    · by_cases hlt : j < n
      · simp [hj, h, hlt]
      · have : ∃ k, j - n = k + 1 := ⟨j - n - 1, by omega⟩
        obtain ⟨k, hk⟩ := this
        simp [hj, h, hlt, hk]

theorem Strand.rp_wp (u : Strand) (p q : Pred) (b : Bool) : (u.wp p b).rp q = if q = p then b else u.rp q := by
  unfold Strand.wp Strand.rp
  rw [setBit24_get _ _ _ _ q.isLt]
  by_cases h : q = p
  · simp [h]
  · have : q.val ≠ p.val := fun e => h (Fin.ext e)
    simp [h, this]

theorem Strand.wrDst_wf (u : Strand) (d : Dst) (v : Word) (h : Tab.wf 0 u.g = true) : Tab.wf 0 (u.wrDst d v).g = true := by
  cases d with
  | reg r => exact u.wr_wf r v h
  | pred p => exact h

theorem Strand.holds_wrDst_same (u : Strand) (d : Dst) (v : Word) (h : Tab.wf 0 u.g = true) : (u.wrDst d v).holds d = written d v := by
  cases d with
  | reg r => exact u.rd_wr_same r v h
  | pred p =>
    simp only [Strand.wrDst, Strand.holds, written, Strand.rp_wp, if_true]
    apply BitVec.eq_of_getLsbD_eq
    intro i hi
    by_cases h0 : i = 0
    · subst h0
      cases hv : v.getLsbD 0 <;> simp_all
    · cases hv : v.getLsbD 0 <;> simp_all

theorem Strand.holds_wrDst_ne (u : Strand) (d e : Dst) (v : Word) (h : e ≠ d) : (u.wrDst d v).holds e = u.holds e := by
  cases d with
  | reg r =>
    cases e with
    | reg q => exact u.rd_wr_ne r q v (fun x => h (by rw [x]))
    | pred q => simp [Strand.holds, Strand.wrDst, Strand.rp]
  | pred p =>
    cases e with
    | reg q => rfl
    | pred q =>
      have : q ≠ p := fun x => h (by rw [x])
      simp [Strand.holds, Strand.wrDst, Strand.rp_wp, this]

@[simp] theorem Strand.wrDst_xflags (u : Strand) (d : Dst) (v : Word) : (u.wrDst d v).xflags = u.xflags := by
  cases d <;> simp [Strand.wrDst]

/-! ## Landing -/

theorem Strand.orFlags_holds (u : Strand) (n : Nat) (f : Flags) (d : Dst) : (u.orFlags n f).holds d = u.holds d := by
  cases d <;> rfl

theorem Strand.land_wf (u : Strand) (p : Pend) (h : Tab.wf 0 u.g = true) : Tab.wf 0 (u.land p).g = true := u.wrDst_wf p.dst p.val h

theorem Strand.land_holds_ne (u : Strand) (p : Pend) (d : Dst) (h : d ≠ p.dst) : (u.land p).holds d = u.holds d := by
  unfold Strand.land
  rw [Strand.orFlags_holds]
  exact u.holds_wrDst_ne _ _ _ h

theorem Strand.land_holds_same (u : Strand) (p : Pend) (h : Tab.wf 0 u.g = true) : (u.land p).holds p.dst = written p.dst p.val := by
  unfold Strand.land
  rw [Strand.orFlags_holds]
  exact u.holds_wrDst_same _ _ h

theorem Strand.land_xflags (u : Strand) (p : Pend) : (u.land p).xflags = u.xflags ||| p.flags.zeroExtend 64 := by
  simp [Strand.land, Strand.orFlags, sGroup]

/-- The flags of a list of operations. -/
def flagsOf (ps : List Pend) : Word := ps.foldl (fun w p => w ||| p.flags.zeroExtend 64) 0

theorem foldl_or (ps : List Pend) (w : Word) : ps.foldl (fun w p => w ||| p.flags.zeroExtend 64) w = w ||| flagsOf ps := by
  unfold flagsOf
  induction ps generalizing w with
  | nil => simp
  | cons p ps ih =>
    simp only [List.foldl_cons]
    rw [ih, ih (0 ||| _)]
    simp [BitVec.or_assoc]

theorem lands_wf (ps : List Pend) (u : Strand) (h : Tab.wf 0 u.g = true) : Tab.wf 0 (ps.foldl (fun t p => t.land p) u).g = true := by
  induction ps generalizing u with
  | nil => exact h
  | cons p ps ih => exact ih _ (u.land_wf p h)

theorem lands_holds_ne (ps : List Pend) (u : Strand) (d : Dst) (h : d ∉ ps.map (·.dst)) :
    (ps.foldl (fun t p => t.land p) u).holds d = u.holds d := by
  induction ps generalizing u with
  | nil => rfl
  | cons p ps ih =>
    simp only [List.map_cons, List.mem_cons, not_or] at h
    rw [List.foldl_cons, ih _ h.2, u.land_holds_ne p d h.1]

theorem lands_holds_mem (ps : List Pend) (u : Strand) (hw : Tab.wf 0 u.g = true) (hn : (ps.map (·.dst)).Nodup) (p : Pend) (hp : p ∈ ps) :
    (ps.foldl (fun t p => t.land p) u).holds p.dst = written p.dst p.val := by
  induction ps generalizing u with
  | nil => cases hp
  | cons q ps ih =>
    simp only [List.map_cons, List.nodup_cons] at hn
    rw [List.foldl_cons]
    rcases List.mem_cons.mp hp with rfl | hp
    · rw [lands_holds_ne ps _ _ hn.1, u.land_holds_same p hw]
    · exact ih _ (u.land_wf q hw) hn.2 hp

theorem lands_xflags (ps : List Pend) (u : Strand) : (ps.foldl (fun t p => t.land p) u).xflags = u.xflags ||| flagsOf ps := by
  induction ps generalizing u with
  | nil => simp [flagsOf]
  | cons p ps ih =>
    rw [List.foldl_cons, ih, u.land_xflags, BitVec.or_assoc]
    congr 1
    conv => rhs; unfold flagsOf
    rw [List.foldl_cons, foldl_or]
    simp

theorem Strand.landDue_wf (u : Strand) (n : Nat) (h : Tab.wf 0 u.g = true) : Tab.wf 0 (u.landDue n).g = true := lands_wf _ _ h

/-! ## Memory where only strands differ -/

theorem sameMemory_of_strands (s t : State) (hc : ∀ c, { t.core c with st := (s.core c).st } = s.core c) (ht : { t with cores := s.cores } = s) :
    SameMemory s t := by
  have hs : ∀ c, (t.core c).scratch = (s.core c).scratch ∧ (t.core c).bankEpoch = (s.core c).bankEpoch
      ∧ (t.core c).wbuf = (s.core c).wbuf := by
    intro c
    rw [← hc c]
    exact ⟨rfl, rfl, rfl⟩
  refine ⟨?_, ?_⟩
  · intro c pa kid
    have e : t = { s with cores := t.cores } := congrArg (fun x : State => { x with cores := t.cores }) ht
    unfold State.byteAt
    have hp : t.peekLine (dieOf c) (pa / 128) kid = s.peekLine (dieOf c) (pa / 128) kid := by rw [e]; rfl
    rw [hp]
    congr 1
    funext d
    unfold State.coreByte
    rw [(hs c).2.2]
  · intro c a _
    unfold Core.spByte
    rw [(hs c).1, (hs c).2.1]

theorem State.core_modStrand (s : State) (c c' : Nat) (t : Fin 4) (f : Strand → Strand) :
    { (s.modStrand c t f).core c' with st := (s.core c').st } = s.core c' := by
  unfold State.modStrand State.modCore State.core
  simp only
  by_cases h : c' = c
  · subst h
    rw [Tab.get_put_same]
  · rw [Tab.get_put_ne _ _ _ _ _ h]

theorem sameMemory_modStrand (s : State) (c : Nat) (t : Fin 4) (f : Strand → Strand) : SameMemory s (s.modStrand c t f) :=
  sameMemory_of_strands _ _ (fun c' => s.core_modStrand c c' t f) rfl

theorem sameMemory_modStr (s : State) (f : Strand → Strand) : SameMemory s (s.modStr f) := sameMemory_modStrand s _ _ f

theorem State.modStr_eq (s : State) (f g : Strand → Strand) (h : f s.str = g s.str) : s.modStr f = s.modStr g := by
  unfold State.modStr State.modStrand State.modCore
  unfold State.str State.strand at h
  dsimp only
  rw [h]

theorem State.modStr_modStr (s : State) (f g : Strand → Strand) : (s.modStr f).modStr g = s.modStr fun u => g (f u) := by
  unfold State.modStr State.modStrand State.modCore State.core
  simp [Tab.put_put_same, Tab.get_put_same]

/-! ## The shared operation of fixed latency -/

/-- A list of operations put in flight together, that write different destinations after the same latency. -/
theorem results_of_pend (s : State) (l : Nat) (ps : List Pend) (rs : List (Dst × Word)) (f : Flags) (hw : s.regsWf)
    (hr : ∀ p ∈ ps, p.ready = s.str.n + l) (hn : (ps.map (·.dst)).Nodup) (he : rs = ps.map fun p => (p.dst, p.val))
    (hf : flagsOf ps = f.zeroExtend 64) :
    Results s (s.modStr fun u => { u with pend := u.pend ++ ps }) l rs f := by
  have hlate : ∀ k, (s.modStr fun u => { u with pend := u.pend ++ ps }).later k
      = ({ s.str with pend := s.str.pend ++ ps } : Strand).landDue (s.str.n + k) := by
    intro k; simp [State.later]
  have hin : ∀ k, l ≤ k → ps.filter (fun p => decide (p.ready ≤ s.str.n + k)) = ps := by
    intro k hk
    apply List.filter_eq_self.mpr
    intro p hp
    have := hr p hp
    simp; omega
  have hout : ∀ k, k < l → ps.filter (fun p => decide (p.ready ≤ s.str.n + k)) = [] := by
    intro k hk
    apply List.filter_eq_nil_iff.mpr
    intro p hp
    have := hr p hp
    simp; omega
  have hpend : ∀ (qs : List Pend) (u v : Strand) (d : Dst), u.g = v.g → u.p = v.p →
      (qs.foldl (fun t p => t.land p) u).holds d = (qs.foldl (fun t p => t.land p) v).holds d := by
    intro qs
    induction qs with
    | nil =>
      intro u v d hg hp
      cases d with
      | reg r => simp [Strand.holds, Strand.rd, hg]
      | pred p => simp [Strand.holds, Strand.rp, hp]
    | cons q qs ih =>
      intro u v d hg hp
      simp only [List.foldl_cons]
      apply ih
      · unfold Strand.land Strand.orFlags Strand.wrDst
        cases q.dst with
        | reg r => simp only [Strand.wr]; split <;> simp [hg]
        | pred p => simpa using hg
      · unfold Strand.land Strand.orFlags Strand.wrDst
        cases q.dst with
        | reg r => simpa using hp
        | pred p => simp [Strand.wp, hp]
  refine ⟨?_, ?_, ?_, ?_, sameMemory_modStr _ _⟩
  · intro dv hdv
    rw [he] at hdv
    obtain ⟨p, hp, rfl⟩ := List.mem_map.mp hdv
    rw [hlate]
    simp only [Strand.landDue, List.filter_append, hin l le_rfl, List.foldl_append]
    exact lands_holds_mem ps _ (lands_wf _ _ (by exact hw)) hn p hp
  · intro k d hd
    rw [hlate]
    simp only [State.later, Strand.landDue, List.filter_append, List.foldl_append]
    by_cases hk : k < l
    · rw [hout k hk, List.foldl_nil]
      exact hpend _ _ _ _ rfl rfl
    · have hd : d ∉ ps.map (·.dst) := by
        rcases hd with hd | hd
        · exact absurd hd hk
        · rw [he] at hd; simpa using hd
      rw [hin k (by omega), lands_holds_ne ps _ d hd]
      exact hpend _ _ _ _ rfl rfl
  · intro k
    rw [hlate]
    simp only [State.later, Strand.landDue, List.filter_append, List.foldl_append, lands_xflags]
    by_cases hk : k < l
    · rw [hout k hk]
      have : ¬ l ≤ k := by omega
      simp [flagsOf, this]
    · have hk : l ≤ k := by omega
      rw [hin k hk, hf]
      simp [hk]
  · simp only [State.str_modStr]
    rfl

/-- One operation of fixed latency. -/
theorem State.fixed_results (s : State) (l : Nat) (d : Dst) (v : Word) (f : Flags) (hw : s.regsWf) :
    Results s (s.fixed l d v f) l [(d, v)] f := by
  have h := results_of_pend s l [⟨s.str.n, s.str.n + l, s.iss.k, d, v, f⟩] [(d, v)] f hw (by simp) (by simp) rfl (by simp [flagsOf])
  unfold State.fixed
  rwa [s.modStr_eq _ (fun u => { u with pend := u.pend ++ [⟨s.str.n, s.str.n + l, s.iss.k, d, v, f⟩] }) rfl]

end Sys2Proof.Machine
end

