-- ==== Sys2Proof/Laws/Issue.lean ====
section
/-! SUPPORT. The end of a bundle: what finish does with each decision a bundle can take. -/

namespace Sys2Proof.Machine

theorem State.modIss_modStr (s : State) (f : Issue → Issue) (g : Strand → Strand) (hc : (f s.iss).core = s.iss.core)
    (ht : (f s.iss).strand = s.iss.strand) : (s.modIss f).modStr g = (s.modStr g).modIss f := by
  unfold State.modStr State.modIss
  simp only [hc, ht]
  rfl

@[simp] theorem State.closed_modIss (s : State) (f : Issue → Issue) : (s.modIss f).closed = s.closed := rfl

theorem State.modStr_congr (s : State) (f : Strand → Strand) : s.modStr f = s.modStr fun _ => f s.str := s.modStr_eq f _ rfl

/-- A bundle that redirects control. -/
theorem State.finish_redirect (s : State) (sup sync : Bool) (pc : Word) (hc : s.str.cond ≠ .exited) (hr : s.iss.redirect = some pc)
    (hs : s.iss.sysw = []) (hret : s.iss.ret = none) (he : s.iss.exits = false) (hp : s.iss.parks = false) :
    s.finish sup false sync = (s.modStr fun u =>
      { (if s.iss.taken then u.kill else u) with pc := pc, n := u.n + 1, cond := .ready, lkstep := sync, stepPend := false,
                                                 passed := u.keepPassed s.iss pc }).closed := by
  unfold State.finish State.nextPc
  rw [if_neg hc]
  simp only [hs, hret, hr, he, hp, State.applySys, List.foldl_nil, Bool.false_and, Bool.or_false, Bool.false_eq_true, if_false]
  cases ht : s.iss.taken
  · simp only [Bool.false_eq_true, if_false]
  · simp only [if_true, State.modStr_modStr]
    rfl

/-- A bundle at which no loop ends. -/
theorem State.finish_plain (s : State) (sup sync : Bool) (hc : s.str.cond ≠ .exited) (hr : s.iss.redirect = none) (ht : s.iss.taken = false)
    (hl : s.iss.noStep = true ∨ (s.str.liveLoops.filter fun e => e.2.stop == s.iss.pc && e.2.sup == sup) = [])
    (hs : s.iss.sysw = []) (hret : s.iss.ret = none) (he : s.iss.exits = false) (hp : s.iss.parks = false) :
    s.finish sup false sync = (s.modStr fun u =>
      { u with pc := s.iss.pc + 16, n := u.n + 1, cond := .ready, lkstep := sync, stepPend := false,
               passed := u.keepPassed s.iss (s.iss.pc + 16) }).closed := by
  have hn : s.nextPc sup = (s.iss.pc + 16, none, s) := by
    unfold State.nextPc
    rw [hr]
    rcases hl with hl | hl
    · simp only [hl, if_true]
    · simp only [hl, State.stepLoops]
      cases s.iss.noStep <;> rfl
  unfold State.finish
  rw [if_neg hc, hn]
  simp only [hs, hret, he, hp, ht, State.applySys, List.foldl_nil, Bool.false_and, Bool.or_false, Bool.false_eq_true, if_false]

/-! ## Live loops -/

theorem insertBy_perm {α : Type} (le : α → α → Bool) (a : α) (l : List α) : (insertBy le a l).Perm (a :: l) := by
  induction l with
  | nil => exact .refl _
  | cons b bs ih =>
    unfold insertBy
    split
    · exact .refl _
    · exact (ih.cons b).trans (.swap a b bs)

theorem sortBy_perm {α : Type} (le : α → α → Bool) (l : List α) : (sortBy le l).Perm l := by
  induction l with
  | nil => exact .refl _
  | cons a l ih => exact (insertBy_perm le a _).trans (ih.cons a)

theorem mem_sortBy {α : Type} (le : α → α → Bool) (l : List α) (a : α) : a ∈ sortBy le l ↔ a ∈ l := (sortBy_perm le l).mem_iff

theorem Strand.mem_liveLoops (u : Strand) (k : Fin 4) (l : LoopC) : (k, l) ∈ u.liveLoops ↔ u.lc.get k = some l := by
  unfold Strand.liveLoops
  rw [mem_sortBy, List.mem_filterMap]
  constructor
  · rintro ⟨i, _, hi⟩
    cases h : u.lc.get i with
    | none => simp [h] at hi
    | some m =>
      simp only [h, Option.map_some, Option.some.injEq, Prod.mk.injEq] at hi
      obtain ⟨rfl, rfl⟩ := hi
      exact h
  · intro h
    refine ⟨k, ?_, by simp [h]⟩
    match k with
    | 0 | 1 | 2 | 3 => simp

theorem State.noLoopEnd_filter (s : State) (h : s.noLoopEnd) :
    (s.str.liveLoops.filter fun e => e.2.stop == s.iss.pc && e.2.sup == s.str.sup) = [] := by
  apply List.filter_eq_nil_iff.mpr
  rintro ⟨k, l⟩ hm
  have := h k l ((s.str.mem_liveLoops k l).mp hm)
  simp only [Bool.and_eq_true, beq_iff_eq]
  exact this

/-! ## A quiet core -/

theorem State.trace_quiet (s : State) (c bit event agent a b cc : Nat) (h : (s.core c).tracectl.getLsbD 0 = false) :
    s.trace c bit event agent a b cc = s := by
  unfold State.trace
  dsimp only
  rw [h]
  rfl

end Sys2Proof.Machine
end

