-- ==== Sys2Proof/Laws/Mem.lean ====
section
/-! SUPPORT. What an access of memory may change: never a strand, an engine, the Stage Manager or the issue of the instruction. -/

namespace Sys2Proof.Machine

/-! ## Memory below the LLC -/

theorem Memory.write_wf (m : Mem) (a : Nat) (v : Byte) (h : Memory.wf m = true) : Memory.wf (Memory.write m a v) = true :=
  Tab.set_wf _ m a v h

theorem Memory.read_write_same (m : Mem) (a : Nat) (v : Byte) (h : Memory.wf m = true) : Memory.read (Memory.write m a v) a = v :=
  Tab.get_set_same _ m a v h

theorem Memory.read_write_ne (m : Mem) (a b : Nat) (v : Byte) (h : b ≠ a) : Memory.read (Memory.write m a v) b = Memory.read m b :=
  Tab.get_set_ne _ m a b v h

theorem Memory.writeList_wf (bs : List Byte) (m : Mem) (a : Nat) (h : Memory.wf m = true) : Memory.wf (Memory.writeList m a bs) = true := by
  induction bs generalizing m a with
  | nil => exact h
  | cons b bs ih => exact ih _ _ (Memory.write_wf m a b h)

theorem Memory.read_writeList_out (bs : List Byte) (m : Mem) (a x : Nat) (h : x < a ∨ a + bs.length ≤ x) :
    Memory.read (Memory.writeList m a bs) x = Memory.read m x := by
  induction bs generalizing m a with
  | nil => rfl
  | cons b bs ih =>
    simp only [List.length_cons] at h
    unfold Memory.writeList
    rw [ih _ _ (by omega), Memory.read_write_ne m a x b (by omega)]

theorem Memory.read_writeList_in (bs : List Byte) (m : Mem) (a i : Nat) (hm : Memory.wf m = true) (h : i < bs.length) :
    Memory.read (Memory.writeList m a bs) (a + i) = bs.getD i 0 := by
  induction bs generalizing m a i with
  | nil => simp at h
  | cons b bs ih =>
    unfold Memory.writeList
    cases i with
    | zero =>
      rw [Memory.read_writeList_out _ _ _ _ (by omega)]
      simpa using Memory.read_write_same m a b hm
    | succ i =>
      have := ih (Memory.write m a b) (a + 1) i (Memory.write_wf m a b hm) (by simpa using h)
      rw [show a + (i + 1) = a + 1 + i by omega, this]
      rfl

/-! ## What an access leaves alone -/

theorem Access.refl (s : State) : Access s s := ⟨rfl, fun _ => rfl⟩

theorem Access.trans {s t u : State} (h : Access s t) (k : Access t u) : Access s u := by
  obtain ⟨h1, h2⟩ := h
  obtain ⟨k1, k2⟩ := k
  refine ⟨?_, fun c => ?_⟩
  · rw [k1, h1]
  · rw [k2 c, h2 c]

theorem Access.iss {s t : State} (h : Access s t) : t.iss = s.iss := by rw [h.top]

theorem Access.strand {s t : State} (h : Access s t) (c : Nat) (x : Fin 4) : t.strand c x = s.strand c x := by
  unfold State.strand; rw [h.core c]

theorem Access.str {s t : State} (h : Access s t) : t.str = s.str := by
  unfold State.str; rw [h.iss, h.strand]

theorem Access.engine {s t : State} (h : Access s t) (c : Nat) (e : Eng) : t.engine c e = s.engine c e := by
  unfold State.engine; rw [h.core c]

theorem Access.scratch {s t : State} (h : Access s t) : SameScratch s t Nowhere := by
  intro c a _
  unfold Core.spByte; rw [h.core c]

/-- Only dies, memory, and counters of the whole machine differ. -/
theorem access_dies (s t : State) (h : t = { s with
    dies := t.dies, iod := { s.iod with msix := t.iod.msix, mgmtLog := t.iod.mgmtLog }, dram := t.dram, lineKey := t.lineKey, poisoned := t.poisoned,
    gmeta := t.gmeta, scSet := t.scSet, widNext := t.widNext, tick := t.tick }) : Access s t := by
  have hc : t.cores = s.cores := by rw [h]
  refine ⟨?_, fun c => ?_⟩
  · rw [hc]; exact h
  · have : t.core c = s.core c := by unfold State.core; rw [hc]
    rw [this]

/-- A change of one core in what an access may change. -/
theorem access_core (s : State) (c : Nat) (f : Core → Core) (h : ∀ k, f k = { k with
    tlb := (f k).tlb, ic := (f k).ic, tc := (f k).tc, dc := (f k).dc, wbuf := (f k).wbuf, stamp := (f k).stamp, sramUe := (f k).sramUe, torn := (f k).torn, traceLost := (f k).traceLost,
    traceDrop := (f k).traceDrop, traceN := (f k).traceN }) : Access s (s.modCore c f) := by
  refine ⟨rfl, fun c' => ?_⟩
  unfold State.modCore State.core
  simp only
  by_cases hc : c' = c
  · subst hc
    rw [Tab.get_put_same]
    exact h _
  · rw [Tab.get_put_ne _ _ _ _ _ hc]

theorem access_foldl {α : Type} (l : List α) (f : State → α → State) (h : ∀ s a, Access s (f s a)) (s : State) : Access s (l.foldl f s) := by
  induction l generalizing s with
  | nil => exact .refl s
  | cons a l ih => exact (h s a).trans (ih _)

/-! ## Lines and caches -/

theorem State.writeBack_access (s : State) (l : Line) : Access s (s.writeBack l) := by
  unfold State.writeBack
  split
  · exact .refl s
  · split
    · exact access_dies _ _ rfl
    · dsimp only
      split <;> split <;> exact access_dies _ _ rfl

theorem State.modDie_access (s : State) (d : Fin 4) (f : Die → Die) : Access s (s.modDie d f) := access_dies _ _ rfl

theorem State.count_access (s : State) (d : Fin 4) (a b n : Nat) : Access s (s.count d a b n) := s.modDie_access d _

theorem State.makeRoom_access (fuel : Nat) (s : State) (d : Fin 4) (a b n : Nat) : Access s (s.makeRoom d a b n fuel) := by
  induction fuel generalizing s with
  | zero => exact .refl s
  | succ k ih =>
    unfold State.makeRoom
    dsimp only
    split
    · exact .refl s
    · split
      · exact .refl s
      · exact (((s.writeBack_access _).trans (State.modDie_access _ _ _)).trans (State.count_access _ _ _ _ _)).trans (ih _)

theorem State.growRoom_access (fuel : Nat) (s : State) (d : Fin 4) (a b n : Nat) : Access s (s.growRoom d a b n fuel) := by
  induction fuel generalizing s with
  | zero => exact .refl s
  | succ k ih =>
    unfold State.growRoom
    dsimp only
    split
    · exact .refl s
    · split
      · split
        · exact .refl s
        · refine Access.trans ?_ (ih _)
          refine Access.trans ?_ (State.count_access _ _ _ _ _)
          refine Access.trans ?_ (State.modDie_access _ _ _)
          split
          · exact (s.writeBack_access _).trans (State.count_access _ _ _ _ _)
          · exact .refl s
      · exact .refl s

theorem State.countFill_access (s : State) (d : Fin 4) (a b : Nat) (c : Bool) : Access s (s.countFill d a b c) := by
  unfold State.countFill
  split
  · exact s.count_access _ _ _ _
  · split <;> exact s.count_access _ _ _ _

theorem State.installLine_access (s : State) (d : Fin 4) (l : Line) : Access s (s.installLine d l) := by
  unfold State.installLine
  exact (s.makeRoom_access _ _ _ _ _).trans (State.modDie_access _ _ _)

theorem State.touchLine_access (s : State) (d : Fin 4) (l : Line) : Access s (s.touchLine d l) := s.modDie_access d _

theorem State.homeLine_access (s s' : State) (line kid : Nat) (cmp : Bool) (va : Word) (l : Line) (h : s.homeLine line kid cmp va = .ok (l, s')) :
    Access s s' := by
  unfold State.homeLine at h
  dsimp only at h
  split at h
  · cases h
  · split at h
    · split at h
      · cases h
      · split at h
        · cases h
        · cases h; exact s.touchLine_access _ _
    · split at h
      · cases h
      · cases h
        exact (s.installLine_access _ _).trans (State.countFill_access _ _ _ _ _)

theorem State.dieLine_access (s s' : State) (d : Fin 4) (line kid : Nat) (cmp : Bool) (va : Word) (bs : List Byte)
    (h : s.dieLine d line kid cmp va = .ok (bs, s')) : Access s s' := by
  unfold State.dieLine at h
  split at h
  · split at h
    · rename_i hl
      cases h
      exact s.homeLine_access _ _ _ _ _ _ hl
    · cases h
  · split at h
    · cases h
    · split at h
      · split at h
        · cases h
        · split at h
          · cases h
          · cases h; exact s.touchLine_access _ _
      · split at h
        · cases h
        · rename_i hl
          cases h
          exact (s.homeLine_access _ _ _ _ _ _ hl).trans ((State.installLine_access _ _ _).trans (State.countFill_access _ _ _ _ _))

theorem State.dieRead_access (s s' : State) (d : Fin 4) (pa n kid : Nat) (cmp : Bool) (va : Word) (bs : List Byte)
    (h : s.dieRead d pa n kid cmp va = .ok (bs, s')) : Access s s' := by
  unfold State.dieRead at h
  split at h
  · rename_i hl
    cases h
    exact s.dieLine_access _ _ _ _ _ _ _ hl
  · cases h

theorem State.rewrite_access (s : State) (d : Fin 4) (l : Line) (data : List Byte) (dirty : Bool) : Access s (s.rewrite d l data dirty) := by
  unfold State.rewrite
  exact ((s.touchLine_access d l).trans (State.growRoom_access _ _ _ _ _ _)).trans (State.touchLine_access _ _ _)

theorem State.copyWrite_access (s : State) (d : Fin 4) (g : Line) (line : Nat) (bytes : List (Nat × Byte)) : Access s (s.copyWrite d g line bytes) := by
  unfold State.copyWrite
  split
  · exact .refl s
  · exact s.rewrite_access _ _ _ _

theorem State.poisonFill_access (s : State) (line kid : Nat) (cmp : Bool) : Access s (s.poisonFill line kid cmp) := by
  unfold State.poisonFill
  dsimp only
  split
  · exact (s.installLine_access _ _).trans (State.count_access _ _ _ _ _)
  · exact .refl s

/-! ## Writes -/

theorem State.applyUpd_access (s : State) (d : Fin 4) (u : Upd) : Access s (s.applyUpd d u) := by
  unfold State.applyUpd
  dsimp only
  have g : ∀ (rest : List Upd) (s0 : State), Access s0 (u.bytes.foldl (fun s b =>
      if rest.any (fun x => x.bytes.any (fun y => y.1 == b.1)) then
        s.modDie d fun k => { k with stale := k.stale.put b.1 ⟨b.2, u.wid, u.rels⟩ }
      else s.modDie d fun k => { k with stale := k.stale.del b.1 }) s0) := by
    intro rest s0
    apply access_foldl
    intro s b
    split <;> exact s.modDie_access _ _
  have e := (s.modDie_access d fun k => { k with upds := (s.die d).upds.filter (fun x => x.wid != u.wid) }).trans
    (g ((s.die d).upds.filter (fun x => x.wid != u.wid)) _)
  split
  · exact e
  · split
    · split
      · exact e.trans (State.copyWrite_access _ _ _ _ _)
      · exact e
    · exact e

theorem State.forceUpds_access (s : State) (d : Fin 4) (ids : List Nat) : Access s (s.forceUpds d ids) := by
  unfold State.forceUpds
  exact access_foldl _ _ (fun s u => s.applyUpd_access d u) s

theorem State.serialise_access (s : State) (w : GWrite) : Access s (s.serialise w) := by
  unfold State.serialise
  split
  · exact .refl s
  · dsimp only
    have pre : ∀ (h : Fin 4) (line : Nat) (ids : List Nat) (full : Bool),
        Access s (if full then ((s.forceUpds h w.hb).forceUpds w.die w.hb).forceUpds w.die ids
          else (((s.forceUpds h w.hb).forceUpds w.die w.hb).forceUpds w.die ids).poisonFill line w.kid w.cmp) := by
      intro h line ids full
      have e := ((s.forceUpds_access h w.hb).trans (State.forceUpds_access _ w.die w.hb)).trans (State.forceUpds_access _ w.die ids)
      split
      · exact e
      · exact e.trans (State.poisonFill_access _ _ _ _)
    split
    · split
      · exact (pre _ _ _ _).trans (State.touchLine_access _ _ _)
      · exact pre _ _ _ _
    · rename_i l s1 hb
      have hs1 : Access s s1 := by
        split at hb
        · split at hb
          · cases hb
          · cases hb; exact pre _ _ _ _
        · split at hb
          · cases hb
          · cases hb
            exact (pre _ _ _ _).trans ((State.installLine_access _ _ _).trans (State.countFill_access _ _ _ _ _))
      refine Access.trans ?_ (access_foldl _ _ ?_ _)
      · refine Access.trans (hs1.trans (s1.rewrite_access (homeOf _) l (mergeBytes l.data _ w.bytes) true)) (access_dies _ _ rfl)
      · intro s2 d
        split
        · exact .refl s2
        · split
          · split
            · exact s2.copyWrite_access _ _ _ _
            · exact .refl s2
          · exact s2.modDie_access _ _

theorem State.toSys_access (s : State) (lines : List Nat) : Access s (s.toSys lines) := by
  unfold State.toSys
  apply access_foldl
  intro s n
  split
  · exact .refl s
  · exact (s.writeBack_access _).trans (State.modDie_access _ _ _)

theorem State.performEnt_access (s : State) (c : Nat) (e : WEnt) : Access s (s.performEnt c e) := by
  unfold State.performEnt
  dsimp only
  refine Access.trans (s.toSys_access e.sys) (Access.trans ?_ (State.serialise_access _ _))
  split
  · exact access_core _ c _ fun _ => rfl
  · exact Access.trans (access_core _ c _ fun _ => rfl) (access_dies _ _ rfl)

theorem State.flushIds_access (s : State) (c : Nat) (ids : List Nat) : Access s (s.flushIds c ids) := by
  unfold State.flushIds
  exact access_foldl _ _ (fun s e => s.performEnt_access c e) s

theorem State.flushStrand_access (s : State) (c : Nat) (t : Fin 4) : Access s (s.flushStrand c t) := s.flushIds_access c _

theorem State.flushCore_access (s : State) (c : Nat) : Access s (s.flushCore c) := s.flushIds_access c _

theorem State.flushLines_access (s : State) (c : Nat) (p : Nat → Bool) : Access s (s.flushLines c p) := s.flushIds_access c _

theorem State.homeRead_access (s s' : State) (pa n kid : Nat) (cmp : Bool) (va : Word) (bs : List Byte)
    (h : s.homeRead pa n kid cmp va = .ok (bs, s')) : Access s s' := by
  unfold State.homeRead at h
  split at h
  · rename_i hl
    cases h
    exact s.homeLine_access _ _ _ _ _ _ hl
  · cases h

theorem State.dropCopy_access (s : State) (c line : Nat) : Access s (s.dropCopy c line) := by
  unfold State.dropCopy
  exact (s.flushLines_access c _).trans (access_core _ c _ fun _ => rfl)

theorem State.homeGo_access (s : State) (c line : Nat) (bytes : List (Nat × Byte)) (kid : Nat) (cmp : Bool) (hb : List Nat)
    (rels : List Rel) : Access s (s.homeGo c line bytes kid cmp hb rels).2 := by
  unfold State.homeGo
  dsimp only [State.drawWid]
  refine Access.trans ?_ (State.serialise_access _ _)
  refine Access.trans ?_ (access_dies _ _ rfl)
  split
  · exact (s.dropCopy_access c line).trans (State.flushIds_access _ c hb)
  · exact .refl s

theorem State.homeWrite_access (s s' : State) (c pa : Nat) (data : List Byte) (kid : Nat) (cmp : Bool) (hb : List Nat) (rels : List Rel)
    (va : Word) (id : Nat) (h : s.homeWrite c pa data kid cmp hb rels va = .ok (id, s')) : Access s s' := by
  unfold State.homeWrite at h
  split at h
  · cases h
  · have e := s.homeGo_access c (pa / 128) ((List.range data.length).map fun i => (pa + i, data.getD i 0)) kid cmp hb rels
    rw [Except.ok.inj h] at e
    exact e

/-! ## Translation -/

theorem State.walkFrom_access (fuel : Nat) (s s' : State) (d : Fin 4) (kid : Nat) (va : Word) (a lvl : Nat) (l : Leaf)
    (h : s.walkFrom d kid va a fuel lvl = .ok (l, s')) : Access s s' := by
  induction fuel generalizing s a lvl with
  | zero => cases h
  | succ k ih =>
    unfold State.walkFrom at h
    dsimp only at h
    split at h
    · cases h
    · split at h
      · split at h <;> cases h
      · rename_i hr
        have hr := s.dieRead_access _ _ _ _ _ _ _ _ hr
        split at h
        · cases h
        · split at h
          · cases h
          · split at h
            · split at h
              · cases h
              · cases h; exact hr
            · split at h
              · cases h
              · exact hr.trans (ih _ _ _ h)

theorem State.walk_access (s s' : State) (d : Fin 4) (sp : Space3) (va : Word) (l : Leaf) (h : s.walk d sp va = .ok (l, s')) : Access s s' :=
  s.walkFrom_access _ _ _ _ _ _ _ _ h

theorem State.pick_access (s : State) (e : Option TlbEnt) (f : Option Leaf) : Access s (s.pick e f).2 := by
  unfold State.pick
  split
  · exact .refl s
  · dsimp only
    split
    · exact .refl s
    · exact access_dies _ _ rfl

theorem State.pick_eq_access (s s' : State) (e : Option TlbEnt) (f l : Option Leaf) (h : s.pick e f = (l, s')) : Access s s' := by
  have := s.pick_access e f
  rw [h] at this
  exact this

theorem State.fillTlb_access (s : State) (c : Nat) (d : Fin 4) (sp : Space3) (va : Word) (l : Leaf) : Access s (s.fillTlb c d sp va l) := by
  unfold State.fillTlb
  dsimp only
  split
  · exact (s.modDie_access d _).trans (access_core _ c _ fun _ => rfl)
  · exact s.modDie_access d _

theorem State.walkVia_access (ps : List TlbEnt) (s s' : State) (d : Fin 4) (sp : Space3) (va : Word) (l : Leaf)
    (h : s.walkVia d sp va ps = .ok (l, s')) : Access s s' := by
  induction ps generalizing s with
  | nil => exact s.walk_access _ _ _ _ _ h
  | cons p ps ih =>
    unfold State.walkVia at h
    dsimp only at h
    split at h
    · exact ih _ h
    · have e : Access s s.drawBit.2 := access_dies _ _ rfl
      split at h
      · exact e.trans (State.walkFrom_access _ _ _ _ _ _ _ _ _ h)
      · exact e.trans (ih _ h)

theorem State.translate_access (s s' : State) (c : Nat) (d : Fin 4) (sp : Space3) (va : Word) (l : Leaf)
    (h : s.translate c d sp va = .ok (l, s')) : Access s s' := by
  unfold State.translate at h
  dsimp only at h
  split at h
  · rename_i h1
    cases h
    exact State.pick_eq_access _ _ _ _ _ h1
  · rename_i s1 h1
    have e1 : Access s s1 := State.pick_eq_access _ _ _ _ _ h1
    split at h
    · rename_i h2
      cases h
      exact (e1.trans (State.pick_eq_access _ _ _ _ _ h2)).trans (State.fillTlb_access _ _ _ _ _ _)
    · rename_i s2 h2
      have e2 : Access s1 s2 := State.pick_eq_access _ _ _ _ _ h2
      split at h
      · rename_i hw
        cases h
        exact ((e1.trans e2).trans (State.walkVia_access _ _ _ _ _ _ _ hw)).trans (State.fillTlb_access _ _ _ _ _ _)
      · cases h

/-- Every check an access passes leaves the strands, the engines and the Stage Manager alone. -/
theorem State.gcheck_access (s s' : State) (c : Nat) (d : Fin 4) (sp : Space3) (ea : Word) (n : Nat) (k : Acc3) (l : Leaf)
    (h : s.gcheck c d sp ea n k = .ok (l, s')) : Access s s' := by
  unfold State.gcheck at h
  split at h
  · cases h
  · split at h
    · cases h
    · split at h
      · cases h
      · rename_i l1 s1 ht
        have : s' = s1 ∧ l = l1 := by
          dsimp only at h
          (repeat' split at h) <;> first | (cases h; exact ⟨rfl, rfl⟩) | cases h
        rw [this.1]
        exact s.translate_access _ _ _ _ _ _ ht

theorem State.dcTouch_access (s : State) (c line kid : Nat) (dirty : Bool) : Access s (s.dcTouch c line kid dirty) := by
  unfold State.dcTouch
  dsimp only
  split
  · exact .refl s
  · split
    · exact access_core s c _ fun _ => rfl
    · split
      · exact access_core s c _ fun _ => rfl
      · split
        · exact .refl s
        · refine Access.trans ?_ (access_core _ c _ fun _ => rfl)
          split
          · exact s.flushLines_access c _
          · exact .refl s

/-! ## Accesses of engines and of the other agents of a core -/

theorem State.vread_access (fuel : Nat) (s s' : State) (c : Nat) (sp : Space3) (va : Word) (n : Nat) (bs : List Byte)
    (h : s.vread c sp fuel va n = .ok (bs, s')) : Access s s' := by
  induction fuel generalizing s va n bs with
  | zero => cases h; exact .refl _
  | succ k ih =>
    unfold State.vread at h
    dsimp only at h
    split at h
    · cases h; exact .refl _
    · split at h
      · cases h
      · rename_i hg
        split at h
        · cases h
        · rename_i hr
          split at h
          · cases h
          · rename_i hv
            cases h
            exact ((s.gcheck_access _ _ _ _ _ _ _ _ hg).trans (State.homeRead_access _ _ _ _ _ _ _ _ hr)).trans (ih _ _ _ _ hv)

theorem State.vwrite_access (fuel : Nat) (s s' : State) (c : Nat) (sp : Space3) (hb : List Nat) (rels : List Rel) (va : Word) (bs : List Byte)
    (ids : List Nat) (h : s.vwrite c sp hb rels fuel va bs = .ok (ids, s')) : Access s s' := by
  induction fuel generalizing s va bs ids with
  | zero => cases h; exact .refl _
  | succ k ih =>
    unfold State.vwrite at h
    dsimp only at h
    split at h
    · cases h; exact .refl _
    · split at h
      · cases h
      · rename_i hg
        split at h
        · cases h
        · rename_i hr
          split at h
          · cases h
          · rename_i hv
            cases h
            exact ((s.gcheck_access _ _ _ _ _ _ _ _ hg).trans (State.homeWrite_access _ _ _ _ _ _ _ _ _ _ _ hr)).trans (ih _ _ _ _ hv)

theorem State.vget_access (s s' : State) (c : Nat) (sp : Space3) (va : Word) (n : Nat) (bs : List Byte)
    (h : s.vget c sp va n = .ok (bs, s')) : Access s s' := s.vread_access _ _ _ _ _ _ _ h

theorem State.vput_access (s s' : State) (c : Nat) (sp : Space3) (va : Word) (bs : List Byte) (hb : List Nat) (rels : List Rel) (ids : List Nat)
    (h : s.vput c sp va bs hb rels = .ok (ids, s')) : Access s s' := s.vwrite_access _ _ _ _ _ _ _ _ _ h

/-! ## Tracing and logs -/

theorem State.traceWrite_access (s : State) (c event agent a b cc : Nat) : Access s (s.traceWrite c event agent a b cc) := by
  unfold State.traceWrite
  dsimp only
  split
  · exact access_core s c _ fun _ => rfl
  · split
    · exact access_core s c _ fun _ => rfl
    · rename_i h1
      refine ((s.vput_access _ _ _ _ _ _ _ _ h1).trans ?_).trans (access_core _ c _ fun _ => rfl)
      split
      · rename_i h2
        exact State.vput_access _ _ _ _ _ _ _ _ _ h2
      · exact .refl _

/-- A trace record never changes a strand. -/
theorem State.trace_access (s : State) (c bit event agent a b cc : Nat) : Access s (s.trace c bit event agent a b cc) := by
  unfold State.trace
  dsimp only
  split
  · refine Access.trans ?_ (State.traceWrite_access _ _ _ _ _ _ _)
    split
    · exact .refl s
    · split
      · exact (s.traceWrite_access _ _ _ _ _ _).trans (access_core _ c _ fun _ => rfl)
      · exact s.traceWrite_access _ _ _ _ _ _
  · exact .refl s

theorem State.waitRec_access (s : State) (c agent kind detail d e f : Nat) : Access s (s.waitRec c agent kind detail d e f) := by
  unfold State.waitRec
  dsimp only [State.drawBit, State.drawWord]
  split
  · refine Access.trans (t := { s with tick := s.tick + 1 + 1 }) (access_dies _ _ rfl) ?_
    split
    · exact State.trace_access _ _ _ _ _ _ _ _
    · exact .refl _
  · exact .refl s

theorem State.msix_access (s : State) (v : Nat) : Access s (s.msix v) := access_dies _ _ rfl

theorem State.logEvent_access (s : State) (d : Fin 4) (event core launch : Nat) : Access s (s.logEvent d event core launch) :=
  (s.modDie_access d _).trans (State.msix_access _ _)

/-- Fetching a bundle never changes a strand. -/
theorem State.fetch_access (s s' : State) (c : Nat) (t : Fin 4) (w : Nat) (h : s.fetch c t = .ok (w, s')) : Access s s' := by
  unfold State.fetch at h
  dsimp only at h
  split at h
  · cases h
  · rename_i l s1 hg
    have e1 := s.gcheck_access _ _ _ _ _ _ _ _ hg
    have mem : ∀ (s2 : State), Access s s2 → ∀ w s', (match s2.dieRead (dieOf c) (l.pa (s.strand c t).pc.toNat) 16 (pteKid l.e) (pteCh l.e) (s.strand c t).pc with
        | .error tr => .error tr
        | .ok (bs, s2) => .ok (le bs, s2.modCore c fun k =>
            { k with ic := (⟨(s.strand c t).pc.toNat, l.pa (s.strand c t).pc.toNat, le bs⟩ ::
                k.ic.filter fun e => e.va != (s.strand c t).pc.toNat).take icBundles }))
          = (Except.ok (w, s') : Except Trap (Nat × State)) → Access s s' := by
      intro s2 e w s' hm
      split at hm
      · cases hm
      · rename_i hr
        cases hm
        exact (e.trans (State.dieRead_access _ _ _ _ _ _ _ _ _ hr)).trans (access_core _ c _ fun _ => rfl)
    split at h
    · exact mem _ e1 _ _ h
    · split at h
      · cases h; exact e1
      · have e2 : Access s s1.drawBit.2 := e1.trans (access_dies _ _ rfl)
        cases hb : s1.drawBit with
        | mk b s2 =>
          rw [hb] at h e2
          cases b
          · exact mem _ e2 _ _ h
          · cases h; exact e2

end Sys2Proof.Machine
end

