-- ==== Sys2Proof/Laws/PerInstr.lean ====
section
/-! SUPPORT. Decoding what was encoded, instruction by instruction. -/

namespace Sys2Proof

/-! ## Fields -/

/-- Values that fit their widths. -/
def fits : List Nat → List Nat → Prop
  | [], [] => True
  | w :: ws, v :: vs => v < 2 ^ w ∧ fits ws vs
  | _, _ => False

theorem unpack_pack : ∀ (ws vs : List Nat), fits ws vs → unpack ws (pack ws vs) = vs
  | [], [], _ => rfl
  | w :: ws, v :: vs, h => by
    have hw : 0 < 2 ^ w := Nat.two_pow_pos w
    simp only [unpack, pack, Nat.add_mul_mod_self_left, Nat.mod_eq_of_lt h.1, Nat.add_mul_div_left _ _ hw, Nat.div_eq_of_lt h.1,
      Nat.zero_add, unpack_pack ws vs h.2]
  | [], _ :: _, h => h.elim
  | _ :: _, [], h => h.elim

theorem pack_lt : ∀ (ws vs : List Nat), fits ws vs → pack ws vs < 2 ^ ws.sum
  | [], [], _ => by simp [pack]
  | w :: ws, v :: vs, h => by
    have ih := pack_lt ws vs h.2
    have h1 := h.1
    simp only [pack, List.sum_cons, pow_add]
    calc v + 2 ^ w * pack ws vs < 2 ^ w + 2 ^ w * pack ws vs := by omega
      _ = 2 ^ w * (pack ws vs + 1) := by ring
      _ ≤ 2 ^ w * 2 ^ ws.sum := Nat.mul_le_mul_left _ ih
  | [], _ :: _, h => h.elim
  | _ :: _, [], h => h.elim

/-! ## Codes -/

@[simp] theorem Space.ofCode_code (x : Space) : Space.ofCode x.code = some x := by cases x <;> rfl
theorem Space.code_lt (x : Space) : x.code < 2 ^ 1 := by cases x <;> decide
@[simp] theorem Scope.ofCode_code (x : Scope) : Scope.ofCode x.code = some x := by cases x <;> rfl
theorem Scope.code_lt (x : Scope) : x.code < 2 ^ 2 := by cases x <;> decide
@[simp] theorem Ord.ofCode_code (x : Ord) : Ord.ofCode x.code = some x := by cases x <;> rfl
theorem Ord.code_lt (x : Ord) : x.code < 2 ^ 3 := by cases x <;> decide
@[simp] theorem Size.ofCode_code (x : Size) : Size.ofCode x.code = some x := by cases x <;> rfl
theorem Size.code_lt (x : Size) : x.code < 2 ^ 2 := by cases x <;> decide
@[simp] theorem MulhKind.ofCode_code (x : MulhKind) : MulhKind.ofCode x.code = some x := by cases x <;> rfl
theorem MulhKind.code_lt (x : MulhKind) : x.code < 2 ^ 2 := by cases x <;> decide
@[simp] theorem Cond.ofCode_code (x : Cond) : Cond.ofCode x.code = some x := by cases x <;> rfl
theorem Cond.code_lt (x : Cond) : x.code < 2 ^ 3 := by cases x <;> decide
@[simp] theorem FCond.ofCode_code (x : FCond) : FCond.ofCode x.code = some x := by cases x <;> rfl
theorem FCond.code_lt (x : FCond) : x.code < 2 ^ 3 := by cases x <;> decide
@[simp] theorem SgnKind.ofCode_code (x : SgnKind) : SgnKind.ofCode x.code = some x := by cases x <;> rfl
theorem SgnKind.code_lt (x : SgnKind) : x.code < 2 ^ 2 := by cases x <;> decide
@[simp] theorem CvtType.ofCode_code (x : CvtType) : CvtType.ofCode x.code = some x := by cases x <;> rfl
theorem CvtType.code_lt (x : CvtType) : x.code < 2 ^ 4 := by cases x <;> decide
@[simp] theorem Level.ofCode_code (x : Level) : Level.ofCode x.code = some x := by cases x <;> rfl
theorem Level.code_lt (x : Level) : x.code < 2 ^ 2 := by cases x <;> decide
@[simp] theorem TlbiKind.ofCode_code (x : TlbiKind) : TlbiKind.ofCode x.code = some x := by cases x <;> rfl
theorem TlbiKind.code_lt (x : TlbiKind) : x.code < 2 ^ 2 := by cases x <;> decide
@[simp] theorem Scope3.ofCode_code (x : Scope3) : Scope3.ofCode x.code = some x := by cases x <;> rfl
theorem Scope3.code_lt (x : Scope3) : x.code < 2 ^ 2 := by cases x <;> decide
@[simp] theorem BankMode.ofCode_code (x : BankMode) : BankMode.ofCode x.code = some x := by cases x <;> rfl
theorem BankMode.code_lt (x : BankMode) : x.code < 2 ^ 2 := by cases x <;> decide
@[simp] theorem Aop.ofCode_code (x : Aop) : Aop.ofCode x.code = some x := by cases x <;> rfl
theorem Aop.code_lt (x : Aop) : x.code < 2 ^ 4 := by cases x <;> decide
@[simp] theorem FlushKind.ofCode_code (x : FlushKind) : FlushKind.ofCode x.code = some x := by cases x <;> rfl
theorem FlushKind.code_lt (x : FlushKind) : x.code < 2 ^ 2 := by cases x <;> decide

@[simp] theorem Space.ofCode_zero : Space.ofCode 0 = some .g := rfl
@[simp] theorem Space.ofCode_one : Space.ofCode 1 = some .sp := rfl
@[simp] theorem Ord.ofCode_zero : Ord.ofCode 0 = some .rlx := rfl
@[simp] theorem Ord.ofCode_four : Ord.ofCode 4 = some .sc := rfl
@[simp] theorem Scope.ofCode_zero : Scope.ofCode 0 = some .cr := rfl
@[simp] theorem Scope.ofCode_two : Scope.ofCode 2 = some .pkg := rfl
@[simp] theorem Bool.toNat_beq_one (b : Bool) : (b.toNat == 1) = b := by cases b <;> rfl
@[simp] theorem pr_val (p : Pred) : pr p.val = some p := by simp [pr, p.isLt]
@[simp] theorem prIf_optPred (p : Option Pred) : prIf p.isSome.toNat (optPred p) = some p := by
  cases p with
  | none => simp [prIf, optPred]
  | some p => simp [prIf, optPred]
@[simp] theorem prIf_map (p : Option Pred) : prIf p.isSome.toNat ((p.map (fun p => p.val)).getD 0) = some p := prIf_optPred p
@[simp] theorem q4_val (n : Fin 4) : q4 n.val = n := by simp [q4]
@[simp] theorem fsz_val (n : Fin 7) : fsz n.val = some n := by simp [fsz, n.isLt]
theorem optPred_lt (p : Option Pred) : optPred p < 24 := by
  cases p with
  | none => decide
  | some p => exact p.isLt
theorem map_val_lt (p : Option Pred) : (p.map (fun p => p.val)).getD 0 < 24 := optPred_lt p
@[simp] theorem rg_toNat (r : Reg) : rg r.toNat = r := by simp [rg]
@[simp] theorem rg_zero : rg 0 = 0 := rfl
@[simp] theorem tk_toNat (t : Tok) : tk t.pop.toNat t.push.toNat = t := by simp [tk]

end Sys2Proof

namespace Sys2Proof.Laws

set_option Elab.async false

/-- A well-formed instruction of Unoazar has a body and an opcode that decode to it. -/
def RoundTrip.Statement (i : Instr) : Prop :=
  i.wf = true → i.isStep = false → ∃ op body, encodeBody i = some (op, body) ∧ op < 256 ∧ body < 2 ^ 47 ∧ decodeBody op body = .ok i

/-- An instruction round-trips if its fields fit 47 bits and decode to it. -/
theorem RoundTrip.ofFields {i : Instr} {op : Nat} {ws vs : List Nat} (hf : i.fields = some (op, ws, vs)) (hop : op < 256) (hs : ws.sum = 47)
    (hfit : fits ws vs) (hd : i.wf = true → ∀ body, unpack ws body = vs → decodeBody op body = .ok i) : RoundTrip.Statement i := fun hw _ =>
  ⟨op, pack ws vs, by rw [encodeBody, hf]; rfl, hop, hs ▸ pack_lt ws vs hfit, hd hw _ (unpack_pack ws vs hfit)⟩

/-- A step of another agent has no encoding to speak of. -/
theorem RoundTrip.ofStep {i : Instr} (h : i.isStep = true) : RoundTrip.Statement i := fun _ h' => by rw [h] at h'; cases h'

theorem RoundTrip.add (d a b : Reg) : RoundTrip.Statement (.add d a b) := by
  refine RoundTrip.ofFields rfl (by decide) rfl ?_ (fun hw body hb => ?_)
  · have h0 := d.isLt
    have h1 := a.isLt
    have h2 := b.isLt
    simp only [fits, layR, and_true]
    omega
  · simp only [layR] at hb
    simp [dec0, decodeBody, decDAB, hb, need, hw]
theorem RoundTrip.sub (d a b : Reg) : RoundTrip.Statement (.sub d a b) := by
  refine RoundTrip.ofFields rfl (by decide) rfl ?_ (fun hw body hb => ?_)
  · have h0 := d.isLt
    have h1 := a.isLt
    have h2 := b.isLt
    simp only [fits, layR, and_true]
    omega
  · simp only [layR] at hb
    simp [dec0, decodeBody, decDAB, hb, need, hw]
theorem RoundTrip.addi (d a : Reg) (imm : BitVec 32) : RoundTrip.Statement (.addi d a imm) := by
  refine RoundTrip.ofFields rfl (by decide) rfl ?_ (fun hw body hb => ?_)
  · have h0 := d.isLt
    have h1 := a.isLt
    have h2 := imm.isLt
    simp only [fits, layI, and_true]
    omega
  · simp only [layI] at hb
    simp [dec0, decodeBody, decI, hb, need, hw]
theorem RoundTrip.mul (d a b : Reg) : RoundTrip.Statement (.mul d a b) := by
  refine RoundTrip.ofFields rfl (by decide) rfl ?_ (fun hw body hb => ?_)
  · have h0 := d.isLt
    have h1 := a.isLt
    have h2 := b.isLt
    simp only [fits, layR, and_true]
    omega
  · simp only [layR] at hb
    simp [dec0, decodeBody, decDAB, hb, need, hw]
theorem RoundTrip.mulh (d a b : Reg) (k : MulhKind) : RoundTrip.Statement (.mulh d a b k) := by
  refine RoundTrip.ofFields rfl (by decide) rfl ?_ (fun hw body hb => ?_)
  · have h0 := d.isLt
    have h1 := a.isLt
    have h2 := b.isLt
    have h3 := k.code_lt
    simp only [fits, and_true]
    omega
  · simp [dec0, decodeBody, hb, need, ask, hw]
theorem RoundTrip.div (d a b : Reg) (u : Bool) : RoundTrip.Statement (.div d a b u) := by
  refine RoundTrip.ofFields rfl (by decide) rfl ?_ (fun hw body hb => ?_)
  · have h0 := d.isLt
    have h1 := a.isLt
    have h2 := b.isLt
    have h3 := Bool.toNat_lt u
    simp only [fits, layR1, and_true]
    omega
  · simp only [layR1] at hb
    simp [dec0, decodeBody, decDABx, hb, need, hw]
theorem RoundTrip.rem (d a b : Reg) (u : Bool) : RoundTrip.Statement (.rem d a b u) := by
  refine RoundTrip.ofFields rfl (by decide) rfl ?_ (fun hw body hb => ?_)
  · have h0 := d.isLt
    have h1 := a.isLt
    have h2 := b.isLt
    have h3 := Bool.toNat_lt u
    simp only [fits, layR1, and_true]
    omega
  · simp only [layR1] at hb
    simp [dec0, decodeBody, decDABx, hb, need, hw]
theorem RoundTrip.and (d a b : Reg) : RoundTrip.Statement (.and d a b) := by
  refine RoundTrip.ofFields rfl (by decide) rfl ?_ (fun hw body hb => ?_)
  · have h0 := d.isLt
    have h1 := a.isLt
    have h2 := b.isLt
    simp only [fits, layR, and_true]
    omega
  · simp only [layR] at hb
    simp [dec0, decodeBody, decDAB, hb, need, hw]
theorem RoundTrip.or (d a b : Reg) : RoundTrip.Statement (.or d a b) := by
  refine RoundTrip.ofFields rfl (by decide) rfl ?_ (fun hw body hb => ?_)
  · have h0 := d.isLt
    have h1 := a.isLt
    have h2 := b.isLt
    simp only [fits, layR, and_true]
    omega
  · simp only [layR] at hb
    simp [dec0, decodeBody, decDAB, hb, need, hw]
theorem RoundTrip.xor (d a b : Reg) : RoundTrip.Statement (.xor d a b) := by
  refine RoundTrip.ofFields rfl (by decide) rfl ?_ (fun hw body hb => ?_)
  · have h0 := d.isLt
    have h1 := a.isLt
    have h2 := b.isLt
    simp only [fits, layR, and_true]
    omega
  · simp only [layR] at hb
    simp [dec0, decodeBody, decDAB, hb, need, hw]
theorem RoundTrip.andi (d a : Reg) (imm : BitVec 32) : RoundTrip.Statement (.andi d a imm) := by
  refine RoundTrip.ofFields rfl (by decide) rfl ?_ (fun hw body hb => ?_)
  · have h0 := d.isLt
    have h1 := a.isLt
    have h2 := imm.isLt
    simp only [fits, layI, and_true]
    omega
  · simp only [layI] at hb
    simp [dec0, decodeBody, decI, hb, need, hw]
theorem RoundTrip.ori (d a : Reg) (imm : BitVec 32) : RoundTrip.Statement (.ori d a imm) := by
  refine RoundTrip.ofFields rfl (by decide) rfl ?_ (fun hw body hb => ?_)
  · have h0 := d.isLt
    have h1 := a.isLt
    have h2 := imm.isLt
    simp only [fits, layI, and_true]
    omega
  · simp only [layI] at hb
    simp [dec0, decodeBody, decI, hb, need, hw]
theorem RoundTrip.xori (d a : Reg) (imm : BitVec 32) : RoundTrip.Statement (.xori d a imm) := by
  refine RoundTrip.ofFields rfl (by decide) rfl ?_ (fun hw body hb => ?_)
  · have h0 := d.isLt
    have h1 := a.isLt
    have h2 := imm.isLt
    simp only [fits, layI, and_true]
    omega
  · simp only [layI] at hb
    simp [dec0, decodeBody, decI, hb, need, hw]
theorem RoundTrip.shl (d a b : Reg) : RoundTrip.Statement (.shl d a b) := by
  refine RoundTrip.ofFields rfl (by decide) rfl ?_ (fun hw body hb => ?_)
  · have h0 := d.isLt
    have h1 := a.isLt
    have h2 := b.isLt
    simp only [fits, layR, and_true]
    omega
  · simp only [layR] at hb
    simp [dec0, decodeBody, decDAB, hb, need, hw]
theorem RoundTrip.shr (d a b : Reg) (ar : Bool) : RoundTrip.Statement (.shr d a b ar) := by
  refine RoundTrip.ofFields rfl (by decide) rfl ?_ (fun hw body hb => ?_)
  · have h0 := d.isLt
    have h1 := a.isLt
    have h2 := b.isLt
    have h3 := Bool.toNat_lt ar
    simp only [fits, layR1, and_true]
    omega
  · simp only [layR1] at hb
    simp [dec0, decodeBody, decDABx, hb, need, hw]
theorem RoundTrip.shli (d a : Reg) (n : BitVec 6) : RoundTrip.Statement (.shli d a n) := by
  refine RoundTrip.ofFields rfl (by decide) rfl ?_ (fun hw body hb => ?_)
  · have h0 := d.isLt
    have h1 := a.isLt
    have h2 := n.isLt
    simp only [fits, and_true]
    omega
  · simp [dec1, decodeBody, hb, need, hw]
theorem RoundTrip.shri (d a : Reg) (n : BitVec 6) (ar : Bool) : RoundTrip.Statement (.shri d a n ar) := by
  refine RoundTrip.ofFields rfl (by decide) rfl ?_ (fun hw body hb => ?_)
  · have h0 := d.isLt
    have h1 := a.isLt
    have h2 := n.isLt
    have h3 := Bool.toNat_lt ar
    simp only [fits, and_true]
    omega
  · simp [dec1, decodeBody, hb, need, hw]
theorem RoundTrip.rotl (d a b : Reg) : RoundTrip.Statement (.rotl d a b) := by
  refine RoundTrip.ofFields rfl (by decide) rfl ?_ (fun hw body hb => ?_)
  · have h0 := d.isLt
    have h1 := a.isLt
    have h2 := b.isLt
    simp only [fits, layR, and_true]
    omega
  · simp only [layR] at hb
    simp [dec1, decodeBody, decDAB, hb, need, hw]
theorem RoundTrip.min (d a b : Reg) (u : Bool) : RoundTrip.Statement (.min d a b u) := by
  refine RoundTrip.ofFields rfl (by decide) rfl ?_ (fun hw body hb => ?_)
  · have h0 := d.isLt
    have h1 := a.isLt
    have h2 := b.isLt
    have h3 := Bool.toNat_lt u
    simp only [fits, layR1, and_true]
    omega
  · simp only [layR1] at hb
    simp [dec1, decodeBody, decDABx, hb, need, hw]
theorem RoundTrip.max (d a b : Reg) (u : Bool) : RoundTrip.Statement (.max d a b u) := by
  refine RoundTrip.ofFields rfl (by decide) rfl ?_ (fun hw body hb => ?_)
  · have h0 := d.isLt
    have h1 := a.isLt
    have h2 := b.isLt
    have h3 := Bool.toNat_lt u
    simp only [fits, layR1, and_true]
    omega
  · simp only [layR1] at hb
    simp [dec1, decodeBody, decDABx, hb, need, hw]
theorem RoundTrip.clz (d a : Reg) : RoundTrip.Statement (.clz d a) := by
  refine RoundTrip.ofFields rfl (by decide) rfl ?_ (fun hw body hb => ?_)
  · have h0 := d.isLt
    have h1 := a.isLt
    simp only [fits, layR, and_true]
    omega
  · simp only [layR] at hb
    simp [dec1, decodeBody, decDA, hb, need, hw]
theorem RoundTrip.popc (d a : Reg) : RoundTrip.Statement (.popc d a) := by
  refine RoundTrip.ofFields rfl (by decide) rfl ?_ (fun hw body hb => ?_)
  · have h0 := d.isLt
    have h1 := a.isLt
    simp only [fits, layR, and_true]
    omega
  · simp only [layR] at hb
    simp [dec1, decodeBody, decDA, hb, need, hw]
theorem RoundTrip.bswap (d a : Reg) : RoundTrip.Statement (.bswap d a) := by
  refine RoundTrip.ofFields rfl (by decide) rfl ?_ (fun hw body hb => ?_)
  · have h0 := d.isLt
    have h1 := a.isLt
    simp only [fits, layR, and_true]
    omega
  · simp only [layR] at hb
    simp [dec1, decodeBody, decDA, hb, need, hw]
theorem RoundTrip.ext (d a : Reg) (lsb wm1 : BitVec 6) (sx : Bool) : RoundTrip.Statement (.ext d a lsb wm1 sx) := by
  refine RoundTrip.ofFields rfl (by decide) rfl ?_ (fun hw body hb => ?_)
  · have h0 := d.isLt
    have h1 := a.isLt
    have h2 := lsb.isLt
    have h3 := wm1.isLt
    have h4 := Bool.toNat_lt sx
    simp only [fits, and_true]
    omega
  · simp [dec1, decodeBody, hb, need, hw]
theorem RoundTrip.ins (d a b : Reg) (lsb wm1 : BitVec 6) : RoundTrip.Statement (.ins d a b lsb wm1) := by
  refine RoundTrip.ofFields rfl (by decide) rfl ?_ (fun hw body hb => ?_)
  · have h0 := d.isLt
    have h1 := a.isLt
    have h2 := b.isLt
    have h3 := lsb.isLt
    have h4 := wm1.isLt
    simp only [fits, and_true]
    omega
  · simp [dec1, decodeBody, hb, need, hw]
theorem RoundTrip.li (d : Reg) (imm : BitVec 32) : RoundTrip.Statement (.li d imm) := by
  refine RoundTrip.ofFields rfl (by decide) rfl ?_ (fun hw body hb => ?_)
  · have h0 := d.isLt
    have h1 := imm.isLt
    simp only [fits, layI, and_true]
    omega
  · simp only [layI] at hb
    simp [dec1, decodeBody, hb, need, hw]
theorem RoundTrip.lih (d a : Reg) (imm : BitVec 32) : RoundTrip.Statement (.lih d a imm) := by
  refine RoundTrip.ofFields rfl (by decide) rfl ?_ (fun hw body hb => ?_)
  · have h0 := d.isLt
    have h1 := a.isLt
    have h2 := imm.isLt
    simp only [fits, layI, and_true]
    omega
  · simp only [layI] at hb
    simp [dec1, decodeBody, decI, hb, need, hw]
theorem RoundTrip.mov (d a : Reg) : RoundTrip.Statement (.mov d a) := by
  refine RoundTrip.ofFields rfl (by decide) rfl ?_ (fun hw body hb => ?_)
  · have h0 := d.isLt
    have h1 := a.isLt
    simp only [fits, layR, and_true]
    omega
  · simp only [layR] at hb
    simp [dec1, decodeBody, decDA, hb, need, hw]
theorem RoundTrip.sel (d a b : Reg) (p : Pred) : RoundTrip.Statement (.sel d a b p) := by
  refine RoundTrip.ofFields rfl (by decide) rfl ?_ (fun hw body hb => ?_)
  · have h0 := d.isLt
    have h1 := a.isLt
    have h2 := b.isLt
    have h3 := p.isLt
    simp only [fits, layR, and_true]
    omega
  · simp only [layR] at hb
    simp [dec1, decodeBody, hb, need, ask, hw]
theorem RoundTrip.addsh (d a b : Reg) (sh : BitVec 6) : RoundTrip.Statement (.addsh d a b sh) := by
  refine RoundTrip.ofFields rfl (by decide) rfl ?_ (fun hw body hb => ?_)
  · have h0 := d.isLt
    have h1 := a.isLt
    have h2 := b.isLt
    have h3 := sh.isLt
    simp only [fits, and_true]
    omega
  · simp [dec1, decodeBody, hb, need, hw]
theorem RoundTrip.madd (d a b c : Reg) : RoundTrip.Statement (.madd d a b c) := by
  refine RoundTrip.ofFields rfl (by decide) rfl ?_ (fun hw body hb => ?_)
  · have h0 := d.isLt
    have h1 := a.isLt
    have h2 := b.isLt
    have h3 := c.isLt
    simp only [fits, layR, and_true]
    omega
  · simp only [layR] at hb
    simp [dec1, decodeBody, decDABC, hb, need, hw]
theorem RoundTrip.fadd (d a b : Reg) (dbl : Bool) : RoundTrip.Statement (.fadd d a b dbl) := by
  refine RoundTrip.ofFields rfl (by decide) rfl ?_ (fun hw body hb => ?_)
  · have h0 := d.isLt
    have h1 := a.isLt
    have h2 := b.isLt
    have h3 := Bool.toNat_lt dbl
    simp only [fits, layR1, and_true]
    omega
  · simp only [layR1] at hb
    simp [dec4, decodeBody, decDABx, hb, need, hw]
theorem RoundTrip.fsub (d a b : Reg) (dbl : Bool) : RoundTrip.Statement (.fsub d a b dbl) := by
  refine RoundTrip.ofFields rfl (by decide) rfl ?_ (fun hw body hb => ?_)
  · have h0 := d.isLt
    have h1 := a.isLt
    have h2 := b.isLt
    have h3 := Bool.toNat_lt dbl
    simp only [fits, layR1, and_true]
    omega
  · simp only [layR1] at hb
    simp [dec4, decodeBody, decDABx, hb, need, hw]
theorem RoundTrip.fmul (d a b : Reg) (dbl : Bool) : RoundTrip.Statement (.fmul d a b dbl) := by
  refine RoundTrip.ofFields rfl (by decide) rfl ?_ (fun hw body hb => ?_)
  · have h0 := d.isLt
    have h1 := a.isLt
    have h2 := b.isLt
    have h3 := Bool.toNat_lt dbl
    simp only [fits, layR1, and_true]
    omega
  · simp only [layR1] at hb
    simp [dec4, decodeBody, decDABx, hb, need, hw]
theorem RoundTrip.fma (d a b c : Reg) (dbl : Bool) : RoundTrip.Statement (.fma d a b c dbl) := by
  refine RoundTrip.ofFields rfl (by decide) rfl ?_ (fun hw body hb => ?_)
  · have h0 := d.isLt
    have h1 := a.isLt
    have h2 := b.isLt
    have h3 := c.isLt
    have h4 := Bool.toNat_lt dbl
    simp only [fits, layR1, and_true]
    omega
  · simp only [layR1] at hb
    simp [dec4, decodeBody, decDABCx, hb, need, hw]
theorem RoundTrip.fdiv (d a b : Reg) (dbl : Bool) : RoundTrip.Statement (.fdiv d a b dbl) := by
  refine RoundTrip.ofFields rfl (by decide) rfl ?_ (fun hw body hb => ?_)
  · have h0 := d.isLt
    have h1 := a.isLt
    have h2 := b.isLt
    have h3 := Bool.toNat_lt dbl
    simp only [fits, layR1, and_true]
    omega
  · simp only [layR1] at hb
    simp [dec4, decodeBody, decDABx, hb, need, hw]
theorem RoundTrip.fsqrt (d a : Reg) (dbl : Bool) : RoundTrip.Statement (.fsqrt d a dbl) := by
  refine RoundTrip.ofFields rfl (by decide) rfl ?_ (fun hw body hb => ?_)
  · have h0 := d.isLt
    have h1 := a.isLt
    have h2 := Bool.toNat_lt dbl
    simp only [fits, layR1, and_true]
    omega
  · simp only [layR1] at hb
    simp [dec4, decodeBody, decDAx, hb, need, hw]
theorem RoundTrip.fmin (d a b : Reg) (dbl : Bool) : RoundTrip.Statement (.fmin d a b dbl) := by
  refine RoundTrip.ofFields rfl (by decide) rfl ?_ (fun hw body hb => ?_)
  · have h0 := d.isLt
    have h1 := a.isLt
    have h2 := b.isLt
    have h3 := Bool.toNat_lt dbl
    simp only [fits, layR1, and_true]
    omega
  · simp only [layR1] at hb
    simp [dec4, decodeBody, decDABx, hb, need, hw]
theorem RoundTrip.fmax (d a b : Reg) (dbl : Bool) : RoundTrip.Statement (.fmax d a b dbl) := by
  refine RoundTrip.ofFields rfl (by decide) rfl ?_ (fun hw body hb => ?_)
  · have h0 := d.isLt
    have h1 := a.isLt
    have h2 := b.isLt
    have h3 := Bool.toNat_lt dbl
    simp only [fits, layR1, and_true]
    omega
  · simp only [layR1] at hb
    simp [dec4, decodeBody, decDABx, hb, need, hw]
theorem RoundTrip.fcvt (d a : Reg) (dst src : CvtType) (rtz : Bool) : RoundTrip.Statement (.fcvt d a dst src rtz) := by
  refine RoundTrip.ofFields rfl (by decide) rfl ?_ (fun hw body hb => ?_)
  · have h0 := d.isLt
    have h1 := a.isLt
    have h2 := dst.code_lt
    have h3 := src.code_lt
    have h4 := Bool.toNat_lt rtz
    simp only [fits, and_true]
    omega
  · simp [dec4, decodeBody, hb, need, ask, hw]
theorem RoundTrip.fsgn (d a b : Reg) (k : SgnKind) (dbl : Bool) : RoundTrip.Statement (.fsgn d a b k dbl) := by
  refine RoundTrip.ofFields rfl (by decide) rfl ?_ (fun hw body hb => ?_)
  · have h0 := d.isLt
    have h1 := a.isLt
    have h2 := b.isLt
    have h3 := k.code_lt
    have h4 := Bool.toNat_lt dbl
    simp only [fits, and_true]
    omega
  · simp [dec4, decodeBody, hb, need, ask, hw]
theorem RoundTrip.fclass (d a : Reg) (dbl : Bool) : RoundTrip.Statement (.fclass d a dbl) := by
  refine RoundTrip.ofFields rfl (by decide) rfl ?_ (fun hw body hb => ?_)
  · have h0 := d.isLt
    have h1 := a.isLt
    have h2 := Bool.toNat_lt dbl
    simp only [fits, layR1, and_true]
    omega
  · simp only [layR1] at hb
    simp [dec4, decodeBody, decDAx, hb, need, hw]
theorem RoundTrip.cmp (p : Pred) (pc : Option Pred) (a b : Reg) (cc : Cond) : RoundTrip.Statement (.cmp p pc a b cc) := by
  refine RoundTrip.ofFields rfl (by decide) rfl ?_ (fun hw body hb => ?_)
  · have h0 := p.isLt
    have h1 := optPred_lt pc
    have h2 := Bool.toNat_lt pc.isSome
    have h3 := a.isLt
    have h4 := b.isLt
    have h5 := cc.code_lt
    simp only [fits, and_true]
    omega
  · simp [dec6, decodeBody, hb, need, ask, hw]
theorem RoundTrip.cmpi (p : Pred) (a : Reg) (imm : BitVec 32) (cc : Cond) : RoundTrip.Statement (.cmpi p a imm cc) := by
  refine RoundTrip.ofFields rfl (by decide) rfl ?_ (fun hw body hb => ?_)
  · have h0 := p.isLt
    have h1 := a.isLt
    have h2 := imm.isLt
    have h3 := cc.code_lt
    simp only [fits, layI, and_true]
    omega
  · simp only [layI] at hb
    simp [dec6, decodeBody, hb, need, ask, hw]
theorem RoundTrip.fcmp (p : Pred) (pc : Option Pred) (a b : Reg) (cc : FCond) (dbl : Bool) : RoundTrip.Statement (.fcmp p pc a b cc dbl) := by
  refine RoundTrip.ofFields rfl (by decide) rfl ?_ (fun hw body hb => ?_)
  · have h0 := p.isLt
    have h1 := optPred_lt pc
    have h2 := Bool.toNat_lt pc.isSome
    have h3 := a.isLt
    have h4 := b.isLt
    have h5 := cc.code_lt
    have h6 := Bool.toNat_lt dbl
    simp only [fits, and_true]
    omega
  · simp [dec6, decodeBody, hb, need, ask, hw]
theorem RoundTrip.plog (p pa pb : Pred) (table : BitVec 4) : RoundTrip.Statement (.plog p pa pb table) := by
  refine RoundTrip.ofFields rfl (by decide) rfl ?_ (fun hw body hb => ?_)
  · have h0 := p.isLt
    have h1 := pa.isLt
    have h2 := pb.isLt
    have h3 := table.isLt
    simp only [fits, and_true]
    omega
  · simp [dec6, decodeBody, hb, need, ask, hw]
theorem RoundTrip.ptog (d : Reg) : RoundTrip.Statement (.ptog d) := by
  refine RoundTrip.ofFields rfl (by decide) rfl ?_ (fun hw body hb => ?_)
  · have h0 := d.isLt
    simp only [fits, layR, and_true]
    omega
  · simp only [layR] at hb
    simp [dec6, decodeBody, hb, need, hw]
theorem RoundTrip.gtop (a b : Reg) : RoundTrip.Statement (.gtop a b) := by
  refine RoundTrip.ofFields rfl (by decide) rfl ?_ (fun hw body hb => ?_)
  · have h0 := a.isLt
    have h1 := b.isLt
    simp only [fits, layR, and_true]
    omega
  · simp only [layR] at hb
    simp [dec6, decodeBody, decAB, hb, need, hw]
theorem RoundTrip.tbit (p : Pred) (a : Reg) (n : BitVec 6) (inv : Bool) : RoundTrip.Statement (.tbit p a n inv) := by
  refine RoundTrip.ofFields rfl (by decide) rfl ?_ (fun hw body hb => ?_)
  · have h0 := p.isLt
    have h1 := a.isLt
    have h2 := n.isLt
    have h3 := Bool.toNat_lt inv
    simp only [fits, and_true]
    omega
  · simp [dec6, decodeBody, hb, need, ask, hw]
theorem RoundTrip.br (off : BitVec 32) : RoundTrip.Statement (.br off) := by
  refine RoundTrip.ofFields rfl (by decide) rfl ?_ (fun hw body hb => ?_)
  · have h0 := off.isLt
    simp only [fits, and_true]
    omega
  · simp [dec7, decodeBody, decB, hb, need, hw]
theorem RoundTrip.brr (a : Reg) (link : Bool) : RoundTrip.Statement (.brr a link) := by
  refine RoundTrip.ofFields rfl (by decide) rfl ?_ (fun hw body hb => ?_)
  · have h0 := a.isLt
    have h1 := Bool.toNat_lt link
    simp only [fits, layR1, and_true]
    omega
  · simp only [layR1] at hb
    simp [dec7, decodeBody, hb, need, hw]
theorem RoundTrip.call (off : BitVec 32) : RoundTrip.Statement (.call off) := by
  refine RoundTrip.ofFields rfl (by decide) rfl ?_ (fun hw body hb => ?_)
  · have h0 := off.isLt
    simp only [fits, and_true]
    omega
  · simp [dec7, decodeBody, decB, hb, need, hw]
theorem RoundTrip.ret (a : Reg) : RoundTrip.Statement (.ret a) := by
  refine RoundTrip.ofFields rfl (by decide) rfl ?_ (fun hw body hb => ?_)
  · have h0 := a.isLt
    simp only [fits, layR, and_true]
    omega
  · simp only [layR] at hb
    simp [dec7, decodeBody, decA, hb, need, hw]
theorem RoundTrip.loop (lc : Fin 4) (a : Reg) (lm1 : BitVec 12) (sm1 : BitVec 3) (y : Bool) (pb : BitVec 5) : RoundTrip.Statement (.loop lc a lm1 sm1 y pb) := by
  refine RoundTrip.ofFields rfl (by decide) rfl ?_ (fun hw body hb => ?_)
  · have h0 := lc.isLt
    have h1 := a.isLt
    have h2 := lm1.isLt
    have h3 := sm1.isLt
    have h4 := Bool.toNat_lt y
    have h5 := pb.isLt
    simp only [fits, and_true]
    omega
  · simp [dec7, decodeBody, hb, need, hw]
theorem RoundTrip.lbrk (lc : Fin 4) : RoundTrip.Statement (.lbrk lc) := by
  refine RoundTrip.ofFields rfl (by decide) rfl ?_ (fun hw body hb => ?_)
  · have h0 := lc.isLt
    simp only [fits, and_true]
    omega
  · simp [dec7, decodeBody, hb, need, hw]
theorem RoundTrip.yield : RoundTrip.Statement (.yield) := by
  refine RoundTrip.ofFields rfl (by decide) rfl ?_ (fun hw body hb => ?_)
  · simp only [fits, layR, and_true]
    omega
  · simp only [layR] at hb
    simp [dec7, decodeBody, decNone, hb, need, hw]
theorem RoundTrip.exit : RoundTrip.Statement (.exit) := by
  refine RoundTrip.ofFields rfl (by decide) rfl ?_ (fun hw body hb => ?_)
  · simp only [fits, layR, and_true]
    omega
  · simp only [layR] at hb
    simp [dec7, decodeBody, decNone, hb, need, hw]
theorem RoundTrip.launch (d a : Reg) (nb : Bool) : RoundTrip.Statement (.launch d a nb) := by
  refine RoundTrip.ofFields rfl (by decide) rfl ?_ (fun hw body hb => ?_)
  · have h0 := d.isLt
    have h1 := a.isLt
    have h2 := Bool.toNat_lt nb
    simp only [fits, layR1, and_true]
    omega
  · simp only [layR1] at hb
    simp [dec7, decodeBody, decDAx, hb, need, hw]
theorem RoundTrip.cancel (d a b : Reg) (lvl : Level) : RoundTrip.Statement (.cancel d a b lvl) := by
  refine RoundTrip.ofFields rfl (by decide) rfl ?_ (fun hw body hb => ?_)
  · have h0 := d.isLt
    have h1 := a.isLt
    have h2 := b.isLt
    have h3 := lvl.code_lt
    simp only [fits, and_true]
    omega
  · simp [dec7, decodeBody, hb, need, ask, hw]
theorem RoundTrip.waitc (d a b : Reg) (lvl : Level) : RoundTrip.Statement (.waitc d a b lvl) := by
  refine RoundTrip.ofFields rfl (by decide) rfl ?_ (fun hw body hb => ?_)
  · have h0 := d.isLt
    have h1 := a.isLt
    have h2 := b.isLt
    have h3 := lvl.code_lt
    simp only [fits, and_true]
    omega
  · simp [dec7, decodeBody, hb, need, ask, hw]
theorem RoundTrip.sbar (mask : BitVec 4) : RoundTrip.Statement (.sbar mask) := by
  refine RoundTrip.ofFields rfl (by decide) rfl ?_ (fun hw body hb => ?_)
  · have h0 := mask.isLt
    simp only [fits, and_true]
    omega
  · simp [dec7, decodeBody, hb, need, hw]
theorem RoundTrip.trap (code : BitVec 16) : RoundTrip.Statement (.trap code) := by
  refine RoundTrip.ofFields rfl (by decide) rfl ?_ (fun hw body hb => ?_)
  · have h0 := code.isLt
    simp only [fits, and_true]
    omega
  · simp [decF0, decodeBody, hb, need, hw]
theorem RoundTrip.brk (code : BitVec 16) : RoundTrip.Statement (.brk code) := by
  refine RoundTrip.ofFields rfl (by decide) rfl ?_ (fun hw body hb => ?_)
  · have h0 := code.isLt
    simp only [fits, and_true]
    omega
  · simp [decF0, decodeBody, hb, need, hw]
theorem RoundTrip.mfs (d : Reg) (sys : BitVec 12) : RoundTrip.Statement (.mfs d sys) := by
  refine RoundTrip.ofFields rfl (by decide) rfl ?_ (fun hw body hb => ?_)
  · have h0 := d.isLt
    have h1 := sys.isLt
    simp only [fits, and_true]
    omega
  · have hs : sys.toNat ∈ sysListed := by simpa [Instr.wf] using hw
    simp [decF0, decodeBody, hb, need, hw, hs]
theorem RoundTrip.mts (sys : BitVec 12) (a : Reg) : RoundTrip.Statement (.mts sys a) := by
  refine RoundTrip.ofFields rfl (by decide) rfl ?_ (fun hw body hb => ?_)
  · have h0 := sys.isLt
    have h1 := a.isLt
    simp only [fits, and_true]
    omega
  · have hs : sys.toNat ∈ sysListed := by simpa [Instr.wf] using hw
    simp [decF0, decodeBody, hb, need, hw, hs]
theorem RoundTrip.rft : RoundTrip.Statement (.rft) := by
  refine RoundTrip.ofFields rfl (by decide) rfl ?_ (fun hw body hb => ?_)
  · simp only [fits, layR, and_true]
    omega
  · simp only [layR] at hb
    simp [decF0, decodeBody, decNone, hb, need, hw]
theorem RoundTrip.tlbi (a b : Reg) (kind : TlbiKind) (scp : Scope3) : RoundTrip.Statement (.tlbi a b kind scp) := by
  refine RoundTrip.ofFields rfl (by decide) rfl ?_ (fun hw body hb => ?_)
  · have h0 := a.isLt
    have h1 := b.isLt
    have h2 := kind.code_lt
    have h3 := scp.code_lt
    simp only [fits, and_true]
    omega
  · simp [decF0, decodeBody, hb, need, ask, hw]
theorem RoundTrip.icinv (a b : Reg) (scp : Scope3) : RoundTrip.Statement (.icinv a b scp) := by
  refine RoundTrip.ofFields rfl (by decide) rfl ?_ (fun hw body hb => ?_)
  · have h0 := a.isLt
    have h1 := b.isLt
    have h2 := scp.code_lt
    simp only [fits, and_true]
    omega
  · simp [decF0, decodeBody, hb, need, ask, hw]
theorem RoundTrip.nop : RoundTrip.Statement (.nop) := by
  refine RoundTrip.ofFields rfl (by decide) rfl ?_ (fun hw body hb => ?_)
  · simp only [fits, layR, and_true]
    omega
  · simp only [layR] at hb
    simp [decF0, decodeBody, decNone, hb, need, hw]
theorem RoundTrip.ld (d : Reg) (m : MemOp) (sx : Bool) (sz : Size) : RoundTrip.Statement (.ld d m sx sz) := by
  refine RoundTrip.ofFields rfl (by decide) rfl ?_ (fun hw body hb => ?_)
  · have h0 := d.isLt
    have h1 := m.a.isLt
    have h2 := m.b.isLt
    have h3 := m.off.isLt
    have h4 := m.sh.isLt
    have h5 := m.spc.code_lt
    have h6 := m.scp.code_lt
    have h7 := m.ord.code_lt
    have h8 := Bool.toNat_lt sx
    have h9 := sz.code_lt
    simp only [fits, layMem, memVals, and_true]
    omega
  · obtain ⟨ma, mb, off, sh, spc, scp, ord⟩ := m
    have ho : ord.code < 4 := by cases ord <;> simp_all [Instr.wf, MemOp.wf, Ord.code]
    simp only [layMem, memVals] at hb
    simp [dec8, decodeBody, decMem, hb, need, ask, hw, ho]
theorem RoundTrip.st (c : Reg) (m : MemOp) (sz : Size) : RoundTrip.Statement (.st c m sz) := by
  refine RoundTrip.ofFields rfl (by decide) rfl ?_ (fun hw body hb => ?_)
  · have h0 := c.isLt
    have h1 := m.a.isLt
    have h2 := m.b.isLt
    have h3 := m.off.isLt
    have h4 := m.sh.isLt
    have h5 := m.spc.code_lt
    have h6 := m.scp.code_lt
    have h7 := m.ord.code_lt
    have h8 := sz.code_lt
    simp only [fits, layMem, memVals, Bool.toNat_false, and_true]
    omega
  · obtain ⟨ma, mb, off, sh, spc, scp, ord⟩ := m
    have ho : ord.code < 4 := by cases ord <;> simp_all [Instr.wf, MemOp.wf, Ord.code]
    simp only [layMem, memVals] at hb
    simp [dec8, decodeBody, decMem, hb, need, ask, hw, ho]
theorem RoundTrip.ldq (d c : Reg) (m : MemOp) : RoundTrip.Statement (.ldq d c m) := by
  refine RoundTrip.ofFields rfl (by decide) rfl ?_ (fun hw body hb => ?_)
  · have h0 := d.isLt
    have h1 := c.isLt
    have h2 := m.a.isLt
    have h3 := m.b.isLt
    have h4 := m.off.isLt
    have h5 := m.sh.isLt
    have h6 := m.spc.code_lt
    have h7 := m.scp.code_lt
    have h8 := m.ord.code_lt
    simp only [fits, layMem, memVals, Bool.toNat_false, and_true]
    omega
  · obtain ⟨ma, mb, off, sh, spc, scp, ord⟩ := m
    have ho : ord.code < 4 := by cases ord <;> simp_all [Instr.wf, MemOp.wf, Ord.code]
    simp only [layMem, memVals] at hb
    simp [dec8, decodeBody, decMem, hb, need, ask, hw, ho]
theorem RoundTrip.stq (dm b c : Reg) (masked : Bool) (m : MemOp) : RoundTrip.Statement (.stq dm b c masked m) := by
  refine RoundTrip.ofFields rfl (by decide) rfl ?_ (fun hw body hb => ?_)
  · have h0 := dm.isLt
    have h1 := b.isLt
    have h2 := c.isLt
    have h3 := Bool.toNat_lt masked
    have h4 := m.a.isLt
    have h5 := m.b.isLt
    have h6 := m.off.isLt
    have h7 := m.sh.isLt
    have h8 := m.spc.code_lt
    have h9 := m.scp.code_lt
    have h10 := m.ord.code_lt
    simp only [fits, layMem, memVals, and_true]
    omega
  · obtain ⟨ma, mb, off, sh, spc, scp, ord⟩ := m
    have ho : ord.code < 4 := by cases ord <;> simp_all [Instr.wf, MemOp.wf, Ord.code]
    simp only [layMem, memVals] at hb
    have hz : mb = 0 := by simp_all [Instr.wf]
    subst hz
    simp [dec8, decodeBody, decMem, hb, need, ask, ho]
    exact hw
theorem RoundTrip.ldt (d : Reg) (m : MemOp) (sx : Bool) (sz : Size) : RoundTrip.Statement (.ldt d m sx sz) := by
  refine RoundTrip.ofFields rfl (by decide) rfl ?_ (fun hw body hb => ?_)
  · have h0 := d.isLt
    have h1 := m.a.isLt
    have h2 := m.b.isLt
    have h3 := m.off.isLt
    have h4 := m.sh.isLt
    have h5 := m.spc.code_lt
    have h6 := m.scp.code_lt
    have h7 := m.ord.code_lt
    have h8 := Bool.toNat_lt sx
    have h9 := sz.code_lt
    simp only [fits, layMem, memVals, and_true]
    omega
  · obtain ⟨ma, mb, off, sh, spc, scp, ord⟩ := m
    have ho : ord.code < 4 := by cases ord <;> simp_all [Instr.wf, MemOp.wf, Ord.code]
    simp only [layMem, memVals] at hb
    simp [dec8, decodeBody, decMem, hb, need, ask, hw, ho]
theorem RoundTrip.ldl (d : Reg) (pc : Pred) (m : MemOp) (sz : Size) : RoundTrip.Statement (.ldl d pc m sz) := by
  refine RoundTrip.ofFields rfl (by decide) rfl ?_ (fun hw body hb => ?_)
  · have h0 := d.isLt
    have h1 := pc.isLt
    have h2 := m.a.isLt
    have h3 := m.b.isLt
    have h4 := m.off.isLt
    have h5 := m.sh.isLt
    have h6 := m.spc.code_lt
    have h7 := m.scp.code_lt
    have h8 := m.ord.code_lt
    have h9 := sz.code_lt
    simp only [fits, layMem, memVals, Bool.toNat_false, and_true]
    omega
  · obtain ⟨ma, mb, off, sh, spc, scp, ord⟩ := m
    have ho : ord.code < 4 := by cases ord <;> simp_all [Instr.wf, MemOp.wf, Ord.code]
    simp only [layMem, memVals] at hb
    simp [dec8, decodeBody, decMem, hb, need, ask, hw, ho]
theorem RoundTrip.stu (c : Reg) (m : MemOp) (sz : Size) : RoundTrip.Statement (.stu c m sz) := by
  refine RoundTrip.ofFields rfl (by decide) rfl ?_ (fun hw body hb => ?_)
  · have h0 := c.isLt
    have h1 := m.a.isLt
    have h2 := m.b.isLt
    have h3 := m.off.isLt
    have h4 := m.sh.isLt
    have h5 := m.spc.code_lt
    have h6 := m.scp.code_lt
    have h7 := m.ord.code_lt
    have h8 := sz.code_lt
    simp only [fits, layMem, memVals, Bool.toNat_false, and_true]
    omega
  · obtain ⟨ma, mb, off, sh, spc, scp, ord⟩ := m
    have ho : ord.code < 4 := by cases ord <;> simp_all [Instr.wf, MemOp.wf, Ord.code]
    simp only [layMem, memVals] at hb
    simp [dec8, decodeBody, decMem, hb, need, ask, hw, ho]
theorem RoundTrip.spamo (d a b c : Reg) (off : BitVec 10) (op : Aop) (dbl : Bool) : RoundTrip.Statement (.spamo d a b c off op dbl) := by
  refine RoundTrip.ofFields rfl (by decide) rfl ?_ (fun hw body hb => ?_)
  · have h0 := d.isLt
    have h1 := a.isLt
    have h2 := b.isLt
    have h3 := c.isLt
    have h4 := off.isLt
    have h5 := op.code_lt
    have h6 := Bool.toNat_lt dbl
    simp only [fits, layAmo, and_true]
    omega
  · simp only [layAmo] at hb
    simp [dec8, decodeBody, decAtomic, hb, need, ask, hw]
theorem RoundTrip.amo (d a b c : Reg) (off : BitVec 10) (op : Aop) (dbl : Bool) (ord : Ord) (scp : Scope) : RoundTrip.Statement (.amo d a b c off op dbl ord scp) := by
  refine RoundTrip.ofFields rfl (by decide) rfl ?_ (fun hw body hb => ?_)
  · have h0 := d.isLt
    have h1 := a.isLt
    have h2 := b.isLt
    have h3 := c.isLt
    have h4 := off.isLt
    have h5 := op.code_lt
    have h6 := Bool.toNat_lt dbl
    have h7 := ord.code_lt
    have h8 := scp.code_lt
    simp only [fits, layAmo, and_true]
    omega
  · simp only [layAmo] at hb
    simp [dec8, decodeBody, decAtomic, hb, need, ask, hw]
theorem RoundTrip.amosc (d a b c : Reg) (off : BitVec 10) (op : Aop) (dbl : Bool) : RoundTrip.Statement (.amosc d a b c off op dbl) := by
  refine RoundTrip.ofFields rfl (by decide) rfl ?_ (fun hw body hb => ?_)
  · have h0 := d.isLt
    have h1 := a.isLt
    have h2 := b.isLt
    have h3 := c.isLt
    have h4 := off.isLt
    have h5 := op.code_lt
    have h6 := Bool.toNat_lt dbl
    simp only [fits, layAmo, and_true]
    omega
  · simp only [layAmo] at hb
    simp [dec8, decodeBody, decAtomic, hb, need, ask, hw]
theorem RoundTrip.fence (ord : Ord) (scp : Scope) : RoundTrip.Statement (.fence ord scp) := by
  refine RoundTrip.ofFields rfl (by decide) rfl ?_ (fun hw body hb => ?_)
  · have h0 := ord.code_lt
    have h1 := scp.code_lt
    simp only [fits, and_true]
    omega
  · simp [dec8, decodeBody, hb, need, ask, hw]
theorem RoundTrip.tfence (scp : Scope) : RoundTrip.Statement (.tfence scp) := by
  refine RoundTrip.ofFields rfl (by decide) rfl ?_ (fun hw body hb => ?_)
  · have h0 := scp.code_lt
    simp only [fits, and_true]
    omega
  · simp [dec8, decodeBody, hb, need, ask, hw]
theorem RoundTrip.cueinc (win : Bool) (n : BitVec 6) (a b : Reg) (scp : Scope) : RoundTrip.Statement (.cueinc win n a b scp) := by
  refine RoundTrip.ofFields rfl (by decide) rfl ?_ (fun hw body hb => ?_)
  · have h0 := Bool.toNat_lt win
    have h1 := n.isLt
    have h2 := a.isLt
    have h3 := b.isLt
    have h4 := scp.code_lt
    simp only [fits, and_true]
    omega
  · simp [dec8, decodeBody, hb, need, ask, hw]
theorem RoundTrip.cuewait (n : BitVec 6) (b : Reg) (scp : Scope) : RoundTrip.Statement (.cuewait n b scp) := by
  refine RoundTrip.ofFields rfl (by decide) rfl ?_ (fun hw body hb => ?_)
  · have h0 := n.isLt
    have h1 := b.isLt
    have h2 := scp.code_lt
    simp only [fits, and_true]
    omega
  · simp [dec8, decodeBody, hb, need, ask, hw]
theorem RoundTrip.cuerd (d : Reg) (win : Bool) (n : BitVec 6) (a : Reg) : RoundTrip.Statement (.cuerd d win n a) := by
  refine RoundTrip.ofFields rfl (by decide) rfl ?_ (fun hw body hb => ?_)
  · have h0 := d.isLt
    have h1 := Bool.toNat_lt win
    have h2 := n.isLt
    have h3 := a.isLt
    simp only [fits, and_true]
    omega
  · simp [dec8, decodeBody, hb, need, hw]
theorem RoundTrip.tkpush (mask : BitVec 5) : RoundTrip.Statement (.tkpush mask) := by
  refine RoundTrip.ofFields rfl (by decide) rfl ?_ (fun hw body hb => ?_)
  · have h0 := mask.isLt
    simp only [fits, and_true]
    omega
  · simp [dec8, decodeBody, hb, need, hw]
theorem RoundTrip.tkpop (mask : BitVec 5) : RoundTrip.Statement (.tkpop mask) := by
  refine RoundTrip.ofFields rfl (by decide) rfl ?_ (fun hw body hb => ?_)
  · have h0 := mask.isLt
    simp only [fits, and_true]
    omega
  · simp [dec9, decodeBody, hb, need, hw]
theorem RoundTrip.lwarm (a b : Reg) : RoundTrip.Statement (.lwarm a b) := by
  refine RoundTrip.ofFields rfl (by decide) rfl ?_ (fun hw body hb => ?_)
  · have h0 := a.isLt
    have h1 := b.isLt
    simp only [fits, layR, and_true]
    omega
  · simp only [layR] at hb
    simp [dec9, decodeBody, decAB, hb, need, hw]
theorem RoundTrip.lwwait (a b : Reg) : RoundTrip.Statement (.lwwait a b) := by
  refine RoundTrip.ofFields rfl (by decide) rfl ?_ (fun hw body hb => ?_)
  · have h0 := a.isLt
    have h1 := b.isLt
    simp only [fits, layR, and_true]
    omega
  · simp only [layR] at hb
    simp [dec9, decodeBody, decAB, hb, need, hw]
theorem RoundTrip.pref (m : MemOp) (llc : Bool) : RoundTrip.Statement (.pref m llc) := by
  refine RoundTrip.ofFields rfl (by decide) rfl ?_ (fun hw body hb => ?_)
  · have h0 := m.a.isLt
    have h1 := m.b.isLt
    have h2 := m.off.isLt
    have h3 := m.sh.isLt
    have h4 := m.spc.code_lt
    have h5 := m.scp.code_lt
    have h6 := m.ord.code_lt
    have h7 := Bool.toNat_lt llc
    simp only [fits, layMem, memVals, Bool.toNat_false, and_true]
    omega
  · obtain ⟨ma, mb, off, sh, spc, scp, ord⟩ := m
    have ho : ord.code < 4 := by cases ord <;> simp_all [Instr.wf, MemOp.wf, Ord.code]
    simp only [layMem, memVals] at hb
    simp [dec9, decodeBody, decMem, hb, need, ask, hw, ho, Bool.toNat_le llc]
theorem RoundTrip.cflush (a b : Reg) (kind : FlushKind) (scp : Scope) : RoundTrip.Statement (.cflush a b kind scp) := by
  refine RoundTrip.ofFields rfl (by decide) rfl ?_ (fun hw body hb => ?_)
  · have h0 := a.isLt
    have h1 := b.isLt
    have h2 := kind.code_lt
    have h3 := scp.code_lt
    simp only [fits, and_true]
    omega
  · simp [dec9, decodeBody, hb, need, ask, hw]
theorem RoundTrip.mapb (a : Reg) (mode : BankMode) : RoundTrip.Statement (.mapb a mode) := by
  refine RoundTrip.ofFields rfl (by decide) rfl ?_ (fun hw body hb => ?_)
  · have h0 := a.isLt
    have h1 := mode.code_lt
    simp only [fits, and_true]
    omega
  · simp [dec9, decodeBody, hb, need, ask, hw]
theorem RoundTrip.vshape (d a b c : Reg) : RoundTrip.Statement (.vshape d a b c) := by
  refine RoundTrip.ofFields rfl (by decide) rfl ?_ (fun hw body hb => ?_)
  · have h0 := d.isLt
    have h1 := a.isLt
    have h2 := b.isLt
    have h3 := c.isLt
    simp only [fits, layR, and_true]
    omega
  · simp only [layR] at hb
    simp [decA0, decodeBody, decDABC, hb, need, hw]
theorem RoundTrip.vadd (v : VOp) : RoundTrip.Statement (.vadd v) := by
  refine RoundTrip.ofFields rfl (by decide) rfl ?_ (fun hw body hb => ?_)
  · have h0 := v.tok.pop.isLt
    have h1 := v.tok.push.isLt
    have h2 := v.a.isLt
    have h3 := v.b.isLt
    have h4 := v.c.isLt
    have h5 := v.fmt.isLt
    have h6 := v.clamp.isLt
    have h7 := v.scale.isLt
    have h8 := v.sub.isLt
    have h9 := Bool.toNat_lt v.neg1
    have h10 := Bool.toNat_lt v.abs1
    have h11 := Bool.toNat_lt v.neg2
    have h12 := Bool.toNat_lt v.abs2
    simp only [fits, layV, vVals, and_true]
    omega
  · simp only [layV, vVals] at hb
    simp [decA0, decodeBody, decV, hb, need, hw]
theorem RoundTrip.vsub (v : VOp) : RoundTrip.Statement (.vsub v) := by
  refine RoundTrip.ofFields rfl (by decide) rfl ?_ (fun hw body hb => ?_)
  · have h0 := v.tok.pop.isLt
    have h1 := v.tok.push.isLt
    have h2 := v.a.isLt
    have h3 := v.b.isLt
    have h4 := v.c.isLt
    have h5 := v.fmt.isLt
    have h6 := v.clamp.isLt
    have h7 := v.scale.isLt
    have h8 := v.sub.isLt
    have h9 := Bool.toNat_lt v.neg1
    have h10 := Bool.toNat_lt v.abs1
    have h11 := Bool.toNat_lt v.neg2
    have h12 := Bool.toNat_lt v.abs2
    simp only [fits, layV, vVals, and_true]
    omega
  · simp only [layV, vVals] at hb
    simp [decA0, decodeBody, decV, hb, need, hw]
theorem RoundTrip.vmul (v : VOp) : RoundTrip.Statement (.vmul v) := by
  refine RoundTrip.ofFields rfl (by decide) rfl ?_ (fun hw body hb => ?_)
  · have h0 := v.tok.pop.isLt
    have h1 := v.tok.push.isLt
    have h2 := v.a.isLt
    have h3 := v.b.isLt
    have h4 := v.c.isLt
    have h5 := v.fmt.isLt
    have h6 := v.clamp.isLt
    have h7 := v.scale.isLt
    have h8 := v.sub.isLt
    have h9 := Bool.toNat_lt v.neg1
    have h10 := Bool.toNat_lt v.abs1
    have h11 := Bool.toNat_lt v.neg2
    have h12 := Bool.toNat_lt v.abs2
    simp only [fits, layV, vVals, and_true]
    omega
  · simp only [layV, vVals] at hb
    simp [decA0, decodeBody, decV, hb, need, hw]
theorem RoundTrip.vfma (v : VOp) : RoundTrip.Statement (.vfma v) := by
  refine RoundTrip.ofFields rfl (by decide) rfl ?_ (fun hw body hb => ?_)
  · have h0 := v.tok.pop.isLt
    have h1 := v.tok.push.isLt
    have h2 := v.a.isLt
    have h3 := v.b.isLt
    have h4 := v.c.isLt
    have h5 := v.fmt.isLt
    have h6 := v.clamp.isLt
    have h7 := v.scale.isLt
    have h8 := v.sub.isLt
    have h9 := Bool.toNat_lt v.neg1
    have h10 := Bool.toNat_lt v.abs1
    have h11 := Bool.toNat_lt v.neg2
    have h12 := Bool.toNat_lt v.abs2
    simp only [fits, layV, vVals, and_true]
    omega
  · simp only [layV, vVals] at hb
    simp [decA0, decodeBody, decV, hb, need, hw]
theorem RoundTrip.vmax (v : VOp) : RoundTrip.Statement (.vmax v) := by
  refine RoundTrip.ofFields rfl (by decide) rfl ?_ (fun hw body hb => ?_)
  · have h0 := v.tok.pop.isLt
    have h1 := v.tok.push.isLt
    have h2 := v.a.isLt
    have h3 := v.b.isLt
    have h4 := v.c.isLt
    have h5 := v.fmt.isLt
    have h6 := v.clamp.isLt
    have h7 := v.scale.isLt
    have h8 := v.sub.isLt
    have h9 := Bool.toNat_lt v.neg1
    have h10 := Bool.toNat_lt v.abs1
    have h11 := Bool.toNat_lt v.neg2
    have h12 := Bool.toNat_lt v.abs2
    simp only [fits, layV, vVals, and_true]
    omega
  · simp only [layV, vVals] at hb
    simp [decA0, decodeBody, decV, hb, need, hw]
theorem RoundTrip.vmin (v : VOp) : RoundTrip.Statement (.vmin v) := by
  refine RoundTrip.ofFields rfl (by decide) rfl ?_ (fun hw body hb => ?_)
  · have h0 := v.tok.pop.isLt
    have h1 := v.tok.push.isLt
    have h2 := v.a.isLt
    have h3 := v.b.isLt
    have h4 := v.c.isLt
    have h5 := v.fmt.isLt
    have h6 := v.clamp.isLt
    have h7 := v.scale.isLt
    have h8 := v.sub.isLt
    have h9 := Bool.toNat_lt v.neg1
    have h10 := Bool.toNat_lt v.abs1
    have h11 := Bool.toNat_lt v.neg2
    have h12 := Bool.toNat_lt v.abs2
    simp only [fits, layV, vVals, and_true]
    omega
  · simp only [layV, vVals] at hb
    simp [decA0, decodeBody, decV, hb, need, hw]
theorem RoundTrip.vlog (v : VOp) : RoundTrip.Statement (.vlog v) := by
  refine RoundTrip.ofFields rfl (by decide) rfl ?_ (fun hw body hb => ?_)
  · have h0 := v.tok.pop.isLt
    have h1 := v.tok.push.isLt
    have h2 := v.a.isLt
    have h3 := v.b.isLt
    have h4 := v.c.isLt
    have h5 := v.fmt.isLt
    have h6 := v.clamp.isLt
    have h7 := v.scale.isLt
    have h8 := v.sub.isLt
    have h9 := Bool.toNat_lt v.neg1
    have h10 := Bool.toNat_lt v.abs1
    have h11 := Bool.toNat_lt v.neg2
    have h12 := Bool.toNat_lt v.abs2
    simp only [fits, layV, vVals, and_true]
    omega
  · simp only [layV, vVals] at hb
    simp [decA0, decodeBody, decV, hb, need, hw]
theorem RoundTrip.vsh (v : VOp) : RoundTrip.Statement (.vsh v) := by
  refine RoundTrip.ofFields rfl (by decide) rfl ?_ (fun hw body hb => ?_)
  · have h0 := v.tok.pop.isLt
    have h1 := v.tok.push.isLt
    have h2 := v.a.isLt
    have h3 := v.b.isLt
    have h4 := v.c.isLt
    have h5 := v.fmt.isLt
    have h6 := v.clamp.isLt
    have h7 := v.scale.isLt
    have h8 := v.sub.isLt
    have h9 := Bool.toNat_lt v.neg1
    have h10 := Bool.toNat_lt v.abs1
    have h11 := Bool.toNat_lt v.neg2
    have h12 := Bool.toNat_lt v.abs2
    simp only [fits, layV, vVals, and_true]
    omega
  · simp only [layV, vVals] at hb
    simp [decA0, decodeBody, decV, hb, need, hw]
theorem RoundTrip.vcmp (v : VOp) : RoundTrip.Statement (.vcmp v) := by
  refine RoundTrip.ofFields rfl (by decide) rfl ?_ (fun hw body hb => ?_)
  · have h0 := v.tok.pop.isLt
    have h1 := v.tok.push.isLt
    have h2 := v.a.isLt
    have h3 := v.b.isLt
    have h4 := v.c.isLt
    have h5 := v.fmt.isLt
    have h6 := v.clamp.isLt
    have h7 := v.scale.isLt
    have h8 := v.sub.isLt
    have h9 := Bool.toNat_lt v.neg1
    have h10 := Bool.toNat_lt v.abs1
    have h11 := Bool.toNat_lt v.neg2
    have h12 := Bool.toNat_lt v.abs2
    simp only [fits, layV, vVals, and_true]
    omega
  · simp only [layV, vVals] at hb
    simp [decA0, decodeBody, decV, hb, need, hw]
theorem RoundTrip.vsel (v : VOp) : RoundTrip.Statement (.vsel v) := by
  refine RoundTrip.ofFields rfl (by decide) rfl ?_ (fun hw body hb => ?_)
  · have h0 := v.tok.pop.isLt
    have h1 := v.tok.push.isLt
    have h2 := v.a.isLt
    have h3 := v.b.isLt
    have h4 := v.c.isLt
    have h5 := v.fmt.isLt
    have h6 := v.clamp.isLt
    have h7 := v.scale.isLt
    have h8 := v.sub.isLt
    have h9 := Bool.toNat_lt v.neg1
    have h10 := Bool.toNat_lt v.abs1
    have h11 := Bool.toNat_lt v.neg2
    have h12 := Bool.toNat_lt v.abs2
    simp only [fits, layV, vVals, and_true]
    omega
  · simp only [layV, vVals] at hb
    simp [decA0, decodeBody, decV, hb, need, hw]
theorem RoundTrip.vsfu (v : VOp) : RoundTrip.Statement (.vsfu v) := by
  refine RoundTrip.ofFields rfl (by decide) rfl ?_ (fun hw body hb => ?_)
  · have h0 := v.tok.pop.isLt
    have h1 := v.tok.push.isLt
    have h2 := v.a.isLt
    have h3 := v.b.isLt
    have h4 := v.c.isLt
    have h5 := v.fmt.isLt
    have h6 := v.clamp.isLt
    have h7 := v.scale.isLt
    have h8 := v.sub.isLt
    have h9 := Bool.toNat_lt v.neg1
    have h10 := Bool.toNat_lt v.abs1
    have h11 := Bool.toNat_lt v.neg2
    have h12 := Bool.toNat_lt v.abs2
    simp only [fits, layV, vVals, and_true]
    omega
  · simp only [layV, vVals] at hb
    simp [decA0, decodeBody, decV, hb, need, hw]
theorem RoundTrip.vcvt (v : VOp) : RoundTrip.Statement (.vcvt v) := by
  refine RoundTrip.ofFields rfl (by decide) rfl ?_ (fun hw body hb => ?_)
  · have h0 := v.tok.pop.isLt
    have h1 := v.tok.push.isLt
    have h2 := v.a.isLt
    have h3 := v.b.isLt
    have h4 := v.c.isLt
    have h5 := v.fmt.isLt
    have h6 := v.clamp.isLt
    have h7 := v.scale.isLt
    have h8 := v.sub.isLt
    have h9 := Bool.toNat_lt v.neg1
    have h10 := Bool.toNat_lt v.abs1
    have h11 := Bool.toNat_lt v.neg2
    have h12 := Bool.toNat_lt v.abs2
    simp only [fits, layV, vVals, and_true]
    omega
  · simp only [layV, vVals] at hb
    simp [decA0, decodeBody, decV, hb, need, hw]
theorem RoundTrip.vred (v : VOp) : RoundTrip.Statement (.vred v) := by
  refine RoundTrip.ofFields rfl (by decide) rfl ?_ (fun hw body hb => ?_)
  · have h0 := v.tok.pop.isLt
    have h1 := v.tok.push.isLt
    have h2 := v.a.isLt
    have h3 := v.b.isLt
    have h4 := v.c.isLt
    have h5 := v.fmt.isLt
    have h6 := v.clamp.isLt
    have h7 := v.scale.isLt
    have h8 := v.sub.isLt
    have h9 := Bool.toNat_lt v.neg1
    have h10 := Bool.toNat_lt v.abs1
    have h11 := Bool.toNat_lt v.neg2
    have h12 := Bool.toNat_lt v.abs2
    simp only [fits, layV, vVals, and_true]
    omega
  · simp only [layV, vVals] at hb
    simp [decA0, decodeBody, decV, hb, need, hw]
theorem RoundTrip.vbcast (v : VOp) : RoundTrip.Statement (.vbcast v) := by
  refine RoundTrip.ofFields rfl (by decide) rfl ?_ (fun hw body hb => ?_)
  · have h0 := v.tok.pop.isLt
    have h1 := v.tok.push.isLt
    have h2 := v.a.isLt
    have h3 := v.b.isLt
    have h4 := v.c.isLt
    have h5 := v.fmt.isLt
    have h6 := v.clamp.isLt
    have h7 := v.scale.isLt
    have h8 := v.sub.isLt
    have h9 := Bool.toNat_lt v.neg1
    have h10 := Bool.toNat_lt v.abs1
    have h11 := Bool.toNat_lt v.neg2
    have h12 := Bool.toNat_lt v.abs2
    simp only [fits, layV, vVals, and_true]
    omega
  · simp only [layV, vVals] at hb
    simp [decA0, decodeBody, decV, hb, need, hw]
theorem RoundTrip.vtrn (v : VOp) : RoundTrip.Statement (.vtrn v) := by
  refine RoundTrip.ofFields rfl (by decide) rfl ?_ (fun hw body hb => ?_)
  · have h0 := v.tok.pop.isLt
    have h1 := v.tok.push.isLt
    have h2 := v.a.isLt
    have h3 := v.b.isLt
    have h4 := v.c.isLt
    have h5 := v.fmt.isLt
    have h6 := v.clamp.isLt
    have h7 := v.scale.isLt
    have h8 := v.sub.isLt
    have h9 := Bool.toNat_lt v.neg1
    have h10 := Bool.toNat_lt v.abs1
    have h11 := Bool.toNat_lt v.neg2
    have h12 := Bool.toNat_lt v.abs2
    simp only [fits, layV, vVals, and_true]
    omega
  · simp only [layV, vVals] at hb
    simp [decA0, decodeBody, decV, hb, need, hw]
theorem RoundTrip.vpart (v : VOp) : RoundTrip.Statement (.vpart v) := by
  refine RoundTrip.ofFields rfl (by decide) rfl ?_ (fun hw body hb => ?_)
  · have h0 := v.tok.pop.isLt
    have h1 := v.tok.push.isLt
    have h2 := v.a.isLt
    have h3 := v.b.isLt
    have h4 := v.c.isLt
    have h5 := v.fmt.isLt
    have h6 := v.clamp.isLt
    have h7 := v.scale.isLt
    have h8 := v.sub.isLt
    have h9 := Bool.toNat_lt v.neg1
    have h10 := Bool.toNat_lt v.abs1
    have h11 := Bool.toNat_lt v.neg2
    have h12 := Bool.toNat_lt v.abs2
    simp only [fits, layV, vVals, and_true]
    omega
  · simp only [layV, vVals] at hb
    simp [decB0, decodeBody, decV, hb, need, hw]
theorem RoundTrip.vgath (v : VOp) : RoundTrip.Statement (.vgath v) := by
  refine RoundTrip.ofFields rfl (by decide) rfl ?_ (fun hw body hb => ?_)
  · have h0 := v.tok.pop.isLt
    have h1 := v.tok.push.isLt
    have h2 := v.a.isLt
    have h3 := v.b.isLt
    have h4 := v.c.isLt
    have h5 := v.fmt.isLt
    have h6 := v.clamp.isLt
    have h7 := v.scale.isLt
    have h8 := v.sub.isLt
    have h9 := Bool.toNat_lt v.neg1
    have h10 := Bool.toNat_lt v.abs1
    have h11 := Bool.toNat_lt v.neg2
    have h12 := Bool.toNat_lt v.abs2
    simp only [fits, layV, vVals, and_true]
    omega
  · simp only [layV, vVals] at hb
    simp [decB0, decodeBody, decV, hb, need, hw]
theorem RoundTrip.vscat (v : VOp) : RoundTrip.Statement (.vscat v) := by
  refine RoundTrip.ofFields rfl (by decide) rfl ?_ (fun hw body hb => ?_)
  · have h0 := v.tok.pop.isLt
    have h1 := v.tok.push.isLt
    have h2 := v.a.isLt
    have h3 := v.b.isLt
    have h4 := v.c.isLt
    have h5 := v.fmt.isLt
    have h6 := v.clamp.isLt
    have h7 := v.scale.isLt
    have h8 := v.sub.isLt
    have h9 := Bool.toNat_lt v.neg1
    have h10 := Bool.toNat_lt v.abs1
    have h11 := Bool.toNat_lt v.neg2
    have h12 := Bool.toNat_lt v.abs2
    simp only [fits, layV, vVals, and_true]
    omega
  · simp only [layV, vVals] at hb
    simp [decB0, decodeBody, decV, hb, need, hw]
theorem RoundTrip.vgathm (v : VOp) : RoundTrip.Statement (.vgathm v) := by
  refine RoundTrip.ofFields rfl (by decide) rfl ?_ (fun hw body hb => ?_)
  · have h0 := v.tok.pop.isLt
    have h1 := v.tok.push.isLt
    have h2 := v.a.isLt
    have h3 := v.b.isLt
    have h4 := v.c.isLt
    have h5 := v.fmt.isLt
    have h6 := v.clamp.isLt
    have h7 := v.scale.isLt
    have h8 := v.sub.isLt
    have h9 := Bool.toNat_lt v.neg1
    have h10 := Bool.toNat_lt v.abs1
    have h11 := Bool.toNat_lt v.neg2
    have h12 := Bool.toNat_lt v.abs2
    simp only [fits, layV, vVals, and_true]
    omega
  · simp only [layV, vVals] at hb
    simp [decB0, decodeBody, decV, hb, need, hw]
theorem RoundTrip.vscan (v : VOp) : RoundTrip.Statement (.vscan v) := by
  refine RoundTrip.ofFields rfl (by decide) rfl ?_ (fun hw body hb => ?_)
  · have h0 := v.tok.pop.isLt
    have h1 := v.tok.push.isLt
    have h2 := v.a.isLt
    have h3 := v.b.isLt
    have h4 := v.c.isLt
    have h5 := v.fmt.isLt
    have h6 := v.clamp.isLt
    have h7 := v.scale.isLt
    have h8 := v.sub.isLt
    have h9 := Bool.toNat_lt v.neg1
    have h10 := Bool.toNat_lt v.abs1
    have h11 := Bool.toNat_lt v.neg2
    have h12 := Bool.toNat_lt v.abs2
    simp only [fits, layV, vVals, and_true]
    omega
  · simp only [layV, vVals] at hb
    simp [decB0, decodeBody, decV, hb, need, hw]
theorem RoundTrip.viota (v : VOp) : RoundTrip.Statement (.viota v) := by
  refine RoundTrip.ofFields rfl (by decide) rfl ?_ (fun hw body hb => ?_)
  · have h0 := v.tok.pop.isLt
    have h1 := v.tok.push.isLt
    have h2 := v.a.isLt
    have h3 := v.b.isLt
    have h4 := v.c.isLt
    have h5 := v.fmt.isLt
    have h6 := v.clamp.isLt
    have h7 := v.scale.isLt
    have h8 := v.sub.isLt
    have h9 := Bool.toNat_lt v.neg1
    have h10 := Bool.toNat_lt v.abs1
    have h11 := Bool.toNat_lt v.neg2
    have h12 := Bool.toNat_lt v.abs2
    simp only [fits, layV, vVals, and_true]
    omega
  · simp only [layV, vVals] at hb
    simp [decB0, decodeBody, decV, hb, need, hw]
theorem RoundTrip.vtopk (v : VOp) : RoundTrip.Statement (.vtopk v) := by
  refine RoundTrip.ofFields rfl (by decide) rfl ?_ (fun hw body hb => ?_)
  · have h0 := v.tok.pop.isLt
    have h1 := v.tok.push.isLt
    have h2 := v.a.isLt
    have h3 := v.b.isLt
    have h4 := v.c.isLt
    have h5 := v.fmt.isLt
    have h6 := v.clamp.isLt
    have h7 := v.scale.isLt
    have h8 := v.sub.isLt
    have h9 := Bool.toNat_lt v.neg1
    have h10 := Bool.toNat_lt v.abs1
    have h11 := Bool.toNat_lt v.neg2
    have h12 := Bool.toNat_lt v.abs2
    simp only [fits, layV, vVals, and_true]
    omega
  · simp only [layV, vVals] at hb
    simp [decB0, decodeBody, decV, hb, need, hw]
theorem RoundTrip.vnorm (v : VOp) : RoundTrip.Statement (.vnorm v) := by
  refine RoundTrip.ofFields rfl (by decide) rfl ?_ (fun hw body hb => ?_)
  · have h0 := v.tok.pop.isLt
    have h1 := v.tok.push.isLt
    have h2 := v.a.isLt
    have h3 := v.b.isLt
    have h4 := v.c.isLt
    have h5 := v.fmt.isLt
    have h6 := v.clamp.isLt
    have h7 := v.scale.isLt
    have h8 := v.sub.isLt
    have h9 := Bool.toNat_lt v.neg1
    have h10 := Bool.toNat_lt v.abs1
    have h11 := Bool.toNat_lt v.neg2
    have h12 := Bool.toNat_lt v.abs2
    simp only [fits, layV, vVals, and_true]
    omega
  · simp only [layV, vVals] at hb
    simp [decB0, decodeBody, decV, hb, need, hw]
theorem RoundTrip.vrng (v : VOp) : RoundTrip.Statement (.vrng v) := by
  refine RoundTrip.ofFields rfl (by decide) rfl ?_ (fun hw body hb => ?_)
  · have h0 := v.tok.pop.isLt
    have h1 := v.tok.push.isLt
    have h2 := v.a.isLt
    have h3 := v.b.isLt
    have h4 := v.c.isLt
    have h5 := v.fmt.isLt
    have h6 := v.clamp.isLt
    have h7 := v.scale.isLt
    have h8 := v.sub.isLt
    have h9 := Bool.toNat_lt v.neg1
    have h10 := Bool.toNat_lt v.abs1
    have h11 := Bool.toNat_lt v.neg2
    have h12 := Bool.toNat_lt v.abs2
    simp only [fits, layV, vVals, and_true]
    omega
  · simp only [layV, vVals] at hb
    simp [decB0, decodeBody, decV, hb, need, hw]
theorem RoundTrip.vquant (v : VOp) : RoundTrip.Statement (.vquant v) := by
  refine RoundTrip.ofFields rfl (by decide) rfl ?_ (fun hw body hb => ?_)
  · have h0 := v.tok.pop.isLt
    have h1 := v.tok.push.isLt
    have h2 := v.a.isLt
    have h3 := v.b.isLt
    have h4 := v.c.isLt
    have h5 := v.fmt.isLt
    have h6 := v.clamp.isLt
    have h7 := v.scale.isLt
    have h8 := v.sub.isLt
    have h9 := Bool.toNat_lt v.neg1
    have h10 := Bool.toNat_lt v.abs1
    have h11 := Bool.toNat_lt v.neg2
    have h12 := Bool.toNat_lt v.abs2
    simp only [fits, layV, vVals, and_true]
    omega
  · simp only [layV, vVals] at hb
    simp [decB0, decodeBody, decV, hb, need, hw]
theorem RoundTrip.vdeq (v : VOp) : RoundTrip.Statement (.vdeq v) := by
  refine RoundTrip.ofFields rfl (by decide) rfl ?_ (fun hw body hb => ?_)
  · have h0 := v.tok.pop.isLt
    have h1 := v.tok.push.isLt
    have h2 := v.a.isLt
    have h3 := v.b.isLt
    have h4 := v.c.isLt
    have h5 := v.fmt.isLt
    have h6 := v.clamp.isLt
    have h7 := v.scale.isLt
    have h8 := v.sub.isLt
    have h9 := Bool.toNat_lt v.neg1
    have h10 := Bool.toNat_lt v.abs1
    have h11 := Bool.toNat_lt v.neg2
    have h12 := Bool.toNat_lt v.abs2
    simp only [fits, layV, vVals, and_true]
    omega
  · simp only [layV, vVals] at hb
    simp [decB0, decodeBody, decV, hb, need, hw]
theorem RoundTrip.vsample (v : VOp) : RoundTrip.Statement (.vsample v) := by
  refine RoundTrip.ofFields rfl (by decide) rfl ?_ (fun hw body hb => ?_)
  · have h0 := v.tok.pop.isLt
    have h1 := v.tok.push.isLt
    have h2 := v.a.isLt
    have h3 := v.b.isLt
    have h4 := v.c.isLt
    have h5 := v.fmt.isLt
    have h6 := v.clamp.isLt
    have h7 := v.scale.isLt
    have h8 := v.sub.isLt
    have h9 := Bool.toNat_lt v.neg1
    have h10 := Bool.toNat_lt v.abs1
    have h11 := Bool.toNat_lt v.neg2
    have h12 := Bool.toNat_lt v.abs2
    simp only [fits, layV, vVals, and_true]
    omega
  · simp only [layV, vVals] at hb
    simp [decB0, decodeBody, decV, hb, need, hw]
theorem RoundTrip.vmovg (v : VOp) : RoundTrip.Statement (.vmovg v) := by
  refine RoundTrip.ofFields rfl (by decide) rfl ?_ (fun hw body hb => ?_)
  · have h0 := v.tok.pop.isLt
    have h1 := v.tok.push.isLt
    have h2 := v.a.isLt
    have h3 := v.b.isLt
    have h4 := v.c.isLt
    have h5 := v.fmt.isLt
    have h6 := v.clamp.isLt
    have h7 := v.scale.isLt
    have h8 := v.sub.isLt
    have h9 := Bool.toNat_lt v.neg1
    have h10 := Bool.toNat_lt v.abs1
    have h11 := Bool.toNat_lt v.neg2
    have h12 := Bool.toNat_lt v.abs2
    simp only [fits, layV, vVals, and_true]
    omega
  · simp only [layV, vVals] at hb
    simp [decB0, decodeBody, decV, hb, need, hw]
theorem RoundTrip.vcopy (v : VOp) : RoundTrip.Statement (.vcopy v) := by
  refine RoundTrip.ofFields rfl (by decide) rfl ?_ (fun hw body hb => ?_)
  · have h0 := v.tok.pop.isLt
    have h1 := v.tok.push.isLt
    have h2 := v.a.isLt
    have h3 := v.b.isLt
    have h4 := v.c.isLt
    have h5 := v.fmt.isLt
    have h6 := v.clamp.isLt
    have h7 := v.scale.isLt
    have h8 := v.sub.isLt
    have h9 := Bool.toNat_lt v.neg1
    have h10 := Bool.toNat_lt v.abs1
    have h11 := Bool.toNat_lt v.neg2
    have h12 := Bool.toNat_lt v.abs2
    simp only [fits, layV, vVals, and_true]
    omega
  · simp only [layV, vVals] at hb
    simp [decB0, decodeBody, decV, hb, need, hw]
theorem RoundTrip.mma (t : Tok) (a b : Reg) (n : Fin 4) : RoundTrip.Statement (.mma t a b n) := by
  refine RoundTrip.ofFields rfl (by decide) rfl ?_ (fun hw body hb => ?_)
  · have h0 := t.pop.isLt
    have h1 := t.push.isLt
    have h2 := a.isLt
    have h3 := b.isLt
    have h4 := n.isLt
    simp only [fits, tVals, and_true]
    omega
  · simp only [tVals] at hb
    simp [decC0, decodeBody, hb, need, hw]
theorem RoundTrip.mmaz (t : Tok) (a b : Reg) (n : Fin 4) : RoundTrip.Statement (.mmaz t a b n) := by
  refine RoundTrip.ofFields rfl (by decide) rfl ?_ (fun hw body hb => ?_)
  · have h0 := t.pop.isLt
    have h1 := t.push.isLt
    have h2 := a.isLt
    have h3 := b.isLt
    have h4 := n.isLt
    simp only [fits, tVals, and_true]
    omega
  · simp only [tVals] at hb
    simp [decC0, decodeBody, hb, need, hw]
theorem RoundTrip.mgma (t : Tok) (a b c : Reg) (n : Fin 4) (gm1 : BitVec 3) : RoundTrip.Statement (.mgma t a b c n gm1) := by
  refine RoundTrip.ofFields rfl (by decide) rfl ?_ (fun hw body hb => ?_)
  · have h0 := t.pop.isLt
    have h1 := t.push.isLt
    have h2 := a.isLt
    have h3 := b.isLt
    have h4 := c.isLt
    have h5 := n.isLt
    have h6 := gm1.isLt
    simp only [fits, tVals, and_true]
    omega
  · simp only [tVals] at hb
    simp [decC0, decodeBody, hb, need, hw]
theorem RoundTrip.mdrain (t : Tok) (a b c : Reg) (n : Fin 4) (fmt : BitVec 4) (sm : BitVec 2) (sat clr : Bool) (scale : BitVec 4) : RoundTrip.Statement (.mdrain t a b c n fmt sm sat clr scale) := by
  refine RoundTrip.ofFields rfl (by decide) rfl ?_ (fun hw body hb => ?_)
  · have h0 := t.pop.isLt
    have h1 := t.push.isLt
    have h2 := a.isLt
    have h3 := b.isLt
    have h4 := c.isLt
    have h5 := n.isLt
    have h6 := fmt.isLt
    have h7 := sm.isLt
    have h8 := Bool.toNat_lt sat
    have h9 := Bool.toNat_lt clr
    have h10 := scale.isLt
    simp only [fits, tVals, and_true]
    omega
  · simp only [tVals] at hb
    simp [decC0, decodeBody, hb, need, hw]
theorem RoundTrip.mldacc (t : Tok) (a b : Reg) (n : Fin 4) (int : Bool) : RoundTrip.Statement (.mldacc t a b n int) := by
  refine RoundTrip.ofFields rfl (by decide) rfl ?_ (fun hw body hb => ?_)
  · have h0 := t.pop.isLt
    have h1 := t.push.isLt
    have h2 := a.isLt
    have h3 := b.isLt
    have h4 := n.isLt
    have h5 := Bool.toNat_lt int
    simp only [fits, tVals, and_true]
    omega
  · simp only [tVals] at hb
    simp [decC0, decodeBody, hb, need, hw]
theorem RoundTrip.mzero (t : Tok) (mask : BitVec 4) : RoundTrip.Statement (.mzero t mask) := by
  refine RoundTrip.ofFields rfl (by decide) rfl ?_ (fun hw body hb => ?_)
  · have h0 := t.pop.isLt
    have h1 := t.push.isLt
    have h2 := mask.isLt
    simp only [fits, tVals, and_true]
    omega
  · simp only [tVals] at hb
    simp [decC0, decodeBody, hb, need, hw]
theorem RoundTrip.mamax (t : Tok) (a : Reg) (n : Fin 4) : RoundTrip.Statement (.mamax t a n) := by
  refine RoundTrip.ofFields rfl (by decide) rfl ?_ (fun hw body hb => ?_)
  · have h0 := t.pop.isLt
    have h1 := t.push.isLt
    have h2 := a.isLt
    have h3 := n.isLt
    simp only [fits, tVals, and_true]
    omega
  · simp only [tVals] at hb
    simp [decC0, decodeBody, hb, need, hw]
theorem RoundTrip.fmtq (a : Reg) : RoundTrip.Statement (.fmtq a) := by
  refine RoundTrip.ofFields rfl (by decide) rfl ?_ (fun hw body hb => ?_)
  · have h0 := a.isLt
    simp only [fits, layR, and_true]
    omega
  · simp only [layR] at hb
    simp [decC0, decodeBody, decA, hb, need, hw]
theorem RoundTrip.attn (t : Tok) (a : Reg) : RoundTrip.Statement (.attn t a) := by
  refine RoundTrip.ofFields rfl (by decide) rfl ?_ (fun hw body hb => ?_)
  · have h0 := t.pop.isLt
    have h1 := t.push.isLt
    have h2 := a.isLt
    simp only [fits, tVals, and_true]
    omega
  · simp only [tVals] at hb
    simp [decC0, decodeBody, hb, need, hw]
theorem RoundTrip.attnCaskBoundary (c : Nat) : RoundTrip.Statement (.attnCaskBoundary c) := RoundTrip.ofStep rfl
theorem RoundTrip.kvapp (t : Tok) (a b c : Reg) (nm1 : BitVec 6) (adv : Bool) : RoundTrip.Statement (.kvapp t a b c nm1 adv) := by
  refine RoundTrip.ofFields rfl (by decide) rfl ?_ (fun hw body hb => ?_)
  · have h0 := t.pop.isLt
    have h1 := t.push.isLt
    have h2 := a.isLt
    have h3 := b.isLt
    have h4 := c.isLt
    have h5 := nm1.isLt
    have h6 := Bool.toNat_lt adv
    simp only [fits, tVals, and_true]
    omega
  · simp only [tVals] at hb
    simp [decC0, decodeBody, hb, need, hw]
theorem RoundTrip.kvfork (d a b : Reg) : RoundTrip.Statement (.kvfork d a b) := by
  refine RoundTrip.ofFields rfl (by decide) rfl ?_ (fun hw body hb => ?_)
  · have h0 := d.isLt
    have h1 := a.isLt
    have h2 := b.isLt
    simp only [fits, layR, and_true]
    omega
  · simp only [layR] at hb
    simp [decC0, decodeBody, decDAB, hb, need, hw]
theorem RoundTrip.kvdrop (a : Reg) : RoundTrip.Statement (.kvdrop a) := by
  refine RoundTrip.ofFields rfl (by decide) rfl ?_ (fun hw body hb => ?_)
  · have h0 := a.isLt
    simp only [fits, layR, and_true]
    omega
  · simp only [layR] at hb
    simp [decC0, decodeBody, decA, hb, need, hw]
theorem RoundTrip.kvclass (a b : Reg) (cls : BitVec 2) : RoundTrip.Statement (.kvclass a b cls) := by
  refine RoundTrip.ofFields rfl (by decide) rfl ?_ (fun hw body hb => ?_)
  · have h0 := a.isLt
    have h1 := b.isLt
    have h2 := cls.isLt
    simp only [fits, and_true]
    omega
  · simp [decC0, decodeBody, hb, need, hw]
theorem RoundTrip.kvquery (d a b : Reg) : RoundTrip.Statement (.kvquery d a b) := by
  refine RoundTrip.ofFields rfl (by decide) rfl ?_ (fun hw body hb => ?_)
  · have h0 := d.isLt
    have h1 := a.isLt
    have h2 := b.isLt
    simp only [fits, layR, and_true]
    omega
  · simp only [layR] at hb
    simp [decC0, decodeBody, decDAB, hb, need, hw]
theorem RoundTrip.kvtrim (a b : Reg) : RoundTrip.Statement (.kvtrim a b) := by
  refine RoundTrip.ofFields rfl (by decide) rfl ?_ (fun hw body hb => ?_)
  · have h0 := a.isLt
    have h1 := b.isLt
    simp only [fits, layR, and_true]
    omega
  · simp only [layR] at hb
    simp [decC0, decodeBody, decAB, hb, need, hw]
theorem RoundTrip.cpy (e : EOp) (dsp ssp : Space) (scp : Scope) : RoundTrip.Statement (.cpy e dsp ssp scp) := by
  refine RoundTrip.ofFields rfl (by decide) rfl ?_ (fun hw body hb => ?_)
  · have h0 := e.tok.pop.isLt
    have h1 := e.tok.push.isLt
    have h2 := map_val_lt e.tr
    have h3 := Bool.toNat_lt e.tr.isSome
    have h4 := e.a.isLt
    have h5 := e.b.isLt
    have h6 := e.c.isLt
    have h7 := dsp.code_lt
    have h8 := ssp.code_lt
    have h9 := scp.code_lt
    simp only [fits, layE, eVals, pack, and_true]
    omega
  · have hp := unpack_pack [1, 1, 2, 9] [dsp.code, ssp.code, scp.code, 0] (by
      have := dsp.code_lt
      have := ssp.code_lt
      have := scp.code_lt
      simp only [fits, and_true]
      omega)
    obtain ⟨tok, tr, a, b, c⟩ := e
    simp only [layE, eVals] at hb
    simp [decE0, decodeBody, decE, hb, hp, need, ask, hw]
theorem RoundTrip.cpyf (e : EOp) (ssp : Space) : RoundTrip.Statement (.cpyf e ssp) := by
  refine RoundTrip.ofFields rfl (by decide) rfl ?_ (fun hw body hb => ?_)
  · have h0 := e.tok.pop.isLt
    have h1 := e.tok.push.isLt
    have h2 := map_val_lt e.tr
    have h3 := Bool.toNat_lt e.tr.isSome
    have h4 := e.a.isLt
    have h5 := e.b.isLt
    have h6 := e.c.isLt
    have h7 := ssp.code_lt
    simp only [fits, layE, eVals, pack, and_true]
    omega
  · have hp := unpack_pack [1, 1, 11] [0, ssp.code, 0] (by
      have := ssp.code_lt
      simp only [fits, and_true]
      omega)
    obtain ⟨tok, tr, a, b, c⟩ := e
    simp only [layE, eVals] at hb
    simp [decE0, decodeBody, decE, hb, hp, need, ask, hw]
theorem RoundTrip.cpyg (e : EOp) (dsp : Space) (scp : Scope) (fifo z : Bool) : RoundTrip.Statement (.cpyg e dsp scp fifo z) := by
  refine RoundTrip.ofFields rfl (by decide) rfl ?_ (fun hw body hb => ?_)
  · have h0 := e.tok.pop.isLt
    have h1 := e.tok.push.isLt
    have h2 := map_val_lt e.tr
    have h3 := Bool.toNat_lt e.tr.isSome
    have h4 := e.a.isLt
    have h5 := e.b.isLt
    have h6 := e.c.isLt
    have h7 := dsp.code_lt
    have h8 := scp.code_lt
    have h9 := Bool.toNat_lt fifo
    have h10 := Bool.toNat_lt z
    simp only [fits, layE, eVals, pack, and_true]
    omega
  · have hp := unpack_pack [1, 1, 2, 1, 1, 7] [dsp.code, 0, scp.code, fifo.toNat, z.toNat, 0] (by
      have := dsp.code_lt
      have := scp.code_lt
      have := Bool.toNat_lt fifo
      have := Bool.toNat_lt z
      simp only [fits, and_true]
      omega)
    obtain ⟨tok, tr, a, b, c⟩ := e
    simp only [layE, eVals] at hb
    simp [decE0, decodeBody, decE, hb, hp, need, ask, hw]
theorem RoundTrip.cpys (e : EOp) (scp : Scope) : RoundTrip.Statement (.cpys e scp) := by
  refine RoundTrip.ofFields rfl (by decide) rfl ?_ (fun hw body hb => ?_)
  · have h0 := e.tok.pop.isLt
    have h1 := e.tok.push.isLt
    have h2 := map_val_lt e.tr
    have h3 := Bool.toNat_lt e.tr.isSome
    have h4 := e.a.isLt
    have h5 := e.b.isLt
    have h6 := e.c.isLt
    have h7 := scp.code_lt
    simp only [fits, layE, eVals, pack, and_true]
    omega
  · have hp := unpack_pack [2, 2, 9] [0, scp.code, 0] (by
      have := scp.code_lt
      simp only [fits, and_true]
      omega)
    obtain ⟨tok, tr, a, b, c⟩ := e
    simp only [layE, eVals] at hb
    simp [decE0, decodeBody, decE, hb, hp, need, ask, hw]
theorem RoundTrip.cpyz (e : EOp) (dsp : Space) (scp : Scope) : RoundTrip.Statement (.cpyz e dsp scp) := by
  refine RoundTrip.ofFields rfl (by decide) rfl ?_ (fun hw body hb => ?_)
  · have h0 := e.tok.pop.isLt
    have h1 := e.tok.push.isLt
    have h2 := map_val_lt e.tr
    have h3 := Bool.toNat_lt e.tr.isSome
    have h4 := e.a.isLt
    have h5 := e.b.isLt
    have h6 := e.c.isLt
    have h7 := dsp.code_lt
    have h8 := scp.code_lt
    simp only [fits, layE, eVals, pack, and_true]
    omega
  · have hp := unpack_pack [1, 1, 2, 9] [dsp.code, 0, scp.code, 0] (by
      have := dsp.code_lt
      have := scp.code_lt
      simp only [fits, and_true]
      omega)
    obtain ⟨tok, tr, a, b, c⟩ := e
    simp only [layE, eVals] at hb
    simp [decE0, decodeBody, decE, hb, hp, need, ask, hw]
theorem RoundTrip.tsobj (t : Tok) (a b : Reg) : RoundTrip.Statement (.tsobj t a b) := by
  refine RoundTrip.ofFields rfl (by decide) rfl ?_ (fun hw body hb => ?_)
  · have h0 := t.pop.isLt
    have h1 := t.push.isLt
    have h2 := a.isLt
    have h3 := b.isLt
    simp only [fits, tVals, and_true]
    omega
  · simp only [tVals] at hb
    simp [decE0, decodeBody, hb, need, hw]
theorem RoundTrip.tsdrop (t : Tok) (b : Reg) : RoundTrip.Statement (.tsdrop t b) := by
  refine RoundTrip.ofFields rfl (by decide) rfl ?_ (fun hw body hb => ?_)
  · have h0 := t.pop.isLt
    have h1 := t.push.isLt
    have h2 := b.isLt
    simp only [fits, tVals, and_true]
    omega
  · simp only [tVals] at hb
    simp [decE0, decodeBody, hb, need, hw]
theorem RoundTrip.xform (e : EOp) (dsp ssp : Space) (scp : Scope) (routine : BitVec 8) : RoundTrip.Statement (.xform e dsp ssp scp routine) := by
  refine RoundTrip.ofFields rfl (by decide) rfl ?_ (fun hw body hb => ?_)
  · have h0 := e.tok.pop.isLt
    have h1 := e.tok.push.isLt
    have h2 := map_val_lt e.tr
    have h3 := Bool.toNat_lt e.tr.isSome
    have h4 := e.a.isLt
    have h5 := e.b.isLt
    have h6 := e.c.isLt
    have h7 := dsp.code_lt
    have h8 := ssp.code_lt
    have h9 := scp.code_lt
    have h10 := routine.isLt
    simp only [fits, layE, eVals, pack, and_true]
    omega
  · have hp := unpack_pack [1, 1, 2, 8, 1] [dsp.code, ssp.code, scp.code, routine.toNat, 0] (by
      have := dsp.code_lt
      have := ssp.code_lt
      have := scp.code_lt
      have := routine.isLt
      simp only [fits, and_true]
      omega)
    obtain ⟨tok, tr, a, b, c⟩ := e
    simp only [layE, eVals] at hb
    simp [decE0, decodeBody, decE, hb, hp, need, ask, hw]
theorem RoundTrip.card (e : EOp) : RoundTrip.Statement (.card e) := by
  refine RoundTrip.ofFields rfl (by decide) rfl ?_ (fun hw body hb => ?_)
  · have h0 := e.tok.pop.isLt
    have h1 := e.tok.push.isLt
    have h2 := map_val_lt e.tr
    have h3 := Bool.toNat_lt e.tr.isSome
    have h4 := e.a.isLt
    have h5 := e.b.isLt
    have h6 := e.c.isLt
    simp only [fits, layE, eVals, pack, and_true]
    omega
  · have hp := unpack_pack [13] [0] (by
      simp only [fits, and_true]
      omega)
    obtain ⟨tok, tr, a, b, c⟩ := e
    simp only [layE, eVals] at hb
    simp [decE0, decodeBody, decE, hb, hp, need, ask, hw]
theorem RoundTrip.cardwt (e : EOp) : RoundTrip.Statement (.cardwt e) := by
  refine RoundTrip.ofFields rfl (by decide) rfl ?_ (fun hw body hb => ?_)
  · have h0 := e.tok.pop.isLt
    have h1 := e.tok.push.isLt
    have h2 := map_val_lt e.tr
    have h3 := Bool.toNat_lt e.tr.isSome
    have h4 := e.a.isLt
    have h5 := e.b.isLt
    have h6 := e.c.isLt
    simp only [fits, layE, eVals, pack, and_true]
    omega
  · have hp := unpack_pack [13] [0] (by
      simp only [fits, and_true]
      omega)
    obtain ⟨tok, tr, a, b, c⟩ := e
    simp only [layE, eVals] at hb
    simp [decE0, decodeBody, decE, hb, hp, need, ask, hw]
theorem RoundTrip.fld (e : EOp) (sz : Fin 7) (ord : Ord) : RoundTrip.Statement (.fld e sz ord) := by
  refine RoundTrip.ofFields rfl (by decide) rfl ?_ (fun hw body hb => ?_)
  · have h0 := e.tok.pop.isLt
    have h1 := e.tok.push.isLt
    have h2 := map_val_lt e.tr
    have h3 := Bool.toNat_lt e.tr.isSome
    have h4 := e.a.isLt
    have h5 := e.b.isLt
    have h6 := e.c.isLt
    have h7 := sz.isLt
    have h8 := ord.code_lt
    simp only [fits, layE, eVals, pack, and_true]
    omega
  · have ho : ord.code < 4 := by cases ord <;> simp_all [Instr.wf, Ord.code]
    have hp := unpack_pack [3, 2, 2, 6] [sz.val, 0, ord.code, 0] (by
      have := sz.isLt
      have := ord.code_lt
      simp only [fits, and_true]
      omega)
    obtain ⟨tok, tr, a, b, c⟩ := e
    simp only [layE, eVals] at hb
    simp [decF0, decodeBody, decE, hb, hp, need, ask, hw]
theorem RoundTrip.fst (e : EOp) (sz : Fin 7) (ord : Ord) : RoundTrip.Statement (.fst e sz ord) := by
  refine RoundTrip.ofFields rfl (by decide) rfl ?_ (fun hw body hb => ?_)
  · have h0 := e.tok.pop.isLt
    have h1 := e.tok.push.isLt
    have h2 := map_val_lt e.tr
    have h3 := Bool.toNat_lt e.tr.isSome
    have h4 := e.a.isLt
    have h5 := e.b.isLt
    have h6 := e.c.isLt
    have h7 := sz.isLt
    have h8 := ord.code_lt
    simp only [fits, layE, eVals, pack, and_true]
    omega
  · have ho : ord.code < 4 := by cases ord <;> simp_all [Instr.wf, Ord.code]
    have hp := unpack_pack [3, 2, 2, 6] [sz.val, 0, ord.code, 0] (by
      have := sz.isLt
      have := ord.code_lt
      simp only [fits, and_true]
      omega)
    obtain ⟨tok, tr, a, b, c⟩ := e
    simp only [layE, eVals] at hb
    simp [decF0, decodeBody, decE, hb, hp, need, ask, hw]
theorem RoundTrip.famo (e : EOp) (op : Aop) (dbl : Bool) (ord : Ord) : RoundTrip.Statement (.famo e op dbl ord) := by
  refine RoundTrip.ofFields rfl (by decide) rfl ?_ (fun hw body hb => ?_)
  · have h0 := e.tok.pop.isLt
    have h1 := e.tok.push.isLt
    have h2 := map_val_lt e.tr
    have h3 := Bool.toNat_lt e.tr.isSome
    have h4 := e.a.isLt
    have h5 := e.b.isLt
    have h6 := e.c.isLt
    have h7 := op.code_lt
    have h8 := Bool.toNat_lt dbl
    have h9 := ord.code_lt
    simp only [fits, layE, eVals, pack, and_true]
    omega
  · have ho : ord.code < 4 := by cases ord <;> simp_all [Instr.wf, Ord.code]
    have hp := unpack_pack [4, 1, 2, 6] [op.code, dbl.toNat, ord.code, 0] (by
      have := op.code_lt
      have := Bool.toNat_lt dbl
      have := ord.code_lt
      simp only [fits, and_true]
      omega)
    obtain ⟨tok, tr, a, b, c⟩ := e
    simp only [layE, eVals] at hb
    simp [decF0, decodeBody, decE, hb, hp, need, ask, hw]
theorem RoundTrip.fput (e : EOp) (ssp : Space) (ord : Ord) : RoundTrip.Statement (.fput e ssp ord) := by
  refine RoundTrip.ofFields rfl (by decide) rfl ?_ (fun hw body hb => ?_)
  · have h0 := e.tok.pop.isLt
    have h1 := e.tok.push.isLt
    have h2 := map_val_lt e.tr
    have h3 := Bool.toNat_lt e.tr.isSome
    have h4 := e.a.isLt
    have h5 := e.b.isLt
    have h6 := e.c.isLt
    have h7 := ssp.code_lt
    have h8 := ord.code_lt
    simp only [fits, layE, eVals, pack, and_true]
    omega
  · have ho : ord.code < 4 := by cases ord <;> simp_all [Instr.wf, Ord.code]
    have hp := unpack_pack [1, 1, 3, 2, 6] [0, ssp.code, 0, ord.code, 0] (by
      have := ssp.code_lt
      have := ord.code_lt
      simp only [fits, and_true]
      omega)
    obtain ⟨tok, tr, a, b, c⟩ := e
    simp only [layE, eVals] at hb
    simp [decF0, decodeBody, decE, hb, hp, need, ask, hw]
theorem RoundTrip.fget (e : EOp) (dsp : Space) (ord : Ord) : RoundTrip.Statement (.fget e dsp ord) := by
  refine RoundTrip.ofFields rfl (by decide) rfl ?_ (fun hw body hb => ?_)
  · have h0 := e.tok.pop.isLt
    have h1 := e.tok.push.isLt
    have h2 := map_val_lt e.tr
    have h3 := Bool.toNat_lt e.tr.isSome
    have h4 := e.a.isLt
    have h5 := e.b.isLt
    have h6 := e.c.isLt
    have h7 := dsp.code_lt
    have h8 := ord.code_lt
    simp only [fits, layE, eVals, pack, and_true]
    omega
  · have ho : ord.code < 4 := by cases ord <;> simp_all [Instr.wf, Ord.code]
    have hp := unpack_pack [1, 4, 2, 6] [dsp.code, 0, ord.code, 0] (by
      have := dsp.code_lt
      have := ord.code_lt
      simp only [fits, and_true]
      omega)
    obtain ⟨tok, tr, a, b, c⟩ := e
    simp only [layE, eVals] at hb
    simp [decF0, decodeBody, decE, hb, hp, need, ask, hw]
theorem RoundTrip.fsig (e : EOp) : RoundTrip.Statement (.fsig e) := by
  refine RoundTrip.ofFields rfl (by decide) rfl ?_ (fun hw body hb => ?_)
  · have h0 := e.tok.pop.isLt
    have h1 := e.tok.push.isLt
    have h2 := map_val_lt e.tr
    have h3 := Bool.toNat_lt e.tr.isSome
    have h4 := e.a.isLt
    have h5 := e.b.isLt
    have h6 := e.c.isLt
    simp only [fits, layE, eVals, pack, and_true]
    omega
  · have hp := unpack_pack [13] [0] (by
      simp only [fits, and_true]
      omega)
    obtain ⟨tok, tr, a, b, c⟩ := e
    simp only [layE, eVals] at hb
    simp [decF0, decodeBody, decE, hb, hp, need, ask, hw]
theorem RoundTrip.ffence (e : EOp) : RoundTrip.Statement (.ffence e) := by
  refine RoundTrip.ofFields rfl (by decide) rfl ?_ (fun hw body hb => ?_)
  · have h0 := e.tok.pop.isLt
    have h1 := e.tok.push.isLt
    have h2 := map_val_lt e.tr
    have h3 := Bool.toNat_lt e.tr.isSome
    have h4 := e.a.isLt
    have h5 := e.b.isLt
    have h6 := e.c.isLt
    simp only [fits, layE, eVals, pack, and_true]
    omega
  · have hp := unpack_pack [13] [0] (by
      simp only [fits, and_true]
      omega)
    obtain ⟨tok, tr, a, b, c⟩ := e
    simp only [layE, eVals] at hb
    simp [decF0, decodeBody, decE, hb, hp, need, ask, hw]
theorem RoundTrip.lockstepIssue (c : Nat) : RoundTrip.Statement (.lockstepIssue c) := RoundTrip.ofStep rfl
theorem RoundTrip.queueStallRelease (c : Nat) (t : Fin 4) : RoundTrip.Statement (.queueStallRelease c t) := RoundTrip.ofStep rfl
theorem RoundTrip.cuewaitSatisfied (c : Nat) (t : Fin 4) : RoundTrip.Statement (.cuewaitSatisfied c t) := RoundTrip.ofStep rfl
theorem RoundTrip.tkpopSatisfied (c : Nat) (t : Fin 4) : RoundTrip.Statement (.tkpopSatisfied c t) := RoundTrip.ofStep rfl
theorem RoundTrip.lwwaitSatisfied (c : Nat) (t : Fin 4) : RoundTrip.Statement (.lwwaitSatisfied c t) := RoundTrip.ofStep rfl
theorem RoundTrip.waitcSatisfied (c : Nat) (t : Fin 4) : RoundTrip.Statement (.waitcSatisfied c t) := RoundTrip.ofStep rfl
theorem RoundTrip.sbarRelease (c : Nat) : RoundTrip.Statement (.sbarRelease c) := RoundTrip.ofStep rfl
theorem RoundTrip.spamoRetry (c : Nat) (t : Fin 4) : RoundTrip.Statement (.spamoRetry c t) := RoundTrip.ofStep rfl
theorem RoundTrip.engineCommandStart (c : Nat) (e : Eng) : RoundTrip.Statement (.engineCommandStart c e) := RoundTrip.ofStep rfl
theorem RoundTrip.engineCommandFinish (c : Nat) (e : Eng) : RoundTrip.Statement (.engineCommandFinish c e) := RoundTrip.ofStep rfl
theorem RoundTrip.streamBytesReady (c : Nat) : RoundTrip.Statement (.streamBytesReady c) := RoundTrip.ofStep rfl
theorem RoundTrip.globalWritePerform (c k : Nat) : RoundTrip.Statement (.globalWritePerform c k) := RoundTrip.ofStep rfl
theorem RoundTrip.dieUpdateApply (d : Fin 4) (k : Nat) : RoundTrip.Statement (.dieUpdateApply d k) := RoundTrip.ofStep rfl
theorem RoundTrip.llcFill (d : Fin 4) (line key : Nat) (cmp : Bool) : RoundTrip.Statement (.llcFill d line key cmp) := RoundTrip.ofStep rfl
theorem RoundTrip.llcWrite (d : Fin 4) (line off : Nat) (data : List Byte) : RoundTrip.Statement (.llcWrite d line off data) := RoundTrip.ofStep rfl
theorem RoundTrip.engineFault (c : Nat) (e : Eng) : RoundTrip.Statement (.engineFault c e) := RoundTrip.ofStep rfl
theorem RoundTrip.engineFaultDelivery (c : Nat) : RoundTrip.Statement (.engineFaultDelivery c) := RoundTrip.ofStep rfl
theorem RoundTrip.engfaultRestart (c : Nat) (e : Eng) : RoundTrip.Statement (.engfaultRestart c e) := RoundTrip.ofStep rfl
theorem RoundTrip.engfaultAbandon (c : Nat) (e : Eng) : RoundTrip.Statement (.engfaultAbandon c e) := RoundTrip.ofStep rfl
theorem RoundTrip.engctlHalt (c : Nat) (mask : BitVec 4) : RoundTrip.Statement (.engctlHalt c mask) := RoundTrip.ofStep rfl
theorem RoundTrip.singleStep (c : Nat) (t : Fin 4) : RoundTrip.Statement (.singleStep c t) := RoundTrip.ofStep rfl
theorem RoundTrip.scoreboardedResult (c : Nat) (t : Fin 4) (k : Nat) : RoundTrip.Statement (.scoreboardedResult c t k) := RoundTrip.ofStep rfl
theorem RoundTrip.iterationPlace (launch : Nat) : RoundTrip.Statement (.iterationPlace launch) := RoundTrip.ofStep rfl
theorem RoundTrip.slotFill (d : Fin 4) : RoundTrip.Statement (.slotFill d) := RoundTrip.ofStep rfl
theorem RoundTrip.deficitCharge (d : Fin 4) (job clocks : Nat) : RoundTrip.Statement (.deficitCharge d job clocks) := RoundTrip.ofStep rfl
theorem RoundTrip.preemptionRequest (d : Fin 4) : RoundTrip.Statement (.preemptionRequest d) := RoundTrip.ofStep rfl
theorem RoundTrip.cohortAdmit (launch : Nat) : RoundTrip.Statement (.cohortAdmit launch) := RoundTrip.ofStep rfl
theorem RoundTrip.understudyStage (c : Nat) : RoundTrip.Statement (.understudyStage c) := RoundTrip.ofStep rfl
theorem RoundTrip.prologueCopy (c : Nat) : RoundTrip.Statement (.prologueCopy c) := RoundTrip.ofStep rfl
theorem RoundTrip.iterationEnterRunning (c : Nat) : RoundTrip.Statement (.iterationEnterRunning c) := RoundTrip.ofStep rfl
theorem RoundTrip.iterationDrainEnd (c : Nat) : RoundTrip.Statement (.iterationDrainEnd c) := RoundTrip.ofStep rfl
theorem RoundTrip.nodeStart (node : Nat) : RoundTrip.Statement (.nodeStart node) := RoundTrip.ofStep rfl
theorem RoundTrip.nodeEnd (node : Nat) : RoundTrip.Statement (.nodeEnd node) := RoundTrip.ofStep rfl
theorem RoundTrip.contextStop (c : Nat) : RoundTrip.Statement (.contextStop c) := RoundTrip.ofStep rfl
theorem RoundTrip.imageWrite (c : Nat) : RoundTrip.Statement (.imageWrite c) := RoundTrip.ofStep rfl
theorem RoundTrip.drainTimeout (c : Nat) : RoundTrip.Statement (.drainTimeout c) := RoundTrip.ofStep rfl
theorem RoundTrip.imageRestore (c : Nat) : RoundTrip.Statement (.imageRestore c) := RoundTrip.ofStep rfl
theorem RoundTrip.debugStop (c : Nat) : RoundTrip.Statement (.debugStop c) := RoundTrip.ofStep rfl
theorem RoundTrip.debugGo (c : Nat) : RoundTrip.Statement (.debugGo c) := RoundTrip.ofStep rfl
theorem RoundTrip.cardStart (card engine : Nat) : RoundTrip.Statement (.cardStart card engine) := RoundTrip.ofStep rfl
theorem RoundTrip.prompterCardRun (engine : Nat) : RoundTrip.Statement (.prompterCardRun engine) := RoundTrip.ofStep rfl
theorem RoundTrip.narratorCardRun (engine : Nat) : RoundTrip.Statement (.narratorCardRun engine) := RoundTrip.ofStep rfl
theorem RoundTrip.cardEnd (card : Nat) : RoundTrip.Statement (.cardEnd card) := RoundTrip.ofStep rfl
theorem RoundTrip.engineNotReadyCardFail (card : Nat) : RoundTrip.Statement (.engineNotReadyCardFail card) := RoundTrip.ofStep rfl
theorem RoundTrip.request (port : Fin 4) (flow : Nat) (msg : List Byte) : RoundTrip.Statement (.request port flow msg) := RoundTrip.ofStep rfl
theorem RoundTrip.cancelMessage (port : Fin 4) (flow : Nat) (msg : List Byte) : RoundTrip.Statement (.cancelMessage port flow msg) := RoundTrip.ofStep rfl
theorem RoundTrip.replyReceived (port : Fin 4) (flow : Nat) (msg : List Byte) : RoundTrip.Statement (.replyReceived port flow msg) := RoundTrip.ofStep rfl
theorem RoundTrip.hifDoorbell (v : Word) : RoundTrip.Statement (.hifDoorbell v) := RoundTrip.ofStep rfl
theorem RoundTrip.hifCapbase (v : HostHalf) : RoundTrip.Statement (.hifCapbase v) := RoundTrip.ofStep rfl
theorem RoundTrip.jobSet (i : Fin 32) : RoundTrip.Statement (.jobSet i) := RoundTrip.ofStep rfl
theorem RoundTrip.jobFree (i : Fin 32) : RoundTrip.Statement (.jobFree i) := RoundTrip.ofStep rfl
theorem RoundTrip.keyLoad (i : Fin 32) : RoundTrip.Statement (.keyLoad i) := RoundTrip.ofStep rfl
theorem RoundTrip.keyDestroy (i : Fin 32) : RoundTrip.Statement (.keyDestroy i) := RoundTrip.ofStep rfl
theorem RoundTrip.linkKey (i : Fin 32) : RoundTrip.Statement (.linkKey i) := RoundTrip.ofStep rfl
theorem RoundTrip.copy (i : Fin 32) : RoundTrip.Statement (.copy i) := RoundTrip.ofStep rfl
theorem RoundTrip.vocabInstall (i : Fin 32) : RoundTrip.Statement (.vocabInstall i) := RoundTrip.ofStep rfl
theorem RoundTrip.routineLoad (i : Fin 32) : RoundTrip.Statement (.routineLoad i) := RoundTrip.ofStep rfl
theorem RoundTrip.serviceSet (i : Fin 32) : RoundTrip.Statement (.serviceSet i) := RoundTrip.ofStep rfl
theorem RoundTrip.capsuleLaunch (i : Fin 32) : RoundTrip.Statement (.capsuleLaunch i) := RoundTrip.ofStep rfl
theorem RoundTrip.imageResume (i : Fin 32) : RoundTrip.Statement (.imageResume i) := RoundTrip.ofStep rfl
theorem RoundTrip.fabDevnumWrite (v : Word) : RoundTrip.Statement (.fabDevnumWrite v) := RoundTrip.ofStep rfl
theorem RoundTrip.flitReceive (link : Fin 12) (f : Flit) : RoundTrip.Statement (.flitReceive link f) := RoundTrip.ofStep rfl
theorem RoundTrip.fabricRequestPerform (k : Nat) : RoundTrip.Statement (.fabricRequestPerform k) := RoundTrip.ofStep rfl
theorem RoundTrip.fabRetryExpiry (c : Nat) (n : ReqNo) : RoundTrip.Statement (.fabRetryExpiry c n) := RoundTrip.ofStep rfl
theorem RoundTrip.linkReplay (link : Fin 12) (lseq : Nat) (auth : Bool) : RoundTrip.Statement (.linkReplay link lseq auth) := RoundTrip.ofStep rfl
theorem RoundTrip.epochSwitch (link : Fin 12) : RoundTrip.Statement (.epochSwitch link) := RoundTrip.ofStep rfl
theorem RoundTrip.oldKeyDestroy (l : LinkDir) : RoundTrip.Statement (.oldKeyDestroy l) := RoundTrip.ofStep rfl
theorem RoundTrip.chunkGrant (k : Nat) : RoundTrip.Statement (.chunkGrant k) := RoundTrip.ofStep rfl
theorem RoundTrip.cxlRangeWrite (r : Fin 8) (off : Nat) (v : HostVal) : RoundTrip.Statement (.cxlRangeWrite r off v) := RoundTrip.ofStep rfl
theorem RoundTrip.cxlPortDownAccess (c : Nat) (line : Nat) : RoundTrip.Statement (.cxlPortDownAccess c line) := RoundTrip.ofStep rfl
theorem RoundTrip.cellarerRegisterWrite (d : Fin 4) (off : Nat) (v : HostVal) : RoundTrip.Statement (.cellarerRegisterWrite d off v) := RoundTrip.ofStep rfl
theorem RoundTrip.caskMove (d : Fin 4) (cask tier fmt addr : Nat) : RoundTrip.Statement (.caskMove d cask tier fmt addr) := RoundTrip.ofStep rfl
theorem RoundTrip.fp8Step (d : Fin 4) (cask : Nat) : RoundTrip.Statement (.fp8Step d cask) := RoundTrip.ofStep rfl
theorem RoundTrip.cxlStep (d : Fin 4) (cask : Nat) : RoundTrip.Statement (.cxlStep d cask) := RoundTrip.ofStep rfl
theorem RoundTrip.absentStep (d : Fin 4) (cask : Nat) : RoundTrip.Statement (.absentStep d cask) := RoundTrip.ofStep rfl
theorem RoundTrip.recall (d : Fin 4) (agree : Fin 8) : RoundTrip.Statement (.recall d agree) := RoundTrip.ofStep rfl
theorem RoundTrip.lenderTimeout (c : Nat) : RoundTrip.Statement (.lenderTimeout c) := RoundTrip.ofStep rfl
theorem RoundTrip.agreementInvalidate (d : Fin 4) (agree : Fin 8) : RoundTrip.Statement (.agreementInvalidate d agree) := RoundTrip.ofStep rfl
theorem RoundTrip.sramScrub (c row : Nat) (ce ue : Bool) : RoundTrip.Statement (.sramScrub c row ce ue) := RoundTrip.ofStep rfl
theorem RoundTrip.llcScrub (d : Fin 4) (slice set : Nat) (ue : Option Nat) : RoundTrip.Statement (.llcScrub d slice set ue) := RoundTrip.ofStep rfl
theorem RoundTrip.hbmScrub (line : Nat) (ue : Bool) : RoundTrip.Statement (.hbmScrub line ue) := RoundTrip.ofStep rfl
theorem RoundTrip.encoreCaptureStart : RoundTrip.Statement (.encoreCaptureStart) := RoundTrip.ofStep rfl
theorem RoundTrip.encoreReplayStart : RoundTrip.Statement (.encoreReplayStart) := RoundTrip.ofStep rfl
theorem RoundTrip.encoreOff : RoundTrip.Statement (.encoreOff) := RoundTrip.ofStep rfl
theorem RoundTrip.powerStepDown (mw temp : Word) : RoundTrip.Statement (.powerStepDown mw temp) := RoundTrip.ofStep rfl
theorem RoundTrip.powerStepUp (mw temp : Word) : RoundTrip.Statement (.powerStepUp mw temp) := RoundTrip.ofStep rfl
theorem RoundTrip.thermalShutdown (temp : Word) : RoundTrip.Statement (.thermalShutdown temp) := RoundTrip.ofStep rfl
theorem RoundTrip.packageReset : RoundTrip.Statement (.packageReset) := RoundTrip.ofStep rfl
theorem RoundTrip.functionReady (f : Func) (i : Nat) : RoundTrip.Statement (.functionReady f i) := RoundTrip.ofStep rfl
theorem RoundTrip.bootGo : RoundTrip.Statement (.bootGo) := RoundTrip.ofStep rfl
theorem RoundTrip.configBlobApply (blob : List Byte) : RoundTrip.Statement (.configBlobApply blob) := RoundTrip.ofStep rfl
theorem RoundTrip.readinessClear (f : Func) (i : Nat) : RoundTrip.Statement (.readinessClear f i) := RoundTrip.ofStep rfl
theorem RoundTrip.shaStart (v : Word) : RoundTrip.Statement (.shaStart v) := RoundTrip.ofStep rfl
theorem RoundTrip.shaDone : RoundTrip.Statement (.shaDone) := RoundTrip.ofStep rfl
theorem RoundTrip.eccStart (v : Word) : RoundTrip.Statement (.eccStart v) := RoundTrip.ofStep rfl
theorem RoundTrip.eccDone : RoundTrip.Statement (.eccDone) := RoundTrip.ofStep rfl
theorem RoundTrip.measExtend (v : Word) : RoundTrip.Statement (.measExtend v) := RoundTrip.ofStep rfl
theorem RoundTrip.measDone : RoundTrip.Statement (.measDone) := RoundTrip.ofStep rfl
theorem RoundTrip.mbxRsplen (v : Word) : RoundTrip.Statement (.mbxRsplen v) := RoundTrip.ofStep rfl
theorem RoundTrip.doeDiscovery (req : List Byte) : RoundTrip.Statement (.doeDiscovery req) := RoundTrip.ofStep rfl
theorem RoundTrip.getVersion (req : List Byte) : RoundTrip.Statement (.getVersion req) := RoundTrip.ofStep rfl
theorem RoundTrip.getCapabilities (req : List Byte) : RoundTrip.Statement (.getCapabilities req) := RoundTrip.ofStep rfl
theorem RoundTrip.negotiateAlgorithms (req : List Byte) : RoundTrip.Statement (.negotiateAlgorithms req) := RoundTrip.ofStep rfl
theorem RoundTrip.getMeasurements (req : List Byte) : RoundTrip.Statement (.getMeasurements req) := RoundTrip.ofStep rfl
theorem RoundTrip.registerWrite (off : Nat) (dbl : Bool) (v : Word) : RoundTrip.Statement (.registerWrite off dbl v) := RoundTrip.ofStep rfl
theorem RoundTrip.flowOpen (port : Fin 4) (flow : Nat) : RoundTrip.Statement (.flowOpen port flow) := RoundTrip.ofStep rfl
theorem RoundTrip.flowClose (port : Fin 4) (flow : Nat) : RoundTrip.Statement (.flowClose port flow) := RoundTrip.ofStep rfl
theorem RoundTrip.spdmRequest (req : List Byte) : RoundTrip.Statement (.spdmRequest req) := RoundTrip.ofStep rfl

end Sys2Proof.Laws
end

