-- ==== Sys2Proof/Laws/Scratch.lean ====
section
/-! SUPPORT. What a read of scratchpad finds where nothing orders it after the latest write (R43). -/

namespace Sys2Proof.Machine

theorem Tab.find_filter {α : Type} (t : Tab α) (p : Nat → Bool) (q : Nat) :
    Tab.find (List.filter (fun e : Nat × α => p e.1) t) q = if p q then t.find q else none := by
  induction t with
  | nil => simp
  | cons e t ih =>
    obtain ⟨k, v⟩ := e
    rw [List.filter_cons]
    by_cases hp : p k <;> by_cases hk : k = q <;> simp_all [Tab.find]

theorem Core.find_whole (k : Core) (ws : List Nat) (q : Nat) : (k.whole ws).torn.find q = if q ∈ ws then none else k.torn.find q := by
  unfold Core.whole
  rw [Tab.find_filter k.torn (fun n => !ws.contains n) q]
  by_cases h : q ∈ ws <;> simp [h]

@[simp] theorem Core.spByte_whole (k : Core) (ws : List Nat) (a : Nat) : (k.whole ws).spByte a = k.spByte a := rfl
@[simp] theorem Core.spByte_sees (k : Core) (who : Nat) (ids : List Nat) (a : Nat) : (k.sees who ids).spByte a = k.spByte a := rfl
@[simp] theorem Core.spByte_tear (k : Core) (who id : Nat) (ws : List Nat) (a : Nat) : (k.tear who id ws).spByte a = k.spByte a := rfl

theorem wordsOf_nodup (a n : Nat) : (wordsOf a n).Nodup := by
  unfold wordsOf
  split
  · exact List.nodup_nil
  · exact List.Nodup.map (fun x y h => by simpa using h) (List.nodup_range)

theorem mem_wordsOf (a n q : Nat) : q ∈ wordsOf a n → ∃ x, a ≤ x ∧ x < a + n ∧ x / 8 = q := by
  unfold wordsOf
  split
  · simp
  · rename_i hn
    simp only [List.mem_map, List.mem_range]
    rintro ⟨i, hi, rfl⟩
    rcases Nat.eq_zero_or_pos i with rfl | hp
    · exact ⟨a, le_rfl, by omega, by omega⟩
    · exact ⟨8 * (a / 8 + i), by omega, by omega, by omega⟩

/-- What reading words may change: only which of them are still to be seen. -/
structure Looks (s w : State) (c : Nat) (ws : List Nat) : Prop where
  keep : ∀ q, q ∉ ws → (w.core c).torn.find q = (s.core c).torn.find q
  torn : ∀ q, (w.core c).torn.find q = (s.core c).torn.find q ∨ (w.core c).torn.find q = none
  core : ∀ q, w.core q = if q = c then { s.core c with torn := (w.core c).torn } else s.core q
  rest : { w with cores := s.cores, tick := s.tick } = s

theorem Looks.refl (s : State) (c : Nat) (ws : List Nat) : Looks s s c ws :=
  ⟨fun _ _ => rfl, fun _ => .inl rfl, fun q => by split <;> simp_all, rfl⟩

theorem Looks.trans {s w v : State} {c : Nat} {xs ys : List Nat} (h : Looks s w c xs) (k : Looks w v c ys) : Looks s v c (xs ++ ys) := by
  refine ⟨fun q hq => ?_, fun q => ?_, fun q => ?_, ?_⟩
  · simp only [List.mem_append, not_or] at hq
    rw [k.keep q hq.2, h.keep q hq.1]
  · rcases k.torn q with e | e
    · rw [e]; exact h.torn q
    · exact .inr e
  · rw [k.core q]
    split
    · rw [h.core c]; simp
    · rename_i hq
      rw [h.core q, if_neg hq]
  · have hk := k.rest
    have hh := h.rest
    rw [← hh]
    conv => rhs; rw [← hk]

theorem State.seeWord_looks (s : State) (c who w : Nat) : Looks s (s.seeWord c who w).2 c [w] := by
  unfold State.seeWord
  split
  · exact .refl s c _
  · split
    · exact .refl s c _
    · dsimp only
      split
      · exact ⟨fun _ _ => rfl, fun _ => .inl rfl, fun q => by split <;> simp_all [State.core, State.drawBit], rfl⟩
      · have hb : ∀ q, (s.drawBit.2).core q = s.core q := fun _ => rfl
        refine ⟨fun q hq => ?_, fun q => ?_, fun q => ?_, rfl⟩
        · rw [State.core_modCore_same, Core.find_whole, if_neg hq, hb]
        · rw [State.core_modCore_same, Core.find_whole, hb]
          split <;> simp
        · rw [State.core_modCore, State.core_modCore_same, hb, hb]
          rfl

theorem State.seeWord_old (s : State) (c who w : Nat) (h : (s.seeWord c who w).1 = true) :
    (s.core c).mayBeOld who w ∧ ((s.seeWord c who w).2.core c).torn = (s.core c).torn := by
  unfold State.seeWord at h ⊢
  split at h
  · exact absurd h (by simp)
  · rename_i e he
    split at h
    · exact absurd h (by simp)
    · rename_i hw
      simp only [not_or] at hw
      refine ⟨⟨e, he, hw.1, hw.2⟩, ?_⟩
      dsimp only at h ⊢
      simp only [hw.1, hw.2, or_self, if_false, h, if_true]
      rfl

theorem State.seeWord_plain (s : State) (c who w : Nat) (h : ¬ (s.core c).mayBeOld who w) : s.seeWord c who w = (false, s) := by
  unfold State.seeWord
  split
  · rfl
  · rename_i e he
    split
    · rfl
    · rename_i hw
      simp only [not_or] at hw
      exact absurd ⟨e, he, hw.1, hw.2⟩ h

theorem State.seeWords_looks (c who : Nat) (ws : List Nat) (s : State) : Looks s (s.seeWords c who ws).2 c ws := by
  induction ws generalizing s with
  | nil => exact .refl s c _
  | cons w ws ih => exact (s.seeWord_looks c who w).trans (ih _)

theorem State.seeWords_plain (c who : Nat) (ws : List Nat) (s : State) (h : ∀ w ∈ ws, ¬ (s.core c).mayBeOld who w) :
    s.seeWords c who ws = ([], s) := by
  induction ws generalizing s with
  | nil => rfl
  | cons w ws ih =>
    unfold State.seeWords
    rw [s.seeWord_plain c who w (h w (by simp))]
    dsimp only
    rw [ih s fun x hx => h x (by simp [hx])]
    rfl

theorem Looks.mayBeOld {s w : State} {c : Nat} {ws : List Nat} (h : Looks s w c ws) {who q : Nat} (k : (w.core c).mayBeOld who q) :
    (s.core c).mayBeOld who q := by
  obtain ⟨e, he, hw⟩ := k
  rcases h.torn q with x | x
  · exact ⟨e, by rw [← x]; exact he, hw⟩
  · rw [x] at he; exact absurd he (by simp)

theorem State.seeWords_old (c who : Nat) (ws : List Nat) (s : State) (hn : ws.Nodup) :
    ∀ q ∈ (s.seeWords c who ws).1, (s.core c).mayBeOld who q ∧ ((s.seeWords c who ws).2.core c).torn.find q = (s.core c).torn.find q := by
  induction ws generalizing s with
  | nil => simp [State.seeWords]
  | cons w ws ih =>
    obtain ⟨hw, hn⟩ := List.nodup_cons.mp hn
    intro q hq
    have hl := s.seeWord_looks c who w
    have hr := State.seeWords_looks c who ws (s.seeWord c who w).2
    have tail : q ∈ ((s.seeWord c who w).2.seeWords c who ws).1 → (s.core c).mayBeOld who q
        ∧ ((s.seeWords c who (w :: ws)).2.core c).torn.find q = (s.core c).torn.find q := by
      intro hq
      obtain ⟨h1, h2⟩ := ih _ hn q hq
      refine ⟨hl.mayBeOld h1, h2.trans ?_⟩
      obtain ⟨e, he, _⟩ := h1
      rcases hl.torn q with x | x
      · exact x
      · rw [x] at he; exact absurd he (by simp)
    unfold State.seeWords at hq
    dsimp only at hq
    split at hq
    · rename_i hb
      rcases List.mem_cons.mp hq with rfl | hq
      · obtain ⟨h1, h2⟩ := s.seeWord_old c who q hb
        exact ⟨h1, (hr.keep q hw).trans (by rw [h2])⟩
      · exact tail hq
    · exact tail hq

/-- All that a read of scratchpad can do. -/
theorem State.spSee_sees (s : State) (c who a n : Nat) :
    Sees s (s.spSee c who a n).2 c who a n fun x => (s.spSee c who a n).1.getD (x - a) 0 := by
  have hl := State.seeWords_looks c who (wordsOf a n) s
  have ho := State.seeWords_old c who (wordsOf a n) s (wordsOf_nodup a n)
  refine ⟨⟨fun q => (s.seeWords c who (wordsOf a n)).1.contains q, fun q hq => (ho q (by simpa using hq)).1, fun x h1 h2 => ?_⟩,
    hl.torn, hl.core, hl.rest, fun h => ?_⟩
  · have hx : x - a < n := by omega
    have hax : a + (x - a) = x := by omega
    unfold State.spSee
    simp only [List.getD_eq_getElem?_getD, List.getElem?_map, List.getElem?_range hx, Option.map_some, Option.getD_some, hax]
    split
    · rename_i hc
      unfold Core.spOld
      rw [(ho _ (by simpa using hc)).2]
      split
      · rfl
      · unfold Core.spByte; rw [hl.core c]; simp
    · unfold Core.spByte; rw [hl.core c]; simp
  · unfold State.spSee
    rw [State.seeWords_plain c who (wordsOf a n) s fun w hw => by
      obtain ⟨x, h1, h2, rfl⟩ := mem_wordsOf a n w hw
      exact h x h1 h2]

end Sys2Proof.Machine
end

