-- ==== Sys2Proof/Tests/Slice0.lean ====
section
/-! SUPPORT. Small tests on fixed values, worked by hand from the spec, and witnesses that the hypotheses of the statements can be met. -/

namespace Sys2Proof.Tests

open Sys2Proof.Machine

set_option Elab.async false

/-! ## Decoding: words written out from the encodings of the spec (R84, R90 to R97 and each family's own table) -/

theorem test_decode_add : decodeSyllable 0x0F80860840000000 = .ok ⟨false, .always, .add 3 1 2⟩ := by decide +kernel
theorem test_decode_addi_guard_k : decodeSyllable 0x32018A2FFFFFFFF8 = .ok ⟨true, .pred 4 true, .addi 5 5 0xFFFFFFFF⟩ := by decide +kernel
theorem test_decode_loop : decodeSyllable 0x0FBA00480052A00B = .ok ⟨false, .always, .loop 1 9 11 2 true 20⟩ := by decide +kernel
theorem test_decode_ld : decodeSyllable 0x0FC00A5000008113 = .ok ⟨false, .always, .ld 5 ⟨10, 0, 16, 0, .g, .pkg, .acq⟩ false .d⟩ := by
  decide +kernel
theorem test_decode_vfma :
    decodeSyllable 0x0FD2410516609000 = .ok ⟨false, .always, .vfma ⟨⟨16, 8⟩, 10, 11, 12, 1, false, false, true, false, 0, 0, 0⟩⟩ := by decide +kernel
theorem test_decode_mma : decodeSyllable 0x0FE0084A2A000002 = .ok ⟨false, .always, .mma ⟨2, 2⟩ 20 21 2⟩ := by decide +kernel
theorem test_decode_mdrain :
    decodeSyllable 0x0FE1820F3F00024D = .ok ⟨false, .always, .mdrain ⟨0, 16⟩ 30 31 32 1 3 1 false true 0⟩ := by decide +kernel
theorem test_decode_cpy_try : decodeSyllable 0x0FF0110A2AB4E001 = .ok ⟨false, .always, .cpy ⟨⟨4, 8⟩, some 7, 20, 21, 22⟩ .sp .g .cr⟩ := by
  decide +kernel
theorem test_decode_attn : decodeSyllable 0x0FE4088600000000 = .ok ⟨false, .always, .attn ⟨2, 4⟩ 12⟩ := by decide +kernel
theorem test_decode_kvapp : decodeSyllable 0x0FE4820A2AB00040 = .ok ⟨false, .always, .kvapp ⟨0, 16⟩ 20 21 22 0 true⟩ := by decide +kernel
theorem test_decode_fmtq : decodeSyllable 0x0FE3807800000000 = .ok ⟨false, .always, .fmtq 15⟩ := by decide +kernel
theorem test_decode_card : decodeSyllable 0x0FF4400580000000 = .ok ⟨false, .always, .card ⟨⟨16, 0⟩, none, 11, 0, 0⟩⟩ := by decide +kernel
theorem test_decode_cardwt : decodeSyllable 0x0FF4820580000000 = .ok ⟨false, .always, .cardwt ⟨⟨0, 16⟩, none, 11, 0, 0⟩⟩ := by decide +kernel
theorem test_decode_brk : decodeSyllable 0x0FFC800000000007 = .ok ⟨false, .always, .brk 7⟩ := by decide +kernel
theorem test_decode_mts : decodeSyllable 0x0FFD804828000000 = .ok ⟨false, .always, .mts 0x50 9⟩ := by decide +kernel
theorem test_decode_nop : decodeSyllable 0x0FFF800000000000 = .ok ⟨false, .always, .nop⟩ := by decide +kernel
theorem test_decode_filler_never_executes : decodeSyllable 0x1FFF800000000001 = .ok ⟨false, .never, .nop⟩ := by decide +kernel
theorem test_bundle_holds_both_slots :
    splitBundle (encodeBundle 0x0F80860840000000 0x1FFF800000000001 true) = ⟨0x0F80860840000000, 0x1FFF800000000001, 0, true⟩ := by decide +kernel
theorem test_encode_add : encodeSyllable ⟨false, .always, .add 3 1 2⟩ = some 0x0F80860840000000 := by decide +kernel
theorem test_table_word_decodes : decodeTableWord 64 0x0F80860840000000 = some (.add 3 1 2) := by decide +kernel

/-! ## Well-formedness: an ill-formed term for each check -/

/-- An address operand in scratchpad, with no ordering. -/
def opSp : MemOp := ⟨1, 0, 0, 0, .sp, .cr, .rlx⟩
/-- An address operand in global space, with no ordering. -/
def opG : MemOp := ⟨1, 0, 0, 0, .g, .cr, .rlx⟩
/-- Vector operands of a format and a sub-function with no modifier. -/
def opV (fmt : BitVec 4) (sub : BitVec 5) : VOp := ⟨⟨0, 0⟩, 1, 2, 3, fmt, false, false, false, false, 0, 0, sub⟩
/-- Engine operands with no tokens. -/
def opE : EOp := ⟨⟨0, 0⟩, none, 1, 2, 3⟩

theorem test_wf_accepts : (Instr.ld 1 opSp false .d).wf ∧ (Instr.vadd (opV 1 0)).wf ∧ (Instr.cpy opE .sp .g .cr).wf := by decide
theorem test_wf_ext_beyond_64 : (Instr.ext 1 2 32 32 false).wf = false ∧ (Instr.ins 1 2 3 63 1).wf = false := by decide
theorem test_wf_fcvt_same_or_integers : (Instr.fcvt 1 2 .f32 .f32 false).wf = false ∧ (Instr.fcvt 1 2 .i32 .u64 false).wf = false := by decide
theorem test_wf_second_predicate_equal : (Instr.cmp 3 (some 3) 1 2 .eq).wf = false ∧ (Instr.fcmp 3 (some 3) 1 2 .eq true).wf = false := by decide
theorem test_wf_loop_stages : (Instr.loop 0 1 0 0 false 4).wf = false ∧ (Instr.loop 0 1 0 2 false 22).wf = false := by decide
theorem test_wf_sysreg_listed : (Instr.mfs 1 0x008).wf = false ∧ (Instr.mts 0x017 1).wf = false := by decide
theorem test_wf_order_of_access : (Instr.ld 1 { opG with ord := .rel } false .d).wf = false ∧ (Instr.st 1 { opG with ord := .acq } .d).wf = false := by
  decide
theorem test_wf_scope_needs_order : (Instr.ld 1 { opG with scp := .pkg } false .d).wf = false
    ∧ (Instr.ld 1 { opSp with scp := .pkg, ord := .acq } false .d).wf = false := by decide
theorem test_wf_pair_operands : (Instr.ldq 1 1 opG).wf = false ∧ (Instr.ldq 1 2 { opG with b := 1 }).wf = false
    ∧ (Instr.stq 1 2 3 false opG).wf = false ∧ (Instr.stq 0 2 3 false { opG with sh := 1 }).wf = false := by decide
theorem test_wf_space_of_access : (Instr.ldt 1 opSp false .d).wf = false ∧ (Instr.ldl 1 2 opG .d).wf = false ∧ (Instr.stu 1 opG .d).wf = false
    ∧ (Instr.pref opSp 0).wf = false := by decide
theorem test_wf_atomic_expected : (Instr.spamo 1 2 3 4 0 .add true).wf = false ∧ (Instr.amosc 1 2 3 4 0 .add true).wf = false
    ∧ (Instr.amo 1 2 3 4 0 .add true .rlx .cr).wf = false := by decide
theorem test_wf_atomic_order : (Instr.amo 1 2 0 4 0 .add true .sc .pkg).wf = false ∧ (Instr.amo 1 2 0 4 0 .add true .rlx .die).wf = false := by decide
theorem test_wf_fence : (Instr.fence .rlx .cr).wf = false ∧ (Instr.fence .sc .die).wf = false := by decide
theorem test_wf_cue_window : (Instr.cueinc true 1 2 3 .cr).wf = false ∧ (Instr.cueinc false 1 2 3 .cr).wf = false ∧ (Instr.cuerd 1 true 1 2).wf = false
    ∧ (Instr.cuerd 1 false 1 2).wf = false := by decide
theorem test_wf_token_mask : (Instr.tkpush 0).wf = false ∧ (Instr.tkpush 16).wf = false ∧ (Instr.tkpop 0).wf = false ∧ (Instr.tkpop 17).wf = false := by
  decide
theorem test_wf_flush_scope : (Instr.cflush 1 2 .clean .die).wf = false := by decide
theorem test_wf_vector_format : (Instr.vfma (opV 9 0)).wf = false ∧ (Instr.vsh (opV 0 0)).wf = false ∧ (Instr.vquant (opV 0 0)).wf = false
    ∧ (Instr.vpart (opV 0 0)).wf = false ∧ (Instr.vmovg (opV 1 0)).wf = false := by decide
theorem test_wf_vector_function : (Instr.vadd (opV 1 1)).wf = false ∧ (Instr.vsfu { opV 1 9 with c := 0 }).wf = false
    ∧ (Instr.vscan { opV 0 3 with c := 0 }).wf = false := by decide
theorem test_wf_vector_modifiers : (Instr.vlog { opV 1 0 with neg1 := true }).wf = false ∧ (Instr.vtopk { opV 0 0 with neg2 := true }).wf = false
    ∧ (Instr.vcmp { opV 1 0 with scale := 1 }).wf = false ∧ (Instr.vsel { opV 1 0 with clamp := 1 }).wf = false
    ∧ (Instr.vadd { opV 9 0 with scale := 1 }).wf = false ∧ (Instr.vquant { opV 3 0 with clamp := 1 }).wf = false := by decide
theorem test_wf_vector_operands : (Instr.vtrn (opV 1 0)).wf = false ∧ (Instr.vbcast { opV 1 2 with b := 2 }).wf = false
    ∧ (Instr.vadd { opV 1 0 with tok := ⟨4, 0⟩ }).wf = false := by decide
theorem test_wf_matrix : (Instr.mma ⟨8, 0⟩ 1 2 0).wf = false ∧ (Instr.mdrain ⟨0, 0⟩ 1 2 0 0 14 0 false false 0).wf = false
    ∧ (Instr.mdrain ⟨0, 0⟩ 1 2 0 0 3 3 false false 0).wf = false ∧ (Instr.mdrain ⟨0, 0⟩ 1 2 3 0 3 0 false false 0).wf = false
    ∧ (Instr.mdrain ⟨0, 0⟩ 1 2 3 0 0 1 false false 0).wf = false ∧ (Instr.mzero ⟨0, 0⟩ 0).wf = false := by decide
theorem test_wf_copy : (Instr.cpy { opE with tok := ⟨2, 0⟩ } .sp .g .cr).wf = false ∧ (Instr.cpy opE .sp .g .pkg).wf = false
    ∧ (Instr.cpyz opE .g .cr).wf = false ∧ (Instr.card opE).wf = false ∧ (Instr.cpyg opE .sp .cr true false).wf = false := by decide
theorem test_wf_fabric : (Instr.fld { opE with c := 0 } 0 .rel).wf = false ∧ (Instr.famo opE .add true .sc).wf = false
    ∧ (Instr.fsig { opE with c := 0, tok := ⟨0, 1⟩ }).wf = false ∧ (Instr.ffence opE).wf = false := by decide
theorem test_wf_steps : (Instr.lockstepIssue 256).wf = false ∧ (Instr.llcFill 0 64 0 false).wf = false ∧ (Instr.llcWrite 0 0 120 [0, 0, 0, 0, 0, 0, 0, 0, 0]).wf = false
    ∧ (Instr.deficitCharge 0 (2 ^ 32) 0).wf = false ∧ (Instr.cardStart 1 16).wf = false ∧ (Instr.prompterCardRun 8).wf = false
    ∧ (Instr.cxlRangeWrite 0 32 ⟨true, 0⟩).wf = false ∧ (Instr.caskMove 0 0 4 0 0).wf = false ∧ (Instr.sramScrub 0 16384 false false).wf = false
    ∧ (Instr.llcScrub 0 64 0 none).wf = false ∧ (Instr.registerWrite (2 ^ 32) false 0).wf = false := by decide
theorem test_decode_refuses_reserved : decodeSyllable 0x0FBE800000000000 = .error .illegalInstruction := by decide +kernel

/-! ## Small states -/

/-- A ready strand at 0x1000 with the given registers. -/
def strandOf (g : Tab Word) : Strand := { Strand.zero with g := g, cond := .ready, pc := 0x1000 }
/-- A core with one strand and every bank. -/
def coreOf (u : Strand) : Core := { Core.zero with st := ⟨u, Strand.zero, Strand.zero, Strand.zero⟩, budget := 0xFFFFFFFF }
/-- A machine whose core 0 is up, with strand 0 issuing a bundle at 0x1000. -/
def machineOf (k : Core) : State := { State.reset with cores := [(0, k)], iss := { Issue.zero with pc := 0x1000 } }
/-- The strand of such a machine has the given registers. -/
def withRegs (g : Tab Word) : State := machineOf (coreOf (strandOf g))
/-- A machine with its memory mapped to itself (log 5), whose strand 0 has the given registers. -/
def mapped (g : Tab Word) : State :=
  let s := State.reset.withFetchWord 64 0x0FFF800000000000
  { s with agenda := [], cores := s.cores.map fun e => (e.1, { e.2 with st := { e.2.st with e0 := { e.2.st.e0 with g := g } } }) }

/-- The outcome is a next state of which `p` holds. -/
def leads (o : Host.Outcome State Fault Refusal) (p : State → Bool) : Bool := match o with | .next t => p t | _ => false
/-- The value of register `r` as a syllable `l` bundles later reads it. -/
def gives (i : Instr) (g : Tab Word) (l : Nat) (r : Reg) (v : Word) : Bool := leads (exec i (withRegs g)) fun t => (t.later l).rd r == v
/-- The bundle has taken a trap of this cause. -/
def raises (o : Host.Outcome State Fault Refusal) (cause sub : Nat) : Bool :=
  leads o fun t => match t.iss.trapped with | some x => x.cause == cause && x.sub == sub | none => false

/-! ## Integer (R118 to R120) -/

theorem test_add_wraps : gives (.add 3 1 2) [(1, 0xFFFFFFFFFFFFFFFF), (2, 2)] 1 3 1 = true := by decide +kernel
theorem test_add_to_g0 : gives (.add 0 1 1) [(1, 5)] 1 0 0 = true := by decide +kernel
theorem test_sub : gives (.sub 3 1 2) [(1, 3), (2, 5)] 1 3 0xFFFFFFFFFFFFFFFE = true := by decide +kernel
theorem test_addi_negative : gives (.addi 3 1 0xFFFFFFFF) [(1, 7)] 1 3 6 = true := by decide +kernel
theorem test_mul_reads_old_before_3 : gives (.mul 3 1 2) [(1, 6), (2, 7), (3, 9)] 2 3 9 = true := by decide +kernel
theorem test_mul : gives (.mul 3 1 2) [(1, 6), (2, 7)] 3 3 42 = true := by decide +kernel
theorem test_mulh_su : gives (.mulh 3 1 2 .su) [(1, 0xFFFFFFFFFFFFFFFF), (2, 0xFFFFFFFFFFFFFFFF)] 3 3 0xFFFFFFFFFFFFFFFF = true := by decide +kernel
theorem test_div_truncates : leads (exec (.div 3 1 2 false) (withRegs [(1, 0xFFFFFFFFFFFFFFF9), (2, 2)]))
    (fun t => t.str.sb.map (·.vals) == [[0xFFFFFFFFFFFFFFFD]]) = true := by decide +kernel
theorem test_rem_sign_of_dividend : leads (exec (.rem 3 1 2 false) (withRegs [(1, 0xFFFFFFFFFFFFFFF9), (2, 2)]))
    (fun t => t.str.sb.map (·.vals) == [[0xFFFFFFFFFFFFFFFF]]) = true := by decide +kernel
theorem test_div_by_zero_traps : raises (exec (.div 3 1 2 true) (withRegs [(1, 5)])) 0x0A 0 = true := by decide +kernel
theorem test_and : gives (.and 3 1 2) [(1, 0xF0), (2, 0x3C)] 1 3 0x30 = true := by decide +kernel
theorem test_or : gives (.or 3 1 2) [(1, 0xF0), (2, 0x3C)] 1 3 0xFC = true := by decide +kernel
theorem test_xori_sign_extends : gives (.xori 3 1 0xFFFFFFFF) [(1, 1)] 1 3 0xFFFFFFFFFFFFFFFE = true := by decide +kernel
theorem test_shl_six_bits : gives (.shl 3 1 2) [(1, 1), (2, 65)] 1 3 2 = true := by decide +kernel
theorem test_shr_arithmetic : gives (.shri 3 1 4 true) [(1, 0x8000000000000000)] 1 3 0xF800000000000000 = true := by decide +kernel
theorem test_rotl : gives (.rotl 3 1 2) [(1, 0x8000000000000001), (2, 1)] 1 3 3 = true := by decide +kernel
theorem test_min_signed : gives (.min 3 1 2 false) [(1, 0xFFFFFFFFFFFFFFFF), (2, 1)] 1 3 0xFFFFFFFFFFFFFFFF = true := by decide +kernel
theorem test_max_unsigned : gives (.max 3 1 2 true) [(1, 0xFFFFFFFFFFFFFFFF), (2, 1)] 1 3 0xFFFFFFFFFFFFFFFF = true := by decide +kernel
theorem test_clz_of_one : gives (.clz 3 1) [(1, 1)] 1 3 63 = true := by decide +kernel
theorem test_clz_of_zero : gives (.clz 3 1) [] 1 3 64 = true := by decide +kernel
theorem test_popc : gives (.popc 3 1) [(1, 0xFF00000000000001)] 1 3 9 = true := by decide +kernel
theorem test_bswap : gives (.bswap 3 1) [(1, 0x0102030405060708)] 1 3 0x0807060504030201 = true := by decide +kernel
theorem test_ext_signed : gives (.ext 3 1 4 3 true) [(1, 0x80)] 1 3 0xFFFFFFFFFFFFFFF8 = true := by decide +kernel
theorem test_ins : gives (.ins 3 1 2 8 7) [(1, 0xAB), (2, 0xFFFFFF)] 1 3 0xFFABFF = true := by decide +kernel
theorem test_lih : gives (.lih 3 1 0x12345678) [(1, 0xFFFFFFFF9ABCDEF0)] 1 3 0x123456789ABCDEF0 = true := by decide +kernel
theorem test_li_sign : gives (.li 3 0x80000000) [] 1 3 0xFFFFFFFF80000000 = true := by decide +kernel
theorem test_addsh : gives (.addsh 3 1 2 3) [(1, 5), (2, 2)] 1 3 21 = true := by decide +kernel
theorem test_madd : gives (.madd 3 1 2 4) [(1, 5), (2, 2), (4, 1)] 3 3 11 = true := by decide +kernel
theorem test_sel_false_takes_b : gives (.sel 3 1 2 0) [(1, 5), (2, 2)] 1 3 2 = true := by decide +kernel

/-! ## Floating point and predicates (R70 to R72, R121 to R124) -/

theorem test_fadd_single : gives (.fadd 3 1 2 false) [(1, 0x3F800000), (2, 0x40000000)] 4 3 0x40400000 = true := by decide +kernel
theorem test_fadd_not_ready_at_3 : gives (.fadd 3 1 2 false) [(1, 0x3F800000), (2, 0x40000000)] 3 3 0 = true := by decide +kernel
theorem test_fmul_double : gives (.fmul 3 1 2 true) [(1, 0x4000000000000000), (2, 0x4008000000000000)] 4 3 0x4018000000000000 = true := by decide +kernel
theorem test_fdiv_by_zero_is_infinity : gives (.fdiv 3 1 2 false) [(1, 0x3F800000)] 16 3 0x7F800000 = true := by decide +kernel
theorem test_fsqrt : gives (.fsqrt 3 1 false) [(1, 0x40800000)] 20 3 0x40000000 = true := by decide +kernel
theorem test_fma : gives (.fma 3 1 2 4 false) [(1, 0x40000000), (2, 0x40400000), (4, 0x3F800000)] 4 3 0x40E00000 = true := by decide +kernel
theorem test_fcvt_to_integer : gives (.fcvt 3 1 .i32 .f32 true) [(1, 0xC0200000)] 4 3 0xFFFFFFFFFFFFFFFE = true := by decide +kernel
theorem test_fcvt_narrows : gives (.fcvt 3 1 .f32 .f64 false) [(1, 0x3FF8000000000000)] 4 3 0x3FC00000 = true := by decide +kernel
theorem test_fsgn_xor : gives (.fsgn 3 1 2 .xor false) [(1, 0xBF800000), (2, 0x80000000)] 4 3 0x3F800000 = true := by decide +kernel
theorem test_fclass_minus_infinity : gives (.fclass 3 1 false) [(1, 0xFF800000)] 4 3 1 = true := by decide +kernel
theorem test_cmp_writes_both : leads (exec (.cmp 1 (some 2) 1 2 .lt) (withRegs [(1, 0xFFFFFFFFFFFFFFFF), (2, 0)]))
    (fun t => (t.later 1).rp 1 && !(t.later 1).rp 2) = true := by decide +kernel
theorem test_cmp_unsigned : leads (exec (.cmp 1 none 1 2 .ltu) (withRegs [(1, 0xFFFFFFFFFFFFFFFF), (2, 0)])) (fun t => !(t.later 1).rp 1) = true := by
  decide +kernel
theorem test_fcmp_unordered : leads (exec (.fcmp 1 none 1 2 .un false) (withRegs [(1, 0x7FC00000)])) (fun t => (t.later 4).rp 1) = true := by decide +kernel
theorem test_plog_and_of_false : leads (exec (.plog 1 2 3 8) (withRegs [])) (fun t => !(t.later 1).rp 1) = true := by decide +kernel
theorem test_plog_nor_of_false : leads (exec (.plog 1 2 3 1) (withRegs [])) (fun t => (t.later 1).rp 1) = true := by decide +kernel
theorem test_tbit : leads (exec (.tbit 1 1 3 false) (withRegs [(1, 8)])) (fun t => (t.later 1).rp 1) = true := by decide +kernel
theorem test_gtop_masked : leads (exec (.gtop 1 2) (withRegs [(1, 7), (2, 5)])) (fun t => (t.later 1).p == 5) = true := by decide +kernel

/-! ## Control and system (R127 to R140, R394) -/

theorem test_br_counts_bundles : leads (exec (.br 0xFFFFFFFE) (withRegs [])) (fun t => t.iss.redirect == some 0xFE0 && t.iss.taken) = true := by
  decide +kernel
theorem test_call_links : leads (exec (.call 1) (withRegs [])) (fun t => t.iss.redirect == some 0x1010 && (t.later 1).rd 63 == 0x1010) = true := by
  decide +kernel
theorem test_brr_misaligned : raises (exec (.brr 1 false) (withRegs [(1, 8)])) 0x24 0 = true := by decide +kernel
theorem test_loop_of_zero_skips : leads (exec (.loop 0 1 0 0 false 0) (withRegs [])) (fun t => t.iss.redirect == some 0x1020) = true := by decide +kernel
theorem test_loop_makes_live : leads (exec (.loop 0 1 0 2 false 20) (withRegs [(1, 4)]))
    (fun t => (t.str.lc.get 0).map (fun l => (l.start, l.stop, l.n, l.s)) == some (0x1010, 0x1010, 4, 3) && (t.later 1).rp 20 && !(t.later 1).rp 21) = true := by
  decide +kernel
theorem test_stages_of_three : ((List.range 6).map fun i => (List.range 3).map fun j => stageOn i j 4)
    = [[true, false, false], [true, true, false], [true, true, true], [true, true, true], [false, true, true], [false, false, true]] := by decide +kernel
theorem test_trap_code : raises (exec (.trap 5) (withRegs [])) 0x08 5 = true := by decide +kernel
theorem test_brk_code : raises (exec (.brk 7) (withRegs [])) 0x09 7 = true := by decide +kernel
theorem test_rft_in_user_mode : raises (exec .rft (withRegs [])) 0x05 0 = true := by decide +kernel
theorem test_mfs_core_number : gives (.mfs 3 0x010) [] 1 3 0 = true := by decide +kernel
theorem test_mfs_privileged : raises (exec (.mfs 3 0x031) (withRegs [])) 0x05 0 = true := by decide +kernel
theorem test_mts_rmode_keeps_two_bits : leads (exec (.mts 0x002 1) (withRegs [(1, 7)])) (fun t => (t.finish false false false).str.rmode == 3) = true := by decide +kernel

/-! ## Scratchpad and queues (R13, R28, R33, R36, R145 to R167) -/

/-- Core 0 with the given scratchpad bytes and registers. -/
def withBytes (m : Mem) (g : Tab Word) : State := machineOf { coreOf (strandOf g) with scratch := m }

theorem test_ld_sign_extends : leads (exec (.ld 3 { opSp with off := 1 } true .b) (withBytes [(0x101, 0x80)] [(1, 0x100)]))
    (fun t => (t.later 5).rd 3 == 0xFFFFFFFFFFFFFF80 && (t.later 4).rd 3 == 0) = true := by decide +kernel
theorem test_ld_little_endian : leads (exec (.ld 3 opSp false .h) (withBytes [(0x100, 0x34), (0x101, 0x12)] [(1, 0x100)]))
    (fun t => (t.later 5).rd 3 == 0x1234) = true := by decide +kernel
theorem test_ld_misaligned : raises (exec (.ld 3 opSp false .w) (withRegs [(1, 0x102)])) 0x24 0 = true := by decide +kernel
theorem test_ld_beyond_scratchpad : raises (exec (.ld 3 opSp false .w) (withRegs [(1, 0x200000)])) 0x25 0 = true := by decide +kernel
theorem test_st_little_endian : leads (exec (.st 2 opSp .w) (withRegs [(1, 0x200), (2, 0xAABBCCDD)]))
    (fun t => t.me.spByte 0x200 == 0xDD && t.me.spByte 0x203 == 0xAA) = true := by decide +kernel
/-- R43: a plain store leaves its word as it was for agents that nothing orders after it; the token of the next tkpush carries it (R165). -/
theorem test_store_rides_on_tkpush : leads (exec (.st 2 opSp .w) (withBytes ((List.range 8).map fun i => (0x100 + i, 7)) [(1, 0x100), (2, 0x99)]))
    (fun t => t.me.torn.map (fun e => (e.1, e.2.who, e.2.old)) == [(0x20, 0, List.replicate 8 7)] && t.me.spByte 0x100 == 0x99
      && leads (exec (.tkpush 4) t) fun u => (u.me.tokens (fifoIx 0 2)).map (·.ids) == [t.me.torn.map (·.2.id)]) = true := by decide +kernel
theorem test_release_store_is_seen_at_once : leads (exec (.st 2 { opSp with ord := .rel } .w) (withRegs [(1, 0x100), (2, 0x99)]))
    (fun t => t.me.torn == []) = true := by decide +kernel
theorem test_ldq_second_register : leads (exec (.ldq 3 4 opSp) (withBytes ((List.range 16).map fun i => (0x100 + i, BitVec.ofNat 8 i)) [(1, 0x100)]))
    (fun t => (t.later 5).rd 4 == 0x0F0E0D0C0B0A0908) = true := by decide +kernel
theorem test_stq_masked : leads (exec (.stq 5 2 3 true opSp) (withBytes [(0x101, 7)] [(1, 0x100), (2, 0x1122), (5, 1)]))
    (fun t => t.me.spByte 0x100 == 0x22 && t.me.spByte 0x101 == 7) = true := by decide +kernel
theorem test_ldl_takes_lock : leads (exec (.ldl 3 4 opSp .d) (withBytes ((List.range 8).map fun i => (0x100 + i, 1)) [(1, 0x100)]))
    (fun t => (t.later 5).rp 4 && t.me.locks.length == 1) = true := by decide +kernel
theorem test_stu_without_lock_does_nothing : leads (exec (.stu 2 opSp .d) (withRegs [(1, 0x100), (2, 9)]))
    (fun t => t == withRegs [(1, 0x100), (2, 9)]) = true := by decide +kernel
theorem test_spamo_adds : leads (exec (.spamo 3 1 0 2 0 .add false) (withBytes [(0x100, 5), (0x101, 0), (0x102, 0), (0x103, 0)] [(1, 0x100), (2, 3)]))
    (fun t => t.me.spByte 0x100 == 8 && t.str.sb.map (·.vals) == [[5]]) = true := by decide +kernel
theorem test_amo_cas_wrong_expected : aopApply .cas false 5 4 9 = (none, 0) := by decide +kernel
theorem test_amo_min_signed : aopApply .min false 0xFFFFFFFF 0 1 = (some 0xFFFFFFFF, 0) := by decide +kernel
theorem test_cueinc : leads (exec (.cueinc false 3 0 2 .cr) (withRegs [(2, 4)])) (fun t => t.me.cues.get 0 3 == 4) = true := by decide +kernel
theorem test_cueinc_overflow : raises (exec (.cueinc false 3 0 2 .cr) (withRegs [(2, 0x80000000)])) Cause.cueOverflow 0 = true := by decide +kernel
theorem test_cuewait_waits : leads (exec (.cuewait 3 2 .cr) (withRegs [(2, 1)])) (fun t => t.iss.held == some .cue) = true := by decide +kernel
theorem test_cuewait_wraps : leads (exec (.cuewait 3 2 .cr) (withRegs [(2, 0xFFFFFFFF)])) (fun t => t.iss.held == none) = true := by decide +kernel
theorem test_tkpush_to_v : leads (exec (.tkpush 4) (withRegs [])) (fun t => (t.me.tokens (fifoIx 0 2)).length == 1 && (t.me.tokens (fifoIx 0 1)).length == 0) = true := by
  decide +kernel
theorem test_tkpop_waits : leads (exec (.tkpop 8) (withRegs [])) (fun t => t.iss.held == some .token) = true := by decide +kernel
theorem test_lwarm_sets_target : leads (exec (.lwarm 1 2) (withBytes ((List.range 16).map fun i => (0x100 + i, 9)) [(1, 0x100), (2, 0x40)]))
    (fun t => t.me.spByte 0x100 == 0x40 && t.me.spByte 0x104 == 0 && t.me.spByte 0x108 == 9 && t.me.spByte 0x10C == 0) = true := by decide +kernel
theorem test_landing_completes : landUpdate 64 48 7 0 16 = (0, 8, 0, true) := by decide +kernel
theorem test_landing_overrun : landUpdate 64 48 7 0 32 = (16, 8, 1, true) := by decide +kernel
theorem test_mapb_empties_bank : leads (exec (.mapb 1 .fifo) (withRegs [(1, 3)])) (fun t => t.me.mode 3 == .fifo && t.me.mode 2 == .scratch) = true := by
  decide +kernel
theorem test_mapb_out_of_budget : raises (exec (.mapb 1 .fifo) (withRegs [(1, 32)])) Cause.scratchpadRange 0 = true := by decide +kernel
theorem test_vshape : leads (exec (.vshape 3 1 2 4) (withRegs [(1, 64), (2, 32), (4, 256)])) (fun t => (t.later 1).rd 3 == 0x01001F03F) = true := by
  decide +kernel
theorem test_vshape_second_operand : raises (exec (.vshape 3 1 2 4) (withRegs [(1, 64)])) Cause.tileSpan 2 = true := by decide +kernel
theorem test_fmtq : leads (exec (.fmtq 1) (withRegs [(1, 7)])) (fun t => t.me.fmtq == [7]) = true := by decide +kernel

/-! ## Global memory through page tables that map it to itself -/

theorem test_st_is_posted : leads (exec (.st 2 opG .d) (mapped [(1, 0x8000), (2, 5)]))
    (fun t => t.me.wbuf.length == 1 && t.byteAt 0 0x8000 1 == some 5 && t.byteAt 64 0x8000 1 == some 0) = true := by decide +kernel
theorem test_noncanonical_address : raises (exec (.ld 3 opG false .d) (mapped [(1, 0x8000000000000000)])) 0x2A 0 = true := by decide +kernel
theorem test_amo_adds_at_home : leads (exec (.amo 3 1 0 2 0 .add true .rlx .cr) (mapped [(1, 0x8000), (2, 7)]))
    (fun t => t.byteAt 0 0x8000 1 == some 7 && t.str.sb.map (·.vals) == [[0]]) = true := by decide +kernel
theorem test_amosc_takes_ticket : leads (exec (.amosc 3 1 0 2 0 .add true) ((mapped [(1, 0x8000), (2, 7)]).modIod fun i => { i with ready := (.scseq, 0) :: i.ready }))
    (fun t => t.scTicket == 1) = true := by decide +kernel
theorem test_misaligned_global : raises (exec (.st 2 opG .d) (mapped [(1, 0x8004)])) 0x24 0 = true := by decide +kernel

/-! ## One step of the package -/

theorem test_step_advances_one_bundle : leads (step (State.reset.withFetchWord 64 0x0FFF800000000000))
    (fun t => (t.strand 0 0).pc == 0x100010 && (t.strand 0 0).n == 1) = true := by decide +kernel

/-! ## Worked examples of the spec -/

theorem test_core_147 : dieOf 147 = 2 := by decide
theorem test_home_of_line : homeDie 0x4512340000 = some 2 ∧ sliceOf 0x8A246800 = 0x26 ∧ setOf 0x8A246800 = 416 := by decide +kernel
theorem test_slots_of_locks : lockOf 0x4000 = 8 ∧ lockOf 0x4008 = 9 := by decide
theorem test_branch_offset : branchTarget 0x41040 0xFFFFFFFC = 0x41000 := by decide
theorem test_landing_example : landUpdate 4096 3968 7 0 256 = (128, 8, 1, true) := by decide +kernel
theorem test_landing_three_deliveries : landUpdate 256 192 5 0 108 = (44, 6, 1, true) := by decide +kernel
theorem test_brk_bundle : encodeBundle 0x0FFC800000000007 filler false = 0x03FFE000000000000FFC800000000007 := by decide +kernel
theorem test_format_word : fmtWidth 0x3 = 8 ∧ fmtWidth 0x6 = 4 ∧ fmtWidth 0x5 = 6 := by decide
theorem test_fp6_packs : packEls 6 [1, 2, 3, 0x3F] = [0x81, 0x30, 0xFC] := by decide +kernel
theorem test_int4_saturates : encodeFmt 0xA true (.num true 8) = (9, Flag.sat ||| Flag.nx) := by decide +kernel
theorem test_int4_reserved_pattern : decodeFmt 0xA 8 = (.num false 0, Flag.int4) := by decide +kernel
theorem test_taper_tie_in_pattern : (taperEncode 8 (.num false 2048)).1 = 0x7E ∧ (taperEncode 8 (.num false 3000)).1 = 0x7F
    ∧ (taperEncode 8 (.num false (mkRat 33 32))).1 = 0x40 ∧ (taperEncode 8 (.num false (mkRat 1 8192))).1 = 1 := by decide +kernel
theorem test_e4m3_saturates : e4m3.encode .rne true (.num false 470) = (0x7E, Flag.of ||| Flag.sat ||| Flag.nx) := by decide +kernel
theorem test_block_scale : (blockEncode 0x6 false ([.num false 10, .num true (mkRat 7 10), .num false (mkRat 33 10)] ++ List.replicate 29 (.num false 0))).1 = 0x80
    ∧ ((blockEncode 0x6 false ([.num false 10, .num true (mkRat 7 10), .num false (mkRat 33 10)] ++ List.replicate 29 (.num false 0))).2.1.take 4)
      = [6, 9, 3, 0] := by decide +kernel
theorem test_fcvt_example_rtz : gives (.fcvt 3 1 .i32 .f64 true) [(1, 0xC006000000000000)] 4 3 0xFFFFFFFFFFFFFFFE = true := by decide +kernel
theorem test_fcvt_example_saturates : gives (.fcvt 3 1 .u32 .f32 false) [(1, 0x4F9502F9)] 4 3 0xFFFFFFFF = true := by decide +kernel
theorem test_ext_example : gives (.ext 4 3 8 3 true) [(3, 0x0A50)] 1 4 0xFFFFFFFFFFFFFFFA = true := by decide +kernel
theorem test_lih_example : gives (.lih 5 5 0x7F00) [(5, 0xFFFFFFFF80000010)] 1 5 0x00007F0080000010 = true := by decide +kernel
theorem test_cue_example : leads (exec (.cuewait 5 2 .cr) (machineOf { coreOf (strandOf [(2, 2)]) with cues := [(5, 1)] }))
    (fun t => t.iss.held == some .cue) = true := by decide +kernel
theorem test_amo_fadd_order : aopApply .fadd false 0x40000000 0 0x4B800000 = (some 0x4B800001, 0) := by decide +kernel

/-- The words 0x1000 to 0x100F, then zeros. -/
def codeLine : List Byte := ((List.range 16).flatMap fun i => toLe 4 (0x1000 + i)) ++ List.replicate 64 0
theorem test_line_code_example : codeSectors (chooseCode codeLine true) codeLine = 3 ∧ chooseCode codeLine false = 0xF
    ∧ decodeStored (chooseCode codeLine true) (storedBytes (chooseCode codeLine true) codeLine) = codeLine := by decide +kernel
theorem test_line_of_zeros : chooseCode (List.replicate 128 0) false = 0 := by decide +kernel

/-- A launch of two dimensions, bounds 3 and 2. -/
def launch32 (order : Nat) : Launch :=
  ⟨⟨0x1000, 0, 0, 0⟩, ⟨3, 2, 1, 1⟩, 2, order, false, true, false, 3, 0xFFFFFFFF, 0, 0, 0, 0, 0x300000, 1, []⟩
theorem test_order_row_major : ((List.range 6).map fun n => (((launch32 0).tuple n).e0, ((launch32 0).tuple n).e1))
    = [(0, 0), (1, 0), (2, 0), (0, 1), (1, 1), (2, 1)] := by decide +kernel
theorem test_order_column_major : ((List.range 6).map fun n => (((launch32 1).tuple n).e0, ((launch32 1).tuple n).e1))
    = [(0, 0), (0, 1), (1, 0), (1, 1), (2, 0), (2, 1)] := by decide +kernel
theorem test_order_morton : ((List.range 6).map fun n => (((launch32 2).tuple n).e0, ((launch32 2).tuple n).e1))
    = [(0, 0), (1, 0), (0, 1), (1, 1), (2, 0), (2, 1)] := by decide +kernel
theorem test_order_serpentine : ((List.range 6).map fun n => (((launch32 3).tuple n).e0, ((launch32 3).tuple n).e1))
    = [(0, 0), (1, 0), (2, 0), (2, 1), (1, 1), (0, 1)] := by decide +kernel

/-- R372's example: a region of length 0 meets nothing. -/
theorem test_region_of_length_0 : Region.conflicts ⟨0x1000, 256, true⟩ ⟨0x1080, 64, false⟩ = true
    ∧ Region.conflicts ⟨0x1000, 256, true⟩ ⟨0x1080, 0, false⟩ = false := by decide

/-- A narrator that holds the given bytes. -/
def narrOf (held : List Byte) : Narr := ⟨[], held, false, false⟩
theorem test_narrator_holds_part_of_character : narrToken [[0x45, 0x4E, 0x44]] (narrOf []) [0xC3] = ⟨[], [0xC3], false, false⟩ := by decide +kernel
theorem test_narrator_holds_part_of_stop : narrToken [[0x45, 0x4E, 0x44]] (narrOf [0xC3]) [0xA9, 0x20, 0x45] = ⟨[0xC3, 0xA9, 0x20], [0x45], false, false⟩ := by
  decide +kernel
theorem test_narrator_stops : narrToken [[0x45, 0x4E, 0x44]] (narrOf [0x45]) [0x4E, 0x44] = ⟨[], [], true, true⟩ := by decide +kernel
theorem test_narrator_lets_go : narrToken [[0x45, 0x4E, 0x44]] (narrOf [0x45]) [0x4E, 0x4F] = ⟨[0x45, 0x4E, 0x4F], [], false, false⟩ := by decide +kernel
theorem test_measurement_response_length : (measResponse true (List.replicate 48 0) (List.replicate 32 0) (List.replicate 8 0)).length = 105 := by decide

/-! ## Engines: one command started on small operands -/

/-- A core that runs an iteration, with a command at the head of engine `e`. -/
def commandOf (e : Eng) (i : Instr) (a b c shape : Word) (m : Mem) : State :=
  machineOf { coreOf (strandOf []) with
    scratch := m, run := some (Ctx.fresh 0 1 0),
    eng := Core.zero.eng.set e { Engine.zero with q := [⟨i, 0, a, b, c, shape, false, 0, false, none, .none, false, [], 0, [], none, [], []⟩] } }
/-- 32-bit words from an address. -/
def words (a : Nat) (l : List Nat) : Mem := (l.flatMap (toLe 4)).zipIdx.map fun e => (a + e.2, e.1)
/-- The 32-bit words a core's scratchpad holds. -/
def wordsAt (t : State) (a n : Nat) : List Nat := (List.range n).map fun i => le ((List.range 4).map fun j => t.me.spByte (a + 4 * i + j))
/-- TSHAPE of rows, columns and pitch (R173). -/
def shapeOf (rows cols pitch : Nat) : Word := BitVec.ofNat 64 (cols - 1 + (rows - 1) * 4096 + pitch / 16 * 2 ^ 24)

theorem test_vadd_fp32 : leads (exec (.engineCommandStart 0 1)
    (commandOf 1 (.vadd (opV 0 0)) 0x300 0x100 0x200 (shapeOf 1 2 128) (words 0x100 [0x3F800000, 0x40000000] ++ words 0x200 [0x40000000, 0x40000000])))
    (fun t => wordsAt t 0x300 2 == [0x40400000, 0x40800000]) = true := by decide +kernel
theorem test_vpart_example : leads (exec (.engineCommandStart 0 1)
    (commandOf 1 (.vpart (opV 0xB 0)) 0x400 0x100 4 (shapeOf 1 6 128) (words 0x100 [2, 0, 2, 0xFFFFFFFF, 1, 0] ++ words 0x400 (List.replicate 12 0))))
    (fun t => wordsAt t 0x400 10 == [0, 2, 3, 5, 5, 1, 5, 4, 0, 2]) = true := by decide +kernel
theorem test_vtopk_example : leads (exec (.engineCommandStart 0 1)
    (commandOf 1 (.vtopk (opV 0 0)) 0x400 0x100 3 (shapeOf 1 5 128) (words 0x100 [0x3F000000, 0x40000000, 0x7FC00000, 0x40000000, 0xBF800000] ++ words 0x400 [0, 0, 0])))
    (fun t => wordsAt t 0x400 3 == [1, 3, 0]) = true := by decide +kernel
theorem test_vsample_example : leads (exec (.engineCommandStart 0 1)
    (commandOf 1 (.vsample (opV 0 0)) 0x400 0x100 0x200 (shapeOf 1 4 128) (words 0x100 [0x3E800000, 0, 0x3F000000, 0x3E800000] ++ words 0x200 [0x3F19999A] ++ words 0x400 [0])))
    (fun t => wordsAt t 0x400 1 == [2]) = true := by decide +kernel
theorem test_viota_integers : leads (exec (.engineCommandStart 0 1)
    (commandOf 1 (.viota (opV 0xB 0)) 0x400 10 3 (shapeOf 1 3 128) (words 0x400 [0, 0, 0])))
    (fun t => wordsAt t 0x400 3 == [10, 13, 16]) = true := by decide +kernel
theorem test_vred_sum : leads (exec (.engineCommandStart 0 1)
    (commandOf 1 (.vred { opV 0 0 with c := 0 }) 0x400 0x100 0 (shapeOf 1 3 128) (words 0x100 [0x3F800000, 0x40000000, 0x40400000] ++ words 0x400 [0])))
    (fun t => wordsAt t 0x400 1 == [0x40C00000]) = true := by decide +kernel
theorem test_cpyz_writes_zeros : leads (exec (.engineCommandStart 0 2)
    (commandOf 2 (.cpyz { opE with b := 0 } .sp .cr) 0x100 0 16 0 (words 0x100 [1, 2, 3, 4, 5])))
    (fun t => wordsAt t 0x100 5 == [0, 0, 0, 0, 5]) = true := by decide +kernel
theorem test_mamax_stores_and_clears : leads (exec (.engineCommandStart 0 0)
    (let s := commandOf 0 (.mamax ⟨0, 0⟩ 1 0) 0x100 0 0 0 []; s.modCore 0 fun k => { k with amax := k.amax.set 0 0x40600000 }))
    (fun t => wordsAt t 0x100 2 == [0x40600000, 0] && t.me.amax.get 0 == 0) = true := by decide +kernel
/-- R269, R301: 16 bytes on each side of a block's end are two deliveries, with room for others between them. -/
theorem test_copy_delivers_block_by_block : leads (exec (.engineCommandStart 0 2)
    (commandOf 2 (.cpyz { opE with b := 0 } .sp .cr) 0x170 0 (BitVec.ofNat 64 (32 + 2 ^ 46 + 0x40 * 2 ^ 47)) 0 (words 0x400 [0, 0, 0, 0])))
    (fun t => wordsAt t 0x400 2 == [0, 16] && leads (exec (.engineCommandFinish 0 2) t) fun u => wordsAt u 0x400 2 == [0, 32]) = true := by
  decide +kernel
theorem test_command_waits_for_token : leads (exec (.engineCommandStart 0 1) (commandOf 1 (.vadd { opV 0 0 with tok := ⟨16, 0⟩ }) 0x300 0x100 0x200 (shapeOf 1 1 128) []))
    (fun t => (t.engine 0 1).phase == .idle) = true := by decide +kernel

/-! ## Witnesses: states and operands that meet the hypotheses of the statements -/

theorem witness_underWay : (withRegs [(1, 0x40), (2, 8)]).underWay := ⟨⟨rfl, rfl, rfl, rfl, rfl, rfl, rfl, rfl, rfl⟩, by decide⟩
theorem witness_regsWf : (withRegs [(1, 0x40), (2, 8)]).regsWf := by unfold State.regsWf; decide
theorem witness_quiet : (withRegs [(1, 0x40), (2, 8)]).quiet := by unfold State.quiet; decide
theorem witness_noLoopEnd : (withRegs [(1, 0x40), (2, 8)]).noLoopEnd := by
  intro k l h
  have e : ∀ j : Fin 4, (withRegs [(1, 0x40), (2, 8)]).str.lc.get j = none := by decide
  rw [e k] at h
  cases h
theorem witness_EncodeDecode : (Instr.add 3 1 2).wf = true ∧ (Instr.add 3 1 2).isStep = false := by decide
theorem witness_RegisterFile : Tab.wf 0 (strandOf [(1, 5)]).g = true ∧ (1 : Reg) ≠ 0 ∧ (2 : Reg) ≠ 1 := by decide

/-- A state whose next step runs the bundle of `add g3, g1, g2`. -/
def placed : State := State.reset.withFetchWord 64 0x0F80860840000000
theorem witness_StepRunsDecoded : placed.agenda = [.strand 0 0] ∧ placed.powered = true
    ∧ (let s1 := ({ placed with agenda := [] } : State).clock
       (s1.core 0).mayIssue 0 = true ∧ (s1.strand 0 0).stepPend = false ∧ (s1.strand 0 0).sb = []
       ∧ (match (s1.issuing 0 0).fetch 0 0 with
          | .ok (w, s2) => !(splitBundle w).sync && (splitBundle w).hdr == 0
              && (slotDecode s2.str.sup 0 (splitBundle w).slot0).toOption == some ⟨false, .always, .add 3 1 2⟩
              && (slotDecode s2.str.sup 1 (splitBundle w).slot1).toOption == some ⟨false, .always, .nop⟩ && guardHolds .always s2.str
          | .error _ => false) = true) := by decide +kernel

theorem zero_canonical : Core.zero.canonical :=
  ⟨by decide, by decide, by decide, (by intro u h; cases h), by decide, by decide, by decide⟩
theorem five_canonical : (coreOf (strandOf [(1, 5)])).canonical :=
  ⟨by decide, by decide, by decide, (by intro u h; cases h), by decide, by decide, by decide⟩
/-- A state whose next step is Encore's end. -/
def canon : State := { withRegs [(1, 5)] with agenda := [.ev .encoreOff] }
theorem canon_core (c : Nat) : (canon.core c).canonical := by
  by_cases h : 0 = c
  · subst h; exact five_canonical
  · have : canon.core c = Core.zero := by simp [canon, withRegs, machineOf, State.core, Tab.get, Tab.find, h]
    rw [this]; exact zero_canonical
theorem canon_lines (d : Fin 4) (k : Nat) (l : Line) (h : l ∈ (canon.die d).sets.get [] k) : False := by
  have e : ∀ d : Fin 4, (canon.die d).sets = [] := by decide
  rw [e d] at h
  simp [Tab.get, Tab.find] at h
theorem witness_StepKeepsCanonicalForm : canon.canonical ∧ ∃ t, step canon = .next t :=
  ⟨⟨canon_core, by decide, by decide, by decide, by decide, by decide, by decide, fun d k l h => (canon_lines d k l h).elim⟩, _, rfl⟩

theorem witness_IntegerLogic : (withRegs [(1, 0x40)]).regsWf ∧ (63 : BitVec 6).toNat + (0 : BitVec 6).toNat + 1 ≤ 64 := ⟨by unfold State.regsWf; decide, by decide⟩
theorem witness_Division : (withRegs [(1, 0x8000000000000000), (2, 0xFFFFFFFFFFFFFFFF)]).rd 2 ≠ 0
    ∧ (withRegs [(1, 0x8000000000000000), (2, 0xFFFFFFFFFFFFFFFF)]).rd 1 = BitVec.intMin 64
    ∧ ((withRegs [(1, 0x8000000000000000), (2, 0xFFFFFFFFFFFFFFFF)]).rd 2).toInt = -1 ∧ (withRegs [(1, 5)]).rd 2 = 0 := by decide +kernel
theorem witness_FloatEdges : (fpVal false 0x7FC00000).isNan = true ∧ fpVal false 0x3F800000 = .num false 1 ∧ fpVal false 0x80000000 = .num true 0 := by decide +kernel
theorem witness_PredicateResults : (1 : Pred) ≠ 2 := by decide
theorem witness_Branches : ((withRegs [(1, 0x40), (2, 8)]).rd 1).toNat % 16 = 0 ∧ ((withRegs [(1, 0x40), (2, 8)]).rd 2).toNat % 16 ≠ 0 := by decide +kernel

/-- A strand with a loop live in controller 0: from 0x1010 to 0x1000, count 4, one stage, in kernel iteration `i`. -/
def looping (i : Nat) : State :=
  machineOf (coreOf { strandOf [(1, 4)] with lc := ⟨some ⟨0xFF0, 0x1000, 4, 1, 0, i, false, false, 0⟩, none, none, none⟩ })
theorem witness_Loops_setup : (Instr.loop 1 1 0 0 false 0).wf = true ∧ (withRegs [(1, 4)]).str.lc.get 1 = none ∧ (withRegs [(1, 4)]).rd 1 ≠ 0
    ∧ ((looping 0).str.lc.get 0).isSome = true := by decide +kernel
theorem witness_Loops_crosses : ∃ j e, (looping 0).str.lc.get j = some e ∧ e.start.toNat ≤ (looping 0).iss.pc.toNat ∧ (looping 0).iss.pc.toNat ≤ e.stop.toNat
    ∧ e.stop.toNat < (looping 0).iss.pc.toNat + 16 * ((0 : BitVec 12).toNat + 1) := ⟨0, ⟨0xFF0, 0x1000, 4, 1, 0, 0, false, false, 0⟩, by decide +kernel⟩
theorem witness_Loops_end : ∃ l, (looping 2).str.lc.get 0 = some l ∧ l.stop = (looping 2).iss.pc ∧ l.sup = (looping 2).str.sup ∧ l.y = false ∧ l.pb + l.s ≤ 24
    ∧ l.i + 1 < l.n.toNat + l.s - 1 := ⟨_, rfl, by decide +kernel⟩
theorem witness_Loops_last : ∃ l, (looping 3).str.lc.get 0 = some l ∧ l.stop = (looping 3).iss.pc ∧ ¬ l.i + 1 < l.n.toNat + l.s - 1 := ⟨_, rfl, by decide +kernel⟩
theorem witness_LoopBreak : ∃ l, (looping 0).str.lc.get 0 = some l ∧ (looping 0).underWay ∧ (looping 0).quiet :=
  ⟨_, rfl, ⟨⟨rfl, rfl, rfl, rfl, rfl, rfl, rfl, rfl, rfl⟩, by decide⟩, by unfold State.quiet; decide⟩
/-- A strand whose context is asked to stop. -/
def asked : State := machineOf { coreOf (strandOf []) with run := some { Ctx.fresh 0 1 0 with yreq := true } }
theorem witness_StrandControl : asked.underWay ∧ asked.me.stopReq = false ∧ asked.str.sup = false ∧ asked.me.locks = [] ∧ asked.me.yreq = true := by
  refine ⟨⟨⟨rfl, rfl, rfl, rfl, rfl, rfl, rfl, rfl, rfl⟩, by decide⟩, by decide⟩
theorem witness_TrapEntry : (machineOf (coreOf { strandOf [] with tvec := 0x4000 })).quiet ∧ (machineOf (coreOf { strandOf [] with tvec := 0x4000 })).str.sb = []
    ∧ (8 : Nat) ≠ 0xF0 ∧ (machineOf (coreOf { strandOf [] with tvec := 0x4000 })).str.tstatus.getLsbD 1 = false
    ∧ (machineOf (coreOf { strandOf [] with tvec := 0x4000 })).str.tvec ≠ 0 := ⟨by unfold State.quiet; decide, by decide⟩
theorem witness_TrapEntry_nested : (machineOf (coreOf { strandOf [] with tstatus := 2 })).str.tstatus.getLsbD 1 = true := by decide
theorem witness_TrapReturn : (machineOf (coreOf { strandOf [] with sup := true })).str.sup = true ∧ (machineOf (coreOf { strandOf [] with sup := true })).quiet :=
  ⟨by decide, by unfold State.quiet; decide⟩
theorem witness_SystemRegisters : (0x001 : BitVec 12).toNat = 0x001 ∧ (0x017 : BitVec 12).toNat ∉ sysListed ∧ (withRegs []).str.sup = false := by decide

/-- Bytes placed in memory. -/
def placing (s : State) (a : Nat) (bs : List Byte) : State := { s with dram := Memory.writeList s.dram a bs }
/-- An access of global memory of the issuing strand that passes its checks, with what is asked of its leaf and the state after them. -/
def checked (s : State) (ea : Word) (n : Nat) (k : Acc3) (p : Leaf → State → Bool) : Bool :=
  match s.gcheck s.iss.core (dieOf s.iss.core) s.mySpace ea n k with | .ok (l, t) => p l t | .error _ => false
/-- Two words of memory and registers that name them. -/
def mem0 : State := placing (mapped [(1, 0x8010), (2, 7), (4, 0x80)]) 0x8010 [0x81, 2, 3, 4, 5, 6, 7, 0x88, 9]
/-- Nothing is on its way to memory. -/
def still (s : State) : Bool := s.me.wbuf.isEmpty && [(0 : Fin 4), 1, 2, 3].all fun d => (s.die d).upds.isEmpty
/-- Functions that are ready. -/
def readying (s : State) (fs : List (Func × Nat)) : State := { s with iod := { s.iod with ready := fs ++ s.iod.ready } }

theorem witness_UserPrivilege : (withRegs []).str.sup = false ∧ (0x058 : BitVec 12).toNat ∈ [0x020, 0x030, 0x031, 0x032, 0x058] := by decide
theorem witness_Invalidations : (let s := (mapped [(1, 0x8000)]).modStr fun u => { u with sup := true }
    s.str.sup && still s) = true := by decide +kernel

/-- Job 0 in slot 0, under the key and the tables of `mapped`. -/
def jobOne : JobSlot := ⟨false, 0, 1, 7, 1, 0, 0x200000, 0, 0, 0, 0, 0, 0, 0⟩
/-- A loop-nest record of one dimension (R365): its flags and its bound. -/
def record (flags bound : Nat) : List Byte :=
  toLe 8 0x100000 ++ toLe 24 0 ++ toLe 4 bound ++ toLe 12 0 ++ [1, 0] ++ toLe 2 flags ++ [0, 0, 0, 0] ++ toLe 4 1 ++ toLe 4 0 ++ toLe 8 0 ++ toLe 8 0
    ++ toLe 8 0 ++ toLe 4 0 ++ toLe 4 0 ++ toLe 4 0 ++ toLe 2 0 ++ toLe 2 0 ++ toLe 24 0
/-- A strand that names such a record, with a ready core, Stage Manager and coordinator. -/
def launching (flags bound : Nat) : State :=
  { readying (placing (mapped [(1, 0x8000)]) 0x8000 (record flags bound)) [(.core, 0), (.smgr, 0), (.coord, 0)] with jobs := [(0, jobOne)] }
/-- What the record of that strand reads as. -/
def reads (s : State) (p : Record → State → Bool) : Bool :=
  let s1 := (s.release s.iss.core s.iss.strand .pkg).2
  match readLaunch s.iss.core s1.mySpace s1.me.jobId.toNat (s1.rd 1) s1 with | .ok (r, s2) => p r s2 | .error _ => false
/-- It may enter the node table. -/
def admitted (r : Record) (s : State) : Bool :=
  s.iod.encMode == 0 && !s.isCancelled r.job r.phase r.graph && !s.tableFull 0 && s.smOn 0 && decide (s.nodes.length + (s.graphs.flatMap (·.ids)).length < 2 ^ 32 - 1)
theorem witness_LaunchEnters : reads (launching 0 2) (fun r s => !r.l.cohort && admitted r s) = true ∧ (launching 0 2).str.sb = [] := by decide +kernel
theorem witness_LaunchEnters_cohort : reads (launching 1 1) (fun r s => r.l.cohort && r.l.placekind == 0 && admitted r s) = true := by decide +kernel
theorem witness_LaunchEnters_cancelled : reads { launching 0 2 with cancelledGraphs := [(0, 0, 0)] } (fun r s => s.isCancelled r.job r.phase r.graph) = true := by decide +kernel
theorem witness_LaunchEnters_notReady : reads { launching 0 2 with iod := { (launching 0 2).iod with ready := [(.core, 0)] } } (fun _ s => !s.smOn 0 && !s.tableFull 0) = true := by decide +kernel
theorem witness_LaunchEnters_invalid : reads { launching 0 2 with dram := [] } (fun _ _ => true) = false := by decide +kernel

/-- A launch of one iteration along one dimension. -/
def launchOne : Launch := Launch.ofBytes (record 0 2)
/-- A live node of job 0. -/
def nodeOf (id : Nat) (k : NodeKind) : Node := ⟨id, 0, 0, 0, 0, 0, k, ⟨0x200000, 0, 1, false⟩, [], [], false, 0, false, false, [], 0, [], 0, [], none, []⟩
/-- A machine with one live node, 1, which the strand's registers name. -/
def withNode : State := { withRegs [(1, 1)] with nodes := [nodeOf 1 (.launch launchOne)], nodeNext := 1, jobs := [(0, jobOne)] }
theorem witness_CancelAndWaitc : (let o := namedBy .launch (withNode.rd 1) (withNode.rd 2)
    o.job == withNode.me.jobId.toNat && withNode.nodes.any o.has && !withNode.marked o && !withNode.contains o 0) = true := by decide +kernel
theorem witness_CancelAndWaitc_ended : (let s : State := { withNode with nodes := [], endedNodes := [⟨0, 1, 0, true, []⟩] }
    (s.outcome (namedBy .launch (s.rd 1) (s.rd 2))).1 == 1) = true := by decide +kernel
theorem witness_CancelAndWaitc_own : (let s := withNode.modMe fun k => { k with launchId := 1 }; s.contains (namedBy .launch (s.rd 1) (s.rd 2)) 0) = true := by decide +kernel

theorem witness_ScratchpadChecks : (let at' (a : Word) := withRegs [(1, a)]
    memEa opSp (at' 0x200000) == 0x200000
    && (at' 0x1FFFF8).me.spCheck 0x1FFFF8 8 true == none
    && (withRegs []).me.budget.getLsbD 31
    && 0x101 % 8 != 0
    && ((withRegs []).modMe fun k => { k with bankMode := [(1, .fifo)] }).me.mode 1 != .scratch
    && ((withRegs []).modMe fun k => { k with pendchk := 1, pendRows := [(2, 1)] }).me.spCheck 0x100 8 true != none
    && ((withRegs []).modMe fun k => { k with ueWords := [0x20] }).me.spCheck 0x100 8 true != none
    && ((withRegs []).modStr fun u => { u with sb := [⟨0, [3], [], 0, .spamo 0x100 .add true 0 0⟩] }).spamoAhead 0x100 8) = true := by decide +kernel
theorem witness_ScratchpadLoads : (withRegs [(1, 0x100)]).regsWf ∧ (withRegs [(1, 0x100)]).me.spCheck 0x100 16 true = none
    ∧ (withRegs [(1, 0x100)]).spamoAhead 0x100 16 = false := ⟨by unfold State.regsWf; decide, by decide +kernel⟩
theorem witness_ScratchpadStores : (withRegs [(1, 0x100)]).me.spCheck (memEa opSp (withRegs [(1, 0x100)])) 8 false = none
    ∧ (withRegs [(1, 0x100)]).spamoAhead 0x100 8 = false := by decide +kernel
theorem witness_GlobalChecks : (2 : Nat) ^ 58 ≤ (0x0400000000000000 : Word).toNat ∧ (0x8011 : Word).toNat % 8 ≠ 0
    ∧ (match mem0.translate 0 0 mem0.mySpace 0x8010 with | .ok (l, _) => pteR l.e && pteCp l.e == 0 | .error _ => false) = true
    ∧ (match mem0.translate 0 0 mem0.mySpace 0x0200000000000000 with | .ok _ => false | .error _ => true) = true := by decide +kernel
theorem witness_GlobalLoads : checked mem0 0x8010 8 .counter (fun l s1 => pteCp l.e != 3
    && match (s1.settled (l.pa 0x8010) 8).coreRead 0 (l.pa 0x8010) 8 (pteKid l.e) (pteCh l.e) (pteCp l.e != 1) 0x8010 with
      | .ok ((bs, _), _) => bs == [0x81, 2, 3, 4, 5, 6, 7, 0x88]
      | .error _ => false) = true := by decide +kernel
theorem witness_GlobalLoads_poisoned : checked { mem0 with poisoned := [(0x100, true)] } 0x8010 8 .counter (fun l s1 =>
    match (s1.settled (l.pa 0x8010) 8).coreRead 0 (l.pa 0x8010) 8 (pteKid l.e) (pteCh l.e) (pteCp l.e != 1) 0x8010 with
      | .ok _ => false
      | .error _ => true) = true := by decide +kernel
theorem witness_GlobalStores : checked mem0 0x8010 8 .wr (fun l s1 => s1.keyCheck 0 (l.pa 0x8010 / 128) (pteKid l.e) 0x8010 == none && s1.me.wbuf.isEmpty) = true := by decide +kernel
theorem witness_GlobalStores_keyed : checked (mem0.modMe fun k => { k with dc := [⟨0x100, 5, 1, false⟩] }) 0x8010 8 .wr
    (fun l s1 => s1.keyCheck 0 (l.pa 0x8010 / 128) (pteKid l.e) 0x8010 != none) = true := by decide +kernel
theorem witness_TableCache_miss : checked mem0 0x8010 8 .rd (fun l s1 => (s1.me.tc.find? fun e => e.line == l.pa 0x8010 / 128) == none
    && match s1.dieLine 0 (l.pa 0x8010 / 128) (pteKid l.e) (pteCh l.e) 0x8010 with | .ok (_, s2) => s2.me.wbuf.isEmpty | .error _ => false) = true := by decide +kernel
theorem witness_TableCache_hit : checked (mem0.modMe fun k => { k with tc := [⟨0x100, 1, List.replicate 128 5, []⟩] }) 0x8010 8 .rd (fun l s1 =>
    (s1.me.tc.find? fun e => e.line == l.pa 0x8010 / 128) == some ⟨0x100, pteKid l.e, List.replicate 128 5, []⟩
    && (s1.keyAt (l.pa 0x8010 / 128) (pteKid l.e)).isSome) = true := by decide +kernel
theorem witness_Fences : (readying mem0 [(.scseq, 0)]).isReady .scseq 0 = true ∧ mem0.isReady .scseq 0 = false ∧ mem0.iod.encMode = 0 ∧ mem0.str.sb = [] := by decide +kernel
theorem witness_Flushes : checked mem0 0x8010 1 .rd (fun l s1 => (mem0.rd 1).toNat / 2 ^ 14 == ((mem0.rd 1).toNat + (mem0.rd 4).toNat - 1) / 2 ^ 14 && mem0.rd 4 != 0
    && (List.range 2).findSome? (fun j => s1.keyCheck 0 (l.pa 0x8010 / 128 + j) (pteKid l.e) 0x8010) == none) = true := by decide +kernel
theorem witness_Locks : (let s := withRegs [(1, 0x100)]
    s.me.spCheck 0x100 8 true == none && !s.spamoAhead 0x100 8 && s.me.locks.find 2 == none && s.me.spamoTurn 2 == none
    && (s.modMe fun k => { k with locks := [(2, 0)] }).me.locks.find 2 == some 0 && (s.modMe fun k => { k with locks := [(2, 2)] }).me.locks.find 2 == some 2
    && (16 * (0x100 / 65536) + (0x100 / 8 % 16 ^^^ 0x100 / 128 % 16 ^^^ 0x100 / 2048 % 16)) == 2) = true := by decide +kernel
theorem witness_GlobalAtomics : checked mem0 0x8010 8 .rw (fun l s1 => still s1
    && match (s1.dropCopy 0 (l.pa 0x8010 / 128)).homeRead (l.pa 0x8010) 8 (pteKid l.e) (pteCh l.e) 0x8010 with
      | .ok (_, s2) => (match s2.resident (homeOf (l.pa 0x8010 / 128)) (l.pa 0x8010 / 128) with | some e => e.data.length == 128 | none => true)
      | .error _ => false) = true ∧ mem0.iod.encMode = 0 ∧ mem0.str.ord.lines = [] := by decide +kernel
theorem witness_CuesAndTokens : (let s := withRegs [(2, 5), (3, 0x80000000)]
    !(s.rd 2).getLsbD 31 && (s.rd 3).getLsbD 31 && s.me.cues.wf 0 && s.me.fifo.wf [] && decide (0 ≤ (s.me.cues.get 0 4 - (0 : BitVec 32)).toInt)
    && decide ((s.me.cues.get 0 4 - (5 : BitVec 32)).toInt < 0) && (s.me.tokens (fifoIx 0 1)).length == 0
    && (s.modMe fun k => { k with fifo := [(fifoIx 0 1, List.replicate 15 ⟨[], 0, 0⟩)] }).me.tokens (fifoIx 0 1) != []) = true := by decide +kernel
/-- The strand names cue 3 of core 1 by a cue page. -/
def cuePage : State := placing (mapped [(1, 0x1000000218), (2, 5)]) 0x204008 (toLe 8 0x112F)
theorem witness_CuesAndTokens_page : checked cuePage 0x1000000218 8 .cueWr (fun _ _ => true) = true ∧ checked cuePage 0x1000000218 8 .cueRd (fun _ _ => true) = true
    ∧ cuePage.isReady .core 1 = false ∧ (readying cuePage [(.core, 1)]).isReady .core 1 = true := by decide +kernel
theorem witness_LandingWords : (withBytes [(0x108, 3)] [(1, 0x100), (2, 2)]).me.spCheck 0x100 16 true = none
    ∧ (withBytes [(0x108, 3)] [(1, 0x100), (2, 2)]).spamoAhead 0x100 16 = false ∧ (0 : Int) < ((3 : BitVec 32) - 2).toInt ∧ ((3 : BitVec 32) - 3).toInt ≤ 0 := by decide +kernel
theorem witness_Banks : (let s := withRegs [(1, 31)]
    s.me.budget.getLsbD 31 && s.me.mode 31 != .fifo && !s.str.spamoIn 31 && s.me.bankMode.wf .scratch && s.me.rings.wf []
    && (s.modMe fun k => { k with bankMode := [(31, .fifo)], rings := [(31, [1])] }).me.mode 31 == .fifo) = true := by decide +kernel

/-- A KV store on die 0: sequence 0 of `len` tokens with one layer, its rack at 0x40000, two cask descriptors at 0x20000 (R227 to R230). -/
def kvStore (len : Nat) (ids : List Nat) (g : Tab Word) : State :=
  let s := placing (mapped g) 0x10000 (toLe 4 len ++ toLe 2 1 ++ toLe 2 16 ++ toLe 2 1 ++ [1, 1] ++ [1, 0] ++ toLe 2 1 ++ toLe 8 0x40000 ++ toLe 4 ids.length ++ toLe 4 0 ++ List.replicate 32 0)
  let desc (a : Nat) : List Byte := toLe 8 a ++ toLe 2 1 ++ [0, 1, 2, 1] ++ toLe 2 0 ++ toLe 4 5 ++ toLe 4 0 ++ toLe 8 9
  let s := placing (placing s 0x20000 (desc 0x100000 ++ desc 0x104000)) 0x40000 (ids.flatMap (toLe 4))
  s.modDie 0 fun k => { k with keys := (k.keys.put 0 0).put 1 1, cell := [(0, 0x10000), (8, 4), (0x10, 0x20000), (0x18, 4), (0x58, 0x1000)] }
/-- The operations answer, and `p` holds of what they answer. -/
def answers (x : Except Trap α) (p : α → Bool) : Bool := match x with | .ok a => p a | .error _ => false
theorem witness_KvCommands : answers (myHandle 0 (kvStore 10 [0] [(2, 3)])) (fun (e, s1) => e.ncask == 1 && e.layers == 1 && e.ngrp == 1 && e.len == 10
      && answers (rackGet e 0 0 0 s1) fun (id, s2) => id == 0 && answers (descChecked id e.csize 0 s2) fun (x, s3) =>
        answers (kvPut 0 x.pa (Desc.toBytes { x with clsB := 1 }) s3) fun _ => answers (kvPut 0 e.pa (toLe 4 3) s1) fun _ => true) = true := by decide +kernel
theorem witness_KvCommands_empty : answers (myHandle 0 (kvStore 10 [0xFFFFFFFF] [])) (fun (e, s1) =>
      answers (kvPut 0 (e.pa + 0xC) [0] s1) fun (_, s2) => answers (rackGet e 0 0 0 s2) fun (id, s3) => id == 0xFFFFFFFF && (s3.die 0).cellReg 0x20 == 0 && (s3.die 0).cellReg 0x28 == 0) = true := by
  decide +kernel
theorem witness_KvCommands_handle : (match myHandle 5 (kvStore 10 [0] []) with | .ok _ => 0 | .error x => x.cause) ≠ 0 := by decide +kernel
theorem witness_KvPut : answers (mem0.homeRead 0x8010 8 1 true 0) (fun (_, s) => still s
    && match s.resident (homeOf 0x100) 0x100 with | some e => e.data.length == 128 && !e.poison && e.kid == 1 && (s.keyAt 0x100 1).isSome | none => false) = true := by decide +kernel

theorem witness_EngineIssue : engineOf (.mzero ⟨0, 0⟩ 5) = some 0 ∧ tryOf (.mzero ⟨0, 0⟩ 5) = none ∧ tryOf (.cpyz { opE with b := 0, tr := some 3 } .sp .cr) = some 3
    ∧ ((withRegs []).engine 0 0).q.length = 0 ∧ ((commandOf 0 .nop 0 0 0 0 []).engine 0 0).q.length = 1 := by decide +kernel
theorem witness_EngineStarts : (let s := commandOf 0 (.mamax ⟨0, 0⟩ 1 0) 0x1FFFF8 0 0 0 []
    (s.core 0).mayStart 0 && (s.core 0).budget.getLsbD 31 && (s.core 0).mode 31 == .scratch && (0x1FFFF8 : Word).toNat + 8 ≤ 2 ^ 21
    && !(((commandOf 0 (.mzero ⟨0, 0⟩ 5) 0 0 0 0 []).modEngine 0 0 fun g => { g with halt := true }).core 0).mayStart 0) = true := by decide +kernel
/-- A command of V that has run and pushes a token to the strands. -/
def ending (tokens : Nat) : State :=
  (commandOf 1 (.vadd { opV 1 0 with tok := ⟨0, 16⟩ }) 0 0 0 0 []).modMe fun k => { k with
    eng := k.eng.set 1 { k.eng.e1 with phase := .running Commit.zero }, fifo := if tokens = 0 then [] else [(fifoIx 2 0, List.replicate tokens ⟨[], 0, 0⟩)] }
theorem witness_EngineEnds : ((ending 0).engine 0 1).phase = .running Commit.zero ∧ (tokOf (.vadd { opV 1 0 with tok := ⟨0, 16⟩ })).push.getLsbD (3 - 1) = false
    ∧ pushesOf 1 (.vadd { opV 1 0 with tok := ⟨0, 16⟩ }) = [fifoIx 2 0] ∧ (((ending 15).core 0).tokens (fifoIx 2 0)).length = 15 ∧ ((ending 0).core 0).tokens (fifoIx 2 0) = [] := by
  decide +kernel
/-- An mgma of no rows that waits for 8 elements a row of FP8 from banks 4 and 5. -/
def streaming (n : Nat) : State :=
  (commandOf 0 (.mgma ⟨0, 0⟩ 1 2 3 1 0) 0x0504 1 0 0 []).modMe fun c => { c with
    bankMode := [(4, .fifo), (5, .fifo)], rings := if n = 0 then [] else [(4, List.replicate n 1), (5, List.replicate n 2)]
    eng := c.eng.set 0 { c.eng.e0 with phase := .running Commit.zero, q := c.eng.e0.q.map fun x => { x with word := some 0x11, prog := .stream [] [] } } }
theorem witness_Streams : (streaming 128).me.rings.wf [] = true ∧ (streaming 128).me.mode 4 = .fifo ∧ (streaming 128).me.mode 5 = .fifo
    ∧ wordFault 0x11 ((streaming 128).me.acc.get 1).kind = none ∧ 1 * 8 * fmtWidth (fwA 0x11) ≤ ((streaming 128).me.ring 4).length
    ∧ ¬ 1 * 8 * fmtWidth (fwA 0x11) ≤ ((streaming 0).me.ring 4).length := by decide +kernel
/-- A user-mode context of a pre-emptible launch that is asked to stop, with a running attn past its first boundary. -/
def attending : State :=
  let l : Launch := { launchOne with preempt := true, nslot := 1 }
  let s := (commandOf 0 (.attn ⟨0, 0⟩ 1) 0 0 0 0 []).modMe fun k => { k with
      run := some { Ctx.fresh 0 1 0 with yreq := true }, launchId := 1
      eng := k.eng.set 0 { k.eng.e0 with phase := .running Commit.zero } }
  { s with nodes := [nodeOf 1 (.launch l)], jobs := [(0, jobOne)] }
theorem witness_Boundaries : attending.me.yreq = true ∧ attending.preemptible 0 = true
    ∧ (attending.me.run.map fun r => (r.cancelled, r.fatal)) = some (false, false) := by decide +kernel

/-- A faulting command of V in a context of job 0, with fault records at 0x300000 or none. -/
def faulted (frbase : Word) (ph : Phase) (act : Nat) (tvec : Word) : State :=
  let s : State := { mapped [(1, 5)] with jobs := [(0, { jobOne with frbase := frbase })] }
  s.modMe fun k => { k with
    st := { k.st with e0 := { k.st.e0 with tvec := tvec } }
    eng := k.eng.set 1 { Engine.zero with
      q := [⟨.mzero ⟨0, 0⟩ 3, 0, 1, 2, 3, 0, false, 0, false, some 0x11, .none, false, [], 0, [], none, [], []⟩], phase := ph, pend := act != 0, act := act, cause := 0x52, tval := 77 } }
theorem witness_EngineFaults : (let s := faulted 0x300000 (.faulting ⟨0x52, 3, 77⟩) 0 0
    s.me.dbgHit == none && (s.me.run.map (·.preDrain)) != some true
    && match s.faultRec 0 1 with
      | some a => answers (s.drawWord.2.vput 0 (s.me.space true) a (List.replicate 64 0) [] []) fun _ => true
      | none => false) = true ∧ ({ faulted 0 (.faulting ⟨0x52, 3, 77⟩) 0 0 with jobs := [] } : State).faultRec 0 1 = none := by decide +kernel
theorem witness_EngineFaultDelivery : (let s := faulted 0x300000 .raised 0 0x4000
    s.me.raised == some 1 && s.me.taker == some 0 && s.me.live && !(s.strand 0 0).tip && !(s.strand 0 0).goesOn && (s.strand 0 0).tvec != 0 && (s.strand 0 0).sb.isEmpty) = true
    ∧ (faulted 0x300000 .stopped 0 0).me.raised = none := by decide +kernel
theorem witness_EngfaultRestart : (let s := faulted 0x300000 .stopped 1 0
    match s.faultRec 0 1 with | some a => answers (s.vget 0 (s.me.space true) (a + 0x30) 8) fun _ => true | none => false) = true
    ∧ ((faulted 0x300000 .stopped 2 0).engine 0 1).pend = true ∧ ((faulted 0x300000 .stopped 2 0).engine 0 1).act = 2 := by decide +kernel

/-- Strand `t` of core 0 waits with a bundle of `i` and a nop at 0x100000. -/
def waitingAt (i : Instr) (t : Fin 4) (w : StrandCond) (g : Tab Word) (sync : Bool) : State :=
  let s := placing (mapped []) 0x100000 (leBytes 16 (encodeBundle ((encodeSyllable ⟨false, .always, i⟩).getD 0) 0x0FFF800000000000 sync))
  s.modMe fun k => { k with st := (Quad.all { Strand.zero with cond := .exited }).set t { Strand.zero with g := g, cond := w, pc := 0x100000 } }
/-- Its bundle is fetched, and `p` holds where it issues. -/
def fetched (s : State) (t : Fin 4) (sync : Bool) (i : Instr) (p : State → Bool) : Bool :=
  (s.core 0).mayIssue t && !(s.strand 0 t).stepPend && (s.strand 0 t).sb.isEmpty &&
  match (s.issuing 0 t).fetch 0 t with
  | .error _ => false
  | .ok (w, b) => (splitBundle w).sync == sync && (splitBundle w).hdr == 0
    && (match slotDecode b.str.sup 0 (splitBundle w).slot0, slotDecode b.str.sup 1 (splitBundle w).slot1 with
      | .ok ⟨k, g, j⟩, .ok ⟨_, _, .nop⟩ => j == i && guardHolds g b.str
        && p ((b.modStr fun u => { u with drain := false }).modIss fun x => { x with slot := 0, k := k, syl := (splitBundle w).slot0 })
      | _, _ => false)
theorem witness_WaitsEnd_queue : fetched (waitingAt (.fmtq 1) 2 (.waiting .queue) [(1, 5)] false) 2 false (.fmtq 1) (fun a => a.me.fmtq.isEmpty) = true
    ∧ fetched (waitingAt (.mzero ⟨0, 0⟩ 5) 0 (.waiting .queue) [] false) 0 false (.mzero ⟨0, 0⟩ 5) (fun a => (a.engine 0 0).q.isEmpty) = true := by decide +kernel
theorem witness_WaitsEnd_cue : fetched (waitingAt (.cuewait 3 0 .cr) 0 (.waiting .cue) [] false) 0 false (.cuewait 3 0 .cr)
    (fun a => decide (0 ≤ (a.me.cues.get 0 3 - (a.rd 0).truncate 32).toInt)) = true := by decide +kernel
theorem witness_WaitsEnd_token : fetched ((waitingAt (.tkpop 8) 0 (.waiting .token) [] false).modMe fun k => { k with fifo := [(fifoIx 1 0, [⟨[], 0, 0⟩])] }) 0 false (.tkpop 8)
    (fun a => (maskEnds 8).all fun p => a.me.tokens (fifoIx p 0) != []) = true := by decide +kernel
theorem witness_WaitsEnd_land : fetched ((waitingAt (.lwwait 4 5) 0 (.waiting .land) [(4, 0x10)] false).modMe fun k => { k with scratch := [(0x18, 3), (0x19, 0), (0x1A, 0), (0x1B, 0)], budget := 1 }) 0 false (.lwwait 4 5)
    (fun a => a.me.spCheck (a.rd 4) 16 true == none
      && decide (0 < (BitVec.ofNat 32 (le ((List.range 4).map fun j => a.me.spByte ((a.rd 4).toNat + 8 + j))) - (a.rd 5).truncate 32).toInt)) = true := by decide +kernel
theorem witness_WaitsEnd_waitc : fetched (waitingAt (.waitc 3 0 5 .launch) 0 (.waiting .waitc) [] false) 0 false (.waitc 3 0 5 .launch)
    (fun a => a.nodes.all fun n => !(namedBy .launch (a.rd 0) (a.rd 5)).has n) = true := by decide +kernel
theorem witness_WaitsEnd_lockstep : fetched (waitingAt (.add 3 1 2) 3 (.waiting .sync) [] true) 3 true (.add 3 1 2) (fun _ => true) = true
    ∧ fetched (waitingAt (.sbar 0) 1 (.waiting (.sbar 0)) [] false) 1 false (.sbar 0) (fun a => !(a.core 0).tracectl.getLsbD 0) = true := by decide +kernel
theorem witness_PendingResults : (let s := (mapped []).modStr fun u => { u with sb := [⟨3, [5], [7], 0, .done⟩] }
    Tab.wf 0 (s.strand 0 0).g && ((s.strand 0 0).sb.filter Sb.free)[0]? == some ⟨3, [5], [7], 0, .done⟩) = true
    ∧ (let b : Sb := ⟨0, [3], [], 0, .spamo 0x100 .add true 0 0⟩
       let s := (withRegs []).modStr fun u => { u with sb := [b] }
       (s.me.mayTake 0 b && (withRegs []).me.mode 0 == .scratch && ((withRegs []).modMe fun k => { k with bankMode := [(0, .dark)] }).me.mode 0 != .scratch) = true)
    ∧ answers (mem0.dieRead 0 0x8010 8 1 true 0) (fun (_, s) => (s.peekLine 0 0x100 1).isSome) = true := by decide +kernel
theorem witness_SingleStep : (let s := (mapped []).modStr fun u => { u with stepPend := true, tvec := 0x4000 }
    (s.core 0).mayIssue 0 && (s.strand 0 0).stepPend && !(s.strand 0 0).tip) = true := by decide +kernel
theorem witness_StoresPerform : answers (mem0.homeRead 0x8010 8 1 true 0) (fun (_, s) => still s
    && (match s.resident (homeOf 0x100) 0x100 with | some e => e.data.length == 128 && !e.poison && e.kid == 1 | none => false)
    && match exec (.st 2 opG .d) s with | .next t => t.me.wbuf.length == 1 | _ => false) = true := by decide +kernel
theorem witness_StoresPerform_fill : homeDie (128 * 0x100) = some 0 ∧ mem0.populated (128 * 0x100) = true ∧ mem0.resident 0 0x100 = none ∧ mem0.storedPoison 0x100 = false
    ∧ mem0.cxlDown 0x100 = false ∧ (mem0.keyAt 0x100 1).isSome = true := by decide +kernel

/-- Node `n` is the only one of its id. -/
def single (s : State) (n : Node) : Bool := s.nodes.contains n && s.nodes.all fun m => m.id != n.id || m == n
/-- A launch of three by two iterations of level `prio`, with a save slot. -/
def launchSix (prio : Nat) : Launch :=
  { entry := ⟨0x100000, 0, 0, 0⟩, bound := ⟨3, 2, 0, 0⟩, dims := 2, order := 0, cohort := false, preempt := true, encore := false, prio := prio, budget := 0xFF,
    cachemask := 0, argptr := 0x777, placekind := 0, placeptr := 0x9000, saveptr := 0x400000, nslot := 2, prologue := [] }
/-- Iteration `n` of such a launch. -/
def iterOf (n : Nat) (st : IterSt) : Iter := ⟨n, ⟨n % 3, n / 3, 0, 0⟩, 0, st, none, none, none, none⟩
/-- A node of such a launch with iterations that live. -/
def nodeSix (id prio : Nat) (is : List Iter) : Node := { nodeOf id (.launch (launchSix prio)) with started := true, iters := is }
/-- Nodes on a machine whose cores 0 to `cores` − 1, Stage Manager and coordinator are ready and whose core 0 is empty. -/
def staging (ns : List Node) (cores : Nat) : State :=
  let s : State := { mapped [] with nodes := ns, jobs := [(0, jobOne)] }
  (readying { s with iod := { s.iod with ready := [] } } ([(.smgr, 0), (.coord, 0)] ++ (List.range cores).map fun c => (.core, c))).modMe fun k =>
    { k with run := none, st := Quad.all { Strand.zero with cond := .exited } }
theorem witness_NodeSteps : (let n := nodeSix 3 2 []
    let s := staging [n] 1
    single s n && s.smOn 0 && (launchSix 2).total == 6 && s.isReady .core 0
    && single (staging [{ n with started := false }] 1) { n with started := false }
    && decide ((launchSix 2).total ≤ { n with walker := 6 }.walker) && { n with badIter := true }.badIter) = true := by decide +kernel
theorem witness_NodeSteps_placed : (let n := { nodeOf 3 (.launch { launchSix 2 with placekind := 1 }) with started := true }
    let s := placing (staging [n] 1) 0x9000 [0]
    single s n && answers (s.vget 256 n.space 0x9000 1) fun (b, _) => b == [0]) = true := by decide +kernel
theorem witness_SchedulerChoices : (let s := (staging [nodeSix 3 2 [iterOf 1 .eligible]] 1).modDie 0 fun d => { d with drr := [(2, [0])], deficit := [(0, 5)] }
    s.smOn 0 && (s.eligible 0).map (fun x => x.2.2.n) == [1] && (s.die 0).owed.isEmpty && (s.cohortWaiting 0).isNone && (s.die 0).resv.isEmpty
    && (s.core 0).run.isNone && (s.core 0).under.isNone && s.isReady .core 0 && ((s.die 0).drr.get [] 2) == [0] && decide (0 < (s.die 0).deficit.get 0 0)
    && !(staging [] 0).isReady .core 0) = true := by decide +kernel
theorem witness_SchedulerChoices_request : (let l := launchSix 1
    let n := nodeSix 4 1 [iterOf 0 .running]
    let s := (staging [n, nodeSix 3 2 [iterOf 1 .eligible]] 1).modMe fun k => { k with run := some (Ctx.fresh 0 4 0) }
    (s.eligible 0).map (fun x => x.2.1.prio) == [2] && (s.die 0).reqs.isEmpty && (s.core 0).run == some (Ctx.fresh 0 4 0) && s.node 4 == some n
    && l.preempt && !n.usedSlots.contains 0 && decide (0 < l.nslot)) = true := by decide +kernel

/-- An iteration that is staged as the understudy of core 0. -/
def staged (prologue : List Cmd) : State :=
  (staging [nodeSix 3 2 [iterOf 1 .staged]] 1).modMe fun k => { k with under := some ⟨{ Ctx.fresh 1 3 5 with prologue := prologue }, true, [], 5, none, Commit.zero⟩ }
/-- The clear of 8 bytes of scratchpad at 0x100, of a prologue. -/
def clearEight : Cmd := ⟨.cpyz ⟨⟨0, 0⟩, none, 0, 0, 0⟩ .sp .cr, 0, 0x100, 0, 8, 0, false, 0, false, none, .none, true, [], 0, [], none, [], []⟩
theorem witness_ContextsStart : (let s := staged []
    single s (nodeSix 3 2 [iterOf 1 .staged]) && s.jobSlot 0 == some (0, jobOne) && (s.core 0).run.isNone && !s.slotKept 2 0
    && (s.core 0).under.map (fun u => (u.ctx.launch, u.ctx.iter, u.ctx.restored, u.fault.isNone)) == some (3, 1, false, true)) = true := by decide +kernel
theorem witness_ContextsStart_prologue : (let s := staged [clearEight]
    s.mayBank 0 (launchSix 2) && (s.engine 0 2).q.isEmpty && (launchSix 2).budget.getLsbD 0 && (s.core 0).mode 0 == .scratch) = true := by decide +kernel
theorem witness_ContextsStart_cohort : (let n := { nodeOf 3 (.launch { launchSix 2 with cohort := true, bound := ⟨1, 1, 0, 0⟩ }) with started := true, walker := 1, iters := [iterOf 0 .eligible] }
    let s := (staging [n] 1).modDie 0 fun d => { d with resv := [(0, 3)] }
    single s n && ((s.die 0).resv.filter fun r => r.2 == n.id).map (·.1) == [0] && (s.core 0).run.isNone) = true := by decide +kernel
/-- An iteration that runs on core 0 with no strand. -/
def running (f : Ctx → Ctx) (l : Launch) : State :=
  (staging [{ nodeOf 3 (.launch l) with started := true, iters := [iterOf 1 .running], usedSlots := [0] }] 1).modMe fun k => { k with run := some (f (Ctx.fresh 1 3 4)), launchId := 3 }
theorem witness_DrainEnd : (let s := running (fun r => { r with draining := true }) (launchSix 2)
    [(0 : Eng), 1, 2, 3].all (fun e => (s.engine 0 e).q.isEmpty && (s.engine 0 e).flight.isEmpty) && (s.core 0).wbuf.isEmpty
    && [(0 : Fin 4), 1, 2, 3].all (fun x => (s.strand 0 x).sb.isEmpty && (s.die x).gives.isEmpty) && (s.core 0).ownLines.isEmpty) = true := by decide +kernel
theorem witness_ContextStop : (let s := running (fun r => { r with yreq := true, slot := some 0 }) (launchSix 2)
    (s.core 0).live && s.preemptible 0 && (s.core 0).raised.isNone && (s.core 0).locks.isEmpty && (s.core 0).yreq
    && [(0 : Fin 4), 1, 2, 3].all fun x => (s.strand 0 x).cond == .exited && (s.strand 0 x).passed != some (s.strand 0 x).pc) = true := by decide +kernel
theorem witness_ImageWrite : (let s := running (fun r => { r with yreq := true, slot := some 0, preDrain := true }) { launchSix 2 with saveptr := 0xFFFFFFFFFF000000 }
    let z := s.writeOut 0 { Ctx.fresh 1 3 4 with yreq := true, slot := some 0, preDrain := true }
    (s.core 0).drained && !(z.core 0).imageUnreadable
    && match z.putPieces 0 ⟨0x200000, 0, 1, false⟩ 0xFFFFFFFFFF000100 ((z.imagePieces 0 false).take 1) with | .ok _ => false | .error _ => true) = true := by decide +kernel
theorem witness_DrainTimeout : (let s := (running (fun r => { r with yreq := true, preDrain := true }) (launchSix 2)).modEngine 0 0 fun g => { g with q := [clearEight] }
    !(s.core 0).drained) = true := by decide +kernel
theorem witness_ImageRestore : (let i := { iterOf 1 .staged with slot := some 0 }
    let n := { nodeOf 3 (.launch (launchSix 2)) with started := true, iters := [i] }
    let s := (staging [n] 1).modMe fun k => { k with under := some ⟨{ Ctx.fresh 1 3 5 with restored := true }, true, [], 0, none, Commit.zero⟩ }
    single s n && i.image (launchSix 2) == some 0x400100 && !s.slotKept 2 0 && (i.image { launchSix 2 with saveptr := 0xFFFFFFFFFF000000 }).isSome) = true := by decide +kernel
theorem witness_DebugStop : (let s := (running id { launchSix 2 with budget := 0 }).modMe fun k => { k with stopReq := true, dbgHit := some (0, 0), budget := 0 }
    (s.core 0).drained && !(s.core 0).stopped && (s.core 0).raised.isNone && (s.core 0).run.isSome) = true := by decide +kernel

/-- The state record and the ids of a card, and a card of the kind on engine 0. -/
def carded (kind : Nat) (rec' : List Byte) (ready : List (Func × Nat)) (eng : Option Nat) (out : Option (Nat × Nat)) : State × Node × Card :=
  let k : Card := { addr := 0x8000, kind := kind, eng := 0, cueCore := 0, cueNum := 3, cueAmt := 2, core := 0, stamp := 0, vslot := none, vocab := [], out := out }
  let n : Node := { nodeOf 5 (.card k) with started := true, engine := eng }
  (readying { placing (mapped []) 0x8040 rec' with nodes := [n], jobs := [(0, jobOne)] } ready, n, k)
theorem witness_CardsRun_starts : (let (s, n, k) := carded 1 [3] [(.prom, 0)] none none
    single s n && k.engines.contains 0 && s.textReady 0 && s.onEngine 0 == none && !s.narrAhead n k && answers (s.vget n.agent n.space 0x8040 1) fun (b, _) => b == [3]) = true := by decide +kernel
theorem witness_CardsRun_notReady : (let (s, n, k) := carded 1 [] [] none none
    single s n && k.engines.all fun x => !s.textReady x) = true := by decide +kernel
theorem witness_CardsRun_prompter : (let (s, n, k) := carded 1 [3] [(.prom, 0)] (some 0) none
    s.onEngine 0 == some n && s.textReady 0 && answers (s.vget n.agent n.space 0x8040 64) fun (b, y) => match ((prompterIds n k b).go y).1 with | .ok _ => true | .error _ => true) = true := by
  decide +kernel
theorem witness_CardsRun_narrator : (let (s, n, k) := carded 2 [3] [(.narr, 0)] (some 8) none
    s.onEngine 8 == some n && s.textReady 8 && !s.narrAhead n k && match ((narrPlan n k).go s).1 with | .ok _ => true | .error _ => true) = true := by decide +kernel
theorem witness_CardsRun_ends : (let (s, n, k) := carded 1 [] [(.prom, 0)] (some 0) (some (2, 0))
    single s n && k.out == some (2, 0) && (s.core 0).cues.wf 0 && answers (s.drawWord.2.vput n.agent n.space 0x8020 (List.replicate 8 0) [] []) fun _ => true) = true := by decide +kernel

/-- A message of a kind to service 7 with `plen` bytes of payload (R320). -/
def message (kind plen : Nat) : List Byte :=
  toLe 4 0x31585447 ++ [1, BitVec.ofNat 8 kind, 0, 0] ++ toLe 8 0x55 ++ toLe 4 7 ++ toLe 4 plen ++ List.replicate 8 0 ++ List.replicate plen 7
/-- A port with service 7 of job 0: four slots of `size` bytes at 0xA000, its head word at 0x9000 (R413). -/
def serving (size : Nat) (sent : Nat) (job : Nat) : State :=
  let e := toLe 4 1 ++ toLe 4 job ++ toLe 8 0xA000 ++ toLe 4 4 ++ toLe 4 size ++ toLe 8 0x9000 ++ toLe 2 0 ++ [5, 0] ++ toLe 4 0 ++ List.replicate 24 0
  let s : State := { readying (mapped []) [(.port, 1)] with jobs := [(0, jobOne)] }
  { s with iod := { s.iod with svc := [(7, e)], svcSeq := if sent = 0 then [] else [(7, sent)], flows := [(1, 5)] } }
theorem witness_PortMessages : (let s := serving 128 0 0
    let sp : Space3 := ⟨0x200000, 0, 1, false⟩
    s.isReady .port 1 && headerOk (message 1 2) && (message 1 2).length == 34 && fld (message 1 2) 5 1 == 1 && s.jobSlot 0 == some (0, jobOne)
    && answers (s.vget 256 sp 0x9000 8) fun (b, z) => le b == 0 && answers (z.vput 256 sp 0xA000 (List.replicate 32 0 ++ message 1 2) [] []) fun _ => true) = true := by decide +kernel
theorem witness_PortMessages_refused : headerOk (message 9 0) = false ∨ fld (message 9 0) 5 1 = 9 := by decide +kernel
theorem witness_PortMessages_full : answers ((serving 128 4 0).vget 256 ⟨0x200000, 0, 1, false⟩ 0x9000 8) (fun (b, _) => decide (le b + 4 ≤ (serving 128 4 0).iod.svcSeq.get 0 7)) = true
    ∧ fld (message 1 2) 0x14 4 + 64 ≤ 128 ∧ 64 < fld (message 1 2) 0x14 4 + 64 ∧ (serving 128 0 9).jobSlot 9 = none := by decide +kernel

theorem witness_HostRegisters : State.reset.iod.inProg = [] ∧ State.reset.iod.hifHead = State.reset.iod.hifTail ∧ regMask 0x51008 ≠ 0 ∧ regMask 0x18 = 0
    ∧ State.reset.iod.route.wf 0 = true ∧ (2 : Word).getLsbD 1 = true := by decide +kernel
/-- A capsule of an opcode with arguments (R406). -/
def capsuleOf (op : Nat) (args : List (Nat × List Byte)) : List Byte :=
  args.foldl (fun b a => b.take (0x10 + a.1) ++ a.2 ++ b.drop (0x10 + a.1 + a.2.length)) (toLe 2 op ++ toLe 2 0 ++ List.replicate 124 0)
/-- Capsule 3 of the ring at 0x1000 is in progress, with host memory that holds it and `at3` at 0x3000. -/
def holding (b at3 : List Byte) : State :=
  let s : State := { mapped [] with jobs := [(0, jobOne)] }
  let mem (a : Nat) (bs : List Byte) : Mem := bs.zipIdx.map fun e => (a + e.2, e.1)
  { s with iod := { s.iod with hifHead := 4, hifTail := 4, capBase := 0x1000, inProg := [(3, b)], hifReady := true, host := mem 0x1180 b ++ mem 0x3000 at3 } }
/-- The slot image of a job (R368, R408). -/
def jobImage (id valid : Nat) : List Byte := toLe 4 valid ++ toLe 4 id ++ toLe 2 1 ++ [7, 0] ++ toLe 2 1 ++ toLe 2 9 ++ toLe 8 0x204000 ++ toLe 8 0x4000 ++ List.replicate 96 0
theorem witness_Capsules_start : (let s := holding (capsuleOf 2 []) []
    let t := s.modIod fun x => { x with inProg := [], hifHead := 3, hifTail := 4 }
    t.hostRead (0x1000 + 128 * 3) 128 == some (capsuleOf 2 []) && t.iod.hifReady && !t.iod.hifStopped && t.hostRead 0x5000 128 == none) = true := by decide +kernel
theorem witness_JobSet : (let b := capsuleOf 1 [(0, [5]), (8, toLe 8 0x3000)]
    argsOk b [(0, 1), (8, 8)] && ((holding b (jobImage 4 1)).hostRead 0x3000 128).map jobOf == some (jobOf (jobImage 4 1)) && ((jobOf (jobImage 4 1)).map fun x => (x.1, x.2.jobid)) == some (true, 4)
    && ((jobOf (jobImage 4 0)).map fun x => x.1) == some false && (jobOf (List.replicate 128 0)).isNone && (holding b []).jobs.find 5 == none && (holding b []).jobSlot 4 == none
    && (holding b []).jobs.find 0 == some jobOne) = true := by decide +kernel
theorem witness_JobFree : argsOk (capsuleOf 2 [(0, [0])]) [(0, 1)] = true ∧ (holding (capsuleOf 2 [(0, [0])]) []).nodes = [] := by decide +kernel
theorem witness_ServiceSet : (let e := toLe 4 1 ++ toLe 4 0 ++ toLe 8 0xA000 ++ toLe 4 4 ++ toLe 4 128 ++ toLe 8 0x9000 ++ toLe 2 0 ++ [5, 0] ++ List.replicate 28 0
    let b := capsuleOf 9 [(0, toLe 4 7), (0x10, e)]
    argsOk b [(0, 4), (0x10, 64)] && svcOk (capBytes b 0x10 64) && ((holding b []).jobSlot (fld (capBytes b 0x10 64) 4 4)).isSome
    && !svcOk (capBytes (capsuleOf 9 [(0, toLe 4 7), (0x10, toLe 4 1 ++ toLe 4 0 ++ toLe 8 0xA001)]) 0x10 64)) = true := by decide +kernel
theorem witness_CapsuleLaunch : (let b := capsuleOf 10 [(0, [0]), (8, toLe 8 0x8000)]
    let s := readying (placing (holding b []) 0x8000 (record 0 2)) [(.core, 0), (.smgr, 0), (.coord, 0)]
    argsOk b [(0, 1), (8, 8)] && match s.hostAgent with
      | some c => answers (submitLaunch c (jobOne.space true) 0 false [] 12 0x8000 s) fun r => r.1.isSome
      | none => false) = true := by decide +kernel
theorem witness_ImageResume : (let b := capsuleOf 11 [(0, [0]), (8, toLe 8 0xC000)]
    let n := nodeSix 3 2 []
    let s : State := readying { placing (holding b []) 0xC000 (toLe 4 0x4D494753 ++ toLe 2 1 ++ toLe 2 0 ++ toLe 8 1 ++ toLe 4 3 ++ toLe 4 0 ++ List.replicate 232 0) with nodes := [n] } [(.core, 0)]
    argsOk b [(0, 1), (8, 8)] && single s n && match s.hostAgent with
      | some c => answers (s.vget c (jobOne.space true) 0xC000 256) fun (h, w) => w.imageOk h && fld h 0x14 4 == 0 && !(fld h 0x9B 1).testBit 0 && fld h 0x10 4 == 3
      | none => false) = true := by decide +kernel
theorem witness_KeyCapsules : argsOk (capsuleOf 3 [(0, [1]), (2, [9, 0])]) [(0, 1), (2, 2), (4, 12), (0x10, 32), (0x30, 16)] = true
    ∧ argsOk (capsuleOf 4 [(0, [1]), (2, [9, 0])]) [(0, 1), (2, 2)] = true ∧ argsOk (capsuleOf 5 [(4, [1])]) [(0, 1), (4, 4), (8, 12), (0x14, 32), (0x34, 16)] = true
    ∧ (State.reset.iod.link 0).epoch + 1 = 1 ∧ (State.reset.iod.link 0).oldTx = none ∧ (State.reset.iod.link 0).oldRx = none := by decide +kernel
theorem witness_CopyCapsule : (let b := capsuleOf 6 [(2, [1, 0]), (4, [32, 0, 0, 0]), (8, toLe 8 0x3000), (0x10, toLe 8 0x9000)]
    let s := holding b (List.replicate 32 5)
    argsOk b [(0, 1), (2, 2), (4, 4), (8, 8), (0x10, 8)] && s.physOk 0x9000 32 && s.hostRead 0x3000 32 == some (List.replicate 32 5)
    && answers (s.pput 1 0x9000 (List.replicate 32 5)) (fun _ => true) && answers (s.pget 1 0x9000 32) (fun _ => true)
    && !answers (s.pget 7 0x9000 32) (fun _ => true)) = true := by decide +kernel
theorem witness_VocabInstall : (let b := capsuleOf 7 [(2, [1, 0]), (8, toLe 8 0x9000)]
    let s := holding b []
    argsOk b [(0, 1), (2, 2), (8, 8)] && s.physOk 0x9000 128 && answers (s.pget 1 0x9000 128) fun (h, _) => vBad1 h) = true := by decide +kernel
theorem witness_RoutineLoad : (let b := capsuleOf 8 [(0, [2]), (2, [1, 0]), (4, toLe 4 48), (8, toLe 8 0x9000)]
    let s := holding b []
    argsOk b [(0, 1), (2, 2), (4, 4), (8, 8)] && s.physOk 0x9000 48 && answers (s.pget 1 0x9000 48) fun _ => true) = true := by decide +kernel

/-! ## Witnesses: links and the fabric (R278 to R283, R415 to R422) -/

def requestOf (src core dst seq : Nat) (b : FabBody) : FabReq := ⟨src, core, dst, seq, 1, false, b⟩
def flitOf (hop epoch : Nat) (b : FlitBody) : Flit := ⟨hop, epoch, 0, true, true, none, b⟩
/-- The F command that awaits an answer. -/
def fstCmd : Cmd := ⟨.fst ⟨⟨0, 0⟩, none, 1, 2, 3⟩ 0 .rlx, 0, 1, 2, 3, 0, false, 0, false, none, .none, false, [], 0, [], none, [], []⟩
/-- A link in its second epoch that keeps three flits. -/
def linkOf (f : Link → Link) : Link :=
  let w : FlitBody := .req (requestOf 1 1 5 0 (.wr 0x8000 [1]))
  f { Link.zero with epoch := 2, key := some 7, replay := [flitOf 0 2 w, { flitOf 0 1 w with lseq := 3 }, { flitOf 0 2 w with lseq := 4 }] }
/-- Device 5, link 1 up, device 6 reached through port 4, two requests without an answer. -/
def linked (f : Link → Link) : State :=
  let s := readying { mapped [] with jobs := [(0, jobOne)] } [(.link, 1), (.link, 4)]
  let s := s.modIod fun x => { x with
    devnum := 5, links := [(1, linkOf f), (4, linkOf id)], route := [(6, 0x80000010)],
    outReqs := [⟨requestOf 5 0 9 4 (.wr 0x8000 [2]), some 3, 1, false⟩, ⟨requestOf 5 0 6 5 (.wr 0x8000 [2]), some 8, 1, false⟩] }
  s.modEngine 0 3 fun g => { g with flight := [⟨3, fstCmd, Commit.zero, [(9, 4, 0)], [], [], none⟩] }
theorem witness_LinkSteps : (let s := linked id
    s.linkUp 1 && !s.linkUp 2 && s.iod.devnum == 5 && (linkOf id).holds 2 && !(linkOf id).holds 9 && s.ports 6 == [4] && s.ports 8 == []
    && (s.cores.any fun e => !(e.2.eng.get 3).flight.isEmpty)
    && (linkOf fun x => { x with rxFails := 7 }).rxFails == 7 && (linkOf fun x => { x with nextKey := some 8 }).nextKey == some 8
    && ((linkOf id).replay.any fun f => f.lseq == 3) && ((linkOf id).replay.any fun f => f.epoch != 2)) = true := by decide +kernel
theorem witness_LinkSteps_response : (let s := linked id
    (s.iod.outReqs.find? fun q => q.req.dst == 9 && q.req.core == 0 && q.req.seq == 4).map (·.fly) == some (some 3)
    && (s.fly 0 3).map (fun y => (y.out, y.cmd == fstCmd)) == some ([(9, 4, 0)], true)) = true := by decide +kernel
/-- Requests of device 9 have arrived: one it sent before, and one that is next. -/
def requested (b : FabBody) (dem : List Demand) : State :=
  (placing (linked id) 0x8000 [1, 2, 3, 4, 5, 6, 7, 8]).modIod fun x => { x with
    inbound := [requestOf 9 1 5 65535 b, requestOf 9 1 5 3 b, requestOf 9 1 5 5 b], srcSeqs := [(9 * 1024 + 1, ⟨3, [], []⟩)], demands := dem }
theorem witness_FabricRequests : (let s := requested (.rd 0x8000 8) []
    let q := s.iod.srcSeqs.get ⟨0, [], []⟩ (9 * 1024 + 1)
    s.iod.inbound.map (fun r => (r.seq + 2 ^ 16 - q.next) % 2 ^ 16) == [65532, 0, 2]
    && s.iod.inbound.map (fun r => performBody r s |> fun x => match x with | .ok (bs, _) => bs.length | .error _ => 0) == [8, 8, 8]
    && answers (kvGet 1 0x8000 8 s) fun (bs, _) => bs == [1, 2, 3, 4, 5, 6, 7, 8]) = true := by decide +kernel
theorem witness_FabricRequests_write : (let r := requestOf 9 1 5 3 (.wr 0x8000 [5, 6])
    let s := requested r.body []
    s.populated 0x8000 && s.populated 0x8001 && !s.populated (2 ^ 60) && match s.physWrite (512 + r.src) r.key [] 2 0x8000 [5, 6] with | .ok _ => true | .error _ => false) = true := by decide +kernel
theorem witness_FabricRequests_signal : (let s := readying (requested (.sig 0 5 7) []) [(.core, 0)]
    s.isReady .core 0 && !s.isReady .core 9 && (s.core 0).cues.wf 0) = true := by decide +kernel
theorem witness_FabricRequests_retry : (let s := linked id
    (s.iod.outReqs.find? fun q => q.req.core == 0 && q.req.dst == 6 && q.req.seq == 5).map (fun q => (q.tries, q.dead)) == some (1, false)
    && (s.iod.outReqs.find? fun q => q.req.core == 0 && q.req.dst == 9 && q.req.seq == 4).map (fun q => (q.fly.bind (s.fly 0)).isSome) == some true) = true := by decide +kernel
theorem witness_FabricRequests_grant : (let s := requested (.rd 0x8000 8) [⟨9, 1, 3, [0, 0, 1, 0], [0, 1]⟩]
    (s.iod.demands.find? fun x => x.left.contains 1 && decide (x.outst.length < 8)).map (·.src) == some 9 && s.iod.demands.all fun x => x.left.all (· != 2)) = true := by decide +kernel

/-! ## Witnesses: CXL memory and the Cellarer (R234, R424 to R430) -/

/-- Cask 0 of die 0 has the given descriptor; its class, COLD, has the given control word; HBM pool 3 is empty and CXL pool 5 holds 0x200000. -/
def demoting (x : Desc) (ctl : Word) (low : Nat) (ag : List (Nat × Word)) : State :=
  let s := readying (kvStore 10 [0] []) [(.cell, 0)]
  let ring (a enq deq ra v seq : Nat) (s : State) : State :=
    placing (placing s a (toLe 8 enq ++ toLe 8 deq ++ toLe 8 ra ++ toLe 8 2 ++ List.replicate 32 0)) ra (toLe 8 v ++ toLe 8 seq ++ (List.replicate 48 0))
  let s := ring 0x50000 1 1 0x51000 0 5 (ring 0x52000 1 0 0x53000 0x200000 1 s)
  let s := placing s 0x20000 (x.toBytes ++ { x with addr := 0x104000, clsB := 1 }.toBytes)
  s.modDie 0 fun k => { k with
    cell := ag.foldl (fun t e => Tab.put t e.1 e.2)
      ((((((k.cell.put 0xF8 1).put 0x90 ctl).put 0x38 0x50000).put 0x48 0x52000).put 0xB8 (BitVec.ofNat 64 low)).put 0xC8 (BitVec.ofNat 64 low)) }
/-- A descriptor of cask 0. -/
def descOf (tier fmt cls : Nat) : Desc := ⟨0x20000, 0x100000, 1, tier, fmt, cls, 1, 0, 5, 0, 9⟩
/-- Cask 0 may be moved, and `p` holds of its descriptor, its class's control word and the state then. -/
def moves (s : State) (p : Desc → Nat → State → Bool) : Bool :=
  answers (movable 0 0 s) fun ((x, _), s1) => answers (classCtl 0 x.clsB s1) fun (ctl, s2) => p x ctl s2
theorem witness_CxlAndCellarer_fp8 : moves (demoting (descOf 0 1 2) 1 9 []) (fun x ctl _ => ctl == 1 && x.tier == 0 && x.fmtB == 1) = true := by decide +kernel
theorem witness_CxlAndCellarer_cxl : moves (demoting (descOf 0 3 2) 0x10000 9 []) (fun x ctl s => ctl == 0x10000 && x.fmtB == 3
    && answers (refilling 0 3 s) fun (on, s) => on && answers (coldestFirst 0 2 (cxlWaits 0 0) s) fun (_, s) => answers (poolTake 0 5 s) fun (a, _) => a == some 0x200000) = true := by decide +kernel
theorem witness_CxlAndCellarer_idle : moves (demoting (descOf 0 3 2) 0x10000 0 []) (fun _ _ s => answers (refilling 0 3 s) fun (on, _) => !on) = true := by decide +kernel
theorem witness_CxlAndCellarer_lend : moves (demoting (descOf 0 3 2) 0x300010000 2 [(0x100, 0x8000010000000005), (0x108, 9)]) (fun x ctl s => ctl.testBit 33 && (s.die 0).lendsTo == some 0
    && answers (descPut { x with stateB := x.stateB ||| 2 } s) fun _ => true) = true := by decide +kernel
theorem witness_CxlAndCellarer_absent : moves (demoting (descOf 2 6 2) 0x100000000 9 []) (fun x ctl s => ctl.testBit 32 && x.tier == 2 && x.fmtB == 6
    && answers (poolFree 0 5 s) fun (n, s) => decide (n < 9) && answers (coldestFirst 0 2 (absWaits 0 0) s) fun _ => true) = true := by decide +kernel
theorem witness_CxlAndCellarer_stays : (demoting (descOf 0 1 2) 1 9 []).isReady .cell 1 = false ∧ (mapped []).isReady .cell 0 = false := by decide +kernel
theorem witness_CxlAndCellarer_registers : State.reset.iod.cxlReg.wf 0 = true ∧ cellMask 8 ≠ 0 ∧ cellMask 0x60 ≠ 0 ∧ cellMask 4 = 0 ∧ (State.reset.die 1).kvOn = false
    ∧ (demoting (descOf 0 1 2) 1 9 []).isReady .cell 0 = true := by decide +kernel
theorem witness_CxlAndCellarer_agreements : (let lends : Nat := 0xC000000000000003
    let borrows : Nat := 0x8000000000000005
    agValid lends && agLends lends && agValid borrows && !agLends borrows && !agValid 5 && decide (agQuota lends < agUsed 0x200000000009)
    && answers (loseLent 0 (agPeer borrows) (agPeerDie borrows) (demoting (descOf 0 1 2) 1 9 [(0x100, BitVec.ofNat 64 borrows)])) fun _ => true) = true := by decide +kernel

/-! ## Witnesses: errors, power, boot and attestation (R432 to R447, R460, R465) -/

/-- A line of set 0 of slice 0 of die 0 is held. -/
def holdingLine : State := match (placing (mapped []) 0 [1]).dieRead 0 0 1 1 false 0 with | .ok (_, s) => s | .error _ => State.reset
theorem witness_Dependability : (let temp (n : Int) : Word := BitVec.ofInt 64 (16 * n)
    decide (16 * 110 ≤ ((temp 110).extractLsb' 0 16).toInt) && ((List.range 4).all fun n => decide (((temp 109).extractLsb' (16 * n) 16).toInt < 16 * 110))
    && State.reset.iod.blob.isNone && decide (1100 ≤ State.reset.iod.clkMhz)) = true := by decide +kernel
theorem witness_Dependability_line : ((List.range 24).any fun n => ((holdingLine.die 0).sets.get [] 0)[n]?.any fun l => !l.poison) = true := by decide +kernel
/-- Firmware runs, with engine 3 of the prompters on a card. -/
def booted (f : Mgmt → Mgmt) : State :=
  let k : Card := { addr := 0x8000, kind := 1, eng := 3, cueCore := 0, cueNum := 3, cueAmt := 2, core := 0, stamp := 0, vslot := none, vocab := [], out := none }
  let s := readying { mapped [] with nodes := [{ nodeOf 5 (.card k) with started := true, engine := some 3 }] } [(.fw, 0), (.prom, 3)]
  s.modIod fun x => { x with mgmt := f x.mgmt }
theorem witness_Boot : (let s := booted fun m => { m with entered := true, bootStatus := 0x80 }
    s.iod.mgmt.entered && s.isReady .fw 0 && !s.isReady .prom 2 && !s.isReady .fw 1 && s.isReady .prom 3 && s.iod.blob.isNone
    && (s.onEngine 3).map (fun y => (single s y, match y.kind with | .card _ => true | .launch _ => false)) == some (true, true)
    && (blobOk (Config.blobKey []) []).isNone && State.reset.iod.mgmt.bootStatus == 0 && !State.reset.isReady .fw 0) = true := by decide +kernel
theorem witness_Attestation : (let s := booted fun m => { m with shaBusy := true, eccBusy := true, measBusy := true, req := some [1] }
    s.iod.mgmt.shaBusy && s.iod.mgmt.eccBusy && s.iod.mgmt.measBusy && s.iod.mgmt.req.isSome && !(mapped []).iod.mgmt.shaBusy && (mapped []).iod.mgmt.req.isNone
    && !(mapped []).iod.mgmt.entered && fld [0x13, 0xE0, 0, 0, 1, 2, 3, 4, 5, 6, 7, 8] 1 1 == 0xE0 && fld [0x13, 0x84] 1 1 == 0x84) = true := by decide +kernel
end Sys2Proof.Tests
end

section
/-! SUPPORT. What ends a capsule, what a launch leaves of the capsule ring, and the capsules of jobs, services, launches and images. -/

namespace Sys2Proof.Machine

/-! ## Placement and records only access memory -/

theorem State.poisonSeen_access (s : State) (c : Nat) (sp : Space3) (tr : Trap) : Access s (s.poisonSeen c sp tr) := by
  unfold State.poisonSeen
  split
  · split
    · exact .refl s
    · dsimp only
      refine Access.trans ?_ (State.poisonFill_access _ _ _ _)
      split
      · exact s.msix_access 3
      · exact .refl s
  · exact .refl s

theorem State.vote_access (s : State) (c : Nat) (sp : Space3) (va : Word) : Access s (s.vote c sp va).2 := by
  unfold State.vote
  split
  · exact .refl s
  · split
    · exact .refl s
    · next h => exact s.translate_access _ _ _ _ _ _ h

theorem State.votes_access (s : State) (c : Nat) (sp : Space3) (vas : List Word) : Access s (s.votes c sp vas).2 := by
  induction vas generalizing s with
  | nil => exact .refl s
  | cons va vas ih => exact (s.vote_access c sp va).trans (ih _)

theorem State.placeOf_access (s : State) (c : Nat) (sp : Space3) (l : Launch) (n : Nat) : Access s (s.placeOf c sp l n).2 := by
  unfold State.placeOf
  dsimp only
  split
  · split
    · exact s.poisonSeen_access _ _ _
    · next h =>
      have e := s.vget_access _ _ _ _ _ _ h
      split <;> exact e
  · split
    · exact s.poisonSeen_access _ _ _
    · next h => exact (s.vget_access _ _ _ _ _ _ h).trans (State.votes_access _ _ _ _)
  · exact .refl s

theorem State.cohortPlaces_access (fuel : Nat) (s : State) (c : Nat) (sp : Space3) (l : Launch) (k : Nat) :
    Access s (s.cohortPlaces c sp l k fuel).2 := by
  induction fuel generalizing s k with
  | zero => exact .refl s
  | succ fuel ih =>
    have e := s.placeOf_access c sp l (l.linear (l.tuple k))
    unfold State.cohortPlaces
    split
    · next h => rw [h] at e; exact e
    · next h => rw [h] at e; exact e.trans (ih _ _)

theorem State.physWrite_access (fuel : Nat) (s t : State) (who kid : Nat) (rels : List Rel) (pa : Nat) (bs : List Byte)
    (h : s.physWrite who kid rels fuel pa bs = .ok t) : Access s t := by
  induction fuel generalizing s pa bs with
  | zero => cases h; exact .refl _
  | succ fuel ih =>
    unfold State.physWrite at h
    dsimp only at h
    split at h
    · cases h; exact .refl _
    · split at h
      · cases h
      · next hw => exact (s.homeWrite_access _ _ _ _ _ _ _ _ _ _ hw).trans (ih _ _ _ h)

/-! ## The capsule ring while a launch is submitted -/

/-- `t` holds the capsules in progress of `s`, in the same ring. -/
structure SameRing (s t : State) : Prop where
  inProg : t.iod.inProg = s.iod.inProg
  base : t.iod.capBase = s.iod.capBase

theorem SameRing.refl (s : State) : SameRing s s := ⟨rfl, rfl⟩

theorem SameRing.trans {s t u : State} (h : SameRing s t) (k : SameRing t u) : SameRing s u :=
  ⟨k.inProg.trans h.inProg, k.base.trans h.base⟩

theorem Access.sameRing {s t : State} (h : Access s t) : SameRing s t := by
  constructor <;> rw [h.top]

theorem SameRing.of_iod {s t : State} (h : t.iod = s.iod) : SameRing s t := by
  constructor <;> rw [h]

theorem sameRing_modIod (s : State) (f : Iod → Iod) (hp : (f s.iod).inProg = s.iod.inProg) (hb : (f s.iod).capBase = s.iod.capBase) :
    SameRing s (s.modIod f) := ⟨hp, hb⟩

/-- An operation that begins in the ring of `z` and, where it answers a value, ends in it. -/
def KeepsRing (z : State) {α : Type} (m : Op α) : Prop := ∀ s a t, SameRing z s → m s = .ok (a, t) → SameRing z t

section
variable {z : State} {α β : Type}

theorem KeepsRing.bind {m : Op α} {f : α → Op β} (hm : KeepsRing z m) (hf : ∀ a, KeepsRing z (f a)) : KeepsRing z (m >>= f) := by
  intro s b u hs h
  cases h1 : m s with
  | error tr => simp [Bind.bind, StateT.bind, Except.bind, h1] at h
  | ok r =>
    obtain ⟨a, t⟩ := r
    have h2 : f a t = .ok (b, u) := by simpa [Bind.bind, StateT.bind, Except.bind, h1] using h
    exact hf a t b u (hm s a t hs h1) h2

theorem KeepsRing.get_bind {f : State → Op β} (hf : ∀ s, SameRing z s → KeepsRing z (f s)) : KeepsRing z (get >>= f) := by
  intro s b u hs h
  exact hf s hs s b u hs h

theorem KeepsRing.set {t : State} (ht : SameRing z t) : KeepsRing z (MonadStateOf.set t : Op Unit) := by
  intro s b u _ h
  cases h
  exact ht

theorem KeepsRing.pure (a : α) : KeepsRing z (Pure.pure a : Op α) := by
  intro s b t hs h
  cases h
  exact hs

theorem KeepsRing.ite {p : Prop} [Decidable p] {m k : Op α} (hm : KeepsRing z m) (hk : KeepsRing z k) : KeepsRing z (if p then m else k) := by
  split
  · exact hm
  · exact hk

theorem keepsRing_raise (cause sub : Nat) (val : Word) : KeepsRing z (raise cause sub val : Op α) := by
  intro s a t _ h
  cases h

theorem keepsRing_check (p : Bool) (cause sub : Nat) (val : Word) : KeepsRing z (check p cause sub val) := by
  intro s a t hs h
  unfold check at h
  split at h
  · cases h; exact hs
  · cases h

theorem keepsRing_smRead (c : Nat) (sp : Space3) (a : Word) (n : Nat) : KeepsRing z (smRead c sp a n) := by
  intro s bs t hs h
  unfold smRead liftE at h
  split at h
  · next hr => cases h; exact hs.trans (s.vget_access _ _ _ _ _ _ hr).sameRing
  · cases h

theorem keepsRing_places (c : Nat) (sp : Space3) (l : Launch) :
    KeepsRing z (fun s => .ok (if l.cohort then s.cohortPlaces c sp l 0 l.total else (some [], s)) : Op (Option (List (Fin 4 × Option Nat)))) := by
  intro s ps t hs h
  have e := Except.ok.inj h
  split at e
  · have a := s.cohortPlaces_access l.total c sp l 0
    rw [e] at a
    exact hs.trans a.sameRing
  · cases e; exact hs

theorem keepsRing_readLaunch (c : Nat) (sp : Space3) (job : Nat) (a : Word) : KeepsRing z (readLaunch c sp job a) := by
  unfold readLaunch
  refine (keepsRing_check _ _ _ _).bind fun _ => (keepsRing_smRead _ _ _ _).bind fun b => ?_
  dsimp only
  split
  · exact keepsRing_raise _ _ _
  refine (KeepsRing.ite (.pure _) (keepsRing_smRead _ _ _ _)).bind fun pb => ?_
  split
  · exact keepsRing_raise _ _ _
  refine KeepsRing.get_bind fun s0 _ => (keepsRing_check _ _ _ _).bind fun _ => ?_
  refine (KeepsRing.ite (keepsRing_smRead _ _ _ _) (.pure _)).bind fun hdr => (keepsRing_check _ _ _ _).bind fun _ => ?_
  refine (KeepsRing.ite (keepsRing_smRead _ _ _ _) (.pure _)).bind fun map => (keepsRing_check _ _ _ _).bind fun _ => ?_
  refine (keepsRing_check _ _ _ _).bind fun _ => (keepsRing_places c sp _).bind fun ps => ?_
  refine KeepsRing.get_bind fun s1 _ => (keepsRing_check _ _ _ _).bind fun _ => (keepsRing_check _ _ _ _).bind fun _ => ?_
  refine (KeepsRing.ite (.pure _) (keepsRing_smRead _ _ _ _)).bind fun fb => ?_
  split
  · exact keepsRing_raise _ _ _
  · exact (keepsRing_check _ _ _ _).bind fun _ => .pure _

end

/-! ### Node entry -/

theorem State.encAppend_sameRing (s : State) (kind : Nat) (payload : List Byte) : SameRing s (s.encAppend kind payload) := by
  have put : ∀ r : List Byte, SameRing s (match s.pput s.iod.encKid (s.iod.encBase + s.iod.encHead) r with
      | .ok s => s
      | .error _ => s) := by
    intro r
    split
    · next h => exact (s.physWrite_access _ _ _ _ _ _ _ h).sameRing
    · exact .refl s
  unfold State.encAppend
  dsimp only
  split
  · exact .refl s
  · split
    · exact (put _).trans (sameRing_modIod _ _ rfl rfl)
    · exact ((put _).trans (sameRing_modIod _ _ rfl rfl)).trans (sameRing_modIod _ _ rfl rfl)

theorem State.encDiverge_sameRing (s : State) (c : Nat) : SameRing s (s.encDiverge c) := ⟨rfl, rfl⟩

theorem State.encBump_sameRing (s : State) (a : Nat × Nat × Nat) : SameRing s (s.modIod fun k => k.encBump a) := ⟨rfl, rfl⟩

theorem State.encEvent_sameRing (s t : State) (c agent kind : Nat) (payload : Nat → List Byte) (same : List Byte → Bool)
    (h : s.encEvent c agent kind payload same = some t) : SameRing s t := by
  unfold State.encEvent at h
  dsimp only at h
  split at h
  · cases h; exact .refl s
  split at h
  · rw [← Option.some.inj h]
    exact (s.encAppend_sameRing _ _).trans (State.encBump_sameRing _ _)
  split at h
  · cases h; exact .refl s
  split at h
  · cases h; exact s.encDiverge_sameRing c
  split at h
  · cases h; exact ⟨rfl, rfl⟩
  split at h
  · cases h
  · cases h; exact s.encDiverge_sameRing c

theorem State.encNode_sameRing (s t : State) (c agent job phase graph seq : Nat) (h : s.encNode c agent job phase graph seq = some t) :
    SameRing s t := by
  unfold State.encNode at h
  split at h
  · cases h
  · exact s.encEvent_sameRing _ _ _ _ _ _ h

theorem State.placeOn_sameRing (s : State) (n : Node) (l : Launch) (p : Fin 4 × Option Nat) : SameRing s (s.placeOn n l p) := by
  obtain ⟨d, ev⟩ := p
  unfold State.placeOn
  dsimp only
  cases ev <;> split <;> exact ⟨rfl, rfl⟩

theorem State.placeAll_sameRing (ps : List (Fin 4 × Option Nat)) (s : State) (id : Nat) (l : Launch) : SameRing s (s.placeAll id l ps) := by
  unfold State.placeAll
  induction ps generalizing s with
  | nil => exact .refl s
  | cons p ps ih =>
    refine SameRing.trans ?_ (ih _)
    dsimp only
    split
    · exact s.placeOn_sameRing _ l p
    · exact .refl s

theorem State.enterNode_sameRing (s : State) (n : Node) : SameRing s (s.enterNode n).2 := ⟨rfl, rfl⟩

/-- Submitting a launch leaves the capsule ring as it was. -/
theorem keepsRing_submitLaunch (z : State) (c : Nat) (sp : Space3) (job : Nat) (nb : Bool) (hb : List Nat) (agent : Nat) (a : Word) :
    KeepsRing z (submitLaunch c sp job nb hb agent a) := by
  unfold submitLaunch
  refine (keepsRing_readLaunch c sp job a).bind fun r => KeepsRing.get_bind fun s hs => (keepsRing_check _ _ _ _).bind fun _ => ?_
  refine KeepsRing.ite (KeepsRing.ite (keepsRing_raise _ _ _) (.pure _)) ?_
  dsimp only
  split
  · exact .pure _
  · next t ht =>
    have ring := hs.trans (s.encNode_sameRing _ _ _ _ _ _ _ ht)
    exact (KeepsRing.set ((ring.trans (t.enterNode_sameRing _)).trans (State.placeAll_sameRing _ _ _ _))).bind fun _ => .pure _

/-! ## Writes that settle on the dies -/

/-- Of the I/O die, `t` differs from `s` in the management log alone. -/
def LogsOnly (s t : State) : Prop := t.iod = { s.iod with mgmtLog := t.iod.mgmtLog }

theorem LogsOnly.refl (s : State) : LogsOnly s s := rfl

theorem LogsOnly.of_iod {s t : State} (h : t.iod = s.iod) : LogsOnly s t := by
  unfold LogsOnly
  rw [h]

theorem LogsOnly.trans {s t u : State} (h : LogsOnly s t) (k : LogsOnly t u) : LogsOnly s u := by
  unfold LogsOnly at *
  rw [k, h]

theorem logsOnly_foldl {α : Type} (l : List α) (f : State → α → State) (h : ∀ s a, LogsOnly s (f s a)) (s : State) : LogsOnly s (l.foldl f s) := by
  induction l generalizing s with
  | nil => exact .refl s
  | cons a l ih => exact (h s a).trans (ih _)

theorem State.modDie_logsOnly (s : State) (d : Fin 4) (f : Die → Die) : LogsOnly s (s.modDie d f) := .of_iod rfl

theorem State.count_logsOnly (s : State) (d : Fin 4) (a b n : Nat) : LogsOnly s (s.count d a b n) := s.modDie_logsOnly d _

theorem State.writeBack_logsOnly (s : State) (l : Line) : LogsOnly s (s.writeBack l) := by
  unfold State.writeBack
  split
  · exact .refl s
  · split
    · exact rfl
    · dsimp only
      split <;> split <;> exact .of_iod rfl

theorem State.growRoom_logsOnly (fuel : Nat) (s : State) (d : Fin 4) (a b n : Nat) : LogsOnly s (s.growRoom d a b n fuel) := by
  induction fuel generalizing s with
  | zero => exact .refl s
  | succ k ih =>
    unfold State.growRoom
    dsimp only
    split
    · exact .refl s
    · split
      · split
        · exact .refl s
        · refine LogsOnly.trans ?_ ((State.modDie_logsOnly _ _ _).trans ((State.count_logsOnly _ _ _ _ _).trans (ih _)))
          split
          · exact (s.writeBack_logsOnly _).trans (State.count_logsOnly _ _ _ _ _)
          · exact .refl s
      · exact .refl s

theorem State.rewrite_logsOnly (s : State) (d : Fin 4) (l : Line) (data : List Byte) (dirty : Bool) : LogsOnly s (s.rewrite d l data dirty) :=
  ((s.modDie_logsOnly d _).trans (State.growRoom_logsOnly _ _ _ _ _ _)).trans (State.modDie_logsOnly _ d _)

theorem State.copyWrite_logsOnly (s : State) (d : Fin 4) (g : Line) (line : Nat) (bytes : List (Nat × Byte)) :
    LogsOnly s (s.copyWrite d g line bytes) := by
  unfold State.copyWrite
  split
  · exact .refl s
  · exact s.rewrite_logsOnly _ _ _ _

theorem State.applyUpd_logsOnly (s : State) (d : Fin 4) (u : Upd) : LogsOnly s (s.applyUpd d u) := by
  unfold State.applyUpd
  extract_lets rest s1 s2
  have e : LogsOnly s s2 := (s.modDie_logsOnly d _).trans (logsOnly_foldl _ _ (fun s b => by split <;> exact s.modDie_logsOnly d _) _)
  split
  · exact e
  · split
    · split
      · exact e.trans (State.copyWrite_logsOnly _ _ _ _ _)
      · exact e
    · exact e

theorem State.forceUpds_logsOnly (s : State) (d : Fin 4) (ids : List Nat) : LogsOnly s (s.forceUpds d ids) :=
  logsOnly_foldl _ _ (fun s u => s.applyUpd_logsOnly d u) s

theorem State.settleFrom_logsOnly (s : State) (w : Nat) : LogsOnly s (s.settleFrom w) :=
  logsOnly_foldl _ _ (fun s d => s.forceUpds_logsOnly d _) s

theorem neededUpds_nil (us : List Upd) : neededUpds [] us [] = [] := by
  induction us with
  | nil => rfl
  | cons u us ih => simpa [neededUpds] using ih

@[simp] theorem State.forceUpds_nil (s : State) (d : Fin 4) : s.forceUpds d [] = s := by
  unfold State.forceUpds
  rw [neededUpds_nil]
  rfl

/-- With no write made since, none has to settle. -/
theorem State.settleFrom_widNext (s : State) : s.settleFrom s.widNext = s := by
  simp [State.settleFrom, allDies]

/-! ## How a capsule ends -/

/-- The end of a capsule with an error, 0 for none, and a result. -/
def capEnd (error res : Nat) : CapEnd := if error = 0 then .done res else .failed error res

/-- The end of a capsule writes its result and its status, takes it off the capsules in progress and sends its message. -/
theorem State.endCap_capEnd (s : State) (n : Nat) (b : List Byte) (error res : Nat) :
    s.endCap n b (capEnd error res) =
      let a := s.iod.capAddr n
      let status := if error = 0 then 1 else 2 + 256 * error
      { s with iod := { s.iod with
          inProg := s.iod.inProg.filter (fun c => c.1 != n),
          host := hostPut (hostPut s.iod.host (a + 0xC) (toLe 4 res)) (a + 8) (toLe 4 status),
          msix := s.iod.msix ++ if (fld b 2 2).testBit 1 then [0] else [] } } := by
  unfold State.endCap capEnd
  by_cases he : error = 0 <;> by_cases hm : (fld b 2 2).testBit 1 <;> simp [he, hm, State.hostWrite, State.modIod, State.msix]

/-- A capsule that is in progress alone ends from `w` with the result and the status that `Closes` names. -/
theorem closes_of_endCap {i : Fin 32} {b : List Byte} {s w : State} {y : Instr} {op error res : Nat} (hs : s.capsule i b op) (hw : SameRing s w)
    (h : exec y s = .next ((w.settleFrom s.widNext).endCap i b (capEnd error res))) : Closes i b s y w error res := by
  obtain ⟨-, hcap, -⟩ := hs
  have hlog := w.settleFrom_logsOnly s.widNext
  unfold Closes
  generalize w.settleFrom s.widNext = z at h hlog ⊢
  have hin : z.iod.inProg = w.iod.inProg := by rw [hlog]
  have hbase : z.iod.capBase = s.iod.capBase := by rw [hlog, ← hw.base]
  have hhost : z.iod.host = w.iod.host := by rw [hlog]
  have hmsix : z.iod.msix = w.iod.msix := by rw [hlog]
  rw [State.endCap_capEnd] at h
  refine ⟨_, h, ?_, ?_, ?_, ?_⟩
  · simp [hin, hw.inProg, hcap]
  · simp [hhost, Iod.capAddr, hbase]
  · simp [hmsix]
  · rw [← hin, ← hhost, ← hmsix]

/-! ## How a capsule starts -/

/-- No capsule starts where none is pending. -/
theorem State.startCaps_idle (s : State) (fuel : Nat) (h : s.iod.hifHead = s.iod.hifTail) : s.startCaps fuel = s := by
  cases fuel with
  | zero => rfl
  | succ fuel =>
    unfold State.startCaps
    simp [h]

section
variable {i : Fin 32} {b : List Byte} {s w : State} {op : Nat} {y : Instr} {ops : Nat → Bool} {fs : List (Nat × Nat)}
  {act : List Byte → State → Option (CapEnd × State)}

/-- A capsule whose opcode is unknown or whose arguments hold what they may not ends with error 1. -/
theorem closes_malformed (hy : ∀ x, exec y x = capsule ops fs i act x) (hs : s.capsule i b op) (ho : ops op = true)
    (hbad : isCapOp op = false ∨ argsOk b fs = false) : Closes i b s y s 1 0 := by
  apply closes_of_endCap hs (.refl s)
  obtain ⟨hidle, hcap, rfl⟩ := hs
  have hbad : (!isCapOp (fld b 0 2) || !argsOk b fs) = true := by simpa using hbad
  rw [hy, capsule, s.startCaps_idle 32 hidle, s.settleFrom_widNext]
  simp [hcap, ho, hbad, malformed, capEnd]

/-- A capsule that meets its checks ends as its action says. -/
theorem closes_of_act (hy : ∀ x, exec y x = capsule ops fs i act x) (hs : s.capsule i b op) (ho : ops op = true) (hop : isCapOp op = true)
    (ha : argsOk b fs = true) {error res : Nat} (hact : act b s = some (capEnd error res, w)) (hw : SameRing s w) : Closes i b s y w error res := by
  apply closes_of_endCap hs hw
  obtain ⟨hidle, hcap, rfl⟩ := hs
  rw [hy, capsule, s.startCaps_idle 32 hidle]
  simp [hcap, ho, hop, ha, hact]

/-- A capsule whose action must wait changes nothing. -/
theorem exec_of_act_none (hy : ∀ x, exec y x = capsule ops fs i act x) (hs : s.capsule i b op) (ho : ops op = true) (hop : isCapOp op = true)
    (ha : argsOk b fs = true) (hact : act b s = none) : exec y s = .next s := by
  obtain ⟨hidle, hcap, rfl⟩ := hs
  rw [hy, capsule, s.startCaps_idle 32 hidle]
  simp [hcap, ho, hop, ha, hact]

end

/-- The next capsule of the ring cannot be read: the ring stops (R407). -/
theorem capsule_unreadable {i : Fin 32} {s : State} (ops : Nat → Bool) (fs : List (Nat × Nat)) (act : List Byte → State → Option (CapEnd × State))
    (hin : s.iod.inProg = []) (hne : s.iod.hifHead ≠ s.iod.hifTail) (hstop : s.iod.hifStopped = false) (hready : s.iod.hifReady = true)
    (hr : s.hostRead (s.iod.capAddr s.iod.hifHead) 128 = none) :
    capsule ops fs i act s = .next (s.modIod fun x => { x with hifStopped := true }) := by
  have start : s.startCaps 32 = s.modIod fun x => { x with hifStopped := true } := by
    unfold State.startCaps
    simp [hin, hne, hstop, hready, hr]
  unfold capsule
  rw [start]
  simp [State.modIod, hin]

/-- The only pending capsule of the ring can be read: it is in progress (R407). -/
theorem State.startCaps_one {s : State} {b : List Byte} (hin : s.iod.inProg = []) (hne : s.iod.hifHead ≠ s.iod.hifTail)
    (hlast : (s.iod.hifHead + 1) % 32 = s.iod.hifTail) (hstop : s.iod.hifStopped = false) (hready : s.iod.hifReady = true)
    (hr : s.hostRead (s.iod.capAddr s.iod.hifHead) 128 = some b) :
    s.startCaps 32 = s.modIod fun x => { x with inProg := [(s.iod.hifHead, b)], hifHead := (s.iod.hifHead + 1) % 32 } := by
  rw [State.startCaps]
  simp only [hin, hne, hstop, hready, hr]
  rw [State.startCaps_idle _ _ hlast]
  simp [State.modIod, hin]

/-- Starting the only pending capsule is all that a step does before the capsule is in progress. -/
theorem capsule_starts {i : Fin 32} {s : State} {b : List Byte} (ops : Nat → Bool) (fs : List (Nat × Nat))
    (act : List Byte → State → Option (CapEnd × State)) (hin : s.iod.inProg = []) (hne : s.iod.hifHead ≠ s.iod.hifTail)
    (hlast : (s.iod.hifHead + 1) % 32 = s.iod.hifTail) (hstop : s.iod.hifStopped = false) (hready : s.iod.hifReady = true)
    (hr : s.hostRead (s.iod.capAddr s.iod.hifHead) 128 = some b) :
    capsule ops fs i act s
      = capsule ops fs i act (s.modIod fun x => { x with inProg := [(s.iod.hifHead, b)], hifHead := (s.iod.hifHead + 1) % 32 }) := by
  unfold capsule
  rw [State.startCaps_one hin hne hlast hstop hready hr, State.startCaps_idle _ _ hlast]

/-! ## Capsules of jobs (R408) -/

/-- The steps of capsules. -/
def capsuleSteps (i : Fin 32) : List Instr :=
  [.jobSet i, .jobFree i, .keyLoad i, .keyDestroy i, .linkKey i, .copy i, .vocabInstall i, .routineLoad i, .serviceSet i, .capsuleLaunch i,
    .imageResume i]

theorem exec_jobSet (i : Fin 32) (s : State) : exec (.jobSet i) s = execJobSet i s := rfl
theorem exec_jobFree (i : Fin 32) (s : State) : exec (.jobFree i) s = execJobFree i s := rfl
theorem exec_keyLoad (i : Fin 32) (s : State) : exec (.keyLoad i) s = execKeyLoad i s := rfl
theorem exec_keyDestroy (i : Fin 32) (s : State) : exec (.keyDestroy i) s = execKeyDestroy i s := rfl
theorem exec_linkKey (i : Fin 32) (s : State) : exec (.linkKey i) s = execLinkKey i s := rfl
theorem exec_copy (i : Fin 32) (s : State) : exec (.copy i) s = execCopy i s := rfl
theorem exec_vocabInstall (i : Fin 32) (s : State) : exec (.vocabInstall i) s = execVocabInstall i s := rfl
theorem exec_routineLoad (i : Fin 32) (s : State) : exec (.routineLoad i) s = execRoutineLoad i s := rfl
theorem exec_serviceSet (i : Fin 32) (s : State) : exec (.serviceSet i) s = execServiceSet i s := rfl
theorem exec_capsuleLaunch (i : Fin 32) (s : State) : exec (.capsuleLaunch i) s = execCapsuleLaunch i s := rfl
theorem exec_imageResume (i : Fin 32) (s : State) : exec (.imageResume i) s = execImageResume i s := rfl

theorem exec_capsuleSteps {i : Fin 32} {y : Instr} (hy : y ∈ capsuleSteps i) : ∃ ops fs act, ∀ x, exec y x = capsule ops fs i act x := by
  simp only [capsuleSteps, List.mem_cons, List.not_mem_nil, or_false] at hy
  rcases hy with rfl | rfl | rfl | rfl | rfl | rfl | rfl | rfl | rfl | rfl | rfl
  · exact ⟨_, _, _, exec_jobSet i⟩
  · exact ⟨_, _, _, exec_jobFree i⟩
  · exact ⟨_, _, _, exec_keyLoad i⟩
  · exact ⟨_, _, _, exec_keyDestroy i⟩
  · exact ⟨_, _, _, exec_linkKey i⟩
  · exact ⟨_, _, _, exec_copy i⟩
  · exact ⟨_, _, _, exec_vocabInstall i⟩
  · exact ⟨_, _, _, exec_routineLoad i⟩
  · exact ⟨_, _, _, exec_serviceSet i⟩
  · exact ⟨_, _, _, exec_capsuleLaunch i⟩
  · exact ⟨_, _, _, exec_imageResume i⟩

theorem State.clearDeficits_sameRing (s : State) (job : Nat) (t : Tab JobSlot) : SameRing s { s.clearDeficits job with jobs := t } := .of_iod rfl

theorem State.forgetJob_sameRing (s : State) (slot job : Nat) : SameRing s (s.forgetJob slot job) := .of_iod rfl

/-- A forgotten job has no graph and no phase. -/
theorem State.forgetJob_groups (s : State) (slot job : Nat) :
    ∀ g ∈ (s.forgetJob slot job).graphs ++ (s.forgetJob slot job).phases, g.job ≠ job := by
  intro g hg
  simp only [State.forgetJob, List.mem_append, List.mem_filter, bne_iff_ne] at hg
  rcases hg with ⟨-, h⟩ | ⟨-, h⟩ <;> exact h

/-- No ended node is of a forgotten job, but that 0 names none. -/
theorem State.forgetJob_ended (s : State) (slot job : Nat) : ∀ e ∈ (s.forgetJob slot job).endedNodes, e.job = job → job = 0 := by
  intro e he hj
  simp only [State.forgetJob, List.mem_map] at he
  obtain ⟨x, -, rfl⟩ := he
  split at hj
  · exact hj.symm
  · next h => exact absurd hj h

section
variable {i : Fin 32} {b : List Byte} {s w : State} {error res : Nat}

theorem closes_jobSet (hs : s.capsule i b 1) (ha : argsOk b [(0, 1), (8, 8)] = true) (hact : jobSetAct b s = some (capEnd error res, w))
    (hw : SameRing s w) : Closes i b s (.jobSet i) w error res := closes_of_act (exec_jobSet i) hs rfl rfl ha hact hw

/-- JOB_SET whose image cannot be read ends with error 5. -/
theorem jobSet_unreadable (hs : s.capsule i b 1) (ha : argsOk b [(0, 1), (8, 8)] = true) (hr : s.hostRead (capArg b 8 8) 128 = none) :
    Closes i b s (.jobSet i) s 5 0 :=
  closes_jobSet hs ha (by simp [jobSetAct, hr, capEnd]) (.refl s)

/-- JOB_SET whose image breaks R368 ends with error 1. -/
theorem jobSet_invalid (hs : s.capsule i b 1) (ha : argsOk b [(0, 1), (8, 8)] = true) {img : List Byte}
    (hr : s.hostRead (capArg b 8 8) 128 = some img) (hi : jobOf img = none) : Closes i b s (.jobSet i) s 1 0 :=
  closes_jobSet hs ha (by simp [jobSetAct, hr, hi, malformed, capEnd]) (.refl s)

end

/-- What JOB_SET does with a slot that holds a job. -/
theorem jobSet_of_held {i : Fin 32} {b : List Byte} {s : State} (hs : s.capsule i b 1) (ha : argsOk b [(0, 1), (8, 8)] = true) {img : List Byte}
    (hr : s.hostRead (capArg b 8 8) 128 = some img) {valid : Bool} {j : JobSlot} (hi : jobOf img = some (valid, j)) {o : JobSlot}
    (ho : s.jobs.find (capArg b 0 1) = some o) :
    (o.jobid ≠ j.jobid → Closes i b s (.jobSet i) s 2 0)
      ∧ (o.jobid = j.jobid → valid = false → Closes i b s (.jobSet i) (s.forgetJob (capArg b 0 1) j.jobid) 0 0)
      ∧ (o.jobid = j.jobid → valid = true →
          Closes i b s (.jobSet i) { s with jobs := s.jobs.put (capArg b 0 1) { j with cancelled := o.cancelled, count := o.count } } 0 0) := by
  refine ⟨fun hne => ?_, fun he hv => ?_, fun he hv => ?_⟩
  · exact closes_jobSet hs ha (by simp [jobSetAct, hr, hi, ho, hne, capEnd]) (.refl s)
  · exact closes_jobSet hs ha (by simp [jobSetAct, hr, hi, ho, he, hv, capEnd]) (s.forgetJob_sameRing _ _)
  · exact closes_jobSet hs ha (by simp [jobSetAct, hr, hi, ho, he, hv, capEnd]) (.of_iod rfl)

/-- What JOB_SET does with a slot that holds none. -/
theorem jobSet_of_free {i : Fin 32} {b : List Byte} {s : State} (hs : s.capsule i b 1) (ha : argsOk b [(0, 1), (8, 8)] = true) {img : List Byte}
    (hr : s.hostRead (capArg b 8 8) 128 = some img) {valid : Bool} {j : JobSlot} (hi : jobOf img = some (valid, j))
    (ho : s.jobs.find (capArg b 0 1) = none) :
    (valid = false → Closes i b s (.jobSet i) s 0 0)
      ∧ (valid = true → s.jobSlot j.jobid ≠ none → Closes i b s (.jobSet i) s 2 0)
      ∧ (valid = true → s.jobSlot j.jobid = none →
          Closes i b s (.jobSet i) { s.clearDeficits j.jobid with jobs := s.jobs.put (capArg b 0 1) j } 0 0) := by
  refine ⟨fun hv => ?_, fun hv hj => ?_, fun hv hj => ?_⟩
  · exact closes_jobSet hs ha (by simp [jobSetAct, hr, hi, ho, hv, capEnd]) (.refl s)
  · have hj := Option.isSome_iff_ne_none.mpr hj
    exact closes_jobSet hs ha (by simp [jobSetAct, hr, hi, ho, hv, hj, capEnd]) (.refl s)
  · exact closes_jobSet hs ha (by simp [jobSetAct, hr, hi, ho, hv, hj, capEnd]) (s.clearDeficits_sameRing _ _)

/-- JOB_FREE ends with error 2 for a slot that holds no job, with error 6 while the job has nodes, and else forgets the job. -/
theorem jobFree_closes {i : Fin 32} {b : List Byte} {s : State} (hs : s.capsule i b 2) (ha : argsOk b [(0, 1)] = true) :
    (s.jobs.find (capArg b 0 1) = none → Closes i b s (.jobFree i) s 2 0)
      ∧ ∀ j, s.jobs.find (capArg b 0 1) = some j → ((∃ n ∈ s.nodes, n.job = j.jobid) → Closes i b s (.jobFree i) s 6 0)
        ∧ ((∀ n ∈ s.nodes, n.job ≠ j.jobid) → Closes i b s (.jobFree i) (s.forgetJob (capArg b 0 1) j.jobid) 0 0) := by
  refine ⟨fun ho => ?_, fun j ho => ⟨fun hn => ?_, fun hn => ?_⟩⟩
  · exact closes_of_act (exec_jobFree i) hs rfl rfl ha (by simp [ho, capEnd]) (.refl s)
  · exact closes_of_act (exec_jobFree i) hs rfl rfl ha (by simp [ho, hn, capEnd]) (.refl s)
  · exact closes_of_act (exec_jobFree i) hs rfl rfl ha (by simpa [ho, capEnd] using hn) (s.forgetJob_sameRing _ _)

/-! ## Capsules of services (R413) -/

/-- SERVICE_SET ends with error 1 for an id or an entry that breaks R413, with error 2 for a job that has no slot, and else sets the entry. -/
theorem serviceSet_closes {i : Fin 32} {b : List Byte} {s : State} (hs : s.capsule i b 9) (ha : argsOk b [(0, 4), (0x10, 64)] = true) :
    let e := capBytes b 0x10 64
    (256 ≤ capArg b 0 4 → Closes i b s (.serviceSet i) s 1 0)
      ∧ (capArg b 0 4 < 256 → (svcOk e = false → Closes i b s (.serviceSet i) s 1 0)
        ∧ (svcOk e = true → (s.jobSlot (fld e 4 4) = none → Closes i b s (.serviceSet i) s 2 0)
          ∧ (s.jobSlot (fld e 4 4) ≠ none →
              Closes i b s (.serviceSet i) (s.modIod fun y => { y with svc := y.svc.put (capArg b 0 4) e }) 0 0))) := by
  intro e
  refine ⟨fun hid => ?_, fun hid => ?_⟩
  · exact closes_of_act (exec_serviceSet i) hs rfl rfl ha (by simp [hid, malformed, capEnd]) (.refl s)
  have hid := Nat.not_le.mpr hid
  refine ⟨fun he => ?_, fun he => ⟨fun hj => ?_, fun hj => ?_⟩⟩
  · exact closes_of_act (exec_serviceSet i) hs rfl rfl ha (by simp [hid, e, he, malformed, capEnd]) (.refl s)
  · exact closes_of_act (exec_serviceSet i) hs rfl rfl ha (by simp [hid, e, he, hj, capEnd]) (.refl s)
  · exact closes_of_act (exec_serviceSet i) hs rfl rfl ha (by simp [hid, e, he, hj, capEnd]) (sameRing_modIod _ _ rfl rfl)

/-! ## Work from the host (R387, R408) -/

/-- CAPSULE_LAUNCH ends with error 2 for a slot that holds no job. -/
theorem capsuleLaunch_no_job {i : Fin 32} {b : List Byte} {s : State} (hs : s.capsule i b 10) (ha : argsOk b [(0, 1), (8, 8)] = true)
    (hj : s.jobs.find (capArg b 0 1) = none) : Closes i b s (.capsuleLaunch i) s 2 0 :=
  closes_of_act (exec_capsuleLaunch i) hs rfl rfl ha (by simp [hj, capEnd]) (.refl s)

/-- CAPSULE_LAUNCH of a job ends as the submission of its record does, and waits where that waits. -/
theorem capsuleLaunch_submits {i : Fin 32} {b : List Byte} {s : State} (hs : s.capsule i b 10) (ha : argsOk b [(0, 1), (8, 8)] = true)
    {j : JobSlot} (hj : s.jobs.find (capArg b 0 1) = some j) {c : Nat} (hc : s.hostAgent = some c) :
    let r := submitLaunch c (j.space true) j.jobid false [] 12 (BitVec.ofNat 64 (capArg b 8 8)) s
    (∀ t, r = .error t → Closes i b s (.capsuleLaunch i) s 7 t.cause) ∧ (∀ w, r = .ok (none, w) → exec (.capsuleLaunch i) s = .next s)
      ∧ ∀ id w, r = .ok (some id, w) → Closes i b s (.capsuleLaunch i) w 0 id := by
  intro r
  refine ⟨fun t hr => ?_, fun w hr => ?_, fun id w hr => ?_⟩ <;> dsimp only [r] at hr
  · exact closes_of_act (exec_capsuleLaunch i) hs rfl rfl ha (by simp [hj, hc, hr, raised, capEnd]) (.refl s)
  · exact exec_of_act_none (exec_capsuleLaunch i) hs rfl rfl ha (by simp [hj, hc, hr])
  · exact closes_of_act (exec_capsuleLaunch i) hs rfl rfl ha (by simp [hj, hc, hr, capEnd])
      (keepsRing_submitLaunch s _ _ _ _ _ _ _ _ _ _ (.refl s) hr)

theorem State.node_of_alone {s : State} {n : Node} (h : s.alone n) : s.node n.id = some n := by
  obtain ⟨hmem, hone⟩ := h
  obtain ⟨m, hm⟩ : ∃ m, s.node n.id = some m := by
    rw [← Option.isSome_iff_exists, State.node, List.find?_isSome]
    exact ⟨n, hmem, by simp⟩
  rw [hm, hone m (List.mem_of_find?_eq_some hm) (by simpa using List.find?_some hm)]

theorem Access.nodes {s t : State} (h : Access s t) : t.nodes = s.nodes := by rw [h.top]

/-- An image that meets its checks names a launch of the table. -/
theorem State.imageOk_launch {s : State} {h : List Byte} {n : Node} (hi : s.imageOk h = true) (hn : s.node (fld h 0x10 4) = some n) :
    ∃ l, n.kind = .launch l := by
  have hl : n.launch?.isSome := by
    simp only [State.imageOk, hn, Bool.and_eq_true] at hi
    exact hi.2.1
  unfold Node.launch? at hl
  split at hl
  · next l hk => exact ⟨l, hk⟩
  · cases hl

/-- The iteration that an image with header `h` at `a` becomes on the die of agent `c`. -/
def State.imageIter (s : State) (c : Nat) (h : List Byte) (a : Word) : Iter :=
  ⟨fld h 8 8 + 2 ^ 48 * (1 + s.orderNext), ⟨0, 0, 0, 0⟩, (dieOf (c % 256)).val, .yielded, none, none, some a, none⟩

/-- Node `n` of launch `l` has an iteration more, and its job stands in the list of the die of agent `c`. -/
def State.withImage (s : State) (c : Nat) (n : Node) (l : Launch) (it : Iter) : State :=
  { s.modNode n.id (fun m => { m with iters := m.iters ++ [it] }) with orderNext := s.orderNext + 1 }.joinList (dieOf (c % 256)) l.prio n.job

theorem State.withImage_sameRing (s : State) (c : Nat) (n : Node) (l : Launch) (it : Iter) : SameRing s (s.withImage c n l it) := .of_iod rfl

theorem State.withImage_nodes (s : State) (c : Nat) (n : Node) (l : Launch) (it : Iter) :
    (s.withImage c n l it).nodes = s.nodes.map fun m => if m.id = n.id then { m with iters := m.iters ++ [it] } else m := by
  simp [State.withImage, State.joinList, State.modNode]

section
variable {i : Fin 32} {b : List Byte} {s : State} {j : JobSlot} {c : Nat}

theorem closes_imageResume {w : State} {error res : Nat} (hs : s.capsule i b 11) (ha : argsOk b [(0, 1), (8, 8)] = true)
    (hact : resumeAct b s = some (capEnd error res, w)) (hw : SameRing s w) : Closes i b s (.imageResume i) w error res :=
  closes_of_act (exec_imageResume i) hs rfl rfl ha hact hw

/-- IMAGE_RESUME ends with error 2 for a slot that holds no job. -/
theorem imageResume_no_job (hs : s.capsule i b 11) (ha : argsOk b [(0, 1), (8, 8)] = true) (hj : s.jobs.find (capArg b 0 1) = none) :
    Closes i b s (.imageResume i) s 2 0 :=
  closes_imageResume hs ha (by simp [resumeAct, hj, capEnd]) (.refl s)

/-- IMAGE_RESUME ends with error 7 and the cause where the image cannot be read. -/
theorem imageResume_unreadable (hs : s.capsule i b 11) (ha : argsOk b [(0, 1), (8, 8)] = true) (hj : s.jobs.find (capArg b 0 1) = some j)
    (hc : s.hostAgent = some c) {t : Trap} (hr : s.vget c (j.space true) (BitVec.ofNat 64 (capArg b 8 8)) 256 = .error t) :
    Closes i b s (.imageResume i) s 7 t.cause :=
  closes_imageResume hs ha (by simp [resumeAct, hj, hc, hr, raised, capEnd]) (.refl s)

/-- IMAGE_RESUME ends with error 7 and cause launch_record_invalid where the image fails its checks or is another job's. -/
theorem imageResume_invalid (hs : s.capsule i b 11) (ha : argsOk b [(0, 1), (8, 8)] = true) (hj : s.jobs.find (capArg b 0 1) = some j)
    (hc : s.hostAgent = some c) {h : List Byte} {w : State}
    (hr : s.vget c (j.space true) (BitVec.ofNat 64 (capArg b 8 8)) 256 = .ok (h, w))
    (hbad : w.imageOk h = false ∨ fld h 0x14 4 ≠ j.jobid) : Closes i b s (.imageResume i) w 7 0xA2 := by
  refine closes_imageResume hs ha ?_ (s.vget_access _ _ _ _ _ _ hr).sameRing
  have hbad : (!w.imageOk h || fld h 0x14 4 != j.jobid) = true := by simpa using hbad
  unfold resumeAct
  simp only [hj, hc, hr]
  split
  · rfl
  · split
    · rfl
    · simp [hbad, badImage, Cause.launchRecordInvalid, capEnd]

/-- IMAGE_RESUME of a good image gives its launch a yielded iteration with that image. -/
theorem imageResume_resumes (hs : s.capsule i b 11) (ha : argsOk b [(0, 1), (8, 8)] = true) (hj : s.jobs.find (capArg b 0 1) = some j)
    (hc : s.hostAgent = some c) {h : List Byte} {w : State}
    (hr : s.vget c (j.space true) (BitVec.ofNat 64 (capArg b 8 8)) 256 = .ok (h, w)) (hi : w.imageOk h = true) (hjob : fld h 0x14 4 = j.jobid)
    (hco : (fld h 0x9B 1).testBit 0 = false) {n : Node} (hn : s.alone n) (hid : n.id = fld h 0x10 4) (hlive : n.cancelled = false) :
    ∃ x it, Closes i b s (.imageResume i) x 0 0
      ∧ x.nodes = s.nodes.map (fun m => if m.id = n.id then { m with iters := m.iters ++ [it] } else m)
      ∧ it.st = .yielded ∧ it.img = some (BitVec.ofNat 64 (capArg b 8 8)) := by
  have hacc := s.vget_access _ _ _ _ _ _ hr
  have hnode : w.node (fld h 0x10 4) = some n := by
    rw [← hid, State.node, hacc.nodes]
    exact State.node_of_alone hn
  obtain ⟨l, hk⟩ := State.imageOk_launch hi hnode
  refine ⟨w.withImage c n l (w.imageIter c h (BitVec.ofNat 64 (capArg b 8 8))), w.imageIter c h (BitVec.ofNat 64 (capArg b 8 8)),
    closes_imageResume hs ha ?_ (hacc.sameRing.trans (w.withImage_sameRing _ _ _ _)), ?_, rfl, rfl⟩
  · simp [resumeAct, hj, hc, hr, hnode, hk, hi, hjob, hlive, hco, capEnd, State.withImage, State.imageIter]
  · rw [State.withImage_nodes, hacc.nodes]

end

/-- Settles O54, capsule by capsule: a capsule alone in progress ends as its action does, and no action touches the ring. The order of the
argument checks and of their errors is the model's (log 80). -/
theorem capsulesOfJobs : Obligations.CapsulesOfJobs := by
  unfold Obligations.CapsulesOfJobs
  intro s i b
  refine ⟨?start, ?unknown, ?jobSet, ?jobFree, ?service, ?launch, ?image⟩
  case start =>
    intro y hy hin hhead htail hstop hready
    obtain ⟨ops, fs, act, hexec⟩ := exec_capsuleSteps hy
    have hlast : (s.iod.hifHead + 1) % 32 = s.iod.hifTail := by rw [hhead, htail]
    have hne : s.iod.hifHead ≠ s.iod.hifTail := by omega
    rw [← hhead]
    refine ⟨fun hr => ?_, fun hr => ?_⟩
    · rw [hexec]
      exact capsule_unreadable ops fs act hin hne hstop hready hr
    · rw [hexec, hexec]
      exact capsule_starts ops fs act hin hne hlast hstop hready hr
  case unknown =>
    intro op hs hop
    have hno : isCapOp op = false := by
      simp only [isCapOp, decide_eq_false_iff_not]
      omega
    exact closes_malformed (exec_jobSet i) hs (by simp [hno]) (.inl hno)
  case jobSet =>
    intro hs
    refine ⟨fun ha => closes_malformed (exec_jobSet i) hs rfl (.inr ha), fun ha => ⟨jobSet_unreadable hs ha, fun img hr => ?_⟩⟩
    exact ⟨jobSet_invalid hs ha hr, fun valid j hi => ⟨fun o ho => jobSet_of_held hs ha hr hi ho, jobSet_of_free hs ha hr hi⟩⟩
  case jobFree =>
    intro hs ha
    obtain ⟨hno, hyes⟩ := jobFree_closes hs ha
    refine ⟨hno, fun j hj => ?_⟩
    obtain ⟨hbusy, hfree⟩ := hyes j hj
    exact ⟨hbusy, fun hn => ⟨hfree hn, s.forgetJob_groups _ _, s.forgetJob_ended _ _⟩⟩
  case service => exact fun hs ha => serviceSet_closes hs ha
  case launch => exact fun hs ha => ⟨capsuleLaunch_no_job hs ha, fun j c hj hc => capsuleLaunch_submits hs ha hj hc⟩
  case image =>
    intro hs ha
    refine ⟨imageResume_no_job hs ha, fun j c hj hc => ⟨fun t hr => imageResume_unreadable hs ha hj hc hr, fun h w hr => ?_⟩⟩
    refine ⟨imageResume_invalid hs ha hj hc hr, fun hi hjob hco n hn hid hlive => ?_⟩
    exact imageResume_resumes hs ha hj hc hr hi hjob hco hn hid hlive

end Sys2Proof.Machine
end
